-- ==== Sys2Proof/Word.lean ====
section
/-! DEFINITION. The words of the hub: a byte of a frame, a value of the gallery clock, an alert number. -/

namespace Sys2Proof

/-- One byte of a port frame (R197). -/
abbrev Byte := BitVec 8

/-- A value of the gallery clock, a count of milliseconds that wraps at 2^32 (R1). -/
abbrev Clock := BitVec 32

/-- The milliseconds elapsed from `earlier` to `later`, counted across the wrap (R1). -/
def elapsed (earlier later : Clock) : Nat := (later - earlier).toNat

end Sys2Proof
end

