-- ==== Sys2Proof/Syntax.lean ====
section
/-! DEFINITION. The commands of the hub: one constructor for each row of spec/opcode_table.json. -/

namespace Sys2Proof

/-- The three ports (R195, R196). -/
inductive Port where
  | showPort
  | deskPort
  | servicePort
deriving DecidableEq, Repr

/-- The two masters that have an SPI port, a link and an attention line (R144, R195, R202). -/
inductive Master where
  | showMaster
  | deskMaster
deriving DecidableEq, Repr

/-- The SPI port of a master. -/
def Master.port : Master → Port
  | .showMaster => .showPort
  | .deskMaster => .deskPort

/-- The level of an input (R24, R25). -/
inductive Level where
  | low
  | high
deriving DecidableEq, Repr

/-- Exhibits 0-15. -/
abbrev ExhibitId := Fin 16
/-- Button lines 0-63. -/
abbrev LineId := Fin 64
/-- Axes 0-11. -/
abbrev AxisId := Fin 12
/-- Channels 0-31. -/
abbrev ChannelId := Fin 32
/-- Cue frames 0-47. -/
abbrev FrameId := Fin 48
/-- Note slots 0-7. -/
abbrev SlotId := Fin 8
/-- Tone patterns 0-3. -/
abbrev PatternId := Fin 4
/-- Step indexes 0-5. -/
abbrev StepId := Fin 6

/-- The commands and events of the hub. A command frame carries the port it arrives at, its tag and
its payload bytes; its code, length and check byte are those R197 and R199 give it. -/
inductive Instr where
  /-- The command frame HEARTBEAT (R145). -/
  | heartbeat (port : Port) (tag : Byte) (payload : List Byte)
  /-- The command frame EVENT-READ (R51). -/
  | eventRead (port : Port) (tag : Byte) (payload : List Byte)
  /-- The command frame ATTENTION-READ (R202). -/
  | attentionRead (port : Port) (tag : Byte) (payload : List Byte)
  /-- The command frame ATTENTION-MASK (R202). -/
  | attentionMask (port : Port) (tag : Byte) (payload : List Byte)
  /-- The command frame NOTE-WRITE (R204). -/
  | noteWrite (port : Port) (tag : Byte) (payload : List Byte)
  /-- The command frame NOTE-READ (R205). -/
  | noteRead (port : Port) (tag : Byte) (payload : List Byte)
  /-- The command frame GALLERY-OPEN (R3). -/
  | galleryOpen (port : Port) (tag : Byte) (payload : List Byte)
  /-- The command frame GALLERY-QUIET (R4). -/
  | galleryQuiet (port : Port) (tag : Byte) (payload : List Byte)
  /-- The command frame GALLERY-CLOSE (R6). -/
  | galleryClose (port : Port) (tag : Byte) (payload : List Byte)
  /-- The command frame RESTART (R7). -/
  | restart (port : Port) (tag : Byte) (payload : List Byte)
  /-- The command frame EXHIBIT-OPEN (R11). -/
  | exhibitOpen (port : Port) (tag : Byte) (payload : List Byte)
  /-- The command frame EXHIBIT-CLOSE (R17). -/
  | exhibitClose (port : Port) (tag : Byte) (payload : List Byte)
  /-- The command frame EXHIBIT-HOLD (R19). -/
  | exhibitHold (port : Port) (tag : Byte) (payload : List Byte)
  /-- The command frame EXHIBIT-RELEASE (R19). -/
  | exhibitRelease (port : Port) (tag : Byte) (payload : List Byte)
  /-- The command frame FAULT-CLEAR (R15). -/
  | faultClear (port : Port) (tag : Byte) (payload : List Byte)
  /-- The command frame EXHIBIT-STATUS (R23). -/
  | exhibitStatus (port : Port) (tag : Byte) (payload : List Byte)
  /-- The command frame LINE-ENABLE (R40). -/
  | lineEnable (port : Port) (tag : Byte) (payload : List Byte)
  /-- The command frame LINE-DISABLE (R39). -/
  | lineDisable (port : Port) (tag : Byte) (payload : List Byte)
  /-- The command frame LINE-STATUS (R41). -/
  | lineStatus (port : Port) (tag : Byte) (payload : List Byte)
  /-- The command frame SCAN-LIST (R72). -/
  | scanList (port : Port) (tag : Byte) (payload : List Byte)
  /-- The command frame SCAN-ONCE (R73). -/
  | scanOnce (port : Port) (tag : Byte) (payload : List Byte)
  /-- The command frame SCAN-LIMITS (R74). -/
  | scanLimits (port : Port) (tag : Byte) (payload : List Byte)
  /-- The command frame SENSE-READ (R75). -/
  | senseRead (port : Port) (tag : Byte) (payload : List Byte)
  /-- The command frame JOG (R100). -/
  | jog (port : Port) (tag : Byte) (payload : List Byte)
  /-- The command frame AXIS-STATUS (R102). -/
  | axisStatus (port : Port) (tag : Byte) (payload : List Byte)
  /-- The command frame BUDGET-STATUS (R116). -/
  | budgetStatus (port : Port) (tag : Byte) (payload : List Byte)
  /-- The command frame FRAME-TAKE (R122). -/
  | frameTake (port : Port) (tag : Byte) (payload : List Byte)
  /-- The command frame FRAME-WRITE (R123). -/
  | frameWrite (port : Port) (tag : Byte) (payload : List Byte)
  /-- The command frame FRAME-DROP (R124). -/
  | frameDrop (port : Port) (tag : Byte) (payload : List Byte)
  /-- The command frame CUE-POST (R125). -/
  | cuePost (port : Port) (tag : Byte) (payload : List Byte)
  /-- The command frame CUE-CANCEL (R138). -/
  | cueCancel (port : Port) (tag : Byte) (payload : List Byte)
  /-- The command frame CUE-FLUSH (R139). -/
  | cueFlush (port : Port) (tag : Byte) (payload : List Byte)
  /-- The command frame CUE-RESULT (R140). -/
  | cueResult (port : Port) (tag : Byte) (payload : List Byte)
  /-- The command frame CUE-STATUS (R141). -/
  | cueStatus (port : Port) (tag : Byte) (payload : List Byte)
  /-- The command frame SERVICE-PERMIT (R153). -/
  | servicePermit (port : Port) (tag : Byte) (payload : List Byte)
  /-- The command frame SERVICE-REVOKE (R155). -/
  | serviceRevoke (port : Port) (tag : Byte) (payload : List Byte)
  /-- The command frame EXHIBIT-TAKE (R154). -/
  | exhibitTake (port : Port) (tag : Byte) (payload : List Byte)
  /-- The command frame EXHIBIT-GIVE (R155). -/
  | exhibitGive (port : Port) (tag : Byte) (payload : List Byte)
  /-- The command frame LINK-STATUS (R158). -/
  | linkStatus (port : Port) (tag : Byte) (payload : List Byte)
  /-- The command frame ALERT-ACK (R174). -/
  | alertAck (port : Port) (tag : Byte) (payload : List Byte)
  /-- The command frame ALERT-CLEAR (R176). -/
  | alertClear (port : Port) (tag : Byte) (payload : List Byte)
  /-- The command frame ALERT-RAISE (R177). -/
  | alertRaise (port : Port) (tag : Byte) (payload : List Byte)
  /-- The command frame ALERT-LIST (R178). -/
  | alertList (port : Port) (tag : Byte) (payload : List Byte)
  /-- The command frame CHIME (R186). -/
  | chime (port : Port) (tag : Byte) (payload : List Byte)
  /-- The command frame SILENCE (R188). -/
  | silence (port : Port) (tag : Byte) (payload : List Byte)
  /-- The command frame LAMP-TEST (R193). -/
  | lampTest (port : Port) (tag : Byte) (payload : List Byte)
  /-- The command frame CONFIG-EXHIBIT (R206). -/
  | configExhibit (port : Port) (tag : Byte) (payload : List Byte)
  /-- The command frame CONFIG-LINE (R206). -/
  | configLine (port : Port) (tag : Byte) (payload : List Byte)
  /-- The command frame CONFIG-AXIS (R206). -/
  | configAxis (port : Port) (tag : Byte) (payload : List Byte)
  /-- The command frame CONFIG-CHANNEL (R206). -/
  | configChannel (port : Port) (tag : Byte) (payload : List Byte)
  /-- The command frame CONFIG-SCAN (R206). -/
  | configScan (port : Port) (tag : Byte) (payload : List Byte)
  /-- The command frame CONFIG-TIMING (R206). -/
  | configTiming (port : Port) (tag : Byte) (payload : List Byte)
  /-- The command frame CONFIG-TONE (R206). -/
  | configTone (port : Port) (tag : Byte) (payload : List Byte)
  /-- The command frame CONFIG-COMMIT (R208). -/
  | configCommit (port : Port) (tag : Byte) (payload : List Byte)
  /-- The command frame RECONFIGURE (R209). -/
  | reconfigure (port : Port) (tag : Byte) (payload : List Byte)
  /-- A command frame whose code names no command arrives at a port (R199). -/
  | unknownCommand (port : Port) (code tag : Byte) (payload : List Byte)
  /-- Bytes that fail the length or check-byte test arrive as one frame (R198). -/
  | frameCheckFailure (port : Port) (bytes : List Byte)
  /-- An SPI transaction of `clocked` whole bytes whose first byte is FFH (R195). -/
  | collectTransaction (master : Master) (clocked : Nat)
  /-- The fourth byte of a UART frame arrives and makes its length exceed 200 (R196). -/
  | uartLengthFieldTooLarge (byte : Byte)
  /-- A UART frame in progress that receives no byte for 10 ms is discarded and answered BAD_LENGTH (R196). -/
  | uartGapTimeout
  /-- A byte with a missing stop bit discards the frame in progress, answers BAD_LENGTH, and starts discarding (R196). -/
  | uartStopBitFault
  /-- 10 ms without a byte ends the receiver's discarding and returns it to idle (R196). -/
  | uartDiscardEnd
  /-- The last byte of a response is sent; a waiting response is sent next or a waiting frame is taken (R196). -/
  | uartResponseSent
  /-- RESET low, power-on or a low supply holds the part in full reset with outputs safe and the clock at 0 (R210). -/
  | fullReset
  /-- RESET rises: every block holds its full-reset values, the gallery is SETUP and counting starts (R210). -/
  | resetRelease
  /-- One sample of a line finds its input at a level (R25). -/
  | lineSample (line : LineId) (level : Level)
  /-- The inactive sample that completes the run of a WAIT_RELEASE line (R29). -/
  | waitReleaseCleared (line : LineId)
  /-- The active sample that completes the run of a PRESS_PENDING line (R30). -/
  | pressTaken (line : LineId)
  /-- The inactive sample that completes the run of a RELEASE_PENDING line (R34). -/
  | releaseTaken (line : LineId)
  /-- The sample at which the stuck timer reaches the stuck time (R37). -/
  | lineStuck (line : LineId) (level : Level)
  /-- The inactive sample that completes the run of a STUCK line (R38). -/
  | stuckRelease (line : LineId)
  /-- The conversion in flight completes with a result (R57, R58). -/
  | conversionComplete (result : BitVec 12)
  /-- The converter's 1 ms warm-up ends and the scanner acts by its regime and day mode (R65). -/
  | warmUpExpiry
  /-- In day mode PACED the pace timer expires, starting a pass or appending SCAN_OVERRUN (R67). -/
  | paceTimerExpiry
  /-- The closed pace timer expires and a DOZING scanner warms up for a closed pass (R69). -/
  | closedPaceExpiry
  /-- An axis's acceleration period ends: its units return, it becomes MOVING and the arbiter evaluates (R108). -/
  | accelerationTimerExpiry (axis : AxisId)
  /-- The age of a driving axis's latest position sample exceeds its feedback timeout and it faults NO_FEEDBACK (R86). -/
  | feedbackTimeout (axis : AxisId)
  /-- A driving axis's travel timer expires and it faults MOVE_TIMEOUT (R87). -/
  | travelTimerExpiry (axis : AxisId)
  /-- A SETTLING axis is judged: it arrives with AXIS_ARRIVED or makes a correction (R89). -/
  | settleTimerExpiry (axis : AxisId)
  /-- The guard release timer expires, removing GUARD and cancelling the guard-long timer (R21). -/
  | guardReleaseExpiry (exhibit : ExhibitId)
  /-- The guard-long timer expires and GUARD_LONG is triggered (R22). -/
  | guardLongExpiry (exhibit : ExhibitId)
  /-- A DWELLING MOVE step's timer expires and the step becomes DONE (R129). -/
  | dwellExpiry (exhibit : ExhibitId) (step : StepId)
  /-- A PAUSE step's timer expires and the step becomes DONE (R130). -/
  | pauseExpiry (exhibit : ExhibitId) (step : StepId)
  /-- A WAIT_PRESS step's timeout expires and its frame is retired PRESS_TIMEOUT (R131). -/
  | pressTimeout (exhibit : ExhibitId) (step : StepId)
  /-- A link's heartbeat timer expires and the link lapses (R146). -/
  | heartbeatTimerExpiry (link : Master)
  /-- The service idle timer expires and every present tenure ends (R156). -/
  | serviceIdleExpiry
  /-- The sag hold timer expires and SUPPLY is added to every exhibit not CLOSED (R112). -/
  | sagHoldExpiry
  /-- An OPEN record's elapsed time reaches the next escalation level, with ALERT_CHANGED (R173). -/
  | alertLevelReached (number : BitVec 16)
  /-- The off time of a note ends; the next note starts or a chime completes and the arbiter becomes SILENT (R187). -/
  | toneNoteEnd
  /-- The silence timer expires, silence ends and alert demand is re-evaluated (R189). -/
  | silenceTimerExpiry
  /-- The lamp-test timer expires and every beacon returns to its own pattern (R193). -/
  | lampTestExpiry
  /-- A byte arrives at the service port receiver: it starts a frame when idle, is counted into the frame in progress, restarts the quiet wait while discarding, or, arriving while a frame waits, is discarded and sends the receiver into discarding (R196). -/
  | uartByteReceived (byte : Byte)
  /-- Every millisecond the gallery clock count increases by one, wrapping from 4294967295 to 0, and the flash counter increases by one, wrapping from 999 to 0, with the beacons following the counter (R1). -/
  | galleryClockTick
deriving DecidableEq, Repr

end Sys2Proof
end

