-- ==== Sys2Proof/Machine/State.lean ====
section
/-! DEFINITION. The state of the hub: every record, list, queue, timer and output pin the spec names,
as plain data, and the state after reset. -/

namespace Sys2Proof.Machine

/-- No command of the hub stops it with a fault: a refused frame is answered with a status (R199) and
an event that its block has no use for leaves the state as it is (log 3). So there is no constructor. -/
inductive Fault
deriving DecidableEq, Repr

/-- The reasons for which the model gives no meaning. -/
inductive Refusal where
  /-- The command has no meaning in the model yet; raised by an arm of exec only (none at present). Safe. -/
  | notModelled (mnemonic : String)
deriving DecidableEq, Repr

/-! ## Exhibits and the gallery (file 01) -/

/-- The gallery mode (R2). -/
inductive GalleryMode where
  | setup
  | closed
  | opened
  | quiet
deriving DecidableEq, Repr

/-- The state of an exhibit (R8). -/
inductive ExhibitState where
  | closed
  | ready
  | running
  | held
  | faulted
  | service
deriving DecidableEq, Repr

/-- The four hold reasons (R8, section 1.5). -/
inductive HoldReason where
  | guard
  | attendant
  | lapse
  | supply
deriving DecidableEq, Repr

/-- A hold-reason set: which reasons are claimed (R8). -/
structure HoldSet where
  guard     : Bool := false
  attendant : Bool := false
  lapse     : Bool := false
  supply    : Bool := false
deriving DecidableEq, Repr

/-- The busy policy of an exhibit (R8, R33). -/
inductive BusyPolicy where
  | deliver
  | swallowWhileRunning
deriving DecidableEq, Repr

/-- One exhibit record (R8). Timers hold their remaining milliseconds. -/
structure Exhibit where
  state           : ExhibitState := .closed
  holds           : HoldSet := {}
  active          : Option FrameId := none
  queue           : List FrameId := []
  axes            : List AxisId := []
  presence        : Option ChannelId := none
  busyPolicy      : BusyPolicy := .deliver
  openWithGallery : Bool := false
  permit          : Bool := false
  guardRelease    : Option Nat := none
  guardLong       : Option Nat := none
  lastChange      : Clock := 0
deriving DecidableEq, Repr

/-! ## Visitor buttons (file 02) -/

/-- The role of a line (R24). -/
inductive LineRole where
  | action
  | help
deriving DecidableEq, Repr

/-- The state of a line (R24, section 2.3). -/
inductive LineState where
  | inert
  | waitRelease
  | released
  | pressPending
  | pressed
  | releasePending
  | stuck
deriving DecidableEq, Repr

/-- The queue that received a line's accepted press (R24). -/
inductive PressDestination where
  | showQueue
  | serviceQueue
deriving DecidableEq, Repr

/-- One line record (R24). `input` is the level of the line's input at its latest sample; the stuck
timer holds its elapsed milliseconds. -/
structure Line where
  exhibit       : Option ExhibitId := none
  role          : Option LineRole := none
  activeLevel   : Level := .low
  debounce      : Nat := 20
  repeatGuard   : Nat := 300
  stuckTime     : Nat := 30
  enabled       : Bool := true
  input         : Level := .high
  latest        : Bool := false
  state         : LineState := .inert
  accepted      : Bool := false
  destination   : Option PressDestination := none
  lastAccepted  : Option Clock := none
  debounceTimer : Nat := 0
  stuckTimer    : Option Nat := none
deriving DecidableEq, Repr

/-! ## Event queues (file 03) -/

/-- The seventeen kinds of event (R46). -/
inductive EventKind where
  | buttonPress
  | buttonRelease
  | axisArrived
  | axisHeld
  | axisResumed
  | axisFault
  | cueStarted
  | cueRetired
  | senseChange
  | scanOverrun
  | exhibitState
  | galleryMode
  | linkState
  | alertRaised
  | alertChanged
  | alertRemoved
  | chimeCut
deriving DecidableEq, Repr

/-- One event record (R43). -/
structure Event where
  seq     : BitVec 32 := 0
  time    : Clock := 0
  kind    : EventKind
  exhibit : Option ExhibitId := none
  subject : Option (BitVec 8) := none
  value   : Option (BitVec 16) := none
  step    : Option StepId := none
  gap     : Bool := false
deriving DecidableEq, Repr

/-- One event queue, oldest event first (R42). -/
structure EventQueue where
  events  : List Event := []
  nextSeq : BitVec 32 := 1
  gap     : Bool := false
deriving DecidableEq, Repr

/-- The names of the three queues (R42). -/
inductive QueueName where
  | showQ
  | deskQ
  | serviceQ
deriving DecidableEq, Repr

/-! ## Sensing (file 04) -/

/-- The role of a channel (R55). -/
inductive ChannelRole where
  | none
  | position
  | current
  | presence
  | supply
  | general
deriving DecidableEq, Repr

/-- What a channel is bound to (R55). -/
inductive Binding where
  | axis (a : AxisId)
  | exhibit (e : ExhibitId)
deriving DecidableEq, Repr

/-- The window state of a channel (R55). -/
inductive Window where
  | unknown
  | below
  | inside
  | above
deriving DecidableEq, Repr

/-- The zone of one result (R59). -/
inductive Zone where
  | below
  | inside
  | above
deriving DecidableEq, Repr

/-- A latest value with its sample time (R55). -/
structure Sample where
  value : Nat
  time  : Clock
deriving DecidableEq, Repr

/-- One channel record (R55). -/
structure Channel where
  role        : ChannelRole := .none
  binding     : Option Binding := none
  lower       : Nat := 0
  upper       : Nat := 4095
  filterCount : Nat := 2
  latest      : Option Sample := none
  window      : Window := .unknown
  candidate   : Option Zone := none
  agreement   : Nat := 0
deriving DecidableEq, Repr

/-- The day mode (R64). -/
inductive DayMode where
  | continuous
  | paced
  | single
deriving DecidableEq, Repr

/-- The scanner's regime (R64, R70). -/
inductive Regime where
  | off
  | day
  | closedScan
deriving DecidableEq, Repr

/-- The scanner's state (R64). -/
inductive ScannerState where
  | off
  | dozing
  | warming
  | converting
  | waiting
deriving DecidableEq, Repr

/-- One scan list entry (R62). -/
structure ScanEntry where
  channel        : ChannelId
  keepWhenClosed : Bool
deriving DecidableEq, Repr

/-- The scanner (R64); `inFlight` is the channel of the conversion in flight (R57). -/
structure Scanner where
  dayMode         : DayMode := .continuous
  scanList        : List ScanEntry := []
  regime          : Regime := .off
  state           : ScannerState := .off
  passPosition    : Option Nat := none
  inFlight        : Option ChannelId := none
  warmUp          : Option Nat := none
  pace            : Option Nat := none
  closedPaceTimer : Option Nat := none
  passRequested   : Bool := false
deriving DecidableEq, Repr

/-- Three escalation times in seconds, for levels 1, 2 and 3 (R172). -/
structure LevelTimes where
  level1 : Nat
  level2 : Nat
  level3 : Nat
deriving DecidableEq, Repr

/-- The timing record, the item CONFIG-TIMING writes (R206), each field with the default its chapter
gives it. Times are milliseconds but for those R206 marks (s). -/
structure Timing where
  showHeartbeat     : Nat := 2000
  deskHeartbeat     : Nat := 2000
  guardReleaseDelay : Nat := 1500
  guardAlertTime    : Nat := 60
  sagHoldTime       : Nat := 500
  silenceTime       : Nat := 60
  serviceIdleTime   : Nat := 120
  urgentTimes       : LevelTimes := ⟨0, 15, 60⟩
  attentionTimes    : LevelTimes := ⟨30, 120, 600⟩
  startBudget       : Nat := 6
  paceInterval      : Nat := 10
  closedPace        : Nat := 1000
deriving DecidableEq, Repr

/-! ## Axes and the start arbiter (files 05 and 06) -/

/-- The state of an axis (R77). -/
inductive AxisState where
  | disabled
  | idle
  | waitingStart
  | accelerating
  | moving
  | settling
  | held
  | faulted
deriving DecidableEq, Repr

/-- A direction of drive (R79). -/
inductive Direction where
  | forward
  | reverse
deriving DecidableEq, Repr

/-- The drive of an axis (R77, R79). -/
inductive Drive where
  | off
  | on (direction : Direction) (level : Nat)
deriving DecidableEq, Repr

/-- The source of a pending move (R77). -/
inductive MoveSource where
  | cueStep (frame : FrameId) (step : StepId)
  | jog
deriving DecidableEq, Repr

/-- A pending move (R77). -/
structure Move where
  target : Nat
  speed  : Nat
  source : MoveSource
deriving DecidableEq, Repr

/-- The five fault causes (R77). -/
inductive FaultCause where
  | overcurrent
  | overtravel
  | moveTimeout
  | noFeedback
  | noSettle
deriving DecidableEq, Repr

/-- One axis record (R77); `dirOut` is the level of its direction output, which keeps its last level
while the drive is OFF (R79). -/
structure Axis where
  configured      : Bool := false
  exhibit         : Option ExhibitId := none
  positionChannel : Option ChannelId := none
  currentChannel  : Option ChannelId := none
  targetMin       : Nat := 0
  targetMax       : Nat := 4095
  tolerance       : Nat := 16
  defaultSpeed    : Nat := 4
  startCost       : Nat := 2
  accelTime       : Nat := 200
  travelLimit     : Nat := 8000
  settleTime      : Nat := 100
  feedbackTimeout : Nat := 50
  state           : AxisState := .disabled
  move            : Option Move := none
  drive           : Drive := .off
  dirOut          : Level := .low
  corrections     : Nat := 0
  fault           : Option FaultCause := none
  travel          : Option Nat := none
  settle          : Option Nat := none
  suppress        : Bool := false
deriving DecidableEq, Repr

/-- The sag state (R111). -/
inductive SagState where
  | normal
  | sagPending
  | sagHold
deriving DecidableEq, Repr

/-- The start arbiter (R104-R111); `accel` holds the twelve acceleration timers (R108). -/
structure Arbiter where
  unitsInUse : Nat := 0
  startQueue : List AxisId := []
  accel      : Vector (Option Nat) 12 := Vector.replicate 12 none
  sag        : SagState := .normal
  sagTimer   : Option Nat := none
deriving DecidableEq, Repr

/-! ## Cue frames (file 07) -/

/-- What a step does (R120). -/
inductive StepBody where
  | move (axis : AxisId) (target : Nat) (speed dwell : Option Nat)
  | pause (duration : Nat)
  | waitPress (line : LineId) (timeout : Option Nat)
deriving DecidableEq, Repr

/-- One step record (R120). -/
structure CueStep where
  withPrevious : Bool
  body         : StepBody
deriving DecidableEq, Repr

/-- The status of a step (R119). -/
inductive StepStatus where
  | pending
  | active
  | done
deriving DecidableEq, Repr

/-- The move phase of an ACTIVE MOVE step (R119). -/
inductive MovePhase where
  | travelling
  | dwelling
deriving DecidableEq, Repr

/-- A step timer (R119). -/
inductive StepTimer where
  | notRunning
  | running (remaining : Nat)
  | suspended
deriving DecidableEq, Repr

/-- What a frame keeps for one step from CUE-POST on (R119). -/
structure StepRun where
  status : StepStatus := .pending
  phase  : Option MovePhase := none
  timer  : StepTimer := .notRunning
deriving DecidableEq, Repr

/-- The contents of a cue frame (R119); `run` has one entry per step from CUE-POST on. -/
structure CueFrame where
  exhibit      : Option ExhibitId := none
  steps        : List CueStep := []
  currentGroup : Option Nat := none
  run          : List StepRun := []
deriving DecidableEq, Repr

/-- The outcome of a retirement (R135). -/
inductive CueOutcome where
  | done
  | cancelled
  | faulted
  | pressTimeout
deriving DecidableEq, Repr

/-- A retired record (R135). -/
structure RetiredRecord where
  frame     : FrameId
  exhibit   : ExhibitId
  outcome   : CueOutcome
  completed : Nat
  endTime   : Clock
  faultAxis : Option AxisId
deriving DecidableEq, Repr

/-! ## Links (file 08) -/

/-- The state of a link (R144). -/
inductive LinkState where
  | neverSeen
  | active
  | lapsed
deriving DecidableEq, Repr

/-- One link record (R144); the heartbeat period stands in the timing record. -/
structure LinkRecord where
  state         : LinkState := .neverSeen
  timer         : Option Nat := none
  lastHeartbeat : Option Clock := none
  lastChange    : Option Clock := none
deriving DecidableEq, Repr

/-! ## Alerts (file 09) -/

/-- The eleven kinds of alert (R164). -/
inductive AlertKind where
  | helpCall
  | buttonStuck
  | axisFault
  | guardLong
  | afterHours
  | supplySag
  | showLinkLost
  | deskLinkLost
  | showReported
  | restarted
  | listFull
deriving DecidableEq, Repr

/-- The severity of an alert (R164). -/
inductive Severity where
  | notice
  | attention
  | urgent
deriving DecidableEq, Repr

/-- The state of an alert record (R160). -/
inductive AlertState where
  | opened
  | acked
deriving DecidableEq, Repr

/-- One alert record (R160). -/
structure AlertRecord where
  number      : BitVec 16
  kind        : AlertKind
  severity    : Severity
  exhibit     : Option ExhibitId
  subject     : Option Nat
  showCode    : Option Byte
  state       : AlertState
  level       : Nat
  repeatCount : Nat
  raised      : Clock
  acked       : Option Clock
deriving DecidableEq, Repr

/-- The alert list (R160, R163). `records` stands in the order in which the raised times were set,
the earliest first; the list order of R162 is computed from it. -/
structure AlertList where
  records    : List AlertRecord := []
  nextNumber : BitVec 16 := 1
deriving DecidableEq, Repr

/-! ## Annunciators (file 10) -/

/-- The envelope of a tone pattern (R182). -/
inductive Envelope where
  | flat
  | decay
deriving DecidableEq, Repr

/-- One tone pattern (R182); `pitch` is the pitch code. -/
structure TonePattern where
  pitch    : Fin 8
  onTime   : Nat
  offTime  : Nat
  envelope : Envelope
  repeats  : Nat
deriving DecidableEq, Repr

/-- The note in progress: the fields read at its start (R183) and the time elapsed in it (R184). -/
structure Note where
  pattern  : PatternId
  pitch    : Fin 8
  onTime   : Nat
  offTime  : Nat
  envelope : Envelope
  elapsed  : Nat
deriving DecidableEq, Repr

/-- The tone arbiter (R184). -/
inductive ToneArbiter where
  | silent
  | alertTone (note : Note)
  | chime (note : Note) (remaining : Nat)
deriving DecidableEq, Repr

/-- The annunciators' own state (R182, R184, R188, R191, R193). -/
structure Annunciators where
  patterns     : Vector TonePattern 4 :=
    #v[⟨6, 150, 150, .flat, 0⟩, ⟨3, 300, 700, .flat, 0⟩, ⟨4, 400, 100, .decay, 2⟩, ⟨2, 600, 0, .decay, 1⟩]
  tone         : ToneArbiter := .silent
  silence      : Option Nat := none
  silenceBegan : Option Clock := none
  lampTest     : Option Nat := none
  flash        : Nat := 0
deriving DecidableEq, Repr

/-! ## Ports (file 11) -/

/-- The statuses of a response (R211). -/
inductive Status where
  | ok
  | badCheck
  | badLength
  | unknownCommand
  | wrongPort
  | wrongMode
  | wrongState
  | noSuch
  | badValue
  | full
  | empty
  | notTaken
  | badFrame
  | stillActive
  | notSettled
  | busy
  | notPermitted
  | noResponse
deriving DecidableEq, Repr

/-- A response frame less its length field and check byte, which R197 computes from these. -/
structure Response where
  tag     : Byte
  status  : Status
  payload : List Byte
deriving DecidableEq, Repr

/-- The two edge causes of a port (R201). -/
structure EdgeCauses where
  noteIn    : Bool := false
  noteTaken : Bool := false
deriving DecidableEq, Repr

/-- The content of a FULL note slot (R203). -/
structure NoteContent where
  content : List Byte
  time    : Clock
deriving DecidableEq, Repr

/-- The UART receiver (R196). -/
inductive Receiver where
  | idle
  | inFrame (bytes : List Byte)
  | discarding
deriving DecidableEq, Repr

/-- The service port (R196). -/
structure Uart where
  rx           : Receiver := .idle
  quiet        : Option Nat := none
  waitingFrame : Option (List Byte) := none
  sending      : Option Response := none
  waiting      : List Response := []
deriving DecidableEq, Repr

/-- What the port engine holds for one SPI port: its held response and the bytes it drove on its data
output in its latest transaction (R195), its edge causes (R201) and its attention mask (R202). -/
structure SpiPort where
  held    : Option Response := none
  dataOut : List Byte := []
  edges   : EdgeCauses := {}
  mask    : Byte := 0
deriving DecidableEq, Repr

/-! ## Output pins -/

/-- The four beacon patterns (R191). -/
inductive BeaconPattern where
  | off
  | steady
  | slow
  | fast
deriving DecidableEq, Repr

/-- A beacon output: the pattern it shows and whether it is lit (R191). -/
structure Beacon where
  pattern : BeaconPattern := .off
  lit     : Bool := false
deriving DecidableEq, Repr

/-- The tone output (R183): silent, or a tone at a frequency in hertz with the amplitude `num / den` of
full. -/
inductive ToneOut where
  | silent
  | tone (hertz : Nat) (num den : Nat)
deriving DecidableEq, Repr

/-- The output pins that follow the rest of the state: the attention lines (R202) and the all-call
line (R190), true when asserted; the beacons (R191); the tone output (R183); the duty of the twelve
PWM outputs in eighths (R79). -/
structure Pins where
  showLine : Bool := false
  deskLine : Bool := false
  combined : Bool := false
  allCall  : Bool := false
  beacons  : Vector Beacon 16 := Vector.replicate 16 {}
  toneOut  : ToneOut := .silent
  pwm      : Vector Nat 12 := Vector.replicate 12 0
deriving DecidableEq, Repr

/-! ## The whole state -/

/-- The state of the hub. The defaults are the full-reset values of each chapter, with RESET high. -/
structure State where
  inReset      : Bool := false
  clock        : Clock := 0
  mode         : GalleryMode := .setup
  settledNoted : Bool := false
  exhibits     : Vector Exhibit 16 := Vector.replicate 16 {}
  lines        : Vector Line 64 := Vector.replicate 64 {}
  showQueue    : EventQueue := {}
  deskQueue    : EventQueue := {}
  serviceQueue : EventQueue := {}
  channels     : Vector Channel 32 := Vector.replicate 32 {}
  scanner      : Scanner := {}
  timing       : Timing := {}
  axes         : Vector Axis 12 := Vector.replicate 12 {}
  arbiter      : Arbiter := {}
  frames       : Vector CueFrame 48 := Vector.replicate 48 {}
  freeList     : List FrameId := List.finRange 48
  takenSet     : List FrameId := []
  retiredList  : List RetiredRecord := []
  showLink     : LinkRecord := {}
  deskLink     : LinkRecord := {}
  tenures      : Vector (Option Clock) 16 := Vector.replicate 16 none
  serviceIdle  : Option Nat := none
  alerts       : AlertList := {}
  annunciators : Annunciators := {}
  showSpi      : SpiPort := {}
  deskSpi      : SpiPort := {}
  uart         : Uart := {}
  notes        : Vector (Option NoteContent) 8 := Vector.replicate 8 none
  pins         : Pins := {}
  pending      : List Instr := []
deriving DecidableEq, Repr

/-- The state right after RESET rises: every block at its full-reset values, the clock at 0, the
gallery in SETUP and no command waiting (R210; the inputs at HIGH, log 5). -/
def State.reset : State := {}

end Sys2Proof.Machine
end

