-- ==== Sys2Proof/Machine/Layout.lean ====
section
/-! DEFINITION. Layouts: the bytes of numbers, flags, optional fields and lists (R200), the check byte
and the frames (R197, R211), the codes of every enumeration (R46, R47, R164, R200, R211), and the
records of R212, R213 and R214. -/

namespace Sys2Proof.Machine

/-! ## Fields (R200) -/

/-- A number in one byte. -/
def num1 (n : Nat) : List Byte := [BitVec.ofNat 8 n]

/-- A number in two bytes, least significant byte first. -/
def num2 (n : Nat) : List Byte := [BitVec.ofNat 8 n, BitVec.ofNat 8 (n / 256)]

/-- A number in four bytes, least significant byte first: clock values and times of timers. -/
def num4 (n : Nat) : List Byte :=
  [BitVec.ofNat 8 n, BitVec.ofNat 8 (n / 256), BitVec.ofNat 8 (n / 65536), BitVec.ofNat 8 (n / 16777216)]

/-- A gallery clock value. -/
def clockBytes (c : Clock) : List Byte := num4 c.toNat

/-- A flag: off 0, on 1. -/
def flagByte (b : Bool) : List Byte := num1 (if b then 1 else 0)

/-- An optional field: a presence byte and the field, whose `width` bytes read 0 when it is absent. -/
def optBytes {α : Type} (width : Nat) (f : α → List Byte) : Option α → List Byte
  | some a => 1 :: f a
  | none => List.replicate (width + 1) 0

/-- A list of varying length: a count byte and the items. -/
def listBytes (items : List (List Byte)) : List Byte := num1 items.length ++ items.flatten

/-- The remaining time of a timer, 0 when it is not running. -/
def timerBytes (t : Option Nat) : List Byte := num4 (t.getD 0)

/-! ## Check byte and frames (R197, R211) -/

/-- One shift of the check register. -/
def crcShift (r : Byte) : Byte := if r.msb then (r <<< 1) ^^^ 7 else r <<< 1

/-- One byte combined into the check register and shifted eight times. -/
def crcByte (r b : Byte) : Byte :=
  crcShift (crcShift (crcShift (crcShift (crcShift (crcShift (crcShift (crcShift (r ^^^ b))))))))

/-- The check byte over a list of bytes (R197). -/
def crc (bytes : List Byte) : Byte := bytes.foldl crcByte 0

/-- A frame body closed by its check byte. -/
def closeFrame (body : List Byte) : List Byte := body ++ [crc body]

/-- The bytes of a command frame. -/
def commandFrame (code tag : Byte) (payload : List Byte) : List Byte :=
  closeFrame (code :: tag :: (num2 payload.length ++ payload))

/-- The code of a status (R211). -/
def Status.code : Status → Byte
  | .ok => 0x00
  | .badCheck => 0x01
  | .badLength => 0x02
  | .unknownCommand => 0x03
  | .wrongPort => 0x04
  | .wrongMode => 0x05
  | .wrongState => 0x06
  | .noSuch => 0x07
  | .badValue => 0x08
  | .full => 0x09
  | .empty => 0x0A
  | .notTaken => 0x0B
  | .badFrame => 0x0C
  | .stillActive => 0x0D
  | .notSettled => 0x0E
  | .busy => 0x0F
  | .notPermitted => 0x10
  | .noResponse => 0x11

/-- The bytes of a response frame. -/
def Response.bytes (r : Response) : List Byte :=
  closeFrame (r.tag :: r.status.code :: (num2 r.payload.length ++ r.payload))

/-- The frame a port that holds no response sends in a collect transaction (R195, R211). -/
def noResponse : Response := ⟨0, .noResponse, []⟩

/-- The length field of the bytes of a frame. -/
def lengthField (bytes : List Byte) : Nat := (bytes.getD 2 0).toNat + 256 * (bytes.getD 3 0).toNat

/-- The tag a BAD_LENGTH or BAD_CHECK response carries: the second byte, or 00H (R196, R198). -/
def frameTag (bytes : List Byte) : Byte := bytes.getD 1 0

/-- The payload of the bytes of a whole frame. -/
def framePayload (bytes : List Byte) : List Byte := (bytes.drop 4).dropLast

/-- The examination of a frame received whole: the status of the first test that fails (R198). -/
def frameFault (bytes : List Byte) : Option Status :=
  if bytes.length < 5 ∨ 200 < lengthField bytes ∨ bytes.length ≠ 5 + lengthField bytes then some .badLength
  else if bytes.getLastD 0 ≠ crc bytes.dropLast then some .badCheck
  else none

/-! ## Codes -/

/-- Exhibit state codes (R47). -/
def ExhibitState.code : ExhibitState → Nat
  | .closed => 0
  | .ready => 1
  | .running => 2
  | .held => 3
  | .faulted => 4
  | .service => 5

/-- Gallery mode codes (R47); 4 is the "settled" notice of R5. -/
def GalleryMode.code : GalleryMode → Nat
  | .setup => 0
  | .closed => 1
  | .opened => 2
  | .quiet => 3

/-- Window state codes (R47). -/
def Window.code : Window → Nat
  | .unknown => 0
  | .below => 1
  | .inside => 2
  | .above => 3

/-- Fault cause codes (R47). -/
def FaultCause.code : FaultCause → Nat
  | .overcurrent => 1
  | .overtravel => 2
  | .moveTimeout => 3
  | .noFeedback => 4
  | .noSettle => 5

/-- Outcome codes (R47). -/
def CueOutcome.code : CueOutcome → Nat
  | .done => 0
  | .cancelled => 1
  | .faulted => 2
  | .pressTimeout => 3

/-- Link state codes (R47). -/
def LinkState.code : LinkState → Nat
  | .neverSeen => 0
  | .active => 1
  | .lapsed => 2

/-- Event kind codes (R46). -/
def EventKind.code : EventKind → Nat
  | .buttonPress => 1
  | .buttonRelease => 2
  | .axisArrived => 3
  | .axisHeld => 4
  | .axisResumed => 5
  | .axisFault => 6
  | .cueStarted => 7
  | .cueRetired => 8
  | .senseChange => 9
  | .scanOverrun => 10
  | .exhibitState => 11
  | .galleryMode => 12
  | .linkState => 13
  | .alertRaised => 14
  | .alertChanged => 15
  | .alertRemoved => 16
  | .chimeCut => 17

/-- Alert kind codes (R164). -/
def AlertKind.code : AlertKind → Nat
  | .helpCall => 1
  | .buttonStuck => 2
  | .axisFault => 3
  | .guardLong => 4
  | .afterHours => 5
  | .supplySag => 6
  | .showLinkLost => 7
  | .deskLinkLost => 8
  | .showReported => 9
  | .restarted => 10
  | .listFull => 11

/-- Severity codes (R164). -/
def Severity.code : Severity → Nat
  | .notice => 0
  | .attention => 1
  | .urgent => 2

/-- Alert state codes (R164). -/
def AlertState.code : AlertState → Nat
  | .opened => 0
  | .acked => 1

/-- Busy policies by position (R8, R200). -/
def BusyPolicy.code : BusyPolicy → Nat
  | .deliver => 0
  | .swallowWhileRunning => 1

/-- Line roles by position (R24, R200). -/
def LineRole.code : LineRole → Nat
  | .action => 0
  | .help => 1

/-- Active levels by position (R24, R200). -/
def Level.code : Level → Nat
  | .low => 0
  | .high => 1

/-- The latest sample by position in "Active, inactive" (R24, R200). -/
def sampleCode (active : Bool) : Nat := if active then 0 else 1

/-- Line states by position (R24, R200). -/
def LineState.code : LineState → Nat
  | .inert => 0
  | .waitRelease => 1
  | .released => 2
  | .pressPending => 3
  | .pressed => 4
  | .releasePending => 5
  | .stuck => 6

/-- Press destinations by position (R24, R200). -/
def PressDestination.code : PressDestination → Nat
  | .showQueue => 0
  | .serviceQueue => 1

/-- Channel roles by position (R55, R200). -/
def ChannelRole.code : ChannelRole → Nat
  | .none => 0
  | .position => 1
  | .current => 2
  | .presence => 3
  | .supply => 4
  | .general => 5

/-- Zones by position (R55, R200). -/
def Zone.code : Zone → Nat
  | .below => 0
  | .inside => 1
  | .above => 2

/-- A binding is the number of its axis or exhibit, which the channel's role tells apart (R55, R206);
DEDUCED, for R200 could make the binding a choice of two alternatives (log 22). -/
def Binding.number : Binding → Nat
  | .axis a => a.val
  | .exhibit e => e.val

/-- Day modes by position (R64, R200). -/
def DayMode.code : DayMode → Nat
  | .continuous => 0
  | .paced => 1
  | .single => 2

/-- Regimes by position (R64, R200). -/
def Regime.code : Regime → Nat
  | .off => 0
  | .day => 1
  | .closedScan => 2

/-- Scanner states by position (R64, R200). -/
def ScannerState.code : ScannerState → Nat
  | .off => 0
  | .dozing => 1
  | .warming => 2
  | .converting => 3
  | .waiting => 4

/-- Axis states by position (R77, R200). -/
def AxisState.code : AxisState → Nat
  | .disabled => 0
  | .idle => 1
  | .waitingStart => 2
  | .accelerating => 3
  | .moving => 4
  | .settling => 5
  | .held => 6
  | .faulted => 7

/-- Sag states by position (R111, R200). -/
def SagState.code : SagState → Nat
  | .normal => 0
  | .sagPending => 1
  | .sagHold => 2

/-- Step kinds by position in R120; DEDUCED from R200 (log 12). -/
def StepBody.kindCode : StepBody → Nat
  | .move .. => 0
  | .pause .. => 1
  | .waitPress .. => 2

/-- Step statuses by position (R119, R200). -/
def StepStatus.code : StepStatus → Nat
  | .pending => 0
  | .active => 1
  | .done => 2

/-- Move phases by position (R119, R200). -/
def MovePhase.code : MovePhase → Nat
  | .travelling => 0
  | .dwelling => 1

/-- The hold-reason set as one byte: GUARD, ATTENDANT, LAPSE, SUPPLY from bit 0 (R200). -/
def HoldSet.byte (h : HoldSet) : Nat :=
  (if h.guard then 1 else 0) + (if h.attendant then 2 else 0) + (if h.lapse then 4 else 0)
    + (if h.supply then 8 else 0)

/-- The drive as a choice of three alternatives, OFF, FORWARD, REVERSE, and the level; DEDUCED from
R77 and R200 (log 11). -/
def Drive.bytes : Drive → List Byte
  | .off => [0, 0]
  | .on .forward n => 1 :: num1 n
  | .on .reverse n => 2 :: num1 n

/-- The source of a pending move: alternative 0 a cue step, alternative 1 the jog (R200). -/
def MoveSource.bytes : MoveSource → List Byte
  | .cueStep f i => 0 :: (num1 f.val ++ num1 i.val)
  | .jog => [1, 0, 0]

/-- A pending move (R77). -/
def Move.bytes (m : Move) : List Byte := num2 m.target ++ num1 m.speed ++ m.source.bytes

/-! ## Records (R212, R213, R214) -/

/-- The bit of a flag byte. -/
def bitIf (b : Bool) (weight : Nat) : Nat := if b then weight else 0

/-- An event record of 15 bytes (R212). -/
def Event.bytes (v : Event) : List Byte :=
  num4 v.seq.toNat ++ clockBytes v.time ++ num1 v.kind.code
    ++ num1 ((v.exhibit.map Fin.val).getD 0) ++ num1 ((v.subject.map BitVec.toNat).getD 0)
    ++ num1 (bitIf v.exhibit.isSome 1 + bitIf v.subject.isSome 2 + bitIf v.value.isSome 4
        + bitIf v.step.isSome 8 + bitIf v.gap 16)
    ++ num2 ((v.value.map BitVec.toNat).getD 0) ++ num1 ((v.step.map Fin.val).getD 0)

/-- An alert record of 19 bytes (R213). -/
def AlertRecord.bytes (r : AlertRecord) : List Byte :=
  num2 r.number.toNat ++ num1 r.kind.code ++ num1 r.severity.code
    ++ num1 ((r.exhibit.map Fin.val).getD 0) ++ num1 (r.subject.getD 0) ++ num1 r.state.code
    ++ num1 r.level ++ num1 r.repeatCount ++ num1 ((r.showCode.map BitVec.toNat).getD 0)
    ++ num1 (bitIf r.exhibit.isSome 1 + bitIf r.subject.isSome 2 + bitIf r.showCode.isSome 4
        + bitIf r.acked.isSome 8)
    ++ clockBytes r.raised ++ clockBytes (r.acked.getD 0)

/-- A retired record of 10 bytes (R214). -/
def RetiredRecord.bytes (r : RetiredRecord) : List Byte :=
  num1 r.frame.val ++ num1 r.exhibit.val ++ num1 r.outcome.code ++ num1 r.completed
    ++ num1 (bitIf r.faultAxis.isSome 1) ++ num1 ((r.faultAxis.map Fin.val).getD 0) ++ clockBytes r.endTime

end Sys2Proof.Machine
end

