-- ==== Sys2Proof/Machine/Operands.lean ====
section
/-! DEFINITION. Operands: how the fields of a command's payload are read (R200, R206, R214). -/

namespace Sys2Proof.Machine

/-- The one-byte number at offset `i` of a payload. -/
def byteAt (p : List Byte) (i : Nat) : Nat := (p.getD i 0).toNat

/-- The two-byte number at offset `i`, least significant byte first. -/
def wordAt (p : List Byte) (i : Nat) : Nat := byteAt p i + 256 * byteAt p (i + 1)

/-- An index below `n` at offset `i`, or none when the number is out of range. -/
def indexAt (n : Nat) (p : List Byte) (i : Nat) : Option (Fin n) :=
  if h : byteAt p i < n then some ⟨byteAt p i, h⟩ else none

/-- The exhibit number at offset `i`. -/
def exhibitAt (p : List Byte) (i : Nat) : Option ExhibitId := indexAt 16 p i
/-- The line number at offset `i`. -/
def lineAt (p : List Byte) (i : Nat) : Option LineId := indexAt 64 p i
/-- The axis number at offset `i`. -/
def axisAt (p : List Byte) (i : Nat) : Option AxisId := indexAt 12 p i
/-- The channel number at offset `i`. -/
def channelAt (p : List Byte) (i : Nat) : Option ChannelId := indexAt 32 p i
/-- The cue frame number at offset `i`. -/
def frameAt (p : List Byte) (i : Nat) : Option FrameId := indexAt 48 p i

/-- A flag byte: 0 off, 1 on, any other outside its codes (R200). -/
def flagAt (p : List Byte) (i : Nat) : Option Bool :=
  match byteAt p i with
  | 0 => some false
  | 1 => some true
  | _ => none

/-- An optional field at offset `i`: its presence byte and then the field, read by `f`. The answer is
none when the presence byte is neither 0 nor 1, or when a present field is outside its range. The
field's bytes are not examined when it is absent (log 13). -/
def optAt {α : Type} (f : List Byte → Nat → Option α) (p : List Byte) (i : Nat) : Option (Option α) :=
  match byteAt p i with
  | 0 => some none
  | 1 => (f p (i + 1)).map some
  | _ => none

/-- A one-byte number within a range. -/
def byteIn (lo hi : Nat) (p : List Byte) (i : Nat) : Option Nat :=
  if lo ≤ byteAt p i ∧ byteAt p i ≤ hi then some (byteAt p i) else none

/-- A two-byte number within a range. -/
def wordIn (lo hi : Nat) (p : List Byte) (i : Nat) : Option Nat :=
  if lo ≤ wordAt p i ∧ wordAt p i ≤ hi then some (wordAt p i) else none

/-- A line role by its code (R24). -/
def roleAt (p : List Byte) (i : Nat) : Option LineRole :=
  match byteAt p i with
  | 0 => some .action
  | 1 => some .help
  | _ => none

/-- A level by its code (R24). -/
def levelAt (p : List Byte) (i : Nat) : Option Level :=
  match byteAt p i with
  | 0 => some .low
  | 1 => some .high
  | _ => none

/-- A busy policy by its code (R8). -/
def policyAt (p : List Byte) (i : Nat) : Option BusyPolicy :=
  match byteAt p i with
  | 0 => some .deliver
  | 1 => some .swallowWhileRunning
  | _ => none

/-- A channel role by its code (R55). -/
def channelRoleAt (p : List Byte) (i : Nat) : Option ChannelRole :=
  match byteAt p i with
  | 0 => some .none
  | 1 => some .position
  | 2 => some .current
  | 3 => some .presence
  | 4 => some .supply
  | 5 => some .general
  | _ => none

/-- A day mode by its code (R64). -/
def dayModeAt (p : List Byte) (i : Nat) : Option DayMode :=
  match byteAt p i with
  | 0 => some .continuous
  | 1 => some .paced
  | 2 => some .single
  | _ => none

/-- An envelope by its code (R182). -/
def envelopeAt (p : List Byte) (i : Nat) : Option Envelope :=
  match byteAt p i with
  | 0 => some .flat
  | 1 => some .decay
  | _ => none

/-- A severity by its code (R164). -/
def severityAt (p : List Byte) (i : Nat) : Option Severity :=
  match byteAt p i with
  | 0 => some .notice
  | 1 => some .attention
  | 2 => some .urgent
  | _ => none

/-- The binding of a CONFIG-CHANNEL at offset `i` for a role: an axis for POSITION and CURRENT, an
exhibit for PRESENCE, absent for the other roles (R206; the bare number, log 22). -/
def bindingAt (role : ChannelRole) (p : List Byte) (i : Nat) : Option (Option Binding) :=
  match role with
  | .position | .current => optAt (fun q j => (axisAt q j).map .axis) p i
  | .presence => optAt (fun q j => (exhibitAt q j).map .exhibit) p i
  | .none | .supply | .general => optAt (fun _ _ => none) p i

/-- The scan list entry at offset `i`: a channel and a keep-when-closed flag (R62). -/
def scanEntryAt (p : List Byte) (i : Nat) : Option ScanEntry :=
  match channelAt p i, flagAt p (i + 1) with
  | some c, some k => some ⟨c, k⟩
  | _, _ => none

/-- `count` scan list entries from offset `i` on, numbered from `index`: the entries, or the number of
the first entry out of range (R72, R206; the flag is examined with its entry's channel, log 13). -/
def scanEntriesFrom (p : List Byte) : (count i index : Nat) → Except Nat (List ScanEntry)
  | 0, _, _ => .ok []
  | count + 1, i, index =>
    match scanEntryAt p i with
    | none => .error index
    | some entry =>
      match scanEntriesFrom p count (i + 2) (index + 1) with
      | .error n => .error n
      | .ok rest => .ok (entry :: rest)

/-- Whether bit `k` of the byte at offset `i` is set. -/
def bitAt (p : List Byte) (i k : Nat) : Bool := (p.getD i 0).getLsbD k

/-- The time of a step record at offset `i`, present when its flag is set and then within the range
(R120, R214): none when a present time is out of range. -/
def stepTimeAt (p : List Byte) (i lo : Nat) : Option (Option Nat) :=
  if bitAt p (i + 1) 2 then (wordIn lo 60000 p (i + 6)).map some else some none

/-- The speed of a MOVE step record at offset `i` (R120, R214). -/
def stepSpeedAt (p : List Byte) (i : Nat) : Option (Option Nat) :=
  if bitAt p (i + 1) 1 then (byteIn 1 8 p (i + 3)).map some else some none

/-- The fields of a step record's kind at offset `i`, or none when one lies outside its range (R120,
R123, R214). -/
def stepBodyAt (p : List Byte) (i : Nat) : Option StepBody :=
  match byteAt p i with
  | 1 =>
    match axisAt p (i + 2), wordIn 0 4095 p (i + 4), stepSpeedAt p i, stepTimeAt p i 0 with
    | some a, some target, some speed, some dwell => some (.move a target speed dwell)
    | _, _, _, _ => none
  | 2 =>
    match stepTimeAt p i 1 with
    | some (some duration) => some (.pause duration)
    | _ => none
  | 3 =>
    match lineAt p (i + 2), stepTimeAt p i 1 with
    | some l, some timeout => some (.waitPress l timeout)
    | _, _ => none
  | _ => none

/-- The step record at offset `i`: a kind code of 1-3 and no flag bit above bit 2 (R214). -/
def stepAt (p : List Byte) (i : Nat) : Option CueStep :=
  if byteAt p (i + 1) ≤ 7 then (stepBodyAt p i).map fun b => ⟨bitAt p (i + 1) 0, b⟩ else none

/-- `count` step records from offset `i` on: the steps, or the index of the first one out of range
(R123). -/
def stepsFrom (p : List Byte) : (count i index : Nat) → Except Nat (List CueStep)
  | 0, _, _ => .ok []
  | count + 1, i, index =>
    match stepAt p i with
    | none => .error index
    | some step =>
      match stepsFrom p count (i + 8) (index + 1) with
      | .error n => .error n
      | .ok rest => .ok (step :: rest)

end Sys2Proof.Machine
end

