-- ==== Sys2Proof/Machine/CommandTable.lean ====
section
/-! DEFINITION. The command table (R199): every command's code, ports, gallery modes and payload
length. -/

namespace Sys2Proof.Machine

/-- The commands of the command table (R199). -/
inductive Command where
  | heartbeat
  | eventRead
  | attentionRead
  | attentionMask
  | noteWrite
  | noteRead
  | galleryOpen
  | galleryQuiet
  | galleryClose
  | restart
  | exhibitOpen
  | exhibitClose
  | exhibitHold
  | exhibitRelease
  | faultClear
  | exhibitStatus
  | lineEnable
  | lineDisable
  | lineStatus
  | scanList
  | scanOnce
  | scanLimits
  | senseRead
  | jog
  | axisStatus
  | budgetStatus
  | frameTake
  | frameWrite
  | frameDrop
  | cuePost
  | cueCancel
  | cueFlush
  | cueResult
  | cueStatus
  | servicePermit
  | serviceRevoke
  | exhibitTake
  | exhibitGive
  | linkStatus
  | alertAck
  | alertClear
  | alertRaise
  | alertList
  | chime
  | silence
  | lampTest
  | configExhibit
  | configLine
  | configAxis
  | configChannel
  | configScan
  | configTiming
  | configTone
  | configCommit
  | reconfigure
deriving DecidableEq, Repr

/-- The code of a command (R199). -/
def Command.code : Command → Byte
  | .heartbeat => 0x01
  | .eventRead => 0x02
  | .attentionRead => 0x03
  | .attentionMask => 0x04
  | .noteWrite => 0x05
  | .noteRead => 0x06
  | .galleryOpen => 0x10
  | .galleryQuiet => 0x11
  | .galleryClose => 0x12
  | .restart => 0x13
  | .exhibitOpen => 0x14
  | .exhibitClose => 0x15
  | .exhibitHold => 0x16
  | .exhibitRelease => 0x17
  | .faultClear => 0x18
  | .exhibitStatus => 0x19
  | .lineEnable => 0x20
  | .lineDisable => 0x21
  | .lineStatus => 0x22
  | .scanList => 0x28
  | .scanOnce => 0x29
  | .scanLimits => 0x2A
  | .senseRead => 0x2B
  | .jog => 0x30
  | .axisStatus => 0x31
  | .budgetStatus => 0x32
  | .frameTake => 0x38
  | .frameWrite => 0x39
  | .frameDrop => 0x3A
  | .cuePost => 0x3B
  | .cueCancel => 0x3C
  | .cueFlush => 0x3D
  | .cueResult => 0x3E
  | .cueStatus => 0x3F
  | .servicePermit => 0x40
  | .serviceRevoke => 0x41
  | .exhibitTake => 0x42
  | .exhibitGive => 0x43
  | .linkStatus => 0x44
  | .alertAck => 0x48
  | .alertClear => 0x49
  | .alertRaise => 0x4A
  | .alertList => 0x4B
  | .chime => 0x50
  | .silence => 0x51
  | .lampTest => 0x52
  | .configExhibit => 0x60
  | .configLine => 0x61
  | .configAxis => 0x62
  | .configChannel => 0x63
  | .configScan => 0x64
  | .configTiming => 0x65
  | .configTone => 0x66
  | .configCommit => 0x67
  | .reconfigure => 0x68

/-- The command with a code, if the table has one (R199). -/
def Command.ofCode (code : Byte) : Option Command :=
  match code.toNat with
  | 1 => some .heartbeat
  | 2 => some .eventRead
  | 3 => some .attentionRead
  | 4 => some .attentionMask
  | 5 => some .noteWrite
  | 6 => some .noteRead
  | 16 => some .galleryOpen
  | 17 => some .galleryQuiet
  | 18 => some .galleryClose
  | 19 => some .restart
  | 20 => some .exhibitOpen
  | 21 => some .exhibitClose
  | 22 => some .exhibitHold
  | 23 => some .exhibitRelease
  | 24 => some .faultClear
  | 25 => some .exhibitStatus
  | 32 => some .lineEnable
  | 33 => some .lineDisable
  | 34 => some .lineStatus
  | 40 => some .scanList
  | 41 => some .scanOnce
  | 42 => some .scanLimits
  | 43 => some .senseRead
  | 48 => some .jog
  | 49 => some .axisStatus
  | 50 => some .budgetStatus
  | 56 => some .frameTake
  | 57 => some .frameWrite
  | 58 => some .frameDrop
  | 59 => some .cuePost
  | 60 => some .cueCancel
  | 61 => some .cueFlush
  | 62 => some .cueResult
  | 63 => some .cueStatus
  | 64 => some .servicePermit
  | 65 => some .serviceRevoke
  | 66 => some .exhibitTake
  | 67 => some .exhibitGive
  | 68 => some .linkStatus
  | 72 => some .alertAck
  | 73 => some .alertClear
  | 74 => some .alertRaise
  | 75 => some .alertList
  | 80 => some .chime
  | 81 => some .silence
  | 82 => some .lampTest
  | 96 => some .configExhibit
  | 97 => some .configLine
  | 98 => some .configAxis
  | 99 => some .configChannel
  | 100 => some .configScan
  | 101 => some .configTiming
  | 102 => some .configTone
  | 103 => some .configCommit
  | 104 => some .reconfigure
  | _ => none

/-- Ports written S, D in the table. -/
def bothMasters : List Port := [.showPort, .deskPort]
/-- Ports written S, D, V in the table. -/
def everyPort : List Port := [.showPort, .deskPort, .servicePort]
/-- Ports written S, V in the table. -/
def configPorts : List Port := [.showPort, .servicePort]

/-- The ports permitted to send a command (R199). -/
def Command.ports : Command → List Port
  | .heartbeat => bothMasters
  | .eventRead => everyPort
  | .attentionRead | .attentionMask | .noteWrite | .noteRead => bothMasters
  | .galleryOpen | .galleryQuiet | .galleryClose | .restart | .exhibitOpen | .exhibitClose |
    .exhibitHold | .exhibitRelease | .faultClear => [.deskPort]
  | .exhibitStatus | .lineEnable | .lineDisable | .lineStatus => everyPort
  | .scanList | .scanOnce | .scanLimits => [.showPort]
  | .senseRead => everyPort
  | .jog => [.servicePort]
  | .axisStatus | .budgetStatus => everyPort
  | .frameTake | .frameWrite | .frameDrop | .cuePost | .cueCancel | .cueFlush |
    .cueResult => [.showPort]
  | .cueStatus => everyPort
  | .servicePermit | .serviceRevoke => [.deskPort]
  | .exhibitTake | .exhibitGive => [.servicePort]
  | .linkStatus => everyPort
  | .alertAck | .alertClear => [.deskPort]
  | .alertRaise => [.showPort]
  | .alertList => [.deskPort, .servicePort]
  | .chime => bothMasters
  | .silence | .lampTest => [.deskPort]
  | .configExhibit | .configLine | .configAxis | .configChannel | .configScan | .configTiming |
    .configTone | .configCommit => configPorts
  | .reconfigure => [.deskPort]

/-- Modes written All in the table. -/
def everyMode : List GalleryMode := [.setup, .closed, .opened, .quiet]
/-- Modes written C, O, Q in the table. -/
def workingModes : List GalleryMode := [.closed, .opened, .quiet]

/-- The gallery modes in which a command is accepted (R199). -/
def Command.modes : Command → List GalleryMode
  | .heartbeat | .eventRead | .attentionRead | .attentionMask | .noteWrite | .noteRead => everyMode
  | .galleryOpen => [.closed, .quiet]
  | .galleryQuiet => [.opened]
  | .galleryClose => [.quiet]
  | .restart => workingModes
  | .exhibitOpen => [.opened]
  | .exhibitClose | .exhibitHold | .exhibitRelease | .faultClear => workingModes
  | .exhibitStatus => everyMode
  | .lineEnable | .lineDisable => workingModes
  | .lineStatus => everyMode
  | .scanList | .scanOnce | .scanLimits => workingModes
  | .senseRead => everyMode
  | .jog => workingModes
  | .axisStatus | .budgetStatus => everyMode
  | .frameTake | .frameWrite | .frameDrop | .cuePost | .cueCancel | .cueFlush |
    .cueResult => workingModes
  | .cueStatus => everyMode
  | .servicePermit | .serviceRevoke | .exhibitTake | .exhibitGive => workingModes
  | .linkStatus | .alertAck | .alertClear | .alertRaise | .alertList | .chime | .silence |
    .lampTest => everyMode
  | .configExhibit | .configLine | .configAxis | .configChannel | .configScan | .configTiming |
    .configTone | .configCommit => [.setup]
  | .reconfigure => [.closed]

/-- Whether a payload's length matches the command's payload as R200 lays it out. Where the payload
carries a count followed by that many items, the length is measured against the count as given; the
content of NOTE-WRITE is 1-16 bytes (R199, R204). -/
def Command.lengthOk (c : Command) (p : List Byte) : Bool :=
  match c with
  | .noteWrite => 2 ≤ p.length && p.length ≤ 17
  | .scanList => p.length = 1 + 2 * byteAt p 0 && 1 ≤ p.length
  | .frameWrite => p.length = 2 + 8 * byteAt p 1
  | .configScan => p.length = 2 + 2 * byteAt p 1
  | .heartbeat | .attentionRead | .galleryOpen | .galleryQuiet | .galleryClose | .restart |
    .scanOnce | .budgetStatus | .frameTake | .cueResult | .linkStatus | .silence | .lampTest |
    .configCommit | .reconfigure => p.length = 0
  | .eventRead | .attentionMask | .noteRead | .exhibitOpen | .exhibitClose | .exhibitHold |
    .exhibitRelease | .faultClear | .exhibitStatus | .lineEnable | .lineDisable | .lineStatus |
    .axisStatus | .frameDrop | .cueCancel | .cueFlush | .cueStatus | .serviceRevoke |
    .exhibitTake | .exhibitGive | .alertList => p.length = 1
  | .senseRead | .cuePost | .servicePermit | .alertAck | .alertClear => p.length = 2
  | .chime | .configExhibit => p.length = 3
  | .alertRaise => p.length = 4
  | .scanLimits | .jog => p.length = 5
  | .configTone => p.length = 8
  | .configChannel => p.length = 9
  | .configLine => p.length = 10
  | .configAxis => p.length = 19
  | .configTiming => p.length = 31

/-- The status and payload of a response to a command taken (R199). -/
structure Reply where
  status  : Status
  payload : List Byte := []
deriving DecidableEq, Repr

/-- A refused command changes nothing (R199). -/
def refuse (st : Status) (s : State) : State × Reply := (s, { status := st })

/-- A refusal whose response carries a payload (R199). -/
def refuseWith (st : Status) (payload : List Byte) (s : State) : State × Reply :=
  (s, { status := st, payload := payload })

/-- A command carried out, with its response payload (R199). -/
def accept (payload : List Byte) (s : State) : State × Reply := (s, { status := .ok, payload := payload })

/-- The master of a port, if it is an SPI port (R195, R202). -/
def masterOf : Port → Option Master
  | .showPort => some .showMaster
  | .deskPort => some .deskMaster
  | .servicePort => none

/-- A command of a master; from the service port it is refused WRONG_PORT (R199). -/
def onMaster (port : Port) (f : Master → State → State × Reply) (s : State) : State × Reply :=
  match masterOf port with
  | some m => f m s
  | none => refuse .wrongPort s

/-- A command that names an exhibit at offset 0; a number above 15 is refused NO_SUCH. -/
def onExhibit (p : List Byte) (f : ExhibitId → State → State × Reply) (s : State) : State × Reply :=
  match exhibitAt p 0 with
  | some e => f e s
  | none => refuse .noSuch s

end Sys2Proof.Machine
end

