-- ==== Sys2Proof/Config.lean ====
section
/-! DEFINITION. What the spec leaves open and a chip fixes: free constants, each without a body. -/

namespace Sys2Proof.Config

/-- The level of a direction output that gives FORWARD: R79 says "The direction output gives the
direction" and not which level gives which. DESIGN CHOICE of a free constant, safe (log 7). -/
opaque forwardIsHigh : Bool

/-- Whether a byte with a missing stop bit that reaches an idle receiver is answered BAD_LENGTH: R196
gives the case of a frame in progress only. DESIGN CHOICE of a free constant, safe (log 8). -/
opaque idleStopFaultAnswers : Bool

/-- The window byte AXIS-STATUS carries for an axis that has no position channel, by the axis number and
the gallery clock: R102 names the window of "the position channel" and no value for its absence. DESIGN
CHOICE of a free value, safe (log 9). -/
opaque windowOfNoChannel (axisNumber clock : Nat) : Byte

end Sys2Proof.Config
end

