-- ==== Sys2Proof/Machine/Ops.lean ====
section
/-! DEFINITION. The named operations over the records of the state, the event queues (file 03), and the
change of an exhibit's state (R9). -/

namespace Sys2Proof.Machine

/-! ## Reading and updating one record -/

/-- `f` over every entry of a table. -/
def mapTable {α : Type} {n : Nat} (f : α → α) (v : Vector α n) : Vector α n :=
  Vector.ofFn fun i => f (v.get i)

/-- The table with entry `i` replaced by `f` of it. -/
def modTable {α : Type} {n : Nat} (v : Vector α n) (i : Fin n) (f : α → α) : Vector α n :=
  v.set i.val (f (v.get i)) i.isLt

/-- The record of exhibit `e`. -/
def State.exhibit (s : State) (e : ExhibitId) : Exhibit := s.exhibits.get e
/-- The record of line `l`. -/
def State.line (s : State) (l : LineId) : Line := s.lines.get l
/-- The record of channel `c`. -/
def State.channel (s : State) (c : ChannelId) : Channel := s.channels.get c
/-- The record of axis `a`. -/
def State.axis (s : State) (a : AxisId) : Axis := s.axes.get a
/-- The contents of frame `f`. -/
def State.frame (s : State) (f : FrameId) : CueFrame := s.frames.get f
/-- The tenure of exhibit `e`. -/
def State.tenure (s : State) (e : ExhibitId) : Option Clock := s.tenures.get e
/-- The note slot `i`. -/
def State.note (s : State) (i : SlotId) : Option NoteContent := s.notes.get i

/-- Update the record of exhibit `e`. -/
def State.modExhibit (s : State) (e : ExhibitId) (f : Exhibit → Exhibit) : State :=
  { s with exhibits := modTable s.exhibits e f }
/-- Update the record of line `l`. -/
def State.modLine (s : State) (l : LineId) (f : Line → Line) : State :=
  { s with lines := modTable s.lines l f }
/-- Update the record of channel `c`. -/
def State.modChannel (s : State) (c : ChannelId) (f : Channel → Channel) : State :=
  { s with channels := modTable s.channels c f }
/-- Update the record of axis `a`. -/
def State.modAxis (s : State) (a : AxisId) (f : Axis → Axis) : State :=
  { s with axes := modTable s.axes a f }
/-- Update the contents of frame `f`. -/
def State.modFrame (s : State) (f : FrameId) (g : CueFrame → CueFrame) : State :=
  { s with frames := modTable s.frames f g }
/-- Set the tenure of exhibit `e`. -/
def State.setTenure (s : State) (e : ExhibitId) (t : Option Clock) : State :=
  { s with tenures := modTable s.tenures e fun _ => t }
/-- Set note slot `i`. -/
def State.setNote (s : State) (i : SlotId) (n : Option NoteContent) : State :=
  { s with notes := modTable s.notes i fun _ => n }
/-- Update the scanner. -/
def State.modScanner (s : State) (f : Scanner → Scanner) : State := { s with scanner := f s.scanner }
/-- Update the start arbiter. -/
def State.modArbiter (s : State) (f : Arbiter → Arbiter) : State := { s with arbiter := f s.arbiter }
/-- Update the annunciators' own state. -/
def State.modAnnunciators (s : State) (f : Annunciators → Annunciators) : State :=
  { s with annunciators := f s.annunciators }
/-- Update the alert list. -/
def State.modAlerts (s : State) (f : AlertList → AlertList) : State := { s with alerts := f s.alerts }
/-- Update the service port's receiver and transmitter. -/
def State.modUart (s : State) (f : Uart → Uart) : State := { s with uart := f s.uart }

/-- What the port engine holds for the SPI port of a master. -/
def State.spi (s : State) : Master → SpiPort
  | .showMaster => s.showSpi
  | .deskMaster => s.deskSpi

/-- Update what the port engine holds for the SPI port of a master. -/
def State.modSpi (s : State) (m : Master) (f : SpiPort → SpiPort) : State :=
  match m with
  | .showMaster => { s with showSpi := f s.showSpi }
  | .deskMaster => { s with deskSpi := f s.deskSpi }

/-- The link record of a master. -/
def State.link (s : State) : Master → LinkRecord
  | .showMaster => s.showLink
  | .deskMaster => s.deskLink

/-- Update the link record of a master. -/
def State.modLink (s : State) (m : Master) (f : LinkRecord → LinkRecord) : State :=
  match m with
  | .showMaster => { s with showLink := f s.showLink }
  | .deskMaster => { s with deskLink := f s.deskLink }

/-- An event queue by name. -/
def State.queue (s : State) : QueueName → EventQueue
  | .showQ => s.showQueue
  | .deskQ => s.deskQueue
  | .serviceQ => s.serviceQueue

/-- Update an event queue by name. -/
def State.modQueue (s : State) (q : QueueName) (f : EventQueue → EventQueue) : State :=
  match q with
  | .showQ => { s with showQueue := f s.showQueue }
  | .deskQ => { s with deskQueue := f s.deskQueue }
  | .serviceQ => { s with serviceQueue := f s.serviceQueue }

/-- `f` for every index below `n`, in ascending order. -/
def forEach {n : Nat} (f : Fin n → State → State) (s : State) : State :=
  (List.finRange n).foldl (fun t i => f i t) s

/-- `f` for every member of a list, in its order. -/
def forList {α : Type} (l : List α) (f : α → State → State) (s : State) : State :=
  l.foldl (fun t i => f i t) s

/-! ## Event queues (R42-R50) -/

/-- The capacity of a queue (R42). -/
def QueueName.capacity : QueueName → Nat
  | .showQ => 64
  | .deskQ => 32
  | .serviceQ => 16

/-- The queue a port reads (R51). -/
def portQueue : Port → QueueName
  | .showPort => .showQ
  | .deskPort => .deskQ
  | .servicePort => .serviceQ

/-- The button events of the overflow policy (R49). -/
def Event.isButton (v : Event) : Bool :=
  match v.kind with
  | .buttonPress | .buttonRelease => true
  | _ => false

/-- The list without its oldest button event, or none when it holds no button event (R49). -/
def dropOldestButton : List Event → Option (List Event)
  | [] => none
  | v :: rest => if v.isButton then some rest else (dropOldestButton rest).map (v :: ·)

/-- The sequence number after `n`, which passes from 4294967295 to 1 (R45). -/
def nextSequence (n : BitVec 32) : BitVec 32 := if n + 1 = 0 then 1 else n + 1

/-- The lists and gap flag after an event is placed: at the tail when there is room, else by the first
case of the overflow policy that applies (R44, R49). -/
def placeEvent (capacity : Nat) (v : Event) (q : EventQueue) : EventQueue :=
  if q.events.length < capacity then { q with events := q.events ++ [v] }
  else
    match dropOldestButton q.events with
    | some rest => { q with events := rest ++ [v], gap := true }
    | none =>
      if v.isButton then { q with gap := true }
      else { q with events := q.events.tail ++ [v], gap := true }

/-- An event offered to a queue takes its next sequence number and is placed (R44, R45). -/
def offerEvent (capacity : Nat) (v : Event) (q : EventQueue) : EventQueue :=
  placeEvent capacity { v with seq := q.nextSeq, gap := false }
    { q with nextSeq := nextSequence q.nextSeq }

/-- Append an event to one queue, stamped with the gallery clock (R44). -/
def appendTo (q : QueueName) (v : Event) (s : State) : State :=
  s.modQueue q (offerEvent q.capacity { v with time := s.clock })

/-- Append an event to each of several queues (R44). -/
def emit (qs : List QueueName) (v : Event) (s : State) : State :=
  forList qs (fun q t => appendTo q v t) s

/-- Whether exhibit `e` is in SERVICE. -/
def inService (s : State) (e : ExhibitId) : Bool := (s.exhibit e).state = .service

/-- The queue of a button or axis event of an exhibit: the service queue in SERVICE, the show queue
otherwise (R48). -/
def floorQueue (s : State) (e : Option ExhibitId) : QueueName :=
  match e with
  | some e => if inService s e then .serviceQ else .showQ
  | none => .showQ

/-- The events of a read-out: the gap flag marks the first of them (R50). -/
def markGap (gap : Bool) : List Event → List Event
  | [] => []
  | v :: rest => { v with gap := gap } :: rest

/-- A read-out of up to `count` events: the events returned and the queue after it (R50, R51). -/
def readOut (count : Nat) (q : EventQueue) : List Event × EventQueue :=
  match q.events.take count with
  | [] => ([], q)
  | v :: rest => (markGap q.gap (v :: rest), { q with events := q.events.drop count, gap := false })

/-- A queue emptied with its numbering continued (R53, R54). -/
def EventQueue.emptied (q : EventQueue) : EventQueue := { q with events := [], gap := false }

/-! ## Gallery and exhibit state -/

/-- The gallery mode becomes `m` and GALLERY_MODE goes to the show and desk queues (R2). -/
def setMode (m : GalleryMode) (s : State) : State :=
  emit [.showQ, .deskQ] { kind := .galleryMode, value := some (BitVec.ofNat 16 m.code) } { s with mode := m }

/-- The queues of an EXHIBIT_STATE event (R48). -/
def exhibitQueues (old new : ExhibitState) : List QueueName :=
  if old = .service ∨ new = .service then [.showQ, .deskQ, .serviceQ] else [.showQ, .deskQ]

/-- A change of an exhibit's state: its time of last state change is set and EXHIBIT_STATE appended
(R9). -/
def changeState (e : ExhibitId) (new : ExhibitState) (s : State) : State :=
  emit (exhibitQueues (s.exhibit e).state new)
    { kind := .exhibitState, exhibit := some e, value := some (BitVec.ofNat 16 new.code) }
    (s.modExhibit e fun x => { x with state := new, lastChange := s.clock })

/-- Whether a hold-reason set is empty. -/
def HoldSet.isEmpty (h : HoldSet) : Bool := !(h.guard || h.attendant || h.lapse || h.supply)

/-- Whether a reason is in a set. -/
def HoldSet.has (h : HoldSet) : HoldReason → Bool
  | .guard => h.guard
  | .attendant => h.attendant
  | .lapse => h.lapse
  | .supply => h.supply

/-- A set with a reason present or absent. -/
def HoldSet.put (h : HoldSet) (r : HoldReason) (b : Bool) : HoldSet :=
  match r with
  | .guard => { h with guard := b }
  | .attendant => { h with attendant := b }
  | .lapse => { h with lapse := b }
  | .supply => { h with supply := b }

/-- The window state of exhibit `e`'s presence channel, when it has one (R8). -/
def presenceWindow (s : State) (e : ExhibitId) : Option Window :=
  (s.exhibit e).presence.map fun c => (s.channel c).window

/-- The SUPPLY channel, when one is configured (R110). In SETUP a second channel may have the role until the
commit (R207); the lowest-numbered is then taken: DESIGN CHOICE (log 24). -/
def supplyChannel (s : State) : Option ChannelId :=
  (List.finRange 32).find? fun c => (s.channel c).role = .supply

/-- The supply freeze: in force exactly while a SUPPLY channel is configured and its window state is
BELOW or UNKNOWN (R110). -/
def frozen (s : State) : Bool :=
  match supplyChannel s with
  | some c => (s.channel c).window = .below || (s.channel c).window = .unknown
  | none => false

/-- Milliseconds of a time configured in seconds. -/
def seconds (n : Nat) : Nat := 1000 * n

/-! ## Events -/

/-- The outcome of a command that the block carries out. -/
abbrev Result := Host.Outcome State Fault Refusal

end Sys2Proof.Machine
end

