-- ==== Sys2Proof/Machine/Flags.lean ====
section
/-! DEFINITION. The flags and lines that follow other state: alert conditions (R165), alert demand
(R184), attention sets and lines (R201, R202), the all-call line (R190), the beacons (R191, R192), the
tone output (R183) and the drive duty (R79). -/

namespace Sys2Proof.Machine

/-! ## Alert conditions (R165) -/

/-- Whether a kind is bound to a condition (R164). -/
def AlertKind.conditionBound : AlertKind → Bool
  | .buttonStuck | .axisFault | .guardLong | .afterHours | .supplySag | .showLinkLost | .deskLinkLost => true
  | .helpCall | .showReported | .restarted | .listFull => false

/-- Whether the condition of a record is present at this moment (R165). -/
def conditionPresent (s : State) (r : AlertRecord) : Bool :=
  match r.kind with
  | .buttonStuck =>
    match r.subject with
    | some n => if h : n < 64 then (s.line ⟨n, h⟩).state = .stuck else false
    | none => false
  | .axisFault =>
    match r.subject with
    | some n => if h : n < 12 then (s.axis ⟨n, h⟩).state = .faulted else false
    | none => false
  | .guardLong =>
    match r.exhibit with
    | some e => (s.exhibit e).holds.guard
    | none => false
  | .afterHours =>
    match r.exhibit with
    | some e => presenceWindow s e = some .inside
    | none => false
  | .supplySag =>
    match supplyChannel s with
    | some c => (s.channel c).window = .below
    | none => false
  | .showLinkLost => s.showLink.state = .lapsed
  | .deskLinkLost => s.deskLink.state = .lapsed
  | .helpCall | .showReported | .restarted | .listFull => false

/-! ## The list order and escalation times (R162, R172) -/

/-- The records in the list order: URGENT, ATTENTION, NOTICE, and within one severity in the order in
which the raised times were set (R162). -/
def listOrder (l : AlertList) : List AlertRecord :=
  (l.records.filter fun r => r.severity = .urgent) ++ (l.records.filter fun r => r.severity = .attention)
    ++ (l.records.filter fun r => r.severity = .notice)

/-- The time of level `n` in milliseconds for a severity; NOTICE has none (R172). -/
def levelTime (t : Timing) (sev : Severity) (n : Nat) : Option Nat :=
  let pick (x : LevelTimes) : Option Nat :=
    match n with
    | 1 => some (seconds x.level1)
    | 2 => some (seconds x.level2)
    | 3 => some (seconds x.level3)
    | _ => none
  match sev with
  | .urgent => pick t.urgentTimes
  | .attention => pick t.attentionTimes
  | .notice => none

/-- The time until a record's next level, 0 when it is ACKED, at level 3, or of severity NOTICE
(R178). -/
def timeToNext (s : State) (r : AlertRecord) : Nat :=
  if r.state = .acked then 0
  else
    match levelTime s.timing r.severity (r.level + 1) with
    | some t => t - elapsed r.raised s.clock
    | none => 0

/-! ## Alert demand (R184) -/

/-- Whether a record is OPEN at escalation level 2 or 3. -/
def AlertRecord.pressing (r : AlertRecord) : Bool := r.state = .opened && 2 ≤ r.level

/-- The demanded pattern while alert demand exists, none while it does not (R184, R188). -/
def demandedPattern (s : State) : Option PatternId :=
  if s.annunciators.silence.isSome then none
  else if s.alerts.records.any (fun r => r.pressing && r.severity = .urgent) then some 0
  else if s.alerts.records.any AlertRecord.pressing then some 1
  else none

/-! ## Attention (R201, R202) -/

/-- The EVENTS cause (R52). -/
def eventsCause (s : State) : Master → Bool
  | .showMaster => !s.showQueue.events.isEmpty
  | .deskMaster => !s.deskQueue.events.isEmpty

/-- The attention set of a port, laid out as R201 gives: EVENTS, RETIRED (show), ALERTS (desk),
NOTE_IN, NOTE_TAKEN from bit 0 (R52, R137, R180, R201). -/
def attentionSet (s : State) (m : Master) : Byte :=
  BitVec.ofNat 8 <|
    bitIf (eventsCause s m) 1 + bitIf (m = .showMaster && !s.retiredList.isEmpty) 2
      + bitIf (m = .deskMaster && s.alerts.records.any fun r => r.state = .opened) 4
      + bitIf (s.spi m).edges.noteIn 8 + bitIf (s.spi m).edges.noteTaken 16

/-- The attention line is asserted while the set and the mask share a cause (R202). -/
def attentionLine (s : State) (m : Master) : Bool := attentionSet s m &&& (s.spi m).mask ≠ 0

/-! ## All-call line, beacons, tone, drives -/

/-- The all-call line is asserted exactly while some OPEN alert is at level 3 (R190). -/
def allCallLine (s : State) : Bool := s.alerts.records.any fun r => r.state = .opened && r.level = 3

/-- Whether an OPEN record of exhibit `e` at level 1, 2 or 3 satisfies `p`. -/
def litRecord (s : State) (e : ExhibitId) (p : AlertRecord → Bool) : Bool :=
  s.alerts.records.any fun r => r.exhibit = some e && r.state = .opened && 1 ≤ r.level && p r

/-- The pattern of exhibit `e`'s beacon: the first line of R192's list that matches. -/
def beaconPattern (s : State) (e : ExhibitId) : BeaconPattern :=
  if s.annunciators.lampTest.isSome then .steady
  else if litRecord s e fun r => r.severity = .urgent then .fast
  else if (s.exhibit e).state = .faulted then .fast
  else if litRecord s e fun _ => true then .slow
  else if (s.exhibit e).state = .service then .steady
  else if (s.exhibit e).state = .held && (s.exhibit e).holds.guard then .slow
  else .off

/-- Whether a pattern is lit at a count of the flash counter (R191). -/
def BeaconPattern.litAt : BeaconPattern → Nat → Bool
  | .off, _ => false
  | .steady, _ => true
  | .slow, n => n < 500
  | .fast, n => n % 250 < 125

/-- The frequency of a pitch code in hertz (R182). -/
def pitchHertz (code : Fin 8) : Nat :=
  match code with
  | 0 => 500
  | 1 => 630
  | 2 => 800
  | 3 => 1000
  | 4 => 1250
  | 5 => 1600
  | 6 => 2000
  | 7 => 2500

/-- Whether a note carries its tone: during its on time, and with an off time of 0 up to the note's end, so
that the next note's on time follows without a gap (R183). -/
def Note.sounds (n : Note) : Bool := n.elapsed < n.onTime || n.offTime = 0

/-- The tone output for a note: its on time carries the tone, full with FLAT and falling evenly to a
quarter with DECAY, by whole milliseconds; its off time is silent (R183; log 21). -/
def Note.output (n : Note) : ToneOut :=
  if n.sounds then
    match n.envelope with
    | .flat => .tone (pitchHertz n.pitch) 1 1
    | .decay => .tone (pitchHertz n.pitch) (4 * n.onTime - 3 * n.elapsed) (4 * n.onTime)
  else .silent

/-- The tone output (R183). -/
def toneOutput (s : State) : ToneOut :=
  match s.annunciators.tone with
  | .silent => .silent
  | .alertTone n => n.output
  | .chime n _ => n.output

/-- The duty of an axis's PWM output in eighths (R79). -/
def Drive.duty : Drive → Nat
  | .off => 0
  | .on _ n => n

/-- The output pins as the rest of the state gives them; in full reset every one is released, dark,
silent or zero (R210). -/
def pinsOf (s : State) : Pins :=
  if s.inReset then {}
  else
    { showLine := attentionLine s .showMaster
      deskLine := attentionLine s .deskMaster
      combined := attentionLine s .showMaster || attentionLine s .deskMaster
      allCall := allCallLine s
      beacons := Vector.ofFn fun e =>
        ⟨beaconPattern s e, (beaconPattern s e).litAt s.annunciators.flash⟩
      toneOut := toneOutput s
      pwm := Vector.ofFn fun a => (s.axis a).drive.duty }

/-- The pins brought up to date at the end of an event (R190, R191, R192, R202). -/
def drivePins (s : State) : State := { s with pins := pinsOf s }

/-- An event of the floor, of a timer or of a receiver, carried out whole; in full reset it is ignored
(R210). -/
def occur (f : State → State) (s : State) : Result :=
  .next (if s.inReset then s else drivePins (f s))

/-! ## The settle test (R5) -/

/-- The five busy states (R80). -/
def AxisState.busy : AxisState → Bool
  | .waitingStart | .accelerating | .moving | .settling | .held => true
  | .disabled | .idle | .faulted => false

/-- Whether an exhibit is in SERVICE, or has no active frame and no busy axis (R5). -/
def atRest (s : State) (e : ExhibitId) : Bool :=
  inService s e || ((s.exhibit e).active.isNone && (s.exhibit e).axes.all fun a => !(s.axis a).state.busy)

/-- The gallery is settled (R5). -/
def settled (s : State) : Bool := (List.finRange 16).all fun e => atRest s e

/-- The settle test in QUIET: the settled notice is given once (R5). -/
def settleTest (s : State) : State :=
  if s.mode = .quiet && !s.settledNoted && settled s then
    emit [.showQ, .deskQ] { kind := .galleryMode, value := some 4 } { s with settledNoted := true }
  else s

end Sys2Proof.Machine
end

