-- ==== Sys2Proof/Machine/AlertOps.lean ====
section
/-! DEFINITION. Operations of the tone arbiter (R183-R189) and of the alert list: triggers, coalescing,
eviction, LIST_FULL and escalation (R163-R173). -/

namespace Sys2Proof.Machine

/-! ## The tone arbiter -/

/-- The first moment of a note of pattern `p`: its fields are read at the start of the note (R183). -/
def startNote (s : State) (p : PatternId) : Note :=
  let t := s.annunciators.patterns.get p
  ⟨p, t.pitch, t.onTime, t.offTime, t.envelope, 0⟩

/-- The arbiter plays the first note of pattern `p` as the alert tone (R185). -/
def playAlert (p : PatternId) (s : State) : State :=
  s.modAnnunciators fun x => { x with tone := .alertTone (startNote s p) }

/-- The arbiter falls silent. -/
def toneSilent (s : State) : State := s.modAnnunciators fun x => { x with tone := .silent }

/-- CHIME_CUT to the desk queue with the cut chime's pattern (R187). -/
def chimeCut (n : Note) (s : State) : State :=
  emit [.deskQ] { kind := .chimeCut, value := some (BitVec.ofNat 16 n.pattern.val) } s

/-- The re-evaluation of alert demand and the demanded pattern (R184, R185, R187). -/
def reevaluateTone (s : State) : State :=
  match s.annunciators.tone, demandedPattern s with
  | .silent, none => s
  | .silent, some p => playAlert p s
  | .alertTone _, none => toneSilent s
  | .alertTone n, some p => if n.pattern = p then s else playAlert p s
  | .chime _ _, none => s
  | .chime n _, some p => playAlert p (chimeCut n s)

/-- Silence goes out of force (R189). -/
def endSilence (s : State) : State :=
  s.modAnnunciators fun x => { x with silence := none, silenceBegan := none }

/-! ## Alert events and numbers -/

/-- The event of a record: its exhibit, the low byte of its number, and a value (R46, R179). -/
def alertEvent (kind : EventKind) (r : AlertRecord) (value : BitVec 16) : Event :=
  { kind := kind, exhibit := r.exhibit, subject := some (r.number.setWidth 8), value := some value }

/-- ALERT_CHANGED of a record (R179). -/
def alertChanged (r : AlertRecord) (s : State) : State :=
  emit [.deskQ] (alertEvent .alertChanged r r.number) s

/-- ALERT_RAISED of a record (R179). -/
def alertRaised (r : AlertRecord) (s : State) : State :=
  emit [.deskQ] (alertEvent .alertRaised r r.number) s

/-- ALERT_REMOVED of a record with its reason, 1 "evicted" or 2 "cleared" (R47, R179). -/
def alertRemoved (r : AlertRecord) (reason : BitVec 16) (s : State) : State :=
  emit [.deskQ] (alertEvent .alertRemoved r reason) s

/-- The record with a number, if the list holds one. -/
def recordOf (s : State) (number : BitVec 16) : Option AlertRecord :=
  s.alerts.records.find? fun r => r.number = number

/-- Replace the record with a number, at its place. -/
def replaceRecord (number : BitVec 16) (new : AlertRecord) (s : State) : State :=
  s.modAlerts fun l => { l with records := l.records.map fun r => if r.number = number then new else r }

/-- Remove the record with a number. -/
def removeRecord (number : BitVec 16) (s : State) : State :=
  s.modAlerts fun l => { l with records := l.records.filter fun r => r.number ≠ number }

/-- The alert number after `n`, which passes from 65535 to 1 (R163). -/
def bumpNumber (n : BitVec 16) : BitVec 16 := if n + 1 = 0 then 1 else n + 1

/-- The first number from `n` on that no record holds, within `fuel` tries (R163). -/
def freeNumber (records : List AlertRecord) : (fuel : Nat) → BitVec 16 → BitVec 16
  | 0, n => n
  | fuel + 1, n =>
    if records.any fun r => r.number = n then freeNumber records fuel (bumpNumber n) else n

/-! ## Escalation (R173) -/

/-- A record reaches the level above its own, with ALERT_CHANGED; reaching level 2 ends a silence in
force (R173, R189). -/
def reachLevel (r : AlertRecord) (s : State) : State :=
  let r' := { r with level := r.level + 1 }
  let t := alertChanged r' (replaceRecord r.number r' s)
  if r'.level = 2 then endSilence t else t

/-- Whether an OPEN record's next level has a time of at most `limit` milliseconds. The next level alone is
looked at, also where escalation times decrease, as SETUP allows until the commit: DESIGN CHOICE between R173
and R206 (log 26). -/
def levelDue (s : State) (r : AlertRecord) (limit : Nat) : Bool :=
  r.state = .opened &&
    match levelTime s.timing r.severity (r.level + 1) with
    | some t => t ≤ limit
    | none => false

/-- Up to `fuel` levels whose time is at most `limit` are reached one at a time, lower first (R173). -/
def climb : (fuel : Nat) → (number : BitVec 16) → (limit : Nat) → State → State
  | 0, _, _, s => s
  | fuel + 1, number, limit, s =>
    match recordOf s number with
    | none => s
    | some r => if levelDue s r limit then climb fuel number limit (reachLevel r s) else s

/-- Every level whose time has elapsed since the raised time is reached (R173, R177, R206). -/
def climbElapsed (number : BitVec 16) (s : State) : State :=
  match recordOf s number with
  | none => s
  | some r => climb 3 number (elapsed r.raised s.clock) s

/-! ## Triggers (R164, R166-R169) -/

/-- What a trigger names: its kind, severity, exhibit, subject and show code (R164). -/
structure Trigger where
  kind     : AlertKind
  severity : Severity
  exhibit  : Option ExhibitId := none
  subject  : Option Nat := none
  showCode : Option Byte := none
deriving DecidableEq, Repr

/-- The severity the table of R164 fixes for a kind; SHOW_REPORTED takes the command's. -/
def AlertKind.severity : AlertKind → Severity
  | .axisFault | .showLinkLost | .deskLinkLost => .urgent
  | .helpCall | .buttonStuck | .guardLong | .afterHours | .supplySag | .listFull => .attention
  | .showReported | .restarted => .notice

/-- A trigger of a kind whose severity the table fixes. -/
def tableTrigger (kind : AlertKind) (exhibit : Option ExhibitId := none) (subject : Option Nat := none) :
    Trigger :=
  { kind := kind, severity := kind.severity, exhibit := exhibit, subject := subject }

/-- Whether a record has the key of a trigger (R161). -/
def Trigger.matches (t : Trigger) (r : AlertRecord) : Bool :=
  r.kind = t.kind && r.exhibit = t.exhibit && r.subject = t.subject && r.showCode = t.showCode

/-- The repeat count after one more trigger, which stops at 255 (R160). -/
def countRepeat (n : Nat) : Nat := if n < 255 then n + 1 else 255

/-- The higher of a record's severity and a trigger's (R177). -/
def Severity.raisedTo (old new : Severity) : Severity := if old.code < new.code then new else old

/-- A trigger counts on an OPEN record; a raised severity makes the record reach at once every level
whose time has elapsed (R166, R177). -/
def countOn (t : Trigger) (r : AlertRecord) (s : State) : State :=
  let r' := { r with repeatCount := countRepeat r.repeatCount, severity := r.severity.raisedTo t.severity }
  let u := alertChanged r' (replaceRecord r.number r' s)
  if r'.severity = r.severity then u else climbElapsed r.number u

/-- A trigger reopens an ACKED record, which moves behind every other of its severity (R166). -/
def reopen (t : Trigger) (r : AlertRecord) (s : State) : State :=
  let r' := { r with
    state := .opened, level := 0, raised := s.clock, acked := none
    repeatCount := countRepeat r.repeatCount, severity := r.severity.raisedTo t.severity }
  let u := (removeRecord r.number s).modAlerts fun l => { l with records := l.records ++ [r'] }
  climbElapsed r.number (alertChanged r' u)

/-- A trigger creates a record with the next alert number (R163, R167). -/
def createRecord (t : Trigger) (s : State) : State :=
  let r : AlertRecord :=
    { number := s.alerts.nextNumber, kind := t.kind, severity := t.severity, exhibit := t.exhibit
      subject := t.subject, showCode := t.showCode, state := .opened, level := 0, repeatCount := 1
      raised := s.clock, acked := none }
  let records := s.alerts.records ++ [r]
  let u := s.modAlerts fun _ =>
    { records := records, nextNumber := freeNumber records 25 (bumpNumber r.number) }
  climbElapsed r.number (alertRaised r u)

/-- The ordinary records (R160). -/
def ordinaryRecords (s : State) : List AlertRecord :=
  s.alerts.records.filter fun r => r.kind ≠ .listFull

/-- The record eviction takes: of the ACKED ordinary records the first of the lowest severity present,
else the first OPEN NOTICE record (R168). -/
def evictionChoice (s : State) : Option AlertRecord :=
  let acked (sev : Severity) := (ordinaryRecords s).find? fun r => r.state = .acked && r.severity = sev
  (acked .notice).or <| (acked .attention).or <| (acked .urgent).or <|
    (ordinaryRecords s).find? fun r => r.state = .opened && r.severity = .notice

/-- A LIST_FULL trigger acts in the reserved place (R169). -/
def triggerListFull (s : State) : State :=
  let t := tableTrigger .listFull
  match s.alerts.records.find? t.matches with
  | some r => if r.state = .opened then countOn t r s else reopen t r s
  | none => createRecord t s

/-- A trigger at the alert list: it acts on the record of its key, or creates one, evicting a record
when 23 ordinary records are in the list, or is not stored and triggers LIST_FULL (R166-R169). The
answer carries the number of the record that took the trigger. -/
def storeTrigger (t : Trigger) (s : State) : State × Option (BitVec 16) :=
  match s.alerts.records.find? t.matches with
  | some r => (if r.state = .opened then countOn t r s else reopen t r s, some r.number)
  | none =>
    if (ordinaryRecords s).length < 23 then (createRecord t s, some s.alerts.nextNumber)
    else
      match evictionChoice s with
      | some r => (createRecord t (alertRemoved r 1 (removeRecord r.number s)), some s.alerts.nextNumber)
      | none => (triggerListFull s, none)

/-- A trigger carried out whole, and the tone arbiter's re-evaluation after the alert list's own events
(R170, R184; log 15). -/
def raiseAlert (t : Trigger) (s : State) : State := reevaluateTone (storeTrigger t s).1

end Sys2Proof.Machine
end

