-- ==== Sys2Proof/Machine/AxisOps.lean ====
section
/-! DEFINITION. Operations over one axis: the drive (R79), leaving a state, stopping, holding, resuming,
disabling and start requests (R82, R92, R95, R96, R98), and the units they return (R104, R109). -/

namespace Sys2Proof.Machine

/-! ## Drive and feedback -/

/-- The two states in which an axis drives. -/
def AxisState.driving : AxisState → Bool
  | .accelerating | .moving => true
  | .disabled | .idle | .waitingStart | .settling | .held | .faulted => false

/-- The level of the direction output for a direction (R79; log 7). -/
def directionLevel : Direction → Level
  | .forward => if Config.forwardIsHigh then .high else .low
  | .reverse => if Config.forwardIsHigh then .low else .high

/-- The latest sample of an axis's position channel (R77). -/
def positionSampleOf (s : State) (a : AxisId) : Option Sample :=
  (s.axis a).positionChannel.bind fun c => (s.channel c).latest

/-- FORWARD when the target is greater than the latest value, REVERSE otherwise (R79). -/
def directionTo (target latest : Nat) : Direction := if latest < target then .forward else .reverse

/-- No latest value, or a latest sample whose age exceeds the feedback timeout (R83, R86). -/
def feedbackStale (s : State) (a : AxisId) : Bool :=
  match positionSampleOf s a with
  | none => true
  | some p => (s.axis a).feedbackTimeout < elapsed p.time s.clock

/-- Switch the drive on in a direction at a level; the direction output follows (R79). -/
def Axis.driveOn (x : Axis) (d : Direction) (level : Nat) : Axis :=
  { x with drive := .on d level, dirOut := directionLevel d }

/-! ## The start queue and the units -/

/-- An axis joins the tail of the start queue (R105). -/
def joinQueue (a : AxisId) (s : State) : State :=
  s.modArbiter fun x => { x with startQueue := x.startQueue ++ [a] }

/-- An axis leaves the start queue from its place (R105). -/
def leaveQueue (a : AxisId) (s : State) : State :=
  s.modArbiter fun x => { x with startQueue := x.startQueue.filter (· ≠ a) }

/-- An axis's start cost returns and its acceleration timer is cancelled (R108, R109). -/
def returnUnits (a : AxisId) (s : State) : State :=
  s.modArbiter fun x =>
    { x with unitsInUse := x.unitsInUse - (s.axis a).startCost, accel := modTable x.accel a fun _ => none }

/-- An axis leaves the start arbiter: from WAITING_START it leaves the start queue, from ACCELERATING its
units return (R92, R93, R95, R98). -/
def releaseAxis (a : AxisId) (s : State) : State :=
  match (s.axis a).state with
  | .waitingStart => leaveQueue a s
  | .accelerating => returnUnits a s
  | .disabled | .idle | .moving | .settling | .held | .faulted => s

/-- The drive OFF and the travel and settle timers cancelled (R92, R93, R95, R98). -/
def Axis.quit (x : Axis) : Axis := { x with drive := .off, travel := none, settle := none }

/-! ## Events of an axis -/

/-- The cue step an axis event carries (R103). -/
def Axis.moveStep (x : Axis) : Option StepId :=
  match x.move with
  | some ⟨_, _, .cueStep _ i⟩ => some i
  | _ => none

/-- An axis event with the axis's exhibit, number and step (R103). -/
def axisEvent (kind : EventKind) (a : AxisId) (x : Axis) (value : Option (BitVec 16)) : Event :=
  { kind := kind, exhibit := x.exhibit, subject := some (BitVec.ofNat 8 a.val), value := value, step := x.moveStep }

/-! ## Stops, holds, resumptions, disabling -/

/-- A stop takes a busy axis to IDLE with no event (R92). -/
def stopAxis (a : AxisId) (s : State) : State :=
  if (s.axis a).state.busy then
    (releaseAxis a s).modAxis a fun x => { x.quit with state := .idle, move := none, corrections := 0 }
  else s

/-- The states a hold takes to HELD (R95). -/
def AxisState.working : AxisState → Bool
  | .waitingStart | .accelerating | .moving | .settling => true
  | .disabled | .idle | .held | .faulted => false

/-- A working axis becomes HELD with AXIS_HELD, its move and correction count kept (R95). -/
def holdAxis (a : AxisId) (s : State) : State :=
  if (s.axis a).state.working then
    let t := (releaseAxis a s).modAxis a fun x => { x.quit with state := .held }
    emit [floorQueue t (t.axis a).exhibit] (axisEvent .axisHeld a (t.axis a) none) t
  else s

/-- A HELD axis rejoins the start queue with AXIS_RESUMED, its move and correction count kept (R96). -/
def resumeAxis (a : AxisId) (s : State) : State :=
  if (s.axis a).state = .held then
    let t := joinQueue a (s.modAxis a fun x => { x with state := .waitingStart })
    emit [floorQueue t (t.axis a).exhibit] (axisEvent .axisResumed a (t.axis a) none) t
  else s

/-- An axis becomes DISABLED (R98). -/
def disableAxis (a : AxisId) (s : State) : State :=
  (releaseAxis a s).modAxis a fun x =>
    { x.quit with state := .disabled, move := none, fault := none, corrections := 0, suppress := false }

/-- A DISABLED axis becomes IDLE as its exhibit comes into use (R81). -/
def enableAxis (a : AxisId) (s : State) : State :=
  if (s.axis a).state = .disabled then
    s.modAxis a fun x =>
      { x with state := .idle, move := none, drive := .off, corrections := 0, fault := none }
  else s

/-- A start request on an IDLE axis (R82); it has no effect in any other state (section 5.2). -/
def startRequest (a : AxisId) (m : Move) (s : State) : State :=
  if (s.axis a).state = .idle then
    joinQueue a (s.modAxis a fun x => { x with state := .waitingStart, move := some m, corrections := 0 })
  else s

/-- Whether an axis's pending move has a step of frame `f` as its source (R97). -/
def moveOfFrame (s : State) (f : FrameId) (a : AxisId) : Bool :=
  match (s.axis a).move with
  | some ⟨_, _, .cueStep g _⟩ => g = f
  | _ => false

/-- The busy axes of a frame that leaves its active slot are stopped, in ascending number (R97). -/
def stopFrameAxes (f : FrameId) (s : State) : State :=
  forEach (fun a t => if moveOfFrame t f a then stopAxis a t else t) s

end Sys2Proof.Machine
end

