-- ==== Sys2Proof/Machine/CueOps.lean ====
section
/-! DEFINITION. Operations of the cue store and runner: groups, step completion, taking and retirement
(R118-R135), and the suspension of step timers (R133). -/

namespace Sys2Proof.Machine

/-! ## Groups (R120) -/

/-- The number of leading steps whose with-previous flag is set. -/
def leadingWithPrevious : List CueStep → Nat
  | [] => 0
  | x :: rest => if x.withPrevious then leadingWithPrevious rest + 1 else 0

/-- The index after the last step of the group that begins at step `g` (R120). -/
def groupEnd (steps : List CueStep) (g : Nat) : Nat := g + 1 + leadingWithPrevious (steps.drop (g + 1))

/-- The step indexes of the group that begins at step `g`, ascending. -/
def groupSteps (steps : List CueStep) (g : Nat) : List Nat :=
  (List.range (min (groupEnd steps g) steps.length)).drop g

/-- Whether a step waits for a press. -/
def CueStep.waitsForPress (x : CueStep) : Bool :=
  match x.body with
  | .waitPress _ _ => true
  | _ => false

/-- Whether the group that begins at step `g` contains a WAIT_PRESS step (R134). -/
def groupWaits (steps : List CueStep) (g : Nat) : Bool :=
  (groupSteps steps g).any fun i =>
    match steps[i]? with
    | some x => x.waitsForPress
    | none => false

/-- The number of steps whose status is DONE (R119). -/
def CueFrame.stepsCompleted (f : CueFrame) : Nat := (f.run.filter fun r => r.status = .done).length

/-- Whether step `i` is DONE. -/
def CueFrame.stepIsDone (f : CueFrame) (i : Nat) : Bool :=
  match f.run[i]? with
  | some r => r.status = .done
  | none => false

/-- Update what a frame keeps for step `i`. -/
def CueFrame.modRun (f : CueFrame) (i : Nat) (g : StepRun → StepRun) : CueFrame :=
  { f with run := f.run.modify i g }

/-- A step index as the cue step field of an event or of a move's source. -/
def stepIndex (i : Nat) : StepId := ⟨i % 6, Nat.mod_lt _ (by decide)⟩

/-! ## Places (R118) -/

/-- A frame loses its contents as it enters the free list (R119). -/
def freeFrame (f : FrameId) (s : State) : State :=
  { s.modFrame f fun _ => {} with freeList := s.freeList ++ [f] }

/-- The taken set with a frame, in ascending order. -/
def insertTaken (f : FrameId) : List FrameId → List FrameId
  | [] => [f]
  | g :: rest => if f < g then f :: g :: rest else if f = g then g :: rest else g :: insertTaken f rest

/-- The frame leaves the active slot or cue queue of its exhibit. -/
def unplace (f : FrameId) (e : ExhibitId) (s : State) : State :=
  s.modExhibit e fun x =>
    { x with active := if x.active = some f then none else x.active, queue := x.queue.filter (· ≠ f) }

/-! ## Groups start and steps complete (R128, R132) -/

/-- Start step `i` of frame `f`: it becomes ACTIVE and begins what its kind gives (R128). -/
def startStep (f : FrameId) (i : Nat) (s : State) : State :=
  match (s.frame f).steps[i]? with
  | none => s
  | some ⟨_, .move a target speed _⟩ =>
    startRequest a ⟨target, speed.getD (s.axis a).defaultSpeed, .cueStep f (stepIndex i)⟩ <|
      s.modFrame f fun x => x.modRun i fun _ => ⟨.active, some .travelling, .notRunning⟩
  | some ⟨_, .pause d⟩ =>
    s.modFrame f fun x => x.modRun i fun _ => ⟨.active, none, .running d⟩
  | some ⟨_, .waitPress _ none⟩ =>
    s.modFrame f fun x => x.modRun i fun _ => ⟨.active, none, .notRunning⟩
  | some ⟨_, .waitPress _ (some t)⟩ =>
    s.modFrame f fun x => x.modRun i fun _ => ⟨.active, none, .running t⟩

/-- The steps of the group at `g` become ACTIVE and start in ascending index (R128). -/
def beginGroup (f : FrameId) (g : Nat) (s : State) : State :=
  forList (groupSteps (s.frame f).steps g) (fun i t => startStep f i t)
    (s.modFrame f fun x => { x with currentGroup := some g })

/-- An exhibit whose frame is taken becomes RUNNING, unless it is RUNNING already (R127). -/
def becomeRunning (e : ExhibitId) (s : State) : State :=
  if (s.exhibit e).state = .running then s else changeState e .running s

/-- The runner takes the head of exhibit `e`'s cue queue (R127). It is called in gallery OPEN only, so
the first group starts whatever its steps are (R128). -/
def takeFrame (e : ExhibitId) (s : State) : State :=
  match (s.exhibit e).queue with
  | [] => s
  | f :: rest =>
    let t := s.modExhibit e fun x => { x with active := some f, queue := rest }
    let u := emit [.showQ]
      { kind := .cueStarted, exhibit := some e, subject := some (BitVec.ofNat 8 f.val) } t
    beginGroup f 0 (becomeRunning e u)

/-- Whether the runner takes a frame for an exhibit that is, or would become, READY (R127). -/
def canTake (s : State) (e : ExhibitId) : Bool := s.mode = .opened && !(s.exhibit e).queue.isEmpty

/-- Steps 1 to 5 of a retirement: the timers are cancelled and the current group is absent, the record
is formed, the frame moves to the retired list, and CUE_RETIRED is appended (R135). -/
def retireFrame (f : FrameId) (e : ExhibitId) (o : CueOutcome) (fault : Option AxisId) (s : State) : State :=
  let t := s.modFrame f fun x =>
    { x with currentGroup := none, run := x.run.map fun r => { r with timer := .notRunning } }
  let r : RetiredRecord := ⟨f, e, o, (s.frame f).stepsCompleted, s.clock, fault⟩
  let u := unplace f e t
  emit [.showQ]
    { kind := .cueRetired, exhibit := some e, subject := some (BitVec.ofNat 8 f.val)
      value := some (BitVec.ofNat 16 o.code) }
    { u with retiredList := u.retiredList ++ [r] }

/-- Step 7 of a retirement from an active slot: a RUNNING exhibit takes its next frame in OPEN or
becomes READY; an exhibit whose state the cause has changed, or a HELD one, stays (R135). -/
def followRetirement (e : ExhibitId) (s : State) : State :=
  if (s.exhibit e).state = .running then
    if canTake s e then takeFrame e s else changeState e .ready s
  else s

/-- The active frame of exhibit `e`, if any, is retired (R135). -/
def retireActive (e : ExhibitId) (o : CueOutcome) (fault : Option AxisId) (s : State) : State :=
  match (s.exhibit e).active with
  | none => s
  | some f => followRetirement e (stopFrameAxes f (retireFrame f e o fault s))

/-- Every frame in exhibit `e`'s cue queue is retired CANCELLED, oldest first (R135, R139). -/
def retireQueue (e : ExhibitId) (s : State) : State :=
  forList (s.exhibit e).queue (fun f t => retireFrame f e .cancelled none t) s

/-- A group starts: in QUIET one that waits for a press retires its frame CANCELLED with its steps
PENDING (R128, R134). -/
def startGroup (e : ExhibitId) (f : FrameId) (g : Nat) (s : State) : State :=
  if s.mode = .quiet && groupWaits (s.frame f).steps g then
    retireActive e .cancelled none (s.modFrame f fun x => { x with currentGroup := some g })
  else beginGroup f g s

/-- Step `i` becomes DONE: its timer is cancelled and its move phase ends (R119, R131). -/
def markDone (f : FrameId) (i : Nat) (s : State) : State :=
  s.modFrame f fun x => x.modRun i fun _ => ⟨.done, none, .notRunning⟩

/-- What a step that became DONE leads to: the group goes on, the next group starts, or the frame
retires DONE (R132). -/
def afterDone (e : ExhibitId) (f : FrameId) (s : State) : State :=
  match (s.frame f).currentGroup with
  | none => s
  | some g =>
    if (groupSteps (s.frame f).steps g).all (s.frame f).stepIsDone then
      if groupEnd (s.frame f).steps g < (s.frame f).steps.length then
        startGroup e f (groupEnd (s.frame f).steps g) s
      else retireActive e .done none s
    else s

/-- The runner is told that the axis of step `i` of frame `f` has arrived (R129). -/
def moveArrived (f : FrameId) (i : Nat) (s : State) : State :=
  match (s.frame f).exhibit, (s.frame f).steps[i]?, (s.frame f).run[i]? with
  | some e, some ⟨_, .move _ _ _ dwell⟩, some ⟨.active, some .travelling, _⟩ =>
    match dwell.getD 0 with
    | 0 => afterDone e f (markDone f i s)
    | d + 1 => s.modFrame f fun x => x.modRun i fun _ => ⟨.active, some .dwelling, .running (d + 1)⟩
  | _, _, _ => s

/-- The lowest ACTIVE WAIT_PRESS step on line `l` in the current group of a frame (R35, R131). -/
def waitingStep (x : CueFrame) (l : LineId) : Option Nat :=
  x.currentGroup.bind fun g =>
    (groupSteps x.steps g).find? fun i =>
      match x.steps[i]?, x.run[i]? with
      | some ⟨_, .waitPress m _⟩, some r => m = l && r.status = .active
      | _, _ => false

/-! ## Suspension (R133) -/

/-- The full length of a step's timer: the duration, the dwell or the timeout (R133). -/
def StepBody.fullTime : StepBody → Nat
  | .move _ _ _ dwell => dwell.getD 0
  | .pause d => d
  | .waitPress _ timeout => timeout.getD 0

/-- A running timer becomes suspended. -/
def StepRun.suspend (r : StepRun) : StepRun :=
  match r.timer with
  | .running _ => { r with timer := .suspended }
  | _ => r

/-- A suspended timer restarts at the full length of its step. -/
def StepRun.restart (step : CueStep) (r : StepRun) : StepRun :=
  match r.timer with
  | .suspended => { r with timer := .running step.body.fullTime }
  | _ => r

/-- Each running step timer of exhibit `e`'s active frame becomes suspended (R133). -/
def suspendTimers (e : ExhibitId) (s : State) : State :=
  match (s.exhibit e).active with
  | none => s
  | some f => s.modFrame f fun x => { x with run := x.run.map StepRun.suspend }

/-- Each suspended step timer of exhibit `e`'s active frame restarts in full (R133). -/
def restartTimers (e : ExhibitId) (s : State) : State :=
  match (s.exhibit e).active with
  | none => s
  | some f => s.modFrame f fun x => { x with run := x.steps.zipWith StepRun.restart x.run }

end Sys2Proof.Machine
end

