-- ==== Sys2Proof/Machine/ArbiterOps.lean ====
section
/-! DEFINITION. Axis faults and their exhibits (R93, R94, R14), grants and the arbiter's evaluation
(R83, R106, R107), arrival and corrections (R85, R88), and the conclusion of an event. -/

namespace Sys2Proof.Machine

/-! ## Faults -/

/-- The busy axes of an exhibit's axes list are stopped, in ascending number (R94). -/
def stopExhibitAxes (e : ExhibitId) (s : State) : State :=
  forList (s.exhibit e).axes (fun a t => stopAxis a t) s

/-- An exhibit reacts to the fault of one of its axes (R14, R94): in use, it becomes FAULTED, its frames
retire, and its other busy axes stop; FAULTED or in SERVICE, it stays. -/
def exhibitFault (e : ExhibitId) (a : AxisId) (s : State) : State :=
  match (s.exhibit e).state with
  | .ready | .running | .held =>
    stopExhibitAxes e (retireQueue e (retireActive e .faulted (some a) (changeState e .faulted s)))
  | .closed | .faulted | .service => s

/-- The queues of AXIS_FAULT: the desk queue, with the service or the show queue (R48, R103). -/
def faultQueues (s : State) (e : Option ExhibitId) : List QueueName := [floorQueue s e, .deskQ]

/-- The axis of a fault: released, its drive OFF, FAULTED with the cause recorded (step 1 of R93). -/
def markFaulted (a : AxisId) (cause : FaultCause) (s : State) : State :=
  (releaseAxis a s).modAxis a fun x => { x.quit with state := .faulted, fault := some cause }

/-- AXIS_FAULT with the cause, and the step of the pending move when it came from a cue (step 2 of R93). -/
def reportFault (a : AxisId) (cause : FaultCause) (s : State) : State :=
  emit (faultQueues s (s.axis a).exhibit)
    (axisEvent .axisFault a (s.axis a) (some (BitVec.ofNat 16 cause.code))) s

/-- The fields a fault clears (step 3 of R93). -/
def forgetMove (a : AxisId) (s : State) : State :=
  s.modAxis a fun x => { x with move := none, corrections := 0, suppress := false }

/-- The AXIS_FAULT alert (step 4 of R93). -/
def raiseAxisFault (a : AxisId) (s : State) : State :=
  raiseAlert (tableTrigger .axisFault (s.axis a).exhibit (some a.val)) s

/-- The exhibit of a faulted axis reacts (step 5 of R93). -/
def faultExhibitOf (a : AxisId) (s : State) : State :=
  match (s.axis a).exhibit with
  | some e => exhibitFault e a s
  | none => s

/-- A fault of an axis that is neither DISABLED nor FAULTED: the axis, its event, its cleared fields,
its alert, and its exhibit (R93). -/
def faultAxis (a : AxisId) (cause : FaultCause) (s : State) : State :=
  if (s.axis a).state = .disabled ∨ (s.axis a).state = .faulted then s
  else
    faultExhibitOf a (raiseAxisFault a (forgetMove a (reportFault a cause (markFaulted a cause s))))

/-! ## Grants -/

/-- The free units (R104). -/
def freeUnits (s : State) : Nat := s.timing.startBudget - s.arbiter.unitsInUse

/-- The arbiter's part of a grant: the head leaves the queue, its cost is charged, its acceleration timer
starts (R106). -/
def chargeGrant (a : AxisId) (s : State) : State :=
  s.modArbiter fun x =>
    { x with
      startQueue := x.startQueue.tail
      unitsInUse := x.unitsInUse + (s.axis a).startCost
      accel := modTable x.accel a fun _ => some (s.axis a).accelTime }

/-- The axis's part of a grant with fresh feedback: the drive is set, the travel timer starts (R83). -/
def startDrive (a : AxisId) (s : State) : State :=
  match (s.axis a).move, positionSampleOf s a with
  | some m, some p =>
    s.modAxis a fun x =>
      { x.driveOn (directionTo m.target p.value) m.speed with
        state := .accelerating, travel := some x.travelLimit }
  | _, _ => s

/-- A grant carried out whole: the axis becomes ACCELERATING, or, without fresh feedback, its units
return at once and it faults NO_FEEDBACK within the grant (R83, R106). -/
def grant (a : AxisId) (s : State) : State :=
  let t := chargeGrant a s
  if feedbackStale t a then faultAxis a .noFeedback (returnUnits a t) else startDrive a t

/-- The evaluation with at most `fuel` grants: the head is granted while the freeze is not in force and
the free units are at least its cost, strictly first in, first out (R106). -/
def evaluateUpTo : (fuel : Nat) → State → State
  | 0, s => s
  | fuel + 1, s =>
    match s.arbiter.startQueue with
    | [] => s
    | a :: _ =>
      if frozen s ∨ freeUnits s < (s.axis a).startCost then s else evaluateUpTo fuel (grant a s)

/-- The arbiter's evaluation (R106, R107). No axis joins the queue during it, so its length bounds the
grants. -/
def evaluate (s : State) : State := evaluateUpTo s.arbiter.startQueue.length s

/-- The conclusion of an event carried out with its consequences: the settle test (R5, R80), the
arbiter's evaluation (R107), and the settle test after the faults a grant may bring (log 14). -/
def conclude (s : State) : State := settleTest (evaluate (settleTest s))

/-! ## Arrival and corrections -/

/-- The distance between two positions. -/
def distance (x y : Nat) : Nat := if x < y then y - x else x - y

/-- A correction: the fourth faults NO_SETTLE, an earlier one makes a correction start (R88). -/
def correctAxis (a : AxisId) (s : State) : State :=
  if (s.axis a).corrections = 3 then faultAxis a .noSettle s
  else
    joinQueue a <| s.modAxis a fun x =>
      { x.quit with state := .waitingStart, corrections := x.corrections + 1 }

/-- Whether a sample reaches the target in the direction of drive (R85). -/
def hasArrived (d : Direction) (target tolerance value : Nat) : Bool :=
  match d with
  | .forward => target ≤ value + tolerance
  | .reverse => value ≤ target + tolerance

/-- A driving axis arrives: drive OFF, travel timer cancelled, units returned, SETTLING (R85). -/
def arriveAxis (a : AxisId) (s : State) : State :=
  (releaseAxis a s).modAxis a fun x => { x.quit with state := .settling, settle := some x.settleTime }

/-- A fresh position sample reaches an axis (R85, R88). -/
def takeSample (a : AxisId) (value : Nat) (s : State) : State :=
  match (s.axis a).state, (s.axis a).drive, (s.axis a).move with
  | .accelerating, .on d _, some m | .moving, .on d _, some m =>
    if hasArrived d m.target (s.axis a).tolerance value then arriveAxis a s else s
  | .settling, _, some m =>
    if distance value m.target ≤ 2 * (s.axis a).tolerance then s else correctAxis a s
  | _, _, _ => s

/-- AXIS_ARRIVED with the latest value, and the step of a move from a cue (step 2 of R89). -/
def reportArrival (a : AxisId) (value : Nat) (s : State) : State :=
  emit [floorQueue s (s.axis a).exhibit]
    (axisEvent .axisArrived a (s.axis a) (some (BitVec.ofNat 16 value))) s

/-- The runner is told of the arrival of a move from a cue step (step 4 of R89). -/
def tellRunner (source : MoveSource) (s : State) : State :=
  match source with
  | .cueStep f i => moveArrived f i.val s
  | .jog => s

/-- An axis arrives at its target (R89). -/
def settleAxis (a : AxisId) (value : Nat) (source : MoveSource) (s : State) : State :=
  let t := s.modAxis a fun x => { x.quit with state := .idle, corrections := 0 }
  tellRunner source ((reportArrival a value t).modAxis a fun x => { x with move := none })

/-- The judgement at the expiry of the settle timer: the axis arrives with AXIS_ARRIVED, and the runner
is told, or it is corrected (R89). -/
def judgeSettled (a : AxisId) (s : State) : State :=
  match (s.axis a).move, positionSampleOf s a with
  | some m, some p =>
    if distance p.value m.target ≤ (s.axis a).tolerance then settleAxis a p.value m.source s
    else correctAxis a s
  | _, _ => correctAxis a s

/-! ## Window events of an axis -/

/-- A position window changes: BELOW or ABOVE faults OVERTRAVEL unless suppressed, INSIDE turns the
suppression off (R90). -/
def positionWindow (a : AxisId) (w : Window) (s : State) : State :=
  match w with
  | .below | .above => if (s.axis a).suppress then s else faultAxis a .overtravel s
  | .inside => s.modAxis a fun x => { x with suppress := false }
  | .unknown => s

/-- A current window changes: ABOVE faults OVERCURRENT (R91). -/
def currentWindow (a : AxisId) (w : Window) (s : State) : State :=
  match w with
  | .above => faultAxis a .overcurrent s
  | .below | .inside | .unknown => s

end Sys2Proof.Machine
end

