-- ==== Sys2Proof/Machine/LineOps.lean ====
section
/-! DEFINITION. Operations of the line sampler: liveness (R26-R28), the placement of presses (R31-R36),
and one sample of a line (R25, R29, R30, R34, R37, R38). -/

namespace Sys2Proof.Machine

/-! ## Liveness (R26) -/

/-- Whether a line is live (R26). -/
def lineLive (s : State) (l : LineId) : Bool :=
  match (s.line l).exhibit, (s.line l).role with
  | some e, some .action =>
    (s.line l).enabled &&
      match (s.exhibit e).state with
      | .ready | .running | .held | .faulted => s.mode = .opened || s.mode = .quiet
      | .service => s.mode ≠ .setup
      | .closed => false
  | some _, some .help => (s.line l).enabled && s.mode ≠ .setup
  | _, _ => false

/-- The queue of a press destination. -/
def PressDestination.queue : PressDestination → QueueName
  | .showQueue => .showQ
  | .serviceQueue => .serviceQ

/-- BUTTON_RELEASE of a line's delivered press, with its value, and the flag and destination cleared
(R28, R34, R36). -/
def releasePress (l : LineId) (value : Option (BitVec 16)) (s : State) : State :=
  let x := s.line l
  let t :=
    match x.accepted, x.destination with
    | true, some d =>
      emit [d.queue]
        { kind := .buttonRelease, exhibit := x.exhibit, subject := some (BitVec.ofNat 8 l.val), value := value } s
    | _, _ => s
  t.modLine l fun y => { y with accepted := false, destination := none }

/-- A line leaves INERT for WAIT_RELEASE or RELEASED by its latest sample (R27). -/
def leaveInert (l : LineId) (s : State) : State :=
  s.modLine l fun x =>
    { x with
      state := if x.latest then .waitRelease else .released
      accepted := false, destination := none, debounceTimer := 0, stuckTimer := none }

/-- A live line becomes INERT, its delivered press closed by a forced release (R28). -/
def becomeInert (l : LineId) (s : State) : State :=
  (releasePress l (some 1) s).modLine l fun x =>
    { x with state := .inert, debounceTimer := 0, stuckTimer := none }

/-- A line's liveness is evaluated (R26-R28). -/
def evaluateLine (l : LineId) (s : State) : State :=
  if lineLive s l then
    if (s.line l).state = .inert then leaveInert l s else s
  else if (s.line l).state = .inert then s
  else becomeInert l s

/-- The lines of exhibit `e` are evaluated, in ascending number. -/
def evaluateExhibitLines (e : ExhibitId) (s : State) : State :=
  forEach (fun l t => if (t.line l).exhibit = some e then evaluateLine l t else t) s

/-- Every line is evaluated, in ascending number. -/
def evaluateLines (s : State) : State := forEach evaluateLine s

/-! ## Accepted presses (R32, R33, R35) -/

/-- BUTTON_PRESS of a line to a queue, with its value and cue step (R36). -/
def pressEvent (l : LineId) (q : QueueName) (value : Option (BitVec 16)) (step : Option StepId) (s : State) :
    State :=
  emit [q]
    { kind := .buttonPress, exhibit := (s.line l).exhibit, subject := some (BitVec.ofNat 8 l.val)
      value := value, step := step } s

/-- A press delivered to a queue becomes that queue's (R33). -/
def deliverPress (l : LineId) (d : PressDestination) (value : Option (BitVec 16)) (step : Option StepId)
    (s : State) : State :=
  pressEvent l d.queue value step (s.modLine l fun x => { x with destination := some d })

/-- The value of a BUTTON_PRESS: the exhibit's state when it is HELD or FAULTED (R36). -/
def pressValue (st : ExhibitState) : Option (BitVec 16) :=
  match st with
  | .held | .faulted => some (BitVec.ofNat 16 st.code)
  | .closed | .ready | .running | .service => none

/-- An accepted press on a RUNNING exhibit in OPEN: it completes the lowest ACTIVE WAIT_PRESS step on
the line, or is placed by the busy policy (cases 3 to 5 of R33; R35). -/
def offerPress (l : LineId) (e : ExhibitId) (s : State) : State :=
  let byPolicy :=
    match (s.exhibit e).busyPolicy with
    | .swallowWhileRunning => s
    | .deliver => deliverPress l .showQueue none none s
  match (s.exhibit e).active with
  | none => byPolicy
  | some f =>
    match waitingStep (s.frame f) l with
    | none => byPolicy
    | some i =>
      afterDone e f (deliverPress l .showQueue none (some (stepIndex i)) (markDone f i s))

/-- The place of an accepted press of an ACTION line: the first case of R33's table that matches. -/
def placePress (l : LineId) (e : ExhibitId) (s : State) : State :=
  match (s.exhibit e).state with
  | .service => deliverPress l .serviceQueue none none s
  | st =>
    if s.mode = .quiet then s
    else
      match st with
      | .running => offerPress l e s
      | .ready | .held | .faulted => deliverPress l .showQueue (pressValue st) none s
      | .closed | .service => s

/-- Whether a press passes the repeat guard (R31). -/
def pressAccepted (s : State) (l : LineId) : Bool :=
  match (s.line l).lastAccepted with
  | none => true
  | some t => (s.line l).repeatGuard ≤ elapsed t s.clock

/-- The test of a press for acceptance and its placement (R31-R33). -/
def testPress (l : LineId) (s : State) : State :=
  if pressAccepted s l then
    let t := s.modLine l fun x => { x with lastAccepted := some s.clock, accepted := true }
    match (t.line l).exhibit, (t.line l).role with
    | some e, some .help => raiseAlert (tableTrigger .helpCall (some e)) t
    | some e, some .action => placePress l e t
    | _, _ => t
  else s

/-! ## One sample of a line (R25) -/

/-- A line becomes STUCK with BUTTON_STUCK; the run of inactive samples is kept (R37). -/
def becomeStuck (l : LineId) (s : State) : State :=
  raiseAlert (tableTrigger .buttonStuck (s.line l).exhibit (some l.val)) <|
    s.modLine l fun x =>
      { x with
        state := .stuck, stuckTimer := none
        debounceTimer := if x.state = .releasePending then x.debounceTimer else 0 }

/-- The stuck test at a sample that leaves the line in PRESSED or RELEASE_PENDING: the stuck timer
advances by the sample's millisecond and is compared with the stuck time (R37). -/
def stuckTest (l : LineId) (s : State) : State :=
  let n := ((s.line l).stuckTimer.getD 0) + 1
  let t := s.modLine l fun x => { x with stuckTimer := some n }
  if seconds (s.line l).stuckTime ≤ n then becomeStuck l t else t

/-- The line enters RELEASED at the end of a clean run of inactive samples, with the BUTTON_RELEASE of a
delivered press (R29, R34, R38). -/
def becomeReleased (l : LineId) (s : State) : State :=
  releasePress l none <| s.modLine l fun x =>
    { x with state := .released, debounceTimer := 0, stuckTimer := none }

/-- The line enters PRESSED from PRESS_PENDING and the press is tested (R30). -/
def becomePressed (l : LineId) (s : State) : State :=
  testPress l <| s.modLine l fun x => { x with state := .pressed, debounceTimer := 0, stuckTimer := some 0 }

/-- Whether one more sample completes the line's run (R29, R30, R34, R38). -/
def runCompletes (x : Line) : Bool := x.debounce ≤ x.debounceTimer + 1

/-- The run of samples grows by one millisecond. -/
def countRun (l : LineId) (s : State) : State :=
  s.modLine l fun x => { x with debounceTimer := x.debounceTimer + 1 }

/-- An active sample applied to the line's state (R29, R30, R34, R38). -/
def activeSample (l : LineId) (s : State) : State :=
  match (s.line l).state with
  | .inert => s
  | .waitRelease | .stuck => s.modLine l fun x => { x with debounceTimer := 0 }
  | .released => s.modLine l fun x => { x with state := .pressPending, debounceTimer := 1 }
  | .pressPending => if runCompletes (s.line l) then becomePressed l s else countRun l s
  | .pressed => stuckTest l s
  | .releasePending => stuckTest l (s.modLine l fun x => { x with state := .pressed, debounceTimer := 0 })

/-- An inactive sample applied to the line's state (R29, R30, R34, R38). -/
def inactiveSample (l : LineId) (s : State) : State :=
  match (s.line l).state with
  | .inert | .released => s
  | .waitRelease | .stuck => if runCompletes (s.line l) then becomeReleased l s else countRun l s
  | .pressPending => s.modLine l fun x => { x with state := .released, debounceTimer := 0 }
  | .pressed => stuckTest l (s.modLine l fun x => { x with state := .releasePending, debounceTimer := 1 })
  | .releasePending =>
    if runCompletes (s.line l) then becomeReleased l s else stuckTest l (countRun l s)

/-- One sample of a line: it becomes the latest sample and is applied to the line's state (R25). -/
def sampleLine (l : LineId) (level : Level) (s : State) : State :=
  let active := level = (s.line l).activeLevel
  let t := s.modLine l fun x => { x with input := level, latest := active }
  if active then activeSample l t else inactiveSample l t

/-- The level that a line does not treat as pressed. -/
def Level.other : Level → Level
  | .low => .high
  | .high => .low

end Sys2Proof.Machine
end

