-- ==== Sys2Proof/Machine/ExhibitOps.lean ====
section
/-! DEFINITION. Operations of the exhibit table: hold reasons and the reaction to them (R13), the GUARD
reason and its timers (R20-R22), opening and closing (R10, R16), and entry to SERVICE (R18). -/

namespace Sys2Proof.Machine

/-! ## The reaction to a hold-reason set (R13) -/

/-- The axes of an exhibit's list, in ascending number, each through `f`. -/
def forAxes (e : ExhibitId) (f : AxisId → State → State) (s : State) : State :=
  forList (s.exhibit e).axes f s

/-- The set has become nonempty (R13, R95, R133). -/
def onHeld (e : ExhibitId) (s : State) : State :=
  match (s.exhibit e).state with
  | .ready | .running => suspendTimers e (forAxes e holdAxis (changeState e .held s))
  | .held => suspendTimers e (forAxes e holdAxis s)
  | .service => forAxes e holdAxis s
  | .closed | .faulted => s

/-- The set has become empty (R12, R13, R96, R133). -/
def onReleased (e : ExhibitId) (s : State) : State :=
  match (s.exhibit e).state with
  | .held =>
    match (s.exhibit e).active with
    | some _ => restartTimers e (forAxes e resumeAxis (changeState e .running s))
    | none =>
      if canTake s e then forAxes e resumeAxis (takeFrame e s)
      else forAxes e resumeAxis (changeState e .ready s)
  | .service => forAxes e resumeAxis s
  | .closed | .ready | .running | .faulted => s

/-- A claimant adds its reason to an exhibit's set (R13). -/
def addHold (r : HoldReason) (e : ExhibitId) (s : State) : State :=
  if (s.exhibit e).holds.has r then s
  else
    let t := s.modExhibit e fun x => { x with holds := x.holds.put r true }
    if (s.exhibit e).holds.isEmpty then onHeld e t else t

/-- A claimant removes its reason from an exhibit's set (R13). -/
def removeHold (r : HoldReason) (e : ExhibitId) (s : State) : State :=
  if (s.exhibit e).holds.has r then
    let t := s.modExhibit e fun x => { x with holds := x.holds.put r false }
    if (t.exhibit e).holds.isEmpty then onReleased e t else t
  else s

/-! ## GUARD (R20, R21, R22) -/

/-- The guard-long timer starts (R22). -/
def startGuardLong (e : ExhibitId) (s : State) : State :=
  s.modExhibit e fun x => { x with guardLong := some (seconds s.timing.guardAlertTime) }

/-- The guard release timer expires: GUARD is removed and the guard-long timer cancelled (R21). -/
def guardReleased (e : ExhibitId) (s : State) : State :=
  removeHold .guard e (s.modExhibit e fun x => { x with guardRelease := none, guardLong := none })

/-- The presence window becomes INSIDE or UNKNOWN (R20). -/
def guardEntered (e : ExhibitId) (s : State) : State :=
  if (s.exhibit e).holds.guard then s.modExhibit e fun x => { x with guardRelease := none }
  else addHold .guard e (if (s.exhibit e).state = .closed then s else startGuardLong e s)

/-- The presence window becomes BELOW or ABOVE: a release delay of 0 expires at its start (R20). -/
def guardLeft (e : ExhibitId) (s : State) : State :=
  if (s.exhibit e).holds.guard && (s.exhibit e).guardRelease.isNone then
    match s.timing.guardReleaseDelay with
    | 0 => guardReleased e s
    | d + 1 => s.modExhibit e fun x => { x with guardRelease := some (d + 1) }
  else s

/-- A change of an exhibit's presence window (R20). -/
def guardWindow (e : ExhibitId) (w : Window) (s : State) : State :=
  match w with
  | .inside | .unknown => guardEntered e s
  | .below | .above => guardLeft e s

/-! ## Opening and closing -/

/-- The hold-reason set computed afresh at an opening (R10). -/
def freshHolds (s : State) (e : ExhibitId) : HoldSet :=
  { guard := presenceWindow s e = some .inside || presenceWindow s e = some .unknown
    lapse := s.showLink.state = .lapsed
    supply := s.arbiter.sag = .sagHold }

/-- The fresh hold-reason set of an opening takes the place of the tracked one; without GUARD the guard
release timer is cancelled (R10). -/
def applyFresh (e : ExhibitId) (fresh : HoldSet) (s : State) : State :=
  s.modExhibit e fun x =>
    { x with holds := fresh, guardRelease := if fresh.guard then x.guardRelease else none }

/-- An exhibit with GUARD that is opened, or enters SERVICE from CLOSED, starts its guard-long timer
(R22). -/
def guardOnEntry (e : ExhibitId) (s : State) : State :=
  if (s.exhibit e).holds.guard then startGuardLong e s else s

/-- An exhibit is opened from CLOSED (R10, R22, R81). -/
def openExhibit (e : ExhibitId) (s : State) : State :=
  let fresh := freshHolds s e
  guardOnEntry e <| evaluateExhibitLines e <| forAxes e enableAxis <|
    changeState e (if fresh.isEmpty then .ready else .held) (applyFresh e fresh s)

/-- An exhibit is closed from any state (R16, R98). -/
def closeExhibit (e : ExhibitId) (s : State) : State :=
  let t := retireQueue e (retireActive e .cancelled none (changeState e .closed s))
  let u := (forAxes e disableAxis t).modExhibit e fun x =>
    { x with holds := { x.holds with attendant := false, lapse := false }, guardLong := none }
  evaluateExhibitLines e u

/-- An exhibit that enters SERVICE while the sag hold is in force receives SUPPLY (R113). -/
def supplyOnEntry (e : ExhibitId) (s : State) : State :=
  if s.arbiter.sag = .sagHold then addHold .supply e s else s

/-- An exhibit enters SERVICE from CLOSED or FAULTED (R18, R22, R81, R113). -/
def enterService (e : ExhibitId) (s : State) : State :=
  let t := changeState e .service s
  supplyOnEntry e <|
    if (s.exhibit e).state = .closed then
      guardOnEntry e (evaluateExhibitLines e (forAxes e enableAxis t))
    else evaluateExhibitLines e t

end Sys2Proof.Machine
end

