-- ==== Sys2Proof/Machine/ScannerOps.lean ====
section
/-! DEFINITION. Operations of the scanner: passes and regimes (R62-R71), the window filter (R59), and
the handing on of window changes (R60), with the sag (R111, R114), AFTER_HOURS (R171) and
SENSE_CHANGE. -/

namespace Sys2Proof.Machine

/-! ## Passes (R62, R65) -/

/-- No conversion is in flight and there is no pass position. -/
def Scanner.stopPass (x : Scanner) (st : ScannerState) : Scanner :=
  { x with state := st, passPosition := none, inFlight := none }

/-- The conversion of entry `i` starts (R57). -/
def Scanner.convertEntry (x : Scanner) (i : Nat) (entry : ScanEntry) : Scanner :=
  { x with state := .converting, passPosition := some i, inFlight := some entry.channel }

/-- A day pass starts at entry 0; over an empty list it ends at its start (R62). -/
def Scanner.startDayPass (x : Scanner) : Scanner :=
  match x.scanList with
  | [] => x.stopPass .waiting
  | entry :: _ => x.convertEntry 0 entry

/-- The first entry at or after `i` that has the keep-when-closed flag (R62). -/
def keepEntryFrom (i : Nat) : List ScanEntry → Option (Nat × ScanEntry)
  | [] => none
  | x :: rest => if x.keepWhenClosed then some (i, x) else keepEntryFrom (i + 1) rest

/-- A closed pass goes on at the first keep-when-closed entry from entry `i` on; without one it ends and
the scanner becomes DOZING (R62, R69). -/
def Scanner.closedPassFrom (x : Scanner) (i : Nat) : Scanner :=
  match keepEntryFrom i (x.scanList.drop i) with
  | none => x.stopPass .dozing
  | some (j, entry) => x.convertEntry j entry

/-- What the day mode does at once when the converter is ready (R65, R70). -/
def Scanner.beginDay (pace : Nat) (x : Scanner) : Scanner :=
  match x.dayMode with
  | .continuous => x.startDayPass
  | .paced => { x.startDayPass with pace := some pace }
  | .single =>
    if x.passRequested then { x.startDayPass with passRequested := false } else x.stopPass .waiting

/-- The converter powers up (R65). -/
def Scanner.powerUp (x : Scanner) : Scanner := { x.stopPass .warming with warmUp := some 1 }

/-- The end of a day pass (R66, R67, R68). -/
def Scanner.endDayPass (x : Scanner) : Scanner :=
  match x.dayMode with
  | .continuous => x.startDayPass
  | .paced | .single => x.stopPass .waiting

/-- The pass advances after the completion at its position (R58, R62). -/
def Scanner.advance (x : Scanner) (i : Nat) : Scanner :=
  match x.regime with
  | .day =>
    match x.scanList[i + 1]? with
    | some entry => x.convertEntry (i + 1) entry
    | none => x.endDayPass
  | .closedScan => x.closedPassFrom (i + 1)
  | .off => x.stopPass .off

/-! ## Regimes (R70, R71) -/

/-- The regime the gallery gives (R70). -/
def regimeOf (s : State) : Regime :=
  match s.mode with
  | .setup => .off
  | .opened | .quiet => .day
  | .closed => if (List.finRange 16).any fun e => inService s e then .day else .closedScan

/-- The change to regime DAY (R70). -/
def Scanner.toDay (pace : Nat) (x : Scanner) : Scanner :=
  let y := { x with regime := .day, passRequested := false, closedPaceTimer := none }
  match x.state with
  | .off | .dozing => y.powerUp
  | .converting => (y.stopPass .waiting).beginDay pace
  | .warming | .waiting => y

/-- The change to regime CLOSED_SCAN (R71). -/
def Scanner.toClosedScan (closedPace : Nat) (x : Scanner) : Scanner :=
  let y := { x with regime := .closedScan, passRequested := false, pace := none, closedPaceTimer := some closedPace }
  match x.state with
  | .off => y.powerUp
  | .converting | .waiting => y.closedPassFrom 0
  | .warming | .dozing => y

/-- The change to regime OFF (R71). -/
def Scanner.toOff (x : Scanner) : Scanner :=
  { x.stopPass .off with
    regime := .off, passRequested := false, warmUp := none, pace := none, closedPaceTimer := none }

/-- The re-evaluation of the regime: the same regime leaves the scanner as it is (R70, R71). -/
def reviewRegime (s : State) : State :=
  if s.scanner.regime = regimeOf s then s
  else
    match regimeOf s with
    | .off => s.modScanner Scanner.toOff
    | .day => s.modScanner (Scanner.toDay s.timing.paceInterval)
    | .closedScan => s.modScanner (Scanner.toClosedScan s.timing.closedPace)

/-! ## The window filter (R59) -/

/-- The zone of a result (R59). -/
def Channel.zoneOf (x : Channel) (value : Nat) : Zone :=
  if value < x.lower then .below else if x.upper < value then .above else .inside

/-- The window state a zone names. -/
def Zone.window : Zone → Window
  | .below => .below
  | .inside => .inside
  | .above => .above

/-- The count of results that agree on a zone, this one included (R59). -/
def Channel.agreed (x : Channel) (z : Zone) : Nat := if x.candidate = some z then x.agreement + 1 else 1

/-- The window filter applied to a result (R59). -/
def Channel.filter (x : Channel) (value : Nat) : Channel :=
  let z := x.zoneOf value
  if z.window = x.window then { x with agreement := 0, candidate := none }
  else if x.filterCount ≤ x.agreed z then { x with window := z.window, agreement := 0, candidate := none }
  else { x with candidate := some z, agreement := x.agreed z }

/-- A channel's window reset to UNKNOWN (R61). -/
def Channel.resetWindow (x : Channel) : Channel :=
  { x with window := .unknown, agreement := 0, candidate := none }

/-- A channel's run-time fields at their warm-restart values (R55). -/
def Channel.warm (x : Channel) : Channel := { x.resetWindow with latest := none }

/-! ## The supply window (R111, R114) -/

/-- SUPPLY is removed from every exhibit that has it, in ascending number (R114). -/
def removeSupply (s : State) : State := forEach (fun e t => removeHold .supply e t) s

/-- The supply window becomes BELOW: SUPPLY_SAG, and from NORMAL the sag hold timer (R111). -/
def supplyBelow (s : State) : State :=
  let t := raiseAlert (tableTrigger .supplySag) s
  match t.arbiter.sag with
  | .normal => t.modArbiter fun x => { x with sag := .sagPending, sagTimer := some s.timing.sagHoldTime }
  | .sagPending | .sagHold => t

/-- The supply window becomes INSIDE or ABOVE: the sag ends (R111, R114). -/
def supplyGood (s : State) : State :=
  let t := s.modArbiter fun x => { x with sag := .normal, sagTimer := none }
  match s.arbiter.sag with
  | .sagHold => removeSupply t
  | .normal | .sagPending => t

/-- A change of the supply window (R111). -/
def supplyWindow (w : Window) (s : State) : State :=
  match w with
  | .below => supplyBelow s
  | .inside | .above => supplyGood s
  | .unknown => s

/-! ## Handing on (R60) -/

/-- AFTER_HOURS for an exhibit (R171). -/
def afterHours (e : ExhibitId) (s : State) : State := raiseAlert (tableTrigger .afterHours (some e)) s

/-- A change of an exhibit's presence window at the exhibit table and the alert list (R20, R60, R171). -/
def presenceChanged (e : ExhibitId) (w : Window) (s : State) : State :=
  let t := guardWindow e w s
  if w = .inside && t.mode = .closed && !inService t e then afterHours e t else t

/-- A change of channel `c`'s window is handed to the owner of its role (R60). -/
def handWindow (c : ChannelId) (s : State) : State :=
  let w := (s.channel c).window
  match (s.channel c).role, (s.channel c).binding with
  | .position, some (.axis a) => positionWindow a w s
  | .current, some (.axis a) => currentWindow a w s
  | .presence, some (.exhibit e) => presenceChanged e w s
  | .supply, _ => supplyWindow w s
  | .general, _ =>
    emit [.showQ]
      { kind := .senseChange, subject := some (BitVec.ofNat 8 c.val), value := some (BitVec.ofNat 16 w.code) } s
  | _, _ => s

/-- A POSITION channel's result is handed to the bound axis as a fresh sample (R58, R85). -/
def handSample (c : ChannelId) (value : Nat) (s : State) : State :=
  match (s.channel c).role, (s.channel c).binding with
  | .position, some (.axis a) => takeSample a value s
  | _, _ => s

/-- A result becomes the channel's latest value and goes through the window filter (steps 1 and 2 of
R58). -/
def storeResult (c : ChannelId) (value : Nat) (s : State) : State :=
  s.modChannel c fun x => { x.filter value with latest := some ⟨value, s.clock⟩ }

/-- A window that is other than it was is handed on (R60). -/
def handChange (c : ChannelId) (before : Window) (s : State) : State :=
  if (s.channel c).window = before then s else handWindow c s

/-- A conversion of channel `c` completes with a result, less the advance of the pass (steps 1 to 4 of
R58). -/
def recordResult (c : ChannelId) (value : Nat) (s : State) : State :=
  handSample c value (handChange c (s.channel c).window (storeResult c value s))

end Sys2Proof.Machine
end

