-- ==== Sys2Proof/Machine/LinkOps.lean ====
section
/-! DEFINITION. Operations of the link monitor: changes of a link's state (R147), heartbeats, lapses and
resumptions (R145, R146, R148, R149), and tenures (R152, R154-R156). -/

namespace Sys2Proof.Machine

/-! ## Links -/

/-- The heartbeat period of a link (R144). -/
def heartbeatPeriod (s : State) : Master → Nat
  | .showMaster => s.timing.showHeartbeat
  | .deskMaster => s.timing.deskHeartbeat

/-- The queue of the other master, which learns of a link's changes (R147). -/
def otherQueue : Master → QueueName
  | .showMaster => .deskQ
  | .deskMaster => .showQ

/-- The alert of a link's lapse (R147). -/
def lostAlert : Master → AlertKind
  | .showMaster => .showLinkLost
  | .deskMaster => .deskLinkLost

/-- A link's state changes, with LINK_STATE to the other master's queue (R144, R147). -/
def changeLink (m : Master) (new : LinkState) (s : State) : State :=
  emit [otherQueue m] { kind := .linkState, value := some (BitVec.ofNat 16 new.code) }
    (s.modLink m fun x => { x with state := new, lastChange := some s.clock })

/-- LAPSE is removed from every exhibit that holds it, in ascending number (R149). -/
def removeLapse (s : State) : State := forEach (fun e t => removeHold .lapse e t) s

/-- LAPSE is added to every exhibit READY, RUNNING or HELD, in ascending number (R148). -/
def addLapse (s : State) : State :=
  forEach
    (fun e t =>
      match (t.exhibit e).state with
      | .ready | .running | .held => addHold .lapse e t
      | .closed | .faulted | .service => t)
    s

/-- Every taken frame moves to the tail of the free list, in ascending index (R142). -/
def returnTaken (s : State) : State :=
  { forList s.takenSet (fun f t => freeFrame f t) s with takenSet := [] }

/-- A HEARTBEAT is taken (R145). -/
def takeHeartbeat (m : Master) (s : State) : State :=
  let t := s.modLink m fun x =>
    { x with lastHeartbeat := some s.clock, timer := some (heartbeatPeriod s m) }
  match (s.link m).state, m with
  | .active, _ => t
  | .neverSeen, _ => changeLink m .active t
  | .lapsed, .showMaster => removeLapse (changeLink m .active t)
  | .lapsed, .deskMaster => changeLink m .active t

/-- A link lapses, with LINK_STATE and its alert; a lapse of the show link holds the exhibits in use and
empties the taken set (R146-R148). -/
def lapseLink (m : Master) (s : State) : State :=
  let t := raiseAlert (tableTrigger (lostAlert m)) <|
    changeLink m .lapsed (s.modLink m fun x => { x with timer := none })
  match m with
  | .showMaster => returnTaken (addLapse t)
  | .deskMaster => t

/-! ## Tenure -/

/-- Whether a tenure is present. -/
def anyTenure (s : State) : Bool := (List.finRange 16).any fun e => (s.tenure e).isSome

/-- Tenure of an exhibit begins (R154). -/
def beginTenure (e : ExhibitId) (s : State) : State :=
  reviewRegime (enterService e (s.setTenure e (some s.clock)))

/-- The service idle timer stops when no tenure remains (R155). -/
def stopIdleTimer (s : State) : State := if anyTenure s then s else { s with serviceIdle := none }

/-- Tenure of an exhibit ends, whatever the cause (R155). -/
def endTenure (e : ExhibitId) (s : State) : State :=
  reviewRegime (stopIdleTimer (closeExhibit e (s.setTenure e none)))

/-- Every present tenure ends, in ascending exhibit number, and the timer stops (R156). -/
def endTenures (s : State) : State :=
  { forEach (fun e t => if (t.tenure e).isSome then endTenure e t else t) s with serviceIdle := none }

/-- After a frame taken at the service port the idle timer restarts while a tenure is present, and stops
otherwise (R156). -/
def restartIdle (s : State) : State :=
  { s with serviceIdle := if anyTenure s then some (seconds s.timing.serviceIdleTime) else none }

end Sys2Proof.Machine
end

