-- ==== Sys2Proof/Machine/ResetOps.lean ====
section
/-! DEFINITION. Values at resets and reconfiguration: warm-restart values of each block (R8, R24, R55,
R76, R98, R117, R143, R194, R210), the commit checks and the commit (R207, R208), RECONFIGURE (R209),
warm restart (R7) and full reset (R210). -/

namespace Sys2Proof.Machine

/-! ## Warm-restart values of the records -/

/-- An exhibit's run-time fields at their warm-restart values, the time of last state change kept (R8). -/
def Exhibit.warm (x : Exhibit) : Exhibit :=
  { x with
    state := .closed, holds := { guard := x.presence.isSome }, active := none, queue := []
    guardRelease := none, guardLong := none }

/-- A line's run-time fields at their warm-restart values, the latest sample from the input (R24). -/
def Line.warm (x : Line) : Line :=
  { x with
    enabled := true, latest := x.input = x.activeLevel, state := .inert, accepted := false
    destination := none, lastAccepted := none, debounceTimer := 0, stuckTimer := none }

/-- An axis's run-time fields at their warm-restart values; the direction output keeps its level (R77,
R79, R98). -/
def Axis.warm (x : Axis) : Axis :=
  { x with
    state := .disabled, move := none, drive := .off, corrections := 0, fault := none
    travel := none, settle := none, suppress := false }

/-- The exhibits at their warm-restart values. -/
def warmExhibits (s : State) : State := { s with exhibits := mapTable Exhibit.warm s.exhibits }
/-- The lines at their warm-restart values. -/
def warmLines (s : State) : State := { s with lines := mapTable Line.warm s.lines }
/-- The channels at their warm-restart values (R55). -/
def warmChannels (s : State) : State := { s with channels := mapTable Channel.warm s.channels }
/-- The axes at their warm-restart values. -/
def warmAxes (s : State) : State := { s with axes := mapTable Axis.warm s.axes }
/-- The start arbiter at its values of R117. -/
def warmArbiter (s : State) : State := { s with arbiter := {} }

/-- The cue store with every frame free, in index order (R143). -/
def warmCues (s : State) : State :=
  { s with
    frames := Vector.replicate 48 {}, freeList := List.finRange 48, takenSet := [], retiredList := [] }

/-- The event queues emptied with their numbering continued (R53, R54). -/
def warmQueues (s : State) : State :=
  { s with
    showQueue := s.showQueue.emptied, deskQueue := s.deskQueue.emptied
    serviceQueue := s.serviceQueue.emptied }

/-- The alert list emptied with its numbering continued (R181). -/
def warmAlerts (s : State) : State := s.modAlerts fun l => { l with records := [] }

/-- The annunciators: the arbiter SILENT, silence and lamp test out of force (R194). -/
def warmAnnunciators (s : State) : State :=
  s.modAnnunciators fun x =>
    { x with tone := .silent, silence := none, silenceBegan := none, lampTest := none }

/-- Every tenure absent and the service idle timer stopped (R152, R159). -/
def warmTenures (s : State) : State := { s with tenures := Vector.replicate 16 none, serviceIdle := none }

/-- The port engine: the edge causes clear and the note slots EMPTY (R203, R210). -/
def warmPorts (s : State) : State :=
  { s with
    showSpi := { s.showSpi with edges := {} }, deskSpi := { s.deskSpi with edges := {} }
    notes := Vector.replicate 8 none }

/-- The settled-noted flag is cleared (R5). -/
def unsettle (s : State) : State := { s with settledNoted := false }

/-- What RECONFIGURE and warm restart share, the scanner and the mode apart (R7, R209). -/
def warmBlocks (s : State) : State :=
  warmPorts (warmTenures (warmAnnunciators (warmAlerts (warmQueues (warmCues (warmArbiter
    (warmAxes (warmChannels (warmLines (warmExhibits (unsettle s)))))))))))

/-! ## RECONFIGURE and warm restart -/

/-- RECONFIGURE carried out (R209). -/
def reconfigureHub (s : State) : State := setMode .setup ((warmBlocks s).modScanner Scanner.toOff)

/-- The scanner after a warm restart (R64, R76). -/
def Scanner.warm (closedPace : Nat) (x : Scanner) : Scanner := x.toOff.toClosedScan closedPace

/-- The scanner at its values after a warm restart (R76). -/
def warmScanner (s : State) : State := s.modScanner (Scanner.warm s.timing.closedPace)

/-- The link-lost alert of a link that is LAPSED is triggered anew (R159). -/
def renewLost (m : Master) (s : State) : State :=
  if (s.link m).state = .lapsed then raiseAlert (tableTrigger (lostAlert m)) s else s

/-- The time of last state change of every exhibit becomes the time of the restart (R8). -/
def stampExhibits (s : State) : State :=
  { s with exhibits := mapTable (fun x => { x with lastChange := s.clock }) s.exhibits }

/-- Warm restart carried out (R7, R159, R181). -/
def restartHub (s : State) : State :=
  let t := warmScanner (stampExhibits (warmBlocks s))
  let u := evaluateLines (setMode .closed t)
  renewLost .deskMaster (renewLost .showMaster (raiseAlert (tableTrigger .restarted) u))

/-! ## Full reset -/

/-- A line at its full-reset values, its input staying at its level (R24). -/
def Line.full (x : Line) : Line := { input := x.input, latest := x.input = .low }

/-- The part in full reset: every block at its full-reset values, the outputs safe (R210). -/
def fullResetHub (s : State) : State :=
  { State.reset with inReset := true, lines := mapTable Line.full s.lines, pending := s.pending }

/-- RESET rises (R210). -/
def releaseReset (s : State) : State := if s.inReset then drivePins { s with inReset := false } else s

/-! ## Derived fields (R8, R78) -/

/-- The channels of a role bound to an axis, ascending. -/
def channelsOfAxis (s : State) (role : ChannelRole) (a : AxisId) : List ChannelId :=
  (List.finRange 32).filter fun c => (s.channel c).role = role && (s.channel c).binding = some (.axis a)

/-- The PRESENCE channels bound to an exhibit, ascending. -/
def channelsOfExhibit (s : State) (e : ExhibitId) : List ChannelId :=
  (List.finRange 32).filter fun c =>
    (s.channel c).role = .presence && (s.channel c).binding = some (.exhibit e)

/-- The configured axes that name an exhibit, ascending (R8, R78). -/
def axesOfExhibit (s : State) (e : ExhibitId) : List AxisId :=
  (List.finRange 12).filter fun a => (s.axis a).configured && (s.axis a).exhibit = some e

/-- The derived fields taken from the configuration (step 1 of R208). Where several POSITION or CURRENT
channels are bound to an axis that is not configured, the spec names none of them and the lowest-numbered
is taken: DESIGN CHOICE (log 23). -/
def deriveFields (s : State) : State :=
  { s with
    exhibits := Vector.ofFn fun e =>
      { s.exhibit e with axes := axesOfExhibit s e, presence := (channelsOfExhibit s e).head? }
    axes := Vector.ofFn fun a =>
      { s.axis a with
        positionChannel := (channelsOfAxis s .position a).head?
        currentChannel := (channelsOfAxis s .current a).head? } }

/-! ## The commit checks (R207) -/

/-- The configured axes, ascending. -/
def configuredAxes (s : State) : List AxisId := (List.finRange 12).filter fun a => (s.axis a).configured

/-- A failure at the first item of a list that satisfies `bad`, with an item kind. -/
def firstBad {n : Nat} (kind : Nat) (items : List (Fin n)) (bad : Fin n → Bool) : Option (Nat × Nat) :=
  (items.find? bad).map fun i => (kind, i.val)

/-- Check 1: exhibits of configured axes. -/
def commitCheck1 (s : State) : Option (Nat × Nat) :=
  (firstBad 3 (configuredAxes s) fun a => (s.axis a).exhibit.isNone).or <|
    firstBad 1 (List.finRange 16) fun e => 4 < (axesOfExhibit s e).length

/-- Check 2: position and current channels of configured axes, and their bindings. -/
def commitCheck2 (s : State) : Option (Nat × Nat) :=
  (firstBad 3 (configuredAxes s) fun a =>
      (channelsOfAxis s .position a).length ≠ 1 || 1 < (channelsOfAxis s .current a).length).or <|
    firstBad 4 (List.finRange 32) fun c =>
      ((s.channel c).role = .position || (s.channel c).role = .current) && (s.channel c).binding.isNone

/-- Whether a channel's limits enclose an axis's target limits (R74, R78). -/
def encloses (lower upper : Nat) (x : Axis) : Bool := lower ≤ x.targetMin && x.targetMax ≤ upper

/-- Check 3: target limits of configured axes. -/
def commitCheck3 (s : State) : Option (Nat × Nat) :=
  firstBad 3 (configuredAxes s) fun a =>
    (s.axis a).targetMax ≤ (s.axis a).targetMin ||
      (channelsOfAxis s .position a).any fun c =>
        !encloses (s.channel c).lower (s.channel c).upper (s.axis a)

/-- Check 4: start costs of configured axes. -/
def commitCheck4 (s : State) : Option (Nat × Nat) :=
  firstBad 3 (configuredAxes s) fun a => s.timing.startBudget < (s.axis a).startCost

/-- Check 5: PRESENCE channels; the higher-numbered of a pair on one exhibit is reported. -/
def commitCheck5 (s : State) : Option (Nat × Nat) :=
  (firstBad 4 (List.finRange 32) fun c =>
      (s.channel c).role = .presence && (s.channel c).binding.isNone).or <|
    firstBad 4 (List.finRange 32) fun c =>
      (s.channel c).role = .presence && (List.finRange 32).any fun d =>
        d < c && (s.channel d).role = .presence && (s.channel d).binding = (s.channel c).binding

/-- Check 6: one SUPPLY channel; the higher-numbered of a pair is reported. -/
def commitCheck6 (s : State) : Option (Nat × Nat) :=
  firstBad 4 (List.finRange 32) fun c =>
    (s.channel c).role = .supply && (List.finRange 32).any fun d => d < c && (s.channel d).role = .supply

/-- Whether an entry of the scan list names a channel. -/
def inScanList (s : State) (c : ChannelId) : Bool := s.scanner.scanList.any fun x => x.channel = c

/-- Check 7: the scan list. -/
def commitCheck7 (s : State) : Option (Nat × Nat) :=
  (if s.scanner.scanList.isEmpty && !(configuredAxes s).isEmpty then some (5, 0) else none).or <|
    ((s.scanner.scanList.findIdx? fun x => (s.channel x.channel).role = .none).map fun i => (5, i)).or <|
      firstBad 3 (configuredAxes s) fun a => !(channelsOfAxis s .position a).all fun c => inScanList s c

/-- Whether three escalation times are nondecreasing (R172). -/
def LevelTimes.ordered (t : LevelTimes) : Bool := t.level1 ≤ t.level2 && t.level2 ≤ t.level3

/-- Check 8: escalation times, index 1 for ATTENTION and 2 for URGENT. -/
def commitCheck8 (s : State) : Option (Nat × Nat) :=
  if !s.timing.attentionTimes.ordered then some (6, 1)
  else if !s.timing.urgentTimes.ordered then some (6, 2)
  else none

/-- Check 9: assigned lines have a role. -/
def commitCheck9 (s : State) : Option (Nat × Nat) :=
  firstBad 2 (List.finRange 64) fun l => (s.line l).exhibit.isSome && (s.line l).role.isNone

/-- The first failure of the commit checks: an item kind and an item index (R207). -/
def commitFault (s : State) : Option (Nat × Nat) :=
  (commitCheck1 s).or <| (commitCheck2 s).or <| (commitCheck3 s).or <| (commitCheck4 s).or <|
    (commitCheck5 s).or <| (commitCheck6 s).or <| (commitCheck7 s).or <| (commitCheck8 s).or <|
      commitCheck9 s

/-- A CONFIG-COMMIT that passes its checks, carried out (R208). The supply freeze and the beacons follow
the state. -/
def commitHub (s : State) : State :=
  let t := warmArbiter (warmChannels (warmLines (warmExhibits (deriveFields s))))
  reviewRegime (evaluateLines (setMode .closed t))

end Sys2Proof.Machine
end

