-- ==== Sys2Proof/Machine/GalleryCommands.lean ====
section
/-! DEFINITION. The commands of the gallery and the exhibits (R3-R23) and RECONFIGURE (R209). -/

namespace Sys2Proof.Machine

/-- From CLOSED: each CLOSED exhibit with its open-with-gallery flag is opened, in ascending number (R3). -/
def openFlagged (s : State) : State :=
  forEach
    (fun e t =>
      if (t.exhibit e).state = .closed && (t.exhibit e).openWithGallery then openExhibit e t else t)
    s

/-- From QUIET: each READY exhibit with a nonempty cue queue takes its head, in ascending number (R3). -/
def takeWaiting (s : State) : State :=
  forEach (fun e t => if (t.exhibit e).state = .ready && canTake t e then takeFrame e t else t) s

/-- The gallery becomes OPEN (R3). -/
def openGallery (s : State) : State :=
  let t := reviewRegime (evaluateLines (setMode .opened s))
  match s.mode with
  | .closed => openFlagged t
  | .quiet => takeWaiting t
  | .setup | .opened => t

/-- GALLERY-OPEN (R3). -/
def galleryOpenBody (_ : Port) (_ : List Byte) (s : State) : State × Reply :=
  accept [] (conclude (openGallery s))

/-- Whether exhibit `e` is RUNNING or HELD with an active frame whose current group waits for a press
(R134). -/
def waitsForPress (s : State) (e : ExhibitId) : Bool :=
  ((s.exhibit e).state = .running || (s.exhibit e).state = .held) &&
    match (s.exhibit e).active with
    | some f =>
      match (s.frame f).currentGroup with
      | some g => groupWaits (s.frame f).steps g
      | none => false
    | none => false

/-- Every frame whose current group waits for a press is retired CANCELLED, in ascending exhibit number
(R4, R134). -/
def cancelWaiting (s : State) : State :=
  forEach (fun e t => if waitsForPress t e then retireActive e .cancelled none t else t) s

/-- The gallery becomes QUIET (R4, R5). -/
def quietGallery (s : State) : State :=
  cancelWaiting (reviewRegime (evaluateLines (setMode .quiet (unsettle s))))

/-- GALLERY-QUIET (R4, R5). -/
def galleryQuietBody (_ : Port) (_ : List Byte) (s : State) : State × Reply :=
  accept [] (conclude (quietGallery s))

/-- The states GALLERY-CLOSE closes (R6). -/
def ExhibitState.closesWithGallery : ExhibitState → Bool
  | .ready | .held | .faulted => true
  | .closed | .running | .service => false

/-- The lines evaluated at the change of mode: all but the ACTION lines of the exhibits that are closing
(R6, R26; before the closings, log 18). -/
def evaluateOtherLines (s : State) : State :=
  forEach
    (fun l t =>
      match (t.line l).exhibit, (t.line l).role with
      | some e, some .action =>
        if (t.exhibit e).state.closesWithGallery then t else evaluateLine l t
      | _, _ => evaluateLine l t)
    s

/-- Every READY, HELD or FAULTED exhibit is closed, in ascending number (R6). -/
def closeExhibits (s : State) : State :=
  forEach (fun e t => if (t.exhibit e).state.closesWithGallery then closeExhibit e t else t) s

/-- AFTER_HOURS for each exhibit not in SERVICE whose presence window is INSIDE, in ascending number
(R171). -/
def afterHoursAtClose (s : State) : State :=
  forEach
    (fun e t => if !inService t e && presenceWindow t e = some .inside then afterHours e t else t) s

/-- The gallery becomes CLOSED (R6, R171). -/
def closeGallery (s : State) : State :=
  afterHoursAtClose (reviewRegime (closeExhibits (evaluateOtherLines (setMode .closed s))))

/-- GALLERY-CLOSE (R6). -/
def galleryCloseBody (_ : Port) (_ : List Byte) (s : State) : State × Reply :=
  if settled s then accept [] (conclude (closeGallery s)) else refuse .notSettled s

/-- RESTART (R7). -/
def restartBody (_ : Port) (_ : List Byte) (s : State) : State × Reply := accept [] (restartHub s)

/-- RECONFIGURE (R209). -/
def reconfigureBody (_ : Port) (_ : List Byte) (s : State) : State × Reply :=
  if (List.finRange 16).any fun e => inService s e then refuse .notPermitted s
  else accept [] (reconfigureHub s)

/-! ## Commands on one exhibit -/

/-- The state of an exhibit as a payload. -/
def stateByte (s : State) (e : ExhibitId) : List Byte := num1 (s.exhibit e).state.code

/-- An operation on an exhibit, concluded, answered with the exhibit's state after it. -/
def acceptExhibit (e : ExhibitId) (s : State) : State × Reply := accept (stateByte (conclude s) e) (conclude s)

/-- EXHIBIT-OPEN (R11). -/
def exhibitOpenBody (_ : Port) (p : List Byte) (s : State) : State × Reply :=
  onExhibit p (s := s) fun e s =>
    if (s.exhibit e).state = .closed then acceptExhibit e (openExhibit e s) else refuse .wrongState s

/-- EXHIBIT-CLOSE (R17). -/
def exhibitCloseBody (_ : Port) (p : List Byte) (s : State) : State × Reply :=
  onExhibit p (s := s) fun e s =>
    match (s.exhibit e).state with
    | .closed | .service => refuse .wrongState s
    | .ready | .running | .held | .faulted => accept [] (conclude (closeExhibit e s))

/-- EXHIBIT-HOLD (R19). -/
def exhibitHoldBody (_ : Port) (p : List Byte) (s : State) : State × Reply :=
  onExhibit p (s := s) fun e s =>
    if (s.exhibit e).state = .closed then refuse .wrongState s
    else acceptExhibit e (addHold .attendant e s)

/-- EXHIBIT-RELEASE (R19). -/
def exhibitReleaseBody (_ : Port) (p : List Byte) (s : State) : State × Reply :=
  onExhibit p (s := s) fun e s =>
    if (s.exhibit e).holds.attendant then acceptExhibit e (removeHold .attendant e s)
    else refuse .wrongState s

/-- The window state of an axis's channel, when it has that channel. -/
def windowOf (s : State) (c : Option ChannelId) : Option Window := c.map fun c => (s.channel c).window

/-- The test of a FAULTED axis's condition (R99). -/
def faultTestPasses (s : State) (a : AxisId) : Bool :=
  match (s.axis a).fault with
  | some .overcurrent => windowOf s (s.axis a).currentChannel ≠ some .above
  | some .overtravel => windowOf s (s.axis a).positionChannel = some .inside
  | some .moveTimeout | some .noFeedback | some .noSettle | none => true

/-- The FAULTED axes of an exhibit, in ascending number (R15). -/
def faultedAxes (s : State) (e : ExhibitId) : List AxisId :=
  (s.exhibit e).axes.filter fun a => (s.axis a).state = .faulted

/-- A FAULTED axis becomes IDLE with its cause cleared (R99). -/
def clearAxis (a : AxisId) (s : State) : State :=
  s.modAxis a fun x => { x.quit with state := .idle, fault := none, corrections := 0 }

/-- LAPSE joins an exhibit's hold-reason set while the show link is LAPSED (R150). -/
def claimLapse (e : ExhibitId) (s : State) : State :=
  s.modExhibit e fun x =>
    { x with holds := { x.holds with lapse := x.holds.lapse || s.showLink.state = .lapsed } }

/-- An exhibit becomes READY when its hold-reason set is empty and HELD otherwise (R15). -/
def returnToUse (e : ExhibitId) (s : State) : State :=
  changeState e (if (s.exhibit e).holds.isEmpty then .ready else .held) s

/-- An exhibit whose FAULTED axes all pass returns to use (R15). -/
def clearFault (e : ExhibitId) (s : State) : State :=
  returnToUse e (claimLapse e (forList (faultedAxes s e) clearAxis s))

/-- FAULT-CLEAR (R15). -/
def faultClearBody (_ : Port) (p : List Byte) (s : State) : State × Reply :=
  onExhibit p (s := s) fun e s =>
    if (s.exhibit e).state = .faulted then
      match (faultedAxes s e).find? fun a => !faultTestPasses s a with
      | some a => refuseWith .stillActive (num1 a.val) s
      | none => acceptExhibit e (clearFault e s)
    else refuse .wrongState s

/-- An optional index as an optional field. -/
def optIndex {n : Nat} (i : Option (Fin n)) : List Byte := optBytes 1 (fun j => num1 j.val) i

/-- A list of indexes. -/
def indexList {n : Nat} (l : List (Fin n)) : List Byte := listBytes (l.map fun i => num1 i.val)

/-- The record that EXHIBIT-STATUS returns (R23). -/
def exhibitReport (s : State) (e : ExhibitId) : List Byte :=
  let x := s.exhibit e
  num1 e.val ++ num1 x.state.code ++ num1 x.holds.byte ++ optIndex x.active ++ indexList x.queue
    ++ indexList x.axes ++ optIndex x.presence ++ num1 x.busyPolicy.code ++ flagByte x.openWithGallery
    ++ flagByte x.permit ++ timerBytes x.guardRelease ++ timerBytes x.guardLong ++ clockBytes x.lastChange
    ++ num1 s.mode.code ++ clockBytes s.clock

/-- EXHIBIT-STATUS (R23). -/
def exhibitStatusBody (_ : Port) (p : List Byte) (s : State) : State × Reply :=
  onExhibit p (s := s) fun e s => accept (exhibitReport s e) s

end Sys2Proof.Machine
end

