-- ==== Sys2Proof/Machine/LineCommands.lean ====
section
/-! DEFINITION. The commands of the button lines: LINE-ENABLE, LINE-DISABLE, LINE-STATUS (R39-R41). -/

namespace Sys2Proof.Machine

/-- A command that names a line at offset 0; a number above 63 is refused NO_SUCH. -/
def onLine (p : List Byte) (f : LineId → State → State × Reply) (s : State) : State × Reply :=
  match lineAt p 0 with
  | some l => f l s
  | none => refuse .noSuch s

/-- Whether a line is assigned to an exhibit in SERVICE. -/
def lineInService (s : State) (l : LineId) : Bool :=
  match (s.line l).exhibit with
  | some e => inService s e
  | none => false

/-- Whether a port may enable and disable a line (checks 2 and 3 of R39). -/
def mayEnable (s : State) (l : LineId) : Port → Bool
  | .showPort => !lineInService s l
  | .deskPort => true
  | .servicePort => lineInService s l

/-- A line's enabled flag is set or cleared and its liveness evaluated (R39, R40). -/
def enableLine (b : Bool) (l : LineId) (s : State) : State :=
  evaluateLine l (s.modLine l fun x => { x with enabled := b })

/-- The checks of R39 and the setting of the flag, answered with the line's state after it. -/
def setEnabled (b : Bool) (port : Port) (p : List Byte) (s : State) : State × Reply :=
  onLine p (s := s) fun l s =>
    if mayEnable s l port then
      accept (num1 ((enableLine b l s).line l).state.code) (enableLine b l s)
    else refuse .wrongState s

/-- LINE-ENABLE (R40). -/
def lineEnableBody (port : Port) (p : List Byte) (s : State) : State × Reply := setEnabled true port p s

/-- LINE-DISABLE (R39). -/
def lineDisableBody (port : Port) (p : List Byte) (s : State) : State × Reply := setEnabled false port p s

/-- The record that LINE-STATUS returns (R41). -/
def lineReport (s : State) (l : LineId) : List Byte :=
  let x := s.line l
  num1 l.val ++ optIndex x.exhibit ++ optBytes 1 (fun r => num1 r.code) x.role
    ++ num1 (Level.code x.activeLevel) ++ num1 x.debounce ++ num2 x.repeatGuard ++ num1 x.stuckTime
    ++ flagByte x.enabled ++ num1 (sampleCode x.latest) ++ num1 x.state.code ++ flagByte x.accepted
    ++ optBytes 1 (fun d => num1 d.code) x.destination ++ optBytes 4 clockBytes x.lastAccepted
    ++ num4 x.debounceTimer ++ timerBytes x.stuckTimer ++ clockBytes s.clock

/-- LINE-STATUS (R41). -/
def lineStatusBody (_ : Port) (p : List Byte) (s : State) : State × Reply :=
  onLine p (s := s) fun l s => accept (lineReport s l) s

end Sys2Proof.Machine
end

