-- ==== Sys2Proof/Machine/ScannerCommands.lean ====
section
/-! DEFINITION. The commands of the sense scanner: SCAN-LIST, SCAN-ONCE, SCAN-LIMITS, SENSE-READ
(R72-R75). -/

namespace Sys2Proof.Machine

/-- What a new scan list makes the scanner do (R72). -/
def Scanner.relist (list : List ScanEntry) (x : Scanner) : Scanner :=
  let y := { x with scanList := list }
  match x.state, x.regime, x.dayMode with
  | .converting, .day, _ => y.startDayPass
  | .converting, .closedScan, _ => y.closedPassFrom 0
  | .waiting, .day, .continuous => y.startDayPass
  | _, _, _ => y

/-- The number of the first entry whose channel has role NONE (R72). -/
def firstUnused (s : State) (list : List ScanEntry) : Option Nat :=
  list.findIdx? fun x => (s.channel x.channel).role = .none

/-- SCAN-LIST (R72). -/
def scanListBody (_ : Port) (p : List Byte) (s : State) : State × Reply :=
  if byteAt p 0 = 0 ∨ 40 < byteAt p 0 then refuse .badValue s
  else
    match scanEntriesFrom p (byteAt p 0) 1 0 with
    | .error i => refuseWith .badValue (num1 i) s
    | .ok list =>
      match firstUnused s list with
      | some i => refuseWith .badValue (num1 i) s
      | none => accept [] (s.modScanner (Scanner.relist list))

/-- What SCAN-ONCE makes the scanner do in regime DAY with day mode SINGLE (R73). -/
def Scanner.requestPass (x : Scanner) : Scanner :=
  match x.state with
  | .waiting | .converting => x.startDayPass
  | .warming => { x with passRequested := true }
  | .off | .dozing => x

/-- SCAN-ONCE (R73). -/
def scanOnceBody (_ : Port) (_ : List Byte) (s : State) : State × Reply :=
  if s.scanner.regime = .day ∧ s.scanner.dayMode = .single then
    accept [] (s.modScanner Scanner.requestPass)
  else refuse .wrongState s

/-- The axis a POSITION or CURRENT channel is bound to. -/
def Channel.boundAxis (x : Channel) : Option AxisId :=
  match x.role, x.binding with
  | .position, some (.axis a) | .current, some (.axis a) => some a
  | _, _ => none

/-- The exhibit a channel belongs to: that of a PRESENCE channel, or the exhibit of the axis of a POSITION
or CURRENT channel (R74, R157). -/
def exhibitOfChannel (s : State) (c : ChannelId) : Option ExhibitId :=
  match (s.channel c).role, (s.channel c).binding with
  | .presence, some (.exhibit e) => some e
  | _, _ => (s.channel c).boundAxis.bind fun a => (s.axis a).exhibit

/-- Whether a channel belongs to an exhibit in SERVICE (check 2 of R74). -/
def channelInService (s : State) (c : ChannelId) : Bool :=
  match exhibitOfChannel s c with
  | some e => inService s e
  | none => false

/-- Check 4 of R74: a POSITION channel's limits enclose the target limits of its axis. -/
def limitsEnclose (s : State) (c : ChannelId) (lower upper : Nat) : Bool :=
  match (s.channel c).role, (s.channel c).binding with
  | .position, some (.axis a) => encloses lower upper (s.axis a)
  | _, _ => true

/-- New limits for a channel; a window that was decided becomes UNKNOWN, a window event (R74). -/
def setLimits (c : ChannelId) (lower upper : Nat) (s : State) : State :=
  let t := s.modChannel c fun x => { x.resetWindow with lower := lower, upper := upper }
  if (s.channel c).window = .unknown then t else handWindow c t

/-- SCAN-LIMITS (R74). -/
def scanLimitsBody (_ : Port) (p : List Byte) (s : State) : State × Reply :=
  match channelAt p 0 with
  | none => refuse .noSuch s
  | some c =>
    if channelInService s c then refuse .wrongState s
    else if 4095 < wordAt p 1 ∨ 4095 < wordAt p 3 ∨ wordAt p 3 < wordAt p 1 then refuse .badValue s
    else if limitsEnclose s c (wordAt p 1) (wordAt p 3) then
      let t := conclude (setLimits c (wordAt p 1) (wordAt p 3) s)
      accept (num1 (t.channel c).window.code) t
    else refuse .badValue s

/-- One channel as SENSE-READ returns it (R75; the latest value and the sample time are two optional
fields, log 10). -/
def channelReport (s : State) (c : ChannelId) : List Byte :=
  let x := s.channel c
  num1 c.val ++ num1 x.role.code ++ optBytes 1 (fun b => num1 b.number) x.binding
    ++ num2 x.lower ++ num2 x.upper ++ num1 x.filterCount
    ++ optBytes 2 (fun y => num2 y.value) x.latest ++ optBytes 4 (fun y => clockBytes y.time) x.latest
    ++ num1 x.window.code ++ optBytes 1 (fun z => num1 z.code) x.candidate ++ num1 x.agreement

/-- The scanner as SENSE-READ returns it (R75). -/
def scannerReport (s : State) : List Byte :=
  num1 s.scanner.regime.code ++ num1 s.scanner.state.code ++ num1 s.scanner.dayMode.code
    ++ optBytes 1 num1 s.scanner.passPosition ++ num1 s.scanner.scanList.length ++ clockBytes s.clock

/-- The `count` channels from `first` on, ascending. -/
def channelsFrom (first count : Nat) : List ChannelId :=
  (List.finRange 32).filter fun c => first ≤ c.val && c.val < first + count

/-- SENSE-READ (R75). -/
def senseReadBody (_ : Port) (p : List Byte) (s : State) : State × Reply :=
  if 31 < byteAt p 0 then refuse .noSuch s
  else if byteAt p 1 = 0 ∨ 8 < byteAt p 1 ∨ 32 < byteAt p 0 + byteAt p 1 then refuse .badValue s
  else
    accept
      (scannerReport s ++ listBytes ((channelsFrom (byteAt p 0) (byteAt p 1)).map fun c => channelReport s c))
      s

end Sys2Proof.Machine
end

