-- ==== Sys2Proof/Machine/AxisCommands.lean ====
section
/-! DEFINITION. The commands of the axes and the start arbiter: JOG, AXIS-STATUS, BUDGET-STATUS
(R100-R102, R116). -/

namespace Sys2Proof.Machine

/-- A command that names an axis at offset 0; a number above 11 is refused NO_SUCH. -/
def onAxis (p : List Byte) (f : AxisId → State → State × Reply) (s : State) : State × Reply :=
  match axisAt p 0 with
  | some a => f a s
  | none => refuse .noSuch s

/-- The exhibit of a configured axis when it is in SERVICE (check 2 of R100). -/
def serviceExhibitOf (s : State) (a : AxisId) : Option ExhibitId :=
  match (s.axis a).configured, (s.axis a).exhibit with
  | true, some e => if inService s e then some e else none
  | _, _ => none

/-- The fields of a JOG within their ranges: the target and the speed (check 3 of R100). -/
def jogFields (x : Axis) (p : List Byte) : Option (Nat × Option Nat) :=
  match wordIn x.targetMin x.targetMax p 1, optAt (byteIn 1 8) p 3 with
  | some target, some speed => some (target, speed)
  | _, _ => none

/-- Whether an axis's state admits a jog (checks 4 and 5 of R100). -/
def jogAdmitted (x : Axis) : Bool :=
  match x.state with
  | .held => false
  | .faulted => x.fault = some .overtravel
  | .disabled | .idle | .waitingStart | .accelerating | .moving | .settling => true

/-- An axis faulted OVERTRAVEL takes a jog: its cause is cleared, and detection is suppressed unless the
window is INSIDE (R100). -/
def jogFromFault (a : AxisId) (m : Move) (s : State) : State :=
  startRequest a m <| s.modAxis a fun x =>
    { x with
      state := .idle, fault := none
      suppress := x.suppress || windowOf s x.positionChannel ≠ some .inside }

/-- An axis stops driving or settling and rejoins the start queue for its new move (R101). -/
def requeueAxis (a : AxisId) (s : State) : State :=
  joinQueue a ((releaseAxis a s).modAxis a fun x => { x.quit with state := .waitingStart })

/-- A jog reaches a driving axis whose pending move it has replaced (R101). -/
def redirectAxis (a : AxisId) (m : Move) (s : State) : State :=
  match (s.axis a).drive, positionSampleOf s a with
  | .on d _, some p =>
    if directionTo m.target p.value = d then
      s.modAxis a fun x => { x.driveOn d m.speed with travel := some x.travelLimit }
    else requeueAxis a s
  | _, _ => s

/-- A jog replaces the pending move of a working axis (R101). -/
def replaceMove (a : AxisId) (m : Move) (s : State) : State :=
  let t := s.modAxis a fun x => { x with move := some m, corrections := 0 }
  match (s.axis a).state with
  | .accelerating | .moving => redirectAxis a m t
  | .settling => requeueAxis a t
  | .disabled | .idle | .waitingStart | .held | .faulted => t

/-- An accepted JOG acts by the axis's state (R100, R101). -/
def jogAxis (a : AxisId) (m : Move) (s : State) : State :=
  match (s.axis a).state with
  | .idle => startRequest a m s
  | .faulted => jogFromFault a m s
  | .waitingStart | .accelerating | .moving | .settling => replaceMove a m s
  | .disabled | .held => s

/-- JOG (R100, R101). -/
def jogBody (_ : Port) (p : List Byte) (s : State) : State × Reply :=
  onAxis p (s := s) fun a s =>
    match serviceExhibitOf s a with
    | none => refuse .wrongState s
    | some e =>
      match jogFields (s.axis a) p with
      | none => refuse .badValue s
      | some (target, speed) =>
        if (s.exhibit e).holds.isEmpty && jogAdmitted (s.axis a) then
          let t := conclude (jogAxis a ⟨target, speed.getD (s.axis a).defaultSpeed, .jog⟩ s)
          accept (num1 (t.axis a).state.code) t
        else refuse .wrongState s

/-- The place of an axis in the start queue, 0 for the head (R102). -/
def queuePlace (s : State) (a : AxisId) : Option Nat := s.arbiter.startQueue.findIdx? (· = a)

/-- The window byte of an axis's position channel; without a channel the spec gives no value (R102,
log 9). -/
def positionWindowByte (s : State) (a : AxisId) : List Byte :=
  match windowOf s (s.axis a).positionChannel with
  | some w => num1 w.code
  | none => [Config.windowOfNoChannel a.val s.clock.toNat]

/-- The configuration of an axis as AXIS-STATUS returns it (R102). -/
def axisConfigReport (a : AxisId) (x : Axis) : List Byte :=
  num1 a.val ++ flagByte x.configured ++ optIndex x.exhibit ++ optIndex x.positionChannel
    ++ optIndex x.currentChannel ++ num2 x.targetMin ++ num2 x.targetMax ++ num1 x.tolerance
    ++ num1 x.defaultSpeed ++ num1 x.startCost ++ num2 x.accelTime ++ num2 x.travelLimit
    ++ num2 x.settleTime ++ num2 x.feedbackTimeout

/-- The record that AXIS-STATUS returns (R102). -/
def axisReport (s : State) (a : AxisId) : List Byte :=
  let x := s.axis a
  axisConfigReport a x
    ++ num1 x.state.code ++ x.drive.bytes ++ optBytes 6 Move.bytes x.move ++ num1 x.corrections
    ++ optBytes 1 (fun c => num1 c.code) x.fault ++ flagByte x.suppress
    ++ timerBytes x.travel ++ timerBytes x.settle ++ optBytes 1 num1 (queuePlace s a)
    ++ optBytes 2 (fun y => num2 y.value) (positionSampleOf s a)
    ++ optBytes 4 (fun y => clockBytes y.time) (positionSampleOf s a)
    ++ positionWindowByte s a ++ clockBytes s.clock

/-- AXIS-STATUS (R102). -/
def axisStatusBody (_ : Port) (p : List Byte) (s : State) : State × Reply :=
  onAxis p (s := s) fun a s => accept (axisReport s a) s

/-- An entry of the start queue as BUDGET-STATUS returns it: the axis, its exhibit and its start cost. -/
def queueEntry (s : State) (a : AxisId) : List Byte :=
  num1 a.val ++ num1 (((s.axis a).exhibit.map Fin.val).getD 0) ++ num1 (s.axis a).startCost

/-- The axes in ACCELERATING, ascending. -/
def acceleratingAxes (s : State) : List AxisId :=
  (List.finRange 12).filter fun a => (s.axis a).state = .accelerating

/-- An accelerating axis as BUDGET-STATUS returns it: the axis, its cost and its remaining time. -/
def acceleratingEntry (s : State) (a : AxisId) : List Byte :=
  num1 a.val ++ num1 (s.axis a).startCost ++ timerBytes (s.arbiter.accel.get a)

/-- The record that BUDGET-STATUS returns (R116). The SUPPLY channel and its window state are one optional field with
one presence byte, where R200 could be read as two: DEDUCED (log 28). -/
def budgetReport (s : State) : List Byte :=
  num1 s.timing.startBudget ++ num1 s.arbiter.unitsInUse ++ num1 (freeUnits s)
    ++ listBytes (s.arbiter.startQueue.map fun a => queueEntry s a)
    ++ listBytes ((acceleratingAxes s).map fun a => acceleratingEntry s a)
    ++ optBytes 2 (fun c => num1 c.val ++ num1 (s.channel c).window.code) (supplyChannel s)
    ++ flagByte (frozen s) ++ num1 s.arbiter.sag.code ++ timerBytes s.arbiter.sagTimer
    ++ num2 s.timing.sagHoldTime ++ clockBytes s.clock

/-- BUDGET-STATUS (R116). -/
def budgetStatusBody (_ : Port) (_ : List Byte) (s : State) : State × Reply := accept (budgetReport s) s

end Sys2Proof.Machine
end

