-- ==== Sys2Proof/Machine/CueCommands.lean ====
section
/-! DEFINITION. The commands of the cue store and runner (R122-R126, R138-R141). -/

namespace Sys2Proof.Machine

/-- A command that names a frame at offset `i`; a number above 47 is refused NO_SUCH. -/
def onFrame (p : List Byte) (i : Nat) (g : FrameId → State → State × Reply) (s : State) : State × Reply :=
  match frameAt p i with
  | some f => g f s
  | none => refuse .noSuch s

/-- FRAME-TAKE (R122). -/
def frameTakeBody (_ : Port) (_ : List Byte) (s : State) : State × Reply :=
  match s.freeList with
  | [] => refuse .empty s
  | f :: rest => accept (num1 f.val) { s with freeList := rest, takenSet := insertTaken f s.takenSet }

/-- FRAME-WRITE (R123). -/
def frameWriteBody (_ : Port) (p : List Byte) (s : State) : State × Reply :=
  onFrame p 0 (s := s) fun f s =>
    if f ∉ s.takenSet then refuse .notTaken s
    else if byteAt p 1 = 0 ∨ 6 < byteAt p 1 then refuse .badValue s
    else
      match stepsFrom p (byteAt p 1) 2 0 with
      | .error i => refuseWith .badValue (num1 i) s
      | .ok steps => accept [] (s.modFrame f fun x => { x with steps := steps })

/-- A taken frame moves to the tail of the free list (R124). -/
def dropFrame (f : FrameId) (s : State) : State :=
  freeFrame f { s with takenSet := s.takenSet.filter (· ≠ f) }

/-- FRAME-DROP (R124). -/
def frameDropBody (_ : Port) (p : List Byte) (s : State) : State × Reply :=
  onFrame p 0 (s := s) fun f s =>
    if f ∈ s.takenSet then accept [] (dropFrame f s) else refuse .notTaken s

/-! ## CUE-POST (R125, R126) -/

/-- The index of the first step of the group that holds step `i` (R120). -/
def groupStart (steps : List CueStep) : Nat → Nat
  | 0 => 0
  | i + 1 =>
    match steps[i + 1]? with
    | some x => if x.withPrevious then groupStart steps i else i + 1
    | none => groupStart steps i

/-- Whether a step of the same group before step `i` moves axis `a`. -/
def movedBefore (steps : List CueStep) (i : Nat) (a : AxisId) : Bool :=
  ((steps.take i).drop (groupStart steps i)).any fun x =>
    match x.body with
    | .move b _ _ _ => b = a
    | _ => false

/-- Whether step `i` of a step list is bad on exhibit `e` (check 3 of R125). -/
def stepIsBad (s : State) (e : ExhibitId) (steps : List CueStep) (i : Nat) (x : CueStep) : Bool :=
  (i = 0 && x.withPrevious) ||
    match x.body with
    | .move a target _ _ =>
      a ∉ (s.exhibit e).axes || target < (s.axis a).targetMin || (s.axis a).targetMax < target
        || movedBefore steps i a
    | .pause _ => false
    | .waitPress l _ => (s.line l).exhibit ≠ some e || (s.line l).role ≠ some .action

/-- The index of the first bad step; an empty step list is reported as step 0 (check 3 of R125). -/
def firstBadStep (s : State) (e : ExhibitId) (steps : List CueStep) : Option Nat :=
  if steps.isEmpty then some 0
  else
    (steps.zipIdx.find? fun (x, i) => stepIsBad s e steps i x).map Prod.snd

/-- The states in which an exhibit takes a post (check 2 of R125). -/
def ExhibitState.takesPosts : ExhibitState → Bool
  | .ready | .running | .held => true
  | .closed | .faulted | .service => false

/-- The response to a CUE-POST refused on frame `f` and exhibit `e`, none when it passes (R125). -/
def postFault (s : State) (e : ExhibitId) (f : FrameId) : Option Reply :=
  if inService s e then some { status := .wrongState }
  else if f ∉ s.takenSet then some { status := .notTaken }
  else if !(s.exhibit e).state.takesPosts then some { status := .wrongState }
  else
    match firstBadStep s e (s.frame f).steps with
    | some i => some { status := .badFrame, payload := num1 i }
    | none => if (s.exhibit e).queue.length < 4 then none else some { status := .full }

/-- The frame moves to the tail of the exhibit's cue queue, and is taken at once by a READY exhibit in
OPEN (R126). -/
def postFrame (e : ExhibitId) (f : FrameId) (s : State) : State :=
  let t := { s with takenSet := s.takenSet.filter (· ≠ f) }
  let u := t.modFrame f fun x => { x with exhibit := some e, run := x.steps.map fun _ => {} }
  let v := u.modExhibit e fun x => { x with queue := x.queue ++ [f] }
  if (v.exhibit e).state = .ready && canTake v e then takeFrame e v else v

/-- A frame's place: alternative 0 the active slot, alternative 1 its position in the queue (R126,
R200). -/
def placeBytes (s : State) (e : ExhibitId) (f : FrameId) : List Byte :=
  if (s.exhibit e).active = some f then [0, 0] else 1 :: num1 ((s.exhibit e).queue.idxOf f)

/-- CUE-POST (R125, R126; the place before the arbiter evaluates, log 16). -/
def cuePostBody (_ : Port) (p : List Byte) (s : State) : State × Reply :=
  onExhibit p (s := s) fun e s =>
    onFrame p 1 (s := s) fun f s =>
      match postFault s e f with
      | some r => (s, r)
      | none => accept (placeBytes (postFrame e f s) e f) (conclude (postFrame e f s))

/-! ## Ending cues and collecting results -/

/-- CUE-CANCEL (R138). -/
def cueCancelBody (_ : Port) (p : List Byte) (s : State) : State × Reply :=
  onExhibit p (s := s) fun e s =>
    if inService s e || (s.exhibit e).active.isNone then refuse .wrongState s
    else acceptExhibit e (retireActive e .cancelled none s)

/-- CUE-FLUSH (R139). -/
def cueFlushBody (_ : Port) (p : List Byte) (s : State) : State × Reply :=
  onExhibit p (s := s) fun e s =>
    if inService s e then refuse .wrongState s
    else accept (num1 (s.exhibit e).queue.length) (conclude (retireQueue e s))

/-- CUE-RESULT (R140). -/
def cueResultBody (_ : Port) (_ : List Byte) (s : State) : State × Reply :=
  match s.retiredList with
  | [] => refuse .empty s
  | r :: rest => accept r.bytes (freeFrame r.frame { s with retiredList := rest })

/-- The remaining time of a step timer, 0 when not running. -/
def StepTimer.remaining : StepTimer → Nat
  | .running n => n
  | .notRunning | .suspended => 0

/-- One step of the active frame as CUE-STATUS returns it (R141). -/
def stepReport (x : CueStep) (r : StepRun) : List Byte :=
  num1 x.body.kindCode ++ num1 r.status.code ++ optBytes 1 (fun ph => num1 ph.code) r.phase
    ++ num4 r.timer.remaining ++ flagByte (r.timer = .suspended)

/-- The active frame of an exhibit with its current group and steps, one optional field (R141). -/
def activeReport (s : State) (e : ExhibitId) : List Byte :=
  match (s.exhibit e).active with
  | none => [0, 0, 0, 0]
  | some f =>
    1 :: (num1 f.val ++ num1 ((s.frame f).currentGroup.getD 0)
      ++ listBytes ((s.frame f).steps.zipWith stepReport (s.frame f).run))

/-- The record that CUE-STATUS returns (R141). -/
def cueReport (s : State) (e : ExhibitId) : List Byte :=
  num1 e.val ++ num1 (s.exhibit e).state.code ++ num1 s.mode.code ++ activeReport s e
    ++ indexList (s.exhibit e).queue ++ num1 s.freeList.length ++ num1 s.takenSet.length
    ++ num1 s.retiredList.length ++ clockBytes s.clock

/-- CUE-STATUS (R141). -/
def cueStatusBody (_ : Port) (p : List Byte) (s : State) : State × Reply :=
  onExhibit p (s := s) fun e s => accept (cueReport s e) s

end Sys2Proof.Machine
end

