-- ==== Sys2Proof/Machine/ServiceCommands.lean ====
section
/-! DEFINITION. The commands of the link monitor (R145, R153-R156, R158) and EVENT-READ (R51). -/

namespace Sys2Proof.Machine

/-- HEARTBEAT (R145). -/
def heartbeatBody (port : Port) (_ : List Byte) (s : State) : State × Reply :=
  onMaster port (s := s) fun m s =>
    accept (num1 (s.link m).state.code ++ num2 (heartbeatPeriod s m) ++ clockBytes s.clock)
      (conclude (takeHeartbeat m s))

/-- EVENT-READ (R50, R51). -/
def eventReadBody (port : Port) (p : List Byte) (s : State) : State × Reply :=
  if 8 < byteAt p 0 then refuse .badValue s
  else
    let r := readOut (byteAt p 0) (s.queue (portQueue port))
    accept (listBytes (r.1.map Event.bytes) ++ num1 r.2.events.length ++ flagByte r.2.gap)
      (s.modQueue (portQueue port) fun _ => r.2)

/-- Whether a permit cleared on exhibit `e` ends a tenure (R153). -/
def setPermit (e : ExhibitId) (b : Bool) (s : State) : State :=
  let t := s.modExhibit e fun x => { x with permit := b }
  if !b && inService s e then endTenure e t else t

/-- SERVICE-PERMIT (R153). -/
def servicePermitBody (_ : Port) (p : List Byte) (s : State) : State × Reply :=
  onExhibit p (s := s) fun e s =>
    match flagAt p 1 with
    | none => refuse .badValue s
    | some b =>
      let t := conclude (setPermit e b s)
      accept (flagByte (t.exhibit e).permit ++ stateByte t e) t

/-- SERVICE-REVOKE (R155). -/
def serviceRevokeBody (_ : Port) (p : List Byte) (s : State) : State × Reply :=
  onExhibit p (s := s) fun e s =>
    if inService s e then acceptExhibit e (endTenure e s) else refuse .wrongState s

/-- The states from which an exhibit is taken into SERVICE (R154). -/
def ExhibitState.takesTenure : ExhibitState → Bool
  | .closed | .faulted => true
  | .ready | .running | .held | .service => false

/-- EXHIBIT-TAKE (R154). -/
def exhibitTakeBody (_ : Port) (p : List Byte) (s : State) : State × Reply :=
  onExhibit p (s := s) fun e s =>
    if !(s.exhibit e).permit then refuse .notPermitted s
    else if (s.exhibit e).state.takesTenure then acceptExhibit e (beginTenure e s)
    else refuse .wrongState s

/-- EXHIBIT-GIVE (R155). -/
def exhibitGiveBody (_ : Port) (p : List Byte) (s : State) : State × Reply :=
  onExhibit p (s := s) fun e s =>
    if inService s e then acceptExhibit e (endTenure e s) else refuse .wrongState s

/-- One link as LINK-STATUS returns it (R158). -/
def linkReport (s : State) (m : Master) : List Byte :=
  num1 (s.link m).state.code ++ num2 (heartbeatPeriod s m) ++ timerBytes (s.link m).timer
    ++ optBytes 4 clockBytes (s.link m).lastHeartbeat ++ optBytes 4 clockBytes (s.link m).lastChange

/-- The service idle timer as LINK-STATUS returns it: for the service port, after the restart made for
the command's own frame (R156, R158). -/
def idleTimerSeenBy (s : State) : Port → Option Nat
  | .servicePort => (restartIdle s).serviceIdle
  | .showPort | .deskPort => s.serviceIdle

/-- The permit and tenure of an exhibit as LINK-STATUS returns them (R158). -/
def tenureReport (s : State) (e : ExhibitId) : List Byte :=
  flagByte (s.exhibit e).permit ++ optBytes 4 clockBytes (s.tenure e)

/-- The record that LINK-STATUS returns (R158). -/
def linkStatusReport (port : Port) (s : State) : List Byte :=
  linkReport s .showMaster ++ linkReport s .deskMaster ++ num2 s.timing.serviceIdleTime
    ++ timerBytes (idleTimerSeenBy s port)
    ++ ((List.finRange 16).map fun e => tenureReport s e).flatten ++ clockBytes s.clock

/-- LINK-STATUS (R158). -/
def linkStatusBody (port : Port) (_ : List Byte) (s : State) : State × Reply :=
  accept (linkStatusReport port s) s

end Sys2Proof.Machine
end

