-- ==== Sys2Proof/Machine/AlertCommands.lean ====
section
/-! DEFINITION. The commands of the alert list (R174-R178). -/

namespace Sys2Proof.Machine

/-- The record an alert command names at offset 0 (R174, R176). -/
def namedRecord (s : State) (p : List Byte) : Option AlertRecord :=
  s.alerts.records.find? fun r => r.number.toNat = wordAt p 0

/-- A record acknowledged (R174). -/
def AlertRecord.acknowledged (r : AlertRecord) (now : Clock) : AlertRecord :=
  { r with state := .acked, acked := some now, level := 0 }

/-- ALERT-ACK carried out (R174). -/
def ackRecord (r : AlertRecord) (s : State) : State :=
  reevaluateTone (alertChanged (r.acknowledged s.clock) (replaceRecord r.number (r.acknowledged s.clock) s))

/-- ALERT-ACK (R174). -/
def alertAckBody (_ : Port) (p : List Byte) (s : State) : State × Reply :=
  match namedRecord s p with
  | none => refuse .noSuch s
  | some r =>
    if r.state = .acked then refuse .wrongState s
    else accept (r.acknowledged s.clock).bytes (ackRecord r s)

/-- ALERT-CLEAR carried out (R176). -/
def clearRecord (r : AlertRecord) (s : State) : State :=
  reevaluateTone (alertRemoved r 2 (removeRecord r.number s))

/-- ALERT-CLEAR (R176). -/
def alertClearBody (_ : Port) (p : List Byte) (s : State) : State × Reply :=
  match namedRecord s p with
  | none => refuse .noSuch s
  | some r =>
    if r.kind.conditionBound && conditionPresent s r then refuse .stillActive s
    else
      accept (num2 r.number.toNat ++ num1 (clearRecord r s).alerts.records.length) (clearRecord r s)

/-- The SHOW_REPORTED trigger of an ALERT-RAISE (R177). -/
def reportTrigger (sev : Severity) (e : Option ExhibitId) (code : Byte) : Trigger :=
  { kind := .showReported, severity := sev, exhibit := e, showCode := some code }

/-- The alert number of an ALERT-RAISE response, and the mark that the report was not stored (R177; the
mark is a flag that is on when it was not stored, log 13). -/
def raiseReport (number : Option (BitVec 16)) : List Byte :=
  num2 ((number.map BitVec.toNat).getD 0) ++ flagByte number.isNone

/-- The exhibit of an ALERT-RAISE: a presence byte other than 0 or 1 is refused BAD_VALUE, an exhibit
above 15 NO_SUCH (R177, R200). -/
def raiseExhibit (p : List Byte) : Except Status (Option ExhibitId) :=
  match flagAt p 1, exhibitAt p 2 with
  | none, _ => .error .badValue
  | some false, _ => .ok none
  | some true, some e => .ok (some e)
  | some true, none => .error .noSuch

/-- ALERT-RAISE (R177). -/
def alertRaiseBody (_ : Port) (p : List Byte) (s : State) : State × Reply :=
  match severityAt p 0 with
  | none => refuse .badValue s
  | some sev =>
    match raiseExhibit p with
    | .error st => refuse st s
    | .ok e =>
      let r := storeTrigger (reportTrigger sev e (p.getD 3 0)) s
      accept (raiseReport r.2) (reevaluateTone r.1)

/-- One entry of an ALERT-LIST response (R178, R213). -/
def alertEntry (s : State) (r : AlertRecord) : List Byte :=
  r.bytes ++ flagByte (conditionPresent s r) ++ num4 (timeToNext s r)

/-- The records from a starting position on, at most 8, in the list order (R178). -/
def listedRecords (s : State) (start : Nat) : List AlertRecord := ((listOrder s.alerts).drop start).take 8

/-- The list that ALERT-LIST returns (R178, R213). -/
def alertListReport (s : State) (start : Nat) : List Byte :=
  num1 s.alerts.records.length ++ num1 (s.alerts.records.filter fun r => r.state = .opened).length
    ++ num1 start ++ listBytes ((listedRecords s start).map fun r => alertEntry s r) ++ clockBytes s.clock

/-- ALERT-LIST (R178). -/
def alertListBody (_ : Port) (p : List Byte) (s : State) : State × Reply :=
  if 23 < byteAt p 0 then refuse .badValue s else accept (alertListReport s (byteAt p 0)) s

end Sys2Proof.Machine
end

