-- ==== Sys2Proof/Machine/AnnunciatorCommands.lean ====
section
/-! DEFINITION. The commands of the annunciators: CHIME, SILENCE, LAMP-TEST (R186-R188, R193). -/

namespace Sys2Proof.Machine

/-- The tone pattern at offset `i`, or none when the number is out of range. -/
def patternAt (p : List Byte) (i : Nat) : Option PatternId := indexAt 4 p i

/-- The note count of a CHIME: the command's repeats count, or the pattern's when the command gives none;
none where the command is refused BAD_VALUE (checks 2 and 3 of R186). -/
def chimeCount (s : State) (q : PatternId) (p : List Byte) : Option Nat :=
  match optAt (byteIn 1 15) p 1 with
  | none => none
  | some (some n) => some n
  | some none =>
    if (s.annunciators.patterns.get q).repeats = 0 then none
    else some (s.annunciators.patterns.get q).repeats

/-- A chime starts, replacing one in progress (R186, R187). -/
def startChime (q : PatternId) (n : Nat) (s : State) : State :=
  s.modAnnunciators fun x => { x with tone := .chime (startNote s q) n }

/-- CHIME (R186). -/
def chimeBody (_ : Port) (p : List Byte) (s : State) : State × Reply :=
  match patternAt p 0 with
  | none => refuse .noSuch s
  | some q =>
    match chimeCount s q p with
    | none => refuse .badValue s
    | some n =>
      if (demandedPattern s).isSome then refuse .busy s
      else accept (num1 q.val ++ num1 n) (startChime q n s)

/-- Silence begins, or is extended, and alert demand is re-evaluated (R188). -/
def beginSilence (s : State) : State :=
  reevaluateTone <| s.modAnnunciators fun x =>
    { x with silence := some (seconds s.timing.silenceTime), silenceBegan := some s.clock }

/-- SILENCE (R188; the remaining time in milliseconds, log 10). -/
def silenceBody (_ : Port) (_ : List Byte) (s : State) : State × Reply :=
  accept (flagByte (demandedPattern s).isSome ++ num4 (seconds s.timing.silenceTime)) (beginSilence s)

/-- LAMP-TEST (R193). -/
def lampTestBody (_ : Port) (_ : List Byte) (s : State) : State × Reply :=
  accept [] (s.modAnnunciators fun x => { x with lampTest := some 5000 })

end Sys2Proof.Machine
end

