-- ==== Sys2Proof/Machine/ConfigCommands.lean ====
section
/-! DEFINITION. The configuration commands of SETUP and CONFIG-COMMIT (R206-R208). -/

namespace Sys2Proof.Machine

/-- CONFIG-EXHIBIT (R206). -/
def configExhibitBody (_ : Port) (p : List Byte) (s : State) : State × Reply :=
  onExhibit p (s := s) fun e s =>
    match policyAt p 1, flagAt p 2 with
    | some policy, some flag =>
      accept [] (s.modExhibit e fun x => { x with busyPolicy := policy, openWithGallery := flag })
    | _, _ => refuse .badValue s

/-- The fields of a CONFIG-LINE within their ranges, written over a line (R24, R206). -/
def configuredLine (p : List Byte) (x : Line) : Option Line := do
  let e ← optAt exhibitAt p 1
  let role ← optAt roleAt p 3
  let level ← levelAt p 5
  let debounce ← byteIn 5 100 p 6
  let guardTime ← wordIn 0 5000 p 7
  let stuck ← byteIn 5 120 p 9
  return { x with
    exhibit := e, role := role, activeLevel := level, debounce := debounce, repeatGuard := guardTime
    stuckTime := stuck }

/-- CONFIG-LINE (R206). -/
def configLineBody (_ : Port) (p : List Byte) (s : State) : State × Reply :=
  onLine p (s := s) fun l s =>
    match configuredLine p (s.line l) with
    | some x => accept [] (s.modLine l fun _ => x)
    | none => refuse .badValue s

/-- The fields of a CONFIG-AXIS within their ranges, written over an axis (R77, R206). -/
def configuredAxis (p : List Byte) (x : Axis) : Option Axis := do
  let flag ← flagAt p 1
  let e ← optAt exhibitAt p 2
  let targetMin ← wordIn 0 4095 p 4
  let targetMax ← wordIn 0 4095 p 6
  let tolerance ← byteIn 2 200 p 8
  let speed ← byteIn 1 8 p 9
  let cost ← byteIn 1 4 p 10
  let accel ← wordIn 20 2000 p 11
  let travel ← wordIn 500 60000 p 13
  let settle ← wordIn 10 2000 p 15
  let feedback ← wordIn 20 500 p 17
  return { x with
    configured := flag, exhibit := e, targetMin := targetMin, targetMax := targetMax
    tolerance := tolerance, defaultSpeed := speed, startCost := cost, accelTime := accel
    travelLimit := travel, settleTime := settle, feedbackTimeout := feedback }

/-- CONFIG-AXIS (R206). -/
def configAxisBody (_ : Port) (p : List Byte) (s : State) : State × Reply :=
  onAxis p (s := s) fun a s =>
    match configuredAxis p (s.axis a) with
    | some x => accept [] (s.modAxis a fun _ => x)
    | none => refuse .badValue s

/-- The fields of a CONFIG-CHANNEL within their ranges, written over a channel (R55, R206). -/
def configuredChannel (p : List Byte) (x : Channel) : Option Channel := do
  let role ← channelRoleAt p 1
  let binding ← bindingAt role p 2
  let lower ← wordIn 0 4095 p 4
  let upper ← wordIn lower 4095 p 6
  let count ← byteIn 1 8 p 8
  return { x with role := role, binding := binding, lower := lower, upper := upper, filterCount := count }

/-- CONFIG-CHANNEL (R206). -/
def configChannelBody (_ : Port) (p : List Byte) (s : State) : State × Reply :=
  match channelAt p 0 with
  | none => refuse .noSuch s
  | some c =>
    match configuredChannel p (s.channel c) with
    | some x => accept [] (s.modChannel c fun _ => x)
    | none => refuse .badValue s

/-- CONFIG-SCAN (R206). The spec does not order its field checks: the day mode is tested first, then the count, then
the entries, so that a bad day mode or count is refused without an entry's number: DESIGN CHOICE (log 27). -/
def configScanBody (_ : Port) (p : List Byte) (s : State) : State × Reply :=
  match dayModeAt p 0 with
  | none => refuse .badValue s
  | some mode =>
    if 40 < byteAt p 1 then refuse .badValue s
    else
      match scanEntriesFrom p (byteAt p 1) 2 0 with
      | .error i => refuseWith .badValue (num1 i) s
      | .ok list => accept [] (s.modScanner fun x => { x with dayMode := mode, scanList := list })

/-- Three escalation times at offset `i` (R172). -/
def levelTimesAt (p : List Byte) (i : Nat) : Option LevelTimes := do
  let a ← wordIn 0 3600 p i
  let b ← wordIn 0 3600 p (i + 2)
  let c ← wordIn 0 3600 p (i + 4)
  return ⟨a, b, c⟩

/-- The timing record of a CONFIG-TIMING, with every field within its range (R206). -/
def timingAt (p : List Byte) : Option Timing := do
  let showHeartbeat ← wordIn 250 10000 p 0
  let deskHeartbeat ← wordIn 250 10000 p 2
  let guardRelease ← wordIn 0 10000 p 4
  let guardAlert ← wordIn 5 300 p 6
  let sagHold ← wordIn 50 5000 p 8
  let silence ← wordIn 10 600 p 10
  let idle ← wordIn 10 600 p 12
  let urgent ← levelTimesAt p 14
  let attention ← levelTimesAt p 20
  let budget ← byteIn 1 15 p 26
  let pace ← wordIn 2 1000 p 27
  let closedPace ← wordIn 100 10000 p 29
  return {
    showHeartbeat := showHeartbeat, deskHeartbeat := deskHeartbeat, guardReleaseDelay := guardRelease
    guardAlertTime := guardAlert, sagHoldTime := sagHold, silenceTime := silence, serviceIdleTime := idle
    urgentTimes := urgent, attentionTimes := attention, startBudget := budget, paceInterval := pace
    closedPace := closedPace }

/-- Every OPEN record is looked at again under new escalation times, in the list order (R173, R206;
log 17). -/
def reviewLevels (s : State) : State :=
  forList (listOrder s.alerts) (fun r t => if r.state = .opened then climbElapsed r.number t else t) s

/-- Whether two timing records have the same escalation times. -/
def sameLevels (x y : Timing) : Bool := x.urgentTimes = y.urgentTimes && x.attentionTimes = y.attentionTimes

/-- The timing record replaced; a change of the escalation times reviews the levels (R206). -/
def setTiming (timing : Timing) (s : State) : State :=
  if sameLevels s.timing timing then { s with timing := timing }
  else reevaluateTone (reviewLevels { s with timing := timing })

/-- CONFIG-TIMING (R206). -/
def configTimingBody (_ : Port) (p : List Byte) (s : State) : State × Reply :=
  match timingAt p with
  | some timing => accept [] (setTiming timing s)
  | none => refuse .badValue s

/-- The tone pattern of a CONFIG-TONE, with every field within its range (R182, R206). -/
def tonePatternAt (p : List Byte) : Option TonePattern := do
  let pitch ← indexAt 8 p 1
  let onTime ← wordIn 20 2000 p 2
  let offTime ← wordIn 0 2000 p 4
  let envelope ← envelopeAt p 6
  let repeats ← byteIn 0 15 p 7
  return ⟨pitch, onTime, offTime, envelope, repeats⟩

/-- CONFIG-TONE (R206). -/
def configToneBody (_ : Port) (p : List Byte) (s : State) : State × Reply :=
  match patternAt p 0 with
  | none => refuse .noSuch s
  | some q =>
    match tonePatternAt p with
    | some x => accept [] (s.modAnnunciators fun y => { y with patterns := modTable y.patterns q fun _ => x })
    | none => refuse .badValue s

/-- CONFIG-COMMIT (R207, R208). -/
def configCommitBody (_ : Port) (_ : List Byte) (s : State) : State × Reply :=
  match commitFault s with
  | some (kind, index) => refuseWith .badValue (num1 kind ++ num1 index) s
  | none => accept [] (commitHub s)

end Sys2Proof.Machine
end

