-- ==== Sys2Proof/Machine/PortCommands.lean ====
section
/-! DEFINITION. The port engine's own commands: attention (R202) and the note slots (R203-R205). -/

namespace Sys2Proof.Machine

/-- Whether a mask byte is within the causes of a port (R202). -/
def maskOk (m : Master) (b : Byte) : Bool :=
  b.toNat < 32 &&
    match m with
    | .showMaster => !b.getLsbD 2
    | .deskMaster => !b.getLsbD 1

/-- ATTENTION-MASK (R202). -/
def attentionMaskBody (port : Port) (p : List Byte) (s : State) : State × Reply :=
  onMaster port (s := s) fun m s =>
    if maskOk m (p.getD 0 0) then
      accept [p.getD 0 0, attentionSet s m] (s.modSpi m fun x => { x with mask := p.getD 0 0 })
    else refuse .badValue s

/-- ATTENTION-READ (R202). -/
def attentionReadBody (port : Port) (_ : List Byte) (s : State) : State × Reply :=
  onMaster port (s := s) fun m s =>
    accept [attentionSet s m, (s.spi m).mask] (s.modSpi m fun x => { x with edges := {} })

/-- The port that writes a note slot (R203). -/
def slotWriter (i : SlotId) : Master := if i.val < 4 then .showMaster else .deskMaster

/-- The port that reads a note slot (R203). -/
def slotReader (i : SlotId) : Master := if i.val < 4 then .deskMaster else .showMaster

/-- A slot becomes FULL and NOTE_IN is set at its reading port (R204). -/
def fillSlot (i : SlotId) (content : List Byte) (s : State) : State :=
  (s.setNote i (some ⟨content, s.clock⟩)).modSpi (slotReader i) fun x =>
    { x with edges := { x.edges with noteIn := true } }

/-- NOTE-WRITE (R204). -/
def noteWriteBody (port : Port) (p : List Byte) (s : State) : State × Reply :=
  match indexAt 8 p 0 with
  | none => refuse .noSuch s
  | some i =>
    if masterOf port ≠ some (slotWriter i) then refuse .wrongPort s
    else if (s.note i).isSome then refuse .full s
    else accept (num1 i.val ++ clockBytes s.clock) (fillSlot i (p.drop 1) s)

/-- A slot becomes EMPTY and NOTE_TAKEN is set at its writing port (R205). -/
def emptySlot (i : SlotId) (s : State) : State :=
  (s.setNote i none).modSpi (slotWriter i) fun x => { x with edges := { x.edges with noteTaken := true } }

/-- NOTE-READ (R205). -/
def noteReadBody (port : Port) (p : List Byte) (s : State) : State × Reply :=
  match indexAt 8 p 0 with
  | none => refuse .noSuch s
  | some i =>
    if masterOf port ≠ some (slotReader i) then refuse .wrongPort s
    else
      match s.note i with
      | none => refuse .empty s
      | some n =>
        accept (num1 i.val ++ clockBytes n.time ++ listBytes (n.content.map fun b => [b])) (emptySlot i s)

end Sys2Proof.Machine
end

