-- ==== Sys2Proof/Machine/Frames.lean ====
section
/-! DEFINITION. Frames at the ports: the examination of a command (R199), the SPI transactions (R195), and
the service port's receiver and transmitter (R196). -/

namespace Sys2Proof.Machine

/-- What a command does by its own rule, once the checks of the port engine have passed: its effect on the
state and its reply. -/
def Command.body (c : Command) : Port → List Byte → State → State × Reply :=
  match c with
  | .heartbeat => heartbeatBody
  | .eventRead => eventReadBody
  | .attentionRead => attentionReadBody
  | .attentionMask => attentionMaskBody
  | .noteWrite => noteWriteBody
  | .noteRead => noteReadBody
  | .galleryOpen => galleryOpenBody
  | .galleryQuiet => galleryQuietBody
  | .galleryClose => galleryCloseBody
  | .restart => restartBody
  | .exhibitOpen => exhibitOpenBody
  | .exhibitClose => exhibitCloseBody
  | .exhibitHold => exhibitHoldBody
  | .exhibitRelease => exhibitReleaseBody
  | .faultClear => faultClearBody
  | .exhibitStatus => exhibitStatusBody
  | .lineEnable => lineEnableBody
  | .lineDisable => lineDisableBody
  | .lineStatus => lineStatusBody
  | .scanList => scanListBody
  | .scanOnce => scanOnceBody
  | .scanLimits => scanLimitsBody
  | .senseRead => senseReadBody
  | .jog => jogBody
  | .axisStatus => axisStatusBody
  | .budgetStatus => budgetStatusBody
  | .frameTake => frameTakeBody
  | .frameWrite => frameWriteBody
  | .frameDrop => frameDropBody
  | .cuePost => cuePostBody
  | .cueCancel => cueCancelBody
  | .cueFlush => cueFlushBody
  | .cueResult => cueResultBody
  | .cueStatus => cueStatusBody
  | .servicePermit => servicePermitBody
  | .serviceRevoke => serviceRevokeBody
  | .exhibitTake => exhibitTakeBody
  | .exhibitGive => exhibitGiveBody
  | .linkStatus => linkStatusBody
  | .alertAck => alertAckBody
  | .alertClear => alertClearBody
  | .alertRaise => alertRaiseBody
  | .alertList => alertListBody
  | .chime => chimeBody
  | .silence => silenceBody
  | .lampTest => lampTestBody
  | .configExhibit => configExhibitBody
  | .configLine => configLineBody
  | .configAxis => configAxisBody
  | .configChannel => configChannelBody
  | .configScan => configScanBody
  | .configTiming => configTimingBody
  | .configTone => configToneBody
  | .configCommit => configCommitBody
  | .reconfigure => reconfigureBody

/-- The examination of a command taken, in the order of R199, and its execution. -/
def perform (port : Port) (code : Byte) (p : List Byte) (s : State) : State × Reply :=
  match Command.ofCode code with
  | none => refuse .unknownCommand s
  | some c =>
    if port ∉ c.ports then refuse .wrongPort s
    else if s.mode ∉ c.modes then refuse .wrongMode s
    else if c.lengthOk p then c.body port p s
    else refuse .badLength s

/-- The response to a command with a tag. -/
def Reply.toResponse (r : Reply) (tag : Byte) : Response := ⟨tag, r.status, r.payload⟩

/-! ## The SPI ports (R195) -/

/-- A response becomes a port's held response and replaces any not yet collected (R195). -/
def holdResponse (m : Master) (r : Response) (s : State) : State :=
  s.modSpi m fun x => { x with held := some r }

/-- A command with a code, a tag and a payload taken at an SPI port (R195, R199). -/
def takeSpiCommand (m : Master) (code tag : Byte) (p : List Byte) (s : State) : State :=
  holdResponse m ((perform m.port code p s).2.toResponse tag) (perform m.port code p s).1

/-- The bytes of a command transaction are examined as a command frame (R195, R198). -/
def takeSpiFrame (m : Master) (bytes : List Byte) (s : State) : State :=
  match frameFault bytes with
  | some st => holdResponse m ⟨frameTag bytes, st, []⟩ s
  | none => takeSpiCommand m (bytes.getD 0 0) (frameTag bytes) (framePayload bytes) s

/-- The first `n` bytes of a response frame, FFH beyond its last byte (R195). -/
def shiftOut (frame : List Byte) (n : Nat) : List Byte :=
  frame.take n ++ List.replicate (n - frame.length) 0xFF

/-- A collect transaction of `clocked` whole bytes, the first of them FFH: the response is shifted out in
the byte periods after the first, and a held response of which a byte was clocked out is consumed (R195;
the first byte period, log 19). -/
def collect (m : Master) (clocked : Nat) (s : State) : State :=
  if clocked = 0 then s
  else
    s.modSpi m fun x =>
      { x with
        dataOut := shiftOut (x.held.getD noResponse).bytes (clocked - 1)
        held := if 2 ≤ clocked then none else x.held }

/-- A transaction of whole bytes at an SPI port: the first byte decides its kind (R195). -/
def spiTransaction (m : Master) (bytes : List Byte) (s : State) : State :=
  match bytes with
  | [] => s
  | b :: _ =>
    if b = 0xFF then collect m bytes.length s
    else
      (takeSpiFrame m bytes s).modSpi m fun x => { x with dataOut := List.replicate bytes.length 0 }

/-! ## The service port (R196) -/

/-- A response is sent at once by an idle transmitter, and waits otherwise (R196). -/
def sendService (r : Response) (s : State) : State :=
  s.modUart fun u =>
    if u.sending.isNone then { u with sending := some r } else { u with waiting := u.waiting ++ [r] }

/-- A command with a code, a tag and a payload taken at the service port; the service idle timer restarts
or stops after it (R156, R196, R199). -/
def takeServiceCommand (code tag : Byte) (p : List Byte) (s : State) : State :=
  sendService ((perform .servicePort code p s).2.toResponse tag)
    (restartIdle (perform .servicePort code p s).1)

/-- A frame completed at the service port is examined and taken (R156, R196, R198). -/
def takeServiceFrame (bytes : List Byte) (s : State) : State :=
  match frameFault bytes with
  | some st => sendService ⟨frameTag bytes, st, []⟩ s
  | none => takeServiceCommand (bytes.getD 0 0) (frameTag bytes) (framePayload bytes) s

/-- The receiver returns to idle. -/
def receiverIdle (s : State) : State := s.modUart fun u => { u with rx := .idle, quiet := none }

/-- The receiver discards bytes until it has seen 10 ms without a byte (R196). -/
def receiverDiscards (s : State) : State := s.modUart fun u => { u with rx := .discarding, quiet := some 10 }

/-- A frame is complete: it is taken by an idle transmitter, and otherwise waits whole (R196). -/
def completeFrame (bytes : List Byte) (s : State) : State :=
  if s.uart.sending.isNone then takeServiceFrame bytes (receiverIdle s)
  else (receiverIdle s).modUart fun u => { u with waitingFrame := some bytes }

/-- The bytes of the frame in progress after one more has arrived (R196). -/
def extendFrame (bytes : List Byte) (s : State) : State :=
  if bytes.length = 4 ∧ 200 < lengthField bytes then
    sendService ⟨frameTag bytes, .badLength, []⟩ (receiverDiscards s)
  else if 5 ≤ bytes.length ∧ bytes.length = 5 + lengthField bytes then completeFrame bytes s
  else s.modUart fun u => { u with rx := .inFrame bytes, quiet := some 10 }

/-- A byte arrives at the receiver (R196). -/
def receiveByte (b : Byte) (s : State) : State :=
  if s.uart.waitingFrame.isSome then receiverDiscards s
  else
    match s.uart.rx with
    | .idle => extendFrame [b] s
    | .inFrame bytes => extendFrame (bytes ++ [b]) s
    | .discarding => receiverDiscards s

/-- Several bytes arrive, one after another. -/
def receiveBytes (bytes : List Byte) (s : State) : State := forList bytes receiveByte s

/-- The last byte of the response being sent is sent: a waiting response is sent next, or a waiting frame
is taken, or the transmitter is idle (R196). -/
def responseSent (s : State) : State :=
  match s.uart.sending, s.uart.waiting, s.uart.waitingFrame with
  | none, _, _ => s
  | some _, r :: rest, _ => s.modUart fun u => { u with sending := some r, waiting := rest }
  | some _, [], some bytes =>
    takeServiceFrame bytes (s.modUart fun u => { u with sending := none, waitingFrame := none })
  | some _, [], none => s.modUart fun u => { u with sending := none }

/-- A frame in progress that receives no byte for 10 ms is discarded and answered BAD_LENGTH (R196). -/
def gapTimeout (s : State) : State :=
  match s.uart.rx, s.uart.quiet with
  | .inFrame bytes, some 0 => sendService ⟨frameTag bytes, .badLength, []⟩ (receiverIdle s)
  | _, _ => s

/-- The receiver's discarding ends after 10 ms without a byte (R196). -/
def discardEnd (s : State) : State :=
  match s.uart.rx, s.uart.quiet with
  | .discarding, some 0 => receiverIdle s
  | _, _ => s

/-- A byte with a missing stop bit: the bytes received so far are discarded and answered BAD_LENGTH, and
the receiver discards (R196). While a frame waits or the receiver discards it is one more discarded byte;
the answer at an idle receiver is left open by the spec (log 8). The faulty byte itself is not counted among
the bytes received, so that it is never the second byte whose value is the tag: DESIGN CHOICE (log 25). -/
def stopBitFault (s : State) : State :=
  if s.uart.waitingFrame.isSome then receiverDiscards s
  else
    match s.uart.rx with
    | .inFrame bytes => sendService ⟨frameTag bytes, .badLength, []⟩ (receiverDiscards s)
    | .idle =>
      if Config.idleStopFaultAnswers then sendService ⟨0, .badLength, []⟩ (receiverDiscards s)
      else receiverDiscards s
    | .discarding => receiverDiscards s

/-- The fourth byte of a frame in progress that makes its length exceed 200 (R196). -/
def lengthTooLarge (b : Byte) (s : State) : State :=
  match s.uart.waitingFrame, s.uart.rx with
  | none, .inFrame bytes =>
    if bytes.length = 3 ∧ 200 < lengthField (bytes ++ [b]) then receiveByte b s else s
  | _, _ => s

/-! ## A command frame at a port -/

/-- Whether the service port's receiver is at the start of a frame, with no frame waiting. -/
def receiverFree (s : State) : Bool := s.uart.waitingFrame.isNone && s.uart.rx = .idle

/-- A command frame arrives whole at a port: one SPI transaction, or its bytes at the service port, which
a free receiver assembles into the frame (R195-R197). -/
def arriveFrame (port : Port) (code tag : Byte) (p : List Byte) (s : State) : State :=
  match masterOf port with
  | some m => spiTransaction m (commandFrame code tag p) s
  | none =>
    if receiverFree s ∧ p.length ≤ 200 then completeFrame (commandFrame code tag p) s
    else receiveBytes (commandFrame code tag p) s

/-- Bytes arrive at a port: one SPI transaction, or bytes at the service port. -/
def arriveBytes (port : Port) (bytes : List Byte) (s : State) : State :=
  match masterOf port with
  | some m => spiTransaction m bytes s
  | none => receiveBytes bytes s

/-- The meaning of a command frame of the table: ignored in full reset (R210). -/
def runCommand (c : Command) (port : Port) (tag : Byte) (p : List Byte) (s : State) : Result :=
  occur (arriveFrame port c.code tag p) s

end Sys2Proof.Machine
end

