-- ==== Sys2Proof/Machine/CommandRows.lean ====
section
/-! DEFINITION. The meanings of the 55 command frames: one definition each over the frame path. -/

namespace Sys2Proof.Machine

/-- HEARTBEAT arrives at a port. -/
def execHeartbeat (port : Port) (tag : Byte) (payload : List Byte) (s : State) : Result :=
  runCommand .heartbeat port tag payload s

/-- EVENT-READ arrives at a port. -/
def execEventRead (port : Port) (tag : Byte) (payload : List Byte) (s : State) : Result :=
  runCommand .eventRead port tag payload s

/-- ATTENTION-READ arrives at a port. -/
def execAttentionRead (port : Port) (tag : Byte) (payload : List Byte) (s : State) : Result :=
  runCommand .attentionRead port tag payload s

/-- ATTENTION-MASK arrives at a port. -/
def execAttentionMask (port : Port) (tag : Byte) (payload : List Byte) (s : State) : Result :=
  runCommand .attentionMask port tag payload s

/-- NOTE-WRITE arrives at a port. -/
def execNoteWrite (port : Port) (tag : Byte) (payload : List Byte) (s : State) : Result :=
  runCommand .noteWrite port tag payload s

/-- NOTE-READ arrives at a port. -/
def execNoteRead (port : Port) (tag : Byte) (payload : List Byte) (s : State) : Result :=
  runCommand .noteRead port tag payload s

/-- GALLERY-OPEN arrives at a port. -/
def execGalleryOpen (port : Port) (tag : Byte) (payload : List Byte) (s : State) : Result :=
  runCommand .galleryOpen port tag payload s

/-- GALLERY-QUIET arrives at a port. -/
def execGalleryQuiet (port : Port) (tag : Byte) (payload : List Byte) (s : State) : Result :=
  runCommand .galleryQuiet port tag payload s

/-- GALLERY-CLOSE arrives at a port. -/
def execGalleryClose (port : Port) (tag : Byte) (payload : List Byte) (s : State) : Result :=
  runCommand .galleryClose port tag payload s

/-- RESTART arrives at a port. -/
def execRestart (port : Port) (tag : Byte) (payload : List Byte) (s : State) : Result :=
  runCommand .restart port tag payload s

/-- EXHIBIT-OPEN arrives at a port. -/
def execExhibitOpen (port : Port) (tag : Byte) (payload : List Byte) (s : State) : Result :=
  runCommand .exhibitOpen port tag payload s

/-- EXHIBIT-CLOSE arrives at a port. -/
def execExhibitClose (port : Port) (tag : Byte) (payload : List Byte) (s : State) : Result :=
  runCommand .exhibitClose port tag payload s

/-- EXHIBIT-HOLD arrives at a port. -/
def execExhibitHold (port : Port) (tag : Byte) (payload : List Byte) (s : State) : Result :=
  runCommand .exhibitHold port tag payload s

/-- EXHIBIT-RELEASE arrives at a port. -/
def execExhibitRelease (port : Port) (tag : Byte) (payload : List Byte) (s : State) : Result :=
  runCommand .exhibitRelease port tag payload s

/-- FAULT-CLEAR arrives at a port. -/
def execFaultClear (port : Port) (tag : Byte) (payload : List Byte) (s : State) : Result :=
  runCommand .faultClear port tag payload s

/-- EXHIBIT-STATUS arrives at a port. -/
def execExhibitStatus (port : Port) (tag : Byte) (payload : List Byte) (s : State) : Result :=
  runCommand .exhibitStatus port tag payload s

/-- LINE-ENABLE arrives at a port. -/
def execLineEnable (port : Port) (tag : Byte) (payload : List Byte) (s : State) : Result :=
  runCommand .lineEnable port tag payload s

/-- LINE-DISABLE arrives at a port. -/
def execLineDisable (port : Port) (tag : Byte) (payload : List Byte) (s : State) : Result :=
  runCommand .lineDisable port tag payload s

/-- LINE-STATUS arrives at a port. -/
def execLineStatus (port : Port) (tag : Byte) (payload : List Byte) (s : State) : Result :=
  runCommand .lineStatus port tag payload s

/-- SCAN-LIST arrives at a port. -/
def execScanList (port : Port) (tag : Byte) (payload : List Byte) (s : State) : Result :=
  runCommand .scanList port tag payload s

/-- SCAN-ONCE arrives at a port. -/
def execScanOnce (port : Port) (tag : Byte) (payload : List Byte) (s : State) : Result :=
  runCommand .scanOnce port tag payload s

/-- SCAN-LIMITS arrives at a port. -/
def execScanLimits (port : Port) (tag : Byte) (payload : List Byte) (s : State) : Result :=
  runCommand .scanLimits port tag payload s

/-- SENSE-READ arrives at a port. -/
def execSenseRead (port : Port) (tag : Byte) (payload : List Byte) (s : State) : Result :=
  runCommand .senseRead port tag payload s

/-- JOG arrives at a port. -/
def execJog (port : Port) (tag : Byte) (payload : List Byte) (s : State) : Result :=
  runCommand .jog port tag payload s

/-- AXIS-STATUS arrives at a port. -/
def execAxisStatus (port : Port) (tag : Byte) (payload : List Byte) (s : State) : Result :=
  runCommand .axisStatus port tag payload s

/-- BUDGET-STATUS arrives at a port. -/
def execBudgetStatus (port : Port) (tag : Byte) (payload : List Byte) (s : State) : Result :=
  runCommand .budgetStatus port tag payload s

/-- FRAME-TAKE arrives at a port. -/
def execFrameTake (port : Port) (tag : Byte) (payload : List Byte) (s : State) : Result :=
  runCommand .frameTake port tag payload s

/-- FRAME-WRITE arrives at a port. -/
def execFrameWrite (port : Port) (tag : Byte) (payload : List Byte) (s : State) : Result :=
  runCommand .frameWrite port tag payload s

/-- FRAME-DROP arrives at a port. -/
def execFrameDrop (port : Port) (tag : Byte) (payload : List Byte) (s : State) : Result :=
  runCommand .frameDrop port tag payload s

/-- CUE-POST arrives at a port. -/
def execCuePost (port : Port) (tag : Byte) (payload : List Byte) (s : State) : Result :=
  runCommand .cuePost port tag payload s

/-- CUE-CANCEL arrives at a port. -/
def execCueCancel (port : Port) (tag : Byte) (payload : List Byte) (s : State) : Result :=
  runCommand .cueCancel port tag payload s

/-- CUE-FLUSH arrives at a port. -/
def execCueFlush (port : Port) (tag : Byte) (payload : List Byte) (s : State) : Result :=
  runCommand .cueFlush port tag payload s

/-- CUE-RESULT arrives at a port. -/
def execCueResult (port : Port) (tag : Byte) (payload : List Byte) (s : State) : Result :=
  runCommand .cueResult port tag payload s

/-- CUE-STATUS arrives at a port. -/
def execCueStatus (port : Port) (tag : Byte) (payload : List Byte) (s : State) : Result :=
  runCommand .cueStatus port tag payload s

/-- SERVICE-PERMIT arrives at a port. -/
def execServicePermit (port : Port) (tag : Byte) (payload : List Byte) (s : State) : Result :=
  runCommand .servicePermit port tag payload s

/-- SERVICE-REVOKE arrives at a port. -/
def execServiceRevoke (port : Port) (tag : Byte) (payload : List Byte) (s : State) : Result :=
  runCommand .serviceRevoke port tag payload s

/-- EXHIBIT-TAKE arrives at a port. -/
def execExhibitTake (port : Port) (tag : Byte) (payload : List Byte) (s : State) : Result :=
  runCommand .exhibitTake port tag payload s

/-- EXHIBIT-GIVE arrives at a port. -/
def execExhibitGive (port : Port) (tag : Byte) (payload : List Byte) (s : State) : Result :=
  runCommand .exhibitGive port tag payload s

/-- LINK-STATUS arrives at a port. -/
def execLinkStatus (port : Port) (tag : Byte) (payload : List Byte) (s : State) : Result :=
  runCommand .linkStatus port tag payload s

/-- ALERT-ACK arrives at a port. -/
def execAlertAck (port : Port) (tag : Byte) (payload : List Byte) (s : State) : Result :=
  runCommand .alertAck port tag payload s

/-- ALERT-CLEAR arrives at a port. -/
def execAlertClear (port : Port) (tag : Byte) (payload : List Byte) (s : State) : Result :=
  runCommand .alertClear port tag payload s

/-- ALERT-RAISE arrives at a port. -/
def execAlertRaise (port : Port) (tag : Byte) (payload : List Byte) (s : State) : Result :=
  runCommand .alertRaise port tag payload s

/-- ALERT-LIST arrives at a port. -/
def execAlertList (port : Port) (tag : Byte) (payload : List Byte) (s : State) : Result :=
  runCommand .alertList port tag payload s

/-- CHIME arrives at a port. -/
def execChime (port : Port) (tag : Byte) (payload : List Byte) (s : State) : Result :=
  runCommand .chime port tag payload s

/-- SILENCE arrives at a port. -/
def execSilence (port : Port) (tag : Byte) (payload : List Byte) (s : State) : Result :=
  runCommand .silence port tag payload s

/-- LAMP-TEST arrives at a port. -/
def execLampTest (port : Port) (tag : Byte) (payload : List Byte) (s : State) : Result :=
  runCommand .lampTest port tag payload s

/-- CONFIG-EXHIBIT arrives at a port. -/
def execConfigExhibit (port : Port) (tag : Byte) (payload : List Byte) (s : State) : Result :=
  runCommand .configExhibit port tag payload s

/-- CONFIG-LINE arrives at a port. -/
def execConfigLine (port : Port) (tag : Byte) (payload : List Byte) (s : State) : Result :=
  runCommand .configLine port tag payload s

/-- CONFIG-AXIS arrives at a port. -/
def execConfigAxis (port : Port) (tag : Byte) (payload : List Byte) (s : State) : Result :=
  runCommand .configAxis port tag payload s

/-- CONFIG-CHANNEL arrives at a port. -/
def execConfigChannel (port : Port) (tag : Byte) (payload : List Byte) (s : State) : Result :=
  runCommand .configChannel port tag payload s

/-- CONFIG-SCAN arrives at a port. -/
def execConfigScan (port : Port) (tag : Byte) (payload : List Byte) (s : State) : Result :=
  runCommand .configScan port tag payload s

/-- CONFIG-TIMING arrives at a port. -/
def execConfigTiming (port : Port) (tag : Byte) (payload : List Byte) (s : State) : Result :=
  runCommand .configTiming port tag payload s

/-- CONFIG-TONE arrives at a port. -/
def execConfigTone (port : Port) (tag : Byte) (payload : List Byte) (s : State) : Result :=
  runCommand .configTone port tag payload s

/-- CONFIG-COMMIT arrives at a port. -/
def execConfigCommit (port : Port) (tag : Byte) (payload : List Byte) (s : State) : Result :=
  runCommand .configCommit port tag payload s

/-- RECONFIGURE arrives at a port. -/
def execReconfigure (port : Port) (tag : Byte) (payload : List Byte) (s : State) : Result :=
  runCommand .reconfigure port tag payload s

end Sys2Proof.Machine
end

