-- ==== Sys2Proof/Machine/TimerOps.lean ====
section
/-! DEFINITION. Floor events, timer expiries and the clock tick: what each does when it can occur, and
nothing when it cannot (log 3). -/

namespace Sys2Proof.Machine

/-! ## The clock tick (R1, R191) -/

/-- One millisecond of a timer. -/
def tickTimer (t : Option Nat) : Option Nat := t.map (· - 1)

/-- One millisecond of an exhibit's timers. -/
def Exhibit.tick (x : Exhibit) : Exhibit :=
  { x with guardRelease := tickTimer x.guardRelease, guardLong := tickTimer x.guardLong }

/-- One millisecond of an axis's timers. -/
def Axis.tick (x : Axis) : Axis := { x with travel := tickTimer x.travel, settle := tickTimer x.settle }

/-- One millisecond of the arbiter's timers. -/
def Arbiter.tick (x : Arbiter) : Arbiter :=
  { x with accel := mapTable tickTimer x.accel, sagTimer := tickTimer x.sagTimer }

/-- One millisecond of the scanner's timers. -/
def Scanner.tick (x : Scanner) : Scanner :=
  { x with
    warmUp := tickTimer x.warmUp, pace := tickTimer x.pace, closedPaceTimer := tickTimer x.closedPaceTimer }

/-- One millisecond of a step timer: a suspended one does not run (R133). -/
def StepRun.tick (r : StepRun) : StepRun :=
  match r.timer with
  | .running n => { r with timer := .running (n - 1) }
  | .notRunning | .suspended => r

/-- One millisecond of a frame's step timers. -/
def CueFrame.tick (x : CueFrame) : CueFrame := { x with run := x.run.map StepRun.tick }

/-- One millisecond of the note in progress. -/
def Note.tick (n : Note) : Note := { n with elapsed := min (n.elapsed + 1) (n.onTime + n.offTime) }

/-- One millisecond of the tone arbiter. -/
def ToneArbiter.tick : ToneArbiter → ToneArbiter
  | .silent => .silent
  | .alertTone n => .alertTone n.tick
  | .chime n k => .chime n.tick k

/-- One millisecond of the annunciators; the flash counter passes from 999 to 0 (R191). -/
def Annunciators.tick (x : Annunciators) : Annunciators :=
  { x with
    tone := x.tone.tick, silence := tickTimer x.silence, lampTest := tickTimer x.lampTest
    flash := (x.flash + 1) % 1000 }

/-- One millisecond of a link's heartbeat timer. -/
def LinkRecord.tick (x : LinkRecord) : LinkRecord := { x with timer := tickTimer x.timer }

/-- One millisecond of the receiver's wait for a quiet line. -/
def Uart.tick (u : Uart) : Uart := { u with quiet := tickTimer u.quiet }

/-- One millisecond: the clock, the flash counter and every running timer (R1, R191; log 2). -/
def clockTick (s : State) : State :=
  { s with
    clock := s.clock + 1
    exhibits := mapTable Exhibit.tick s.exhibits
    axes := mapTable Axis.tick s.axes
    arbiter := s.arbiter.tick
    scanner := s.scanner.tick
    frames := mapTable CueFrame.tick s.frames
    annunciators := s.annunciators.tick
    showLink := s.showLink.tick
    deskLink := s.deskLink.tick
    serviceIdle := tickTimer s.serviceIdle
    uart := s.uart.tick }

/-! ## Samples of lines (file 02) -/

/-- The input and the latest sample of a line in full reset, where the line is INERT (R24, R210;
log 20). -/
def latchInput (l : LineId) (level : Level) (s : State) : State :=
  s.modLine l fun x => { x with input := level, latest := level = x.activeLevel }

/-- The level a line treats as not pressed. -/
def inactiveLevel (x : Line) : Level := Level.other x.activeLevel

/-- The sample that completes the run of a line in a given state, if its run is at its last sample. -/
def completeRun (st : LineState) (l : LineId) (level : Level) (s : State) : State :=
  if (s.line l).state = st ∧ runCompletes (s.line l) then conclude (sampleLine l level s) else s

/-- Whether a sample at a level reaches the stuck time of a line in PRESSED or RELEASE_PENDING without
completing a release (R37). -/
def sticks (x : Line) (level : Level) : Bool :=
  seconds x.stuckTime ≤ x.stuckTimer.getD 0 + 1 &&
    match x.state with
    | .pressed => true
    | .releasePending => level = x.activeLevel || !runCompletes x
    | .inert | .waitRelease | .released | .pressPending | .stuck => false

/-! ## The scanner (file 04) -/

/-- The conversion in flight completes (R58). -/
def conversionDone (result : BitVec 12) (s : State) : State :=
  match s.scanner.state, s.scanner.passPosition, s.scanner.inFlight with
  | .converting, some i, some c =>
    conclude ((recordResult c result.toNat s).modScanner fun x => x.advance i)
  | _, _, _ => s

/-- The warm-up ends and the scanner acts by its regime (R65). -/
def Scanner.warmedUp (pace : Nat) (x : Scanner) : Scanner :=
  let y := { x with warmUp := none }
  match x.regime with
  | .closedScan => y.closedPassFrom 0
  | .day => y.beginDay pace
  | .off => y

/-- The warm-up timer expires (R65). -/
def warmUpExpires (s : State) : State :=
  if s.scanner.state = .warming ∧ s.scanner.warmUp = some 0 then
    s.modScanner (Scanner.warmedUp s.timing.paceInterval)
  else s

/-- The pace timer expires: it restarts, and the expiry acts by the scanner's state (R67). -/
def paceExpires (s : State) : State :=
  if s.scanner.pace = some 0 then
    let t := s.modScanner fun x => { x with pace := some s.timing.paceInterval }
    match s.scanner.state with
    | .waiting => t.modScanner Scanner.startDayPass
    | .converting => emit [.showQ] { kind := .scanOverrun } t
    | .off | .dozing | .warming => t
  else s

/-- The closed pace timer expires: it restarts, and a DOZING scanner with an entry to convert warms up
(R69). -/
def closedPaceExpires (s : State) : State :=
  if s.scanner.closedPaceTimer = some 0 then
    let t := s.modScanner fun x => { x with closedPaceTimer := some s.timing.closedPace }
    if s.scanner.state = .dozing ∧ (keepEntryFrom 0 s.scanner.scanList).isSome then
      t.modScanner Scanner.powerUp
    else t
  else s

/-! ## Axes and the arbiter (files 05 and 06) -/

/-- The acceleration period ends: the units return and the axis becomes MOVING (R84, R108). -/
def accelerationEnds (a : AxisId) (s : State) : State :=
  if (s.axis a).state = .accelerating ∧ s.arbiter.accel.get a = some 0 then
    conclude ((returnUnits a s).modAxis a fun x => { x with state := .moving })
  else s

/-- The age of a driving axis's latest sample exceeds the feedback timeout (R86). -/
def feedbackExpires (a : AxisId) (s : State) : State :=
  if (s.axis a).state.driving ∧ feedbackStale s a then conclude (faultAxis a .noFeedback s) else s

/-- The travel timer of a driving axis expires (R87). -/
def travelExpires (a : AxisId) (s : State) : State :=
  if (s.axis a).state.driving ∧ (s.axis a).travel = some 0 then conclude (faultAxis a .moveTimeout s) else s

/-- The settle timer of a SETTLING axis expires (R89). -/
def settleExpires (a : AxisId) (s : State) : State :=
  if (s.axis a).state = .settling ∧ (s.axis a).settle = some 0 then conclude (judgeSettled a s) else s

/-- The sag hold timer expires: SUPPLY is added to every exhibit not CLOSED, in ascending number (R112). -/
def sagHoldExpires (s : State) : State :=
  if s.arbiter.sag = .sagPending ∧ s.arbiter.sagTimer = some 0 then
    conclude <|
      forEach (fun e t => if (t.exhibit e).state = .closed then t else addHold .supply e t) <|
        s.modArbiter fun x => { x with sag := .sagHold, sagTimer := none }
  else s

/-! ## Exhibits and cues (files 01 and 07) -/

/-- The guard release timer expires (R21). -/
def guardReleaseExpires (e : ExhibitId) (s : State) : State :=
  if (s.exhibit e).guardRelease = some 0 then conclude (guardReleased e s) else s

/-- The guard-long timer expires: GUARD_LONG is triggered and the timer does not restart (R22). -/
def guardLongExpires (e : ExhibitId) (s : State) : State :=
  if (s.exhibit e).guardLong = some 0 then
    let t := s.modExhibit e fun x => { x with guardLong := none }
    if (s.exhibit e).holds.guard then raiseAlert (tableTrigger .guardLong (some e)) t else t
  else s

/-- The active frame of exhibit `e` whose step `i` has a timer with no time left, with the step. -/
def expiredStep (s : State) (e : ExhibitId) (i : StepId) : Option (FrameId × StepBody) :=
  (s.exhibit e).active.bind fun f =>
    match (s.frame f).steps[i.val]?, (s.frame f).run[i.val]? with
    | some x, some r => if r.timer = .running 0 then some (f, x.body) else none
    | _, _ => none

/-- A DWELLING MOVE step's timer expires and the step becomes DONE (R129). -/
def dwellExpires (e : ExhibitId) (i : StepId) (s : State) : State :=
  match expiredStep s e i with
  | some (f, .move ..) => conclude (afterDone e f (markDone f i.val s))
  | _ => s

/-- A PAUSE step's timer expires and the step becomes DONE (R130). -/
def pauseExpires (e : ExhibitId) (i : StepId) (s : State) : State :=
  match expiredStep s e i with
  | some (f, .pause _) => conclude (afterDone e f (markDone f i.val s))
  | _ => s

/-- A WAIT_PRESS step's timeout expires and its frame is retired PRESS_TIMEOUT (R131). -/
def pressExpires (e : ExhibitId) (i : StepId) (s : State) : State :=
  match expiredStep s e i with
  | some (_, .waitPress ..) => conclude (retireActive e .pressTimeout none s)
  | _ => s

/-! ## Links and tenure (file 08) -/

/-- A link's heartbeat timer expires (R146). -/
def heartbeatExpires (m : Master) (s : State) : State :=
  if (s.link m).state = .active ∧ (s.link m).timer = some 0 then conclude (lapseLink m s) else s

/-- The service idle timer expires (R156). -/
def serviceIdleExpires (s : State) : State :=
  if s.serviceIdle = some 0 then conclude (endTenures s) else s

/-! ## Alerts and annunciators (files 09 and 10) -/

/-- The time of a record's next level, when the elapsed time has reached it (R173). -/
def levelReached (s : State) (r : AlertRecord) : Option Nat :=
  if r.state = .opened then
    (levelTime s.timing r.severity (r.level + 1)).filter fun t => t ≤ elapsed r.raised s.clock
  else none

/-- A record reaches its next level, and every level of the same time, with ALERT_CHANGED (R173). -/
def reachNextLevel (number : BitVec 16) (s : State) : State :=
  match (recordOf s number).bind (levelReached s) with
  | some limit => reevaluateTone (climb 3 number limit s)
  | none => s

/-- Whether a note is at the end of its off time (R183). -/
def Note.complete (n : Note) : Bool := n.onTime + n.offTime ≤ n.elapsed

/-- A note ends: the alert tone starts its next note, and a chime its next or, after its last, the arbiter
becomes SILENT (R185, R187). -/
def noteEnds (s : State) : State :=
  match s.annunciators.tone with
  | .silent => s
  | .alertTone n => if n.complete then playAlert n.pattern s else s
  | .chime n k => if n.complete then (if k ≤ 1 then toneSilent s else startChime n.pattern (k - 1) s) else s

/-- The silence timer expires: silence ends and alert demand is re-evaluated (R189). -/
def silenceExpires (s : State) : State :=
  if s.annunciators.silence = some 0 then reevaluateTone (endSilence s) else s

/-- The lamp-test timer expires (R193). -/
def lampTestExpires (s : State) : State :=
  if s.annunciators.lampTest = some 0 then s.modAnnunciators fun x => { x with lampTest := none } else s

end Sys2Proof.Machine
end

