-- ==== Sys2Proof/Machine/EventRows.lean ====
section
/-! DEFINITION. The meanings of the port events, the resets, the floor events, the timer expiries and the
clock tick: one definition each. -/

namespace Sys2Proof.Machine

/-! ## Port events -/

/-- A command frame whose code names no command (R199). -/
def execUnknownCommand (port : Port) (code tag : Byte) (payload : List Byte) (s : State) : Result :=
  occur (arriveFrame port code tag payload) s

/-- Bytes that fail the length or check-byte test (R198). -/
def execFrameCheckFailure (port : Port) (bytes : List Byte) (s : State) : Result :=
  occur (arriveBytes port bytes) s

/-- A collect transaction (R195). -/
def execCollectTransaction (m : Master) (clocked : Nat) (s : State) : Result := occur (collect m clocked) s

/-- The fourth byte of a UART frame makes its length exceed 200 (R196). -/
def execUartLengthFieldTooLarge (b : Byte) (s : State) : Result := occur (lengthTooLarge b) s

/-- 10 ms without a byte in a frame in progress (R196). -/
def execUartGapTimeout (s : State) : Result := occur gapTimeout s

/-- A byte with a missing stop bit (R196). -/
def execUartStopBitFault (s : State) : Result := occur stopBitFault s

/-- The receiver's discarding ends (R196). -/
def execUartDiscardEnd (s : State) : Result := occur discardEnd s

/-- The last byte of a response is sent (R196). -/
def execUartResponseSent (s : State) : Result := occur responseSent s

/-- A byte arrives at the service port (R196). -/
def execUartByteReceived (b : Byte) (s : State) : Result := occur (receiveByte b) s

/-! ## Resets -/

/-- RESET low (R210). -/
def execFullReset (s : State) : Result := .next (fullResetHub s)

/-- RESET rises (R210). -/
def execResetRelease (s : State) : Result := .next (releaseReset s)

/-! ## The floor -/

/-- One sample of a line (R25); in full reset it changes the latest sample alone (R24, R210;
log 20). -/
def execLineSample (l : LineId) (level : Level) (s : State) : Result :=
  if s.inReset then .next (latchInput l level s) else occur (fun t => conclude (sampleLine l level t)) s

/-- A WAIT_RELEASE line sees a clean release (R29). -/
def execWaitReleaseCleared (l : LineId) (s : State) : Result :=
  occur (fun t => completeRun .waitRelease l (inactiveLevel (t.line l)) t) s

/-- A press is taken (R30). -/
def execPressTaken (l : LineId) (s : State) : Result :=
  occur (fun t => completeRun .pressPending l (t.line l).activeLevel t) s

/-- A release is taken (R34). -/
def execReleaseTaken (l : LineId) (s : State) : Result :=
  occur (fun t => completeRun .releasePending l (inactiveLevel (t.line l)) t) s

/-- A line reaches its stuck time at a sample (R37). -/
def execLineStuck (l : LineId) (level : Level) (s : State) : Result :=
  occur (fun t => if sticks (t.line l) level then conclude (sampleLine l level t) else t) s

/-- A STUCK line sees a clean release (R38). -/
def execStuckRelease (l : LineId) (s : State) : Result :=
  occur (fun t => completeRun .stuck l (inactiveLevel (t.line l)) t) s

/-- The conversion in flight completes with a result (R58). -/
def execConversionComplete (result : BitVec 12) (s : State) : Result := occur (conversionDone result) s

/-! ## Timers -/

/-- The warm-up ends (R65). -/
def execWarmUpExpiry (s : State) : Result := occur warmUpExpires s

/-- The pace timer expires (R67). -/
def execPaceTimerExpiry (s : State) : Result := occur paceExpires s

/-- The closed pace timer expires (R69). -/
def execClosedPaceExpiry (s : State) : Result := occur closedPaceExpires s

/-- An axis's acceleration period ends (R84, R108). -/
def execAccelerationTimerExpiry (a : AxisId) (s : State) : Result := occur (accelerationEnds a) s

/-- A driving axis's feedback is too old (R86). -/
def execFeedbackTimeout (a : AxisId) (s : State) : Result := occur (feedbackExpires a) s

/-- A driving axis's travel timer expires (R87). -/
def execTravelTimerExpiry (a : AxisId) (s : State) : Result := occur (travelExpires a) s

/-- A SETTLING axis is judged (R89). -/
def execSettleTimerExpiry (a : AxisId) (s : State) : Result := occur (settleExpires a) s

/-- The guard release timer expires (R21). -/
def execGuardReleaseExpiry (e : ExhibitId) (s : State) : Result := occur (guardReleaseExpires e) s

/-- The guard-long timer expires (R22). -/
def execGuardLongExpiry (e : ExhibitId) (s : State) : Result := occur (guardLongExpires e) s

/-- A dwell ends (R129). -/
def execDwellExpiry (e : ExhibitId) (i : StepId) (s : State) : Result := occur (dwellExpires e i) s

/-- A pause ends (R130). -/
def execPauseExpiry (e : ExhibitId) (i : StepId) (s : State) : Result := occur (pauseExpires e i) s

/-- A WAIT_PRESS timeout expires (R131). -/
def execPressTimeout (e : ExhibitId) (i : StepId) (s : State) : Result := occur (pressExpires e i) s

/-- A link's heartbeat timer expires (R146). -/
def execHeartbeatTimerExpiry (m : Master) (s : State) : Result := occur (heartbeatExpires m) s

/-- The service idle timer expires (R156). -/
def execServiceIdleExpiry (s : State) : Result := occur serviceIdleExpires s

/-- The sag hold timer expires (R112). -/
def execSagHoldExpiry (s : State) : Result := occur sagHoldExpires s

/-- An OPEN record reaches its next level (R173). -/
def execAlertLevelReached (number : BitVec 16) (s : State) : Result := occur (reachNextLevel number) s

/-- A note ends (R183, R187). -/
def execToneNoteEnd (s : State) : Result := occur noteEnds s

/-- The silence timer expires (R189). -/
def execSilenceTimerExpiry (s : State) : Result := occur silenceExpires s

/-- The lamp-test timer expires (R193). -/
def execLampTestExpiry (s : State) : Result := occur lampTestExpires s

/-- One millisecond passes (R1, R191). -/
def execGalleryClockTick (s : State) : Result := occur clockTick s

end Sys2Proof.Machine
end

