-- ==== Sys2Proof/Machine/Dispatch.lean ====
section
/-! DEFINITION. The dispatch: one arm for each command. -/

namespace Sys2Proof.Machine

/-- The effect of a command on everything but the queue. -/
def exec (i : Instr) (s : State) : Host.Outcome State Fault Refusal :=
  match i with
  | .heartbeat port tag payload => Sys2Proof.Machine.execHeartbeat port tag payload s
  | .eventRead port tag payload => Sys2Proof.Machine.execEventRead port tag payload s
  | .attentionRead port tag payload => Sys2Proof.Machine.execAttentionRead port tag payload s
  | .attentionMask port tag payload => Sys2Proof.Machine.execAttentionMask port tag payload s
  | .noteWrite port tag payload => Sys2Proof.Machine.execNoteWrite port tag payload s
  | .noteRead port tag payload => Sys2Proof.Machine.execNoteRead port tag payload s
  | .galleryOpen port tag payload => Sys2Proof.Machine.execGalleryOpen port tag payload s
  | .galleryQuiet port tag payload => Sys2Proof.Machine.execGalleryQuiet port tag payload s
  | .galleryClose port tag payload => Sys2Proof.Machine.execGalleryClose port tag payload s
  | .restart port tag payload => Sys2Proof.Machine.execRestart port tag payload s
  | .exhibitOpen port tag payload => Sys2Proof.Machine.execExhibitOpen port tag payload s
  | .exhibitClose port tag payload => Sys2Proof.Machine.execExhibitClose port tag payload s
  | .exhibitHold port tag payload => Sys2Proof.Machine.execExhibitHold port tag payload s
  | .exhibitRelease port tag payload => Sys2Proof.Machine.execExhibitRelease port tag payload s
  | .faultClear port tag payload => Sys2Proof.Machine.execFaultClear port tag payload s
  | .exhibitStatus port tag payload => Sys2Proof.Machine.execExhibitStatus port tag payload s
  | .lineEnable port tag payload => Sys2Proof.Machine.execLineEnable port tag payload s
  | .lineDisable port tag payload => Sys2Proof.Machine.execLineDisable port tag payload s
  | .lineStatus port tag payload => Sys2Proof.Machine.execLineStatus port tag payload s
  | .scanList port tag payload => Sys2Proof.Machine.execScanList port tag payload s
  | .scanOnce port tag payload => Sys2Proof.Machine.execScanOnce port tag payload s
  | .scanLimits port tag payload => Sys2Proof.Machine.execScanLimits port tag payload s
  | .senseRead port tag payload => Sys2Proof.Machine.execSenseRead port tag payload s
  | .jog port tag payload => Sys2Proof.Machine.execJog port tag payload s
  | .axisStatus port tag payload => Sys2Proof.Machine.execAxisStatus port tag payload s
  | .budgetStatus port tag payload => Sys2Proof.Machine.execBudgetStatus port tag payload s
  | .frameTake port tag payload => Sys2Proof.Machine.execFrameTake port tag payload s
  | .frameWrite port tag payload => Sys2Proof.Machine.execFrameWrite port tag payload s
  | .frameDrop port tag payload => Sys2Proof.Machine.execFrameDrop port tag payload s
  | .cuePost port tag payload => Sys2Proof.Machine.execCuePost port tag payload s
  | .cueCancel port tag payload => Sys2Proof.Machine.execCueCancel port tag payload s
  | .cueFlush port tag payload => Sys2Proof.Machine.execCueFlush port tag payload s
  | .cueResult port tag payload => Sys2Proof.Machine.execCueResult port tag payload s
  | .cueStatus port tag payload => Sys2Proof.Machine.execCueStatus port tag payload s
  | .servicePermit port tag payload => Sys2Proof.Machine.execServicePermit port tag payload s
  | .serviceRevoke port tag payload => Sys2Proof.Machine.execServiceRevoke port tag payload s
  | .exhibitTake port tag payload => Sys2Proof.Machine.execExhibitTake port tag payload s
  | .exhibitGive port tag payload => Sys2Proof.Machine.execExhibitGive port tag payload s
  | .linkStatus port tag payload => Sys2Proof.Machine.execLinkStatus port tag payload s
  | .alertAck port tag payload => Sys2Proof.Machine.execAlertAck port tag payload s
  | .alertClear port tag payload => Sys2Proof.Machine.execAlertClear port tag payload s
  | .alertRaise port tag payload => Sys2Proof.Machine.execAlertRaise port tag payload s
  | .alertList port tag payload => Sys2Proof.Machine.execAlertList port tag payload s
  | .chime port tag payload => Sys2Proof.Machine.execChime port tag payload s
  | .silence port tag payload => Sys2Proof.Machine.execSilence port tag payload s
  | .lampTest port tag payload => Sys2Proof.Machine.execLampTest port tag payload s
  | .configExhibit port tag payload => Sys2Proof.Machine.execConfigExhibit port tag payload s
  | .configLine port tag payload => Sys2Proof.Machine.execConfigLine port tag payload s
  | .configAxis port tag payload => Sys2Proof.Machine.execConfigAxis port tag payload s
  | .configChannel port tag payload => Sys2Proof.Machine.execConfigChannel port tag payload s
  | .configScan port tag payload => Sys2Proof.Machine.execConfigScan port tag payload s
  | .configTiming port tag payload => Sys2Proof.Machine.execConfigTiming port tag payload s
  | .configTone port tag payload => Sys2Proof.Machine.execConfigTone port tag payload s
  | .configCommit port tag payload => Sys2Proof.Machine.execConfigCommit port tag payload s
  | .reconfigure port tag payload => Sys2Proof.Machine.execReconfigure port tag payload s
  | .unknownCommand port code tag payload => Sys2Proof.Machine.execUnknownCommand port code tag payload s
  | .frameCheckFailure port bytes => Sys2Proof.Machine.execFrameCheckFailure port bytes s
  | .collectTransaction master clocked => Sys2Proof.Machine.execCollectTransaction master clocked s
  | .uartLengthFieldTooLarge byte => Sys2Proof.Machine.execUartLengthFieldTooLarge byte s
  | .uartGapTimeout => Sys2Proof.Machine.execUartGapTimeout s
  | .uartStopBitFault => Sys2Proof.Machine.execUartStopBitFault s
  | .uartDiscardEnd => Sys2Proof.Machine.execUartDiscardEnd s
  | .uartResponseSent => Sys2Proof.Machine.execUartResponseSent s
  | .fullReset => Sys2Proof.Machine.execFullReset s
  | .resetRelease => Sys2Proof.Machine.execResetRelease s
  | .lineSample line level => Sys2Proof.Machine.execLineSample line level s
  | .waitReleaseCleared line => Sys2Proof.Machine.execWaitReleaseCleared line s
  | .pressTaken line => Sys2Proof.Machine.execPressTaken line s
  | .releaseTaken line => Sys2Proof.Machine.execReleaseTaken line s
  | .lineStuck line level => Sys2Proof.Machine.execLineStuck line level s
  | .stuckRelease line => Sys2Proof.Machine.execStuckRelease line s
  | .conversionComplete result => Sys2Proof.Machine.execConversionComplete result s
  | .warmUpExpiry => Sys2Proof.Machine.execWarmUpExpiry s
  | .paceTimerExpiry => Sys2Proof.Machine.execPaceTimerExpiry s
  | .closedPaceExpiry => Sys2Proof.Machine.execClosedPaceExpiry s
  | .accelerationTimerExpiry axis => Sys2Proof.Machine.execAccelerationTimerExpiry axis s
  | .feedbackTimeout axis => Sys2Proof.Machine.execFeedbackTimeout axis s
  | .travelTimerExpiry axis => Sys2Proof.Machine.execTravelTimerExpiry axis s
  | .settleTimerExpiry axis => Sys2Proof.Machine.execSettleTimerExpiry axis s
  | .guardReleaseExpiry exhibit => Sys2Proof.Machine.execGuardReleaseExpiry exhibit s
  | .guardLongExpiry exhibit => Sys2Proof.Machine.execGuardLongExpiry exhibit s
  | .dwellExpiry exhibit step => Sys2Proof.Machine.execDwellExpiry exhibit step s
  | .pauseExpiry exhibit step => Sys2Proof.Machine.execPauseExpiry exhibit step s
  | .pressTimeout exhibit step => Sys2Proof.Machine.execPressTimeout exhibit step s
  | .heartbeatTimerExpiry link => Sys2Proof.Machine.execHeartbeatTimerExpiry link s
  | .serviceIdleExpiry => Sys2Proof.Machine.execServiceIdleExpiry s
  | .sagHoldExpiry => Sys2Proof.Machine.execSagHoldExpiry s
  | .alertLevelReached number => Sys2Proof.Machine.execAlertLevelReached number s
  | .toneNoteEnd => Sys2Proof.Machine.execToneNoteEnd s
  | .silenceTimerExpiry => Sys2Proof.Machine.execSilenceTimerExpiry s
  | .lampTestExpiry => Sys2Proof.Machine.execLampTestExpiry s
  | .uartByteReceived byte => Sys2Proof.Machine.execUartByteReceived byte s
  | .galleryClockTick => Sys2Proof.Machine.execGalleryClockTick s

end Sys2Proof.Machine
end

