-- ==== Sys2Proof/Safety.lean ====
section
/-! DEFINITION. What counts as a good state of the hub, and the forms in which statements speak of a
command: the frame that carries it, and the state after its response. -/

namespace Sys2Proof.Machine

/-! ## Good states -/

/-- The output pins are those the rest of the state gives (R79, R183, R190, R191, R202, R210). -/
def PinsFollow (s : State) : Prop := s.pins = pinsOf s

/-- An axis's drive is other than OFF exactly when it is ACCELERATING or MOVING (R80). -/
def DriveOk (x : Axis) : Prop := x.drive ≠ .off ↔ x.state.driving = true

/-- Every axis drives exactly in the two driving states (R80). -/
def DrivesOk (s : State) : Prop := ∀ a, DriveOk (s.axis a)

/-- A queue holds no more events than its capacity, and its next sequence number is never 0 (R42, R45). -/
def QueueOk (capacity : Nat) (q : EventQueue) : Prop := q.events.length ≤ capacity ∧ q.nextSeq ≠ 0

/-- The three event queues are within their capacities (R42, R45). -/
def QueuesOk (s : State) : Prop := ∀ q : QueueName, QueueOk q.capacity (s.queue q)

/-- The start arbiter agrees with the axes. An axis is in the start queue exactly when it is WAITING_START,
and never twice (R105); the units in use are the start costs of the axes in ACCELERATING and never exceed the
budget (R104). A busy axis has a pending move (R77, R80), and in SETUP every axis is DISABLED (R98, R209). -/
structure ArbiterOk (s : State) : Prop where
  once : s.arbiter.startQueue.Nodup
  queued : ∀ a, a ∈ s.arbiter.startQueue ↔ (s.axis a).state = .waitingStart
  charged : s.arbiter.unitsInUse = (((List.finRange 12).filter fun a => (s.axis a).state = .accelerating).map
    fun a => (s.axis a).startCost).sum
  within : s.arbiter.unitsInUse ≤ s.timing.startBudget
  moves : ∀ a, (s.axis a).state.busy = true → (s.axis a).move.isSome = true
  setup : s.mode = .setup → ∀ a, (s.axis a).state = .disabled

/-- Every place of a cue frame, one after another: the free list, the taken set, the retired list, and each
exhibit's active slot and cue queue (R118). -/
def framePlaces (s : State) : List FrameId :=
  s.freeList ++ s.takenSet ++ s.retiredList.map RetiredRecord.frame ++
    (List.finRange 16).flatMap fun e => (s.exhibit e).active.toList ++ (s.exhibit e).queue

/-- Each cue frame stands in exactly one place (R118); an exhibit is RUNNING only with an active frame, has
one only when RUNNING or HELD, and has no frame at all when CLOSED, FAULTED or in SERVICE (R121); a cue queue
holds at most four frames (R118). In SETUP every exhibit is CLOSED (R2, R209). -/
structure PlacesOk (s : State) : Prop where
  places : ∀ f, (framePlaces s).count f = 1
  running : ∀ e, (s.exhibit e).state = .running → (s.exhibit e).active.isSome = true
  active : ∀ e, (s.exhibit e).active.isSome = true →
    (s.exhibit e).state = .running ∨ (s.exhibit e).state = .held
  queue : ∀ e, (s.exhibit e).queue ≠ [] →
    (s.exhibit e).state = .ready ∨ (s.exhibit e).state = .running ∨ (s.exhibit e).state = .held
  capacity : ∀ e, (s.exhibit e).queue.length ≤ 4
  setup : s.mode = .setup → ∀ e, (s.exhibit e).state = .closed

/-- A link's heartbeat timer runs exactly while the link is ACTIVE (R144). -/
def LinksOk (s : State) : Prop := ∀ m, (s.link m).timer.isSome = true ↔ (s.link m).state = .active

/-- A tenure is present exactly while its exhibit is in SERVICE, and only while its permit is on; the service
idle timer runs exactly while a tenure is present (R152). In SETUP every exhibit is CLOSED (R2, R209). -/
structure TenuresOk (s : State) : Prop where
  service : ∀ e, (s.tenure e).isSome = true ↔ (s.exhibit e).state = .service
  permitted : ∀ e, (s.tenure e).isSome = true → (s.exhibit e).permit = true
  idle : s.serviceIdle.isSome = true ↔ ∃ e, (s.tenure e).isSome = true
  setup : s.mode = .setup → ∀ e, (s.exhibit e).state = .closed

/-- No two alert records share a number or a key, and at most 23 records other than LIST_FULL are in the list,
which has the key of its kind alone (R161); the next alert number is held by no record and is never 0 (R163);
a level is at most 3, and 0 on an ACKED record (R160, R173). -/
structure AlertsOk (s : State) : Prop where
  numbers : (s.alerts.records.map AlertRecord.number).Nodup
  next : ∀ r ∈ s.alerts.records, r.number ≠ s.alerts.nextNumber
  nonzero : s.alerts.nextNumber ≠ 0
  keys : (s.alerts.records.map fun r => (r.kind, r.exhibit, r.subject, r.showCode)).Nodup
  ordinary : (s.alerts.records.filter fun r => r.kind ≠ .listFull).length ≤ 23
  reserved : ∀ r ∈ s.alerts.records, r.kind = .listFull →
    r.exhibit = none ∧ r.subject = none ∧ r.showCode = none
  levels : ∀ r ∈ s.alerts.records, r.level ≤ 3 ∧ (r.state = .acked → r.level = 0)

/-! ## Loops -/

/-- `t` comes from `s` by one move for each index below `n`, in ascending order. -/
def InTurn (n : Nat) (move : Fin n → State → State → Prop) (s t : State) : Prop :=
  ∃ u : Nat → State, u 0 = s ∧ u n = t ∧ ∀ i : Fin n, move i (u i.val) (u (i.val + 1))

/-! ## What stands -/

/-- The fields of an exhibit that only configuration and SERVICE-PERMIT write (R8). -/
def Exhibit.standing (x : Exhibit) := (x.axes, x.presence, x.busyPolicy, x.openWithGallery, x.permit)

/-- The fields of a line that only configuration, LINE-ENABLE and LINE-DISABLE write (R24). -/
def Line.standing (x : Line) :=
  (x.exhibit, x.role, x.activeLevel, x.debounce, x.repeatGuard, x.stuckTime, x.enabled)

/-- The fields of a channel that only configuration and SCAN-LIMITS write (R55). -/
def Channel.standing (x : Channel) := (x.role, x.binding, x.lower, x.upper, x.filterCount)

/-- The fields of an axis that only configuration writes (R77). -/
def Axis.standing (x : Axis) :=
  (x.configured, x.exhibit, x.positionChannel, x.currentChannel, x.targetMin, x.targetMax, x.tolerance,
    x.defaultSpeed, x.startCost, x.accelTime, x.travelLimit, x.settleTime, x.feedbackTimeout)

/-- The fields of the scanner that only configuration and SCAN-LIST write (R64). -/
def Scanner.standing (x : Scanner) := (x.dayMode, x.scanList)

/-- What stands while no command writes it: the standing fields of every record, the tone patterns, the
timing record, the gallery mode and clock, the note slots, the ports and the waiting commands. -/
structure Undisturbed (s t : State) : Prop where
  exhibits : ∀ e, (t.exhibit e).standing = (s.exhibit e).standing
  lines : ∀ l, (t.line l).standing = (s.line l).standing
  channels : ∀ c, (t.channel c).standing = (s.channel c).standing
  axes : ∀ a, (t.axis a).standing = (s.axis a).standing
  scanner : t.scanner.standing = s.scanner.standing
  patterns : t.annunciators.patterns = s.annunciators.patterns
  timing : t.timing = s.timing
  mode : t.mode = s.mode
  clock : t.clock = s.clock
  inReset : t.inReset = s.inReset
  notes : t.notes = s.notes
  showSpi : t.showSpi = s.showSpi
  deskSpi : t.deskSpi = s.deskSpi
  uart : t.uart = s.uart
  pending : t.pending = s.pending

/-! ## Commands as frames -/

/-- The frame that carries a command of the table. -/
def frameOf (c : Command) (port : Port) (tag : Byte) (p : List Byte) : Instr :=
  match c with
  | .heartbeat => .heartbeat port tag p
  | .eventRead => .eventRead port tag p
  | .attentionRead => .attentionRead port tag p
  | .attentionMask => .attentionMask port tag p
  | .noteWrite => .noteWrite port tag p
  | .noteRead => .noteRead port tag p
  | .galleryOpen => .galleryOpen port tag p
  | .galleryQuiet => .galleryQuiet port tag p
  | .galleryClose => .galleryClose port tag p
  | .restart => .restart port tag p
  | .exhibitOpen => .exhibitOpen port tag p
  | .exhibitClose => .exhibitClose port tag p
  | .exhibitHold => .exhibitHold port tag p
  | .exhibitRelease => .exhibitRelease port tag p
  | .faultClear => .faultClear port tag p
  | .exhibitStatus => .exhibitStatus port tag p
  | .lineEnable => .lineEnable port tag p
  | .lineDisable => .lineDisable port tag p
  | .lineStatus => .lineStatus port tag p
  | .scanList => .scanList port tag p
  | .scanOnce => .scanOnce port tag p
  | .scanLimits => .scanLimits port tag p
  | .senseRead => .senseRead port tag p
  | .jog => .jog port tag p
  | .axisStatus => .axisStatus port tag p
  | .budgetStatus => .budgetStatus port tag p
  | .frameTake => .frameTake port tag p
  | .frameWrite => .frameWrite port tag p
  | .frameDrop => .frameDrop port tag p
  | .cuePost => .cuePost port tag p
  | .cueCancel => .cueCancel port tag p
  | .cueFlush => .cueFlush port tag p
  | .cueResult => .cueResult port tag p
  | .cueStatus => .cueStatus port tag p
  | .servicePermit => .servicePermit port tag p
  | .serviceRevoke => .serviceRevoke port tag p
  | .exhibitTake => .exhibitTake port tag p
  | .exhibitGive => .exhibitGive port tag p
  | .linkStatus => .linkStatus port tag p
  | .alertAck => .alertAck port tag p
  | .alertClear => .alertClear port tag p
  | .alertRaise => .alertRaise port tag p
  | .alertList => .alertList port tag p
  | .chime => .chime port tag p
  | .silence => .silence port tag p
  | .lampTest => .lampTest port tag p
  | .configExhibit => .configExhibit port tag p
  | .configLine => .configLine port tag p
  | .configAxis => .configAxis port tag p
  | .configChannel => .configChannel port tag p
  | .configScan => .configScan port tag p
  | .configTiming => .configTiming port tag p
  | .configTone => .configTone port tag p
  | .configCommit => .configCommit port tag p
  | .reconfigure => .reconfigure port tag p

/-- The state after an SPI port has answered a frame of `n` bytes with a response: the response is held,
00H was driven throughout, and the pins follow (R195). -/
def heldAfter (m : Master) (n : Nat) (r : Response) (s : State) : State :=
  drivePins ((holdResponse m r s).modSpi m fun x => { x with dataOut := List.replicate n 0 })

/-- The state after an idle service port has taken a whole frame and answered it: the receiver is idle,
the idle timer has been restarted or stopped, the response is being sent, and the pins follow (R156,
R196). -/
def sentAfter (r : Response) (s : State) : State := drivePins (sendService r (restartIdle s))

/-- The reply OK with a payload. -/
def okReply (tag : Byte) (p : List Byte) : Response := ⟨tag, .ok, p⟩

/-- A refusal without a payload. -/
def refusal (tag : Byte) (st : Status) : Response := ⟨tag, st, []⟩

/-- The number of bytes of a command frame with a payload of `n` bytes (R197). -/
def frameBytes (n : Nat) : Nat := 5 + n

/-- The service port is at rest: no frame in progress, none waiting, nothing being sent (R196). -/
abbrev serviceAtRest (s : State) : Prop :=
  s.uart.rx = .idle ∧ s.uart.quiet = none ∧ s.uart.waitingFrame = none ∧ s.uart.sending = none
    ∧ s.uart.waiting = []

/-- A port takes a command frame at once: the part is out of reset, and the service port is at rest. -/
abbrev Ready (port : Port) (s : State) : Prop := s.inReset = false ∧ (port = .servicePort → serviceAtRest s)

/-- The state after a port has answered a frame with a payload of `n` bytes (R195, R196). -/
def answered (port : Port) (n : Nat) (r : Response) (s : State) : State :=
  match masterOf port with
  | some m => heldAfter m (frameBytes n) r s
  | none => sentAfter r s

/-- The frame of command `c` with payload `p` at a port goes to a next state: it is answered with a status
and a payload, and the rest of the hub is as in `t`. -/
def Answers (c : Command) (port : Port) (p : List Byte) (s : State) (st : Status) (reply : List Byte)
    (t : State) : Prop :=
  ∀ tag, exec (frameOf c port tag p) s = .next (answered port p.length ⟨tag, st, reply⟩ t)

/-- A command is admitted: the port is ready, and the table lets it send the command in the gallery mode
in force (R199). -/
abbrev Admitted (c : Command) (port : Port) (s : State) : Prop :=
  Ready port s ∧ port ∈ c.ports ∧ s.mode ∈ c.modes

/-- Bytes arrive at the service port one after another, each a command of its own. -/
def bytesArrive : List Byte → State → Result
  | [], s => .next s
  | b :: rest, s =>
    match exec (.uartByteReceived b) s with
    | .next t => bytesArrive rest t
    | .fault f => .fault f
    | .refused r => .refused r

end Sys2Proof.Machine
end

