-- ==== Sys2Proof/Certificates/Slice0/Obligations.lean ====
section
/-! DEFINITION. The statements for the provers. -/

section

open Sys2Proof Sys2Proof.Machine

/-! ## The machine -/

/-- Tier 1. A step takes the command at the front of the queue and runs it on the rest; with no
command waiting the hub idles (the model's queue, log 1). -/
def Obligations.StepRunsFrontCommand : Prop :=
  (∀ (c : Instr) (rest : List Instr) (s : State),
     step { s with pending := c :: rest } = exec c { s with pending := rest }) ∧
  (∀ s : State, s.pending = [] → step s = .next s)

/-- Tier 2. No command faults, and none is refused by the model: a refused frame is answered (R199). A
command leaves the commands that wait behind it (the model's queue, log 1). -/
def Obligations.EveryCommandGoesOn : Prop :=
  ∀ (c : Instr) (s : State), ∃ t, exec c s = .next t ∧ t.pending = s.pending

/-- Tier 1. The state right after reset: every record, list, timer and pattern at its full-reset value, written
out (R1, R2, R8, R24, R42, R45, R55, R64, R77, R104-R111, R117, R118, R143, R144, R152, R160, R163, R172, R182,
R184, R191, R193, R202, R203, R206, R210). That `State.reset` is the moment after RESET has risen is the model's
choice (log 4), and so are the inputs at HIGH (log 5), the empty queue of commands (log 1) and the empty record of
the latest SPI bytes (log 19). -/
def Obligations.ResetState : Prop :=
  let s := State.reset
  s.inReset = false ∧ s.pending = [] ∧ s.clock = 0 ∧ s.mode = .setup ∧ s.settledNoted = false ∧
  (∀ e, s.exhibit e = {
    state := .closed, holds := { guard := false, attendant := false, lapse := false, supply := false }
    active := none, queue := [], axes := [], presence := none, busyPolicy := .deliver
    openWithGallery := false, permit := false, guardRelease := none, guardLong := none, lastChange := 0 }) ∧
  (∀ l, s.line l = {
    exhibit := none, role := none, activeLevel := .low, debounce := 20, repeatGuard := 300, stuckTime := 30
    enabled := true, input := .high, latest := false, state := .inert, accepted := false, destination := none
    lastAccepted := none, debounceTimer := 0, stuckTimer := none }) ∧
  (∀ q, s.queue q = { events := [], nextSeq := 1, gap := false }) ∧
  (∀ c, s.channel c = {
    role := .none, binding := none, lower := 0, upper := 4095, filterCount := 2, latest := none
    window := .unknown, candidate := none, agreement := 0 }) ∧
  s.scanner = {
    dayMode := .continuous, scanList := [], regime := .off, state := .off, passPosition := none
    inFlight := none, warmUp := none, pace := none, closedPaceTimer := none, passRequested := false } ∧
  s.timing = {
    showHeartbeat := 2000, deskHeartbeat := 2000, guardReleaseDelay := 1500, guardAlertTime := 60
    sagHoldTime := 500, silenceTime := 60, serviceIdleTime := 120
    urgentTimes := { level1 := 0, level2 := 15, level3 := 60 }
    attentionTimes := { level1 := 30, level2 := 120, level3 := 600 }
    startBudget := 6, paceInterval := 10, closedPace := 1000 } ∧
  (∀ a, s.axis a = {
    configured := false, exhibit := none, positionChannel := none, currentChannel := none, targetMin := 0
    targetMax := 4095, tolerance := 16, defaultSpeed := 4, startCost := 2, accelTime := 200
    travelLimit := 8000, settleTime := 100, feedbackTimeout := 50, state := .disabled, move := none
    drive := .off, dirOut := .low, corrections := 0, fault := none, travel := none, settle := none
    suppress := false }) ∧
  s.arbiter.unitsInUse = 0 ∧ s.arbiter.startQueue = [] ∧ s.arbiter.sag = .normal ∧ s.arbiter.sagTimer = none ∧
  (∀ a : AxisId, s.arbiter.accel.get a = none) ∧
  (∀ f, s.frame f = { exhibit := none, steps := [], currentGroup := none, run := [] }) ∧
  s.freeList = List.finRange 48 ∧ s.takenSet = [] ∧ s.retiredList = [] ∧
  (∀ m, s.link m = { state := .neverSeen, timer := none, lastHeartbeat := none, lastChange := none }) ∧
  (∀ e, s.tenure e = none) ∧ s.serviceIdle = none ∧
  s.alerts = { records := [], nextNumber := 1 } ∧
  s.annunciators.patterns.toList =
    [{ pitch := 6, onTime := 150, offTime := 150, envelope := .flat, repeats := 0 },
      { pitch := 3, onTime := 300, offTime := 700, envelope := .flat, repeats := 0 },
      { pitch := 4, onTime := 400, offTime := 100, envelope := .decay, repeats := 2 },
      { pitch := 2, onTime := 600, offTime := 0, envelope := .decay, repeats := 1 }] ∧
  s.annunciators.tone = .silent ∧ s.annunciators.silence = none ∧ s.annunciators.silenceBegan = none ∧
  s.annunciators.lampTest = none ∧ s.annunciators.flash = 0 ∧
  (∀ m, s.spi m = { held := none, dataOut := [], edges := { noteIn := false, noteTaken := false }, mask := 0 } ∧
    attentionSet s m = 0) ∧
  s.uart = { rx := .idle, quiet := none, waitingFrame := none, sending := none, waiting := [] } ∧
  (∀ i, s.note i = none)

/-- Tier 1. The state right after reset is good: its pins follow it, no axis drives, its queues are within their
capacities, the arbiter agrees with the axes, each cue frame stands in one place, the links' and the service
timers run as they should, and the alert list is in order (R42, R45, R80, R104, R105, R118, R121, R144, R152,
R161, R163, R202). -/
def Obligations.ResetIsGood : Prop :=
  PinsFollow State.reset ∧ DrivesOk State.reset ∧ QueuesOk State.reset ∧ ArbiterOk State.reset ∧
    PlacesOk State.reset ∧ LinksOk State.reset ∧ TenuresOk State.reset ∧ AlertsOk State.reset

/-- Tier 3. Every step keeps the output pins following the rest of the state, and what they then are: with RESET
low all released, dark, silent and 0 (R210); otherwise an attention line is active exactly while its port's set
and mask share a cause, the combined line while either is (R202); the all-call line while an OPEN record is at
level 3 (R190); each beacon shows the first line of R192's list that matches and is lit by the flash counter
(R191, R192); the tone output carries the note's pitch, of R182's table, in its on time, in full or falling
evenly to a quarter, and up to the note's end when the off time is 0 (R182, R183, R184); and each PWM output has
the duty of its drive (R79). That the pins are brought up to date at the end of each command, and the DECAY
amplitude by whole milliseconds, is log 21. -/
def Obligations.PinsFollowKept : Prop :=
  (∀ s t : State, PinsFollow s → step s = .next t → PinsFollow t) ∧
  (∀ s : State, PinsFollow s → s.inReset = true →
    s.pins.showLine = false ∧ s.pins.deskLine = false ∧ s.pins.combined = false ∧ s.pins.allCall = false ∧
    (∀ e : ExhibitId, s.pins.beacons.get e = { pattern := .off, lit := false }) ∧ s.pins.toneOut = .silent ∧
    (∀ a : AxisId, s.pins.pwm.get a = 0)) ∧
  (∀ s : State, PinsFollow s → s.inReset = false →
    let shares (m : Master) := ∃ k, (attentionSet s m).getLsbD k = true ∧ (s.spi m).mask.getLsbD k = true
    let lit (e : ExhibitId) (r : AlertRecord) := r.exhibit = some e ∧ r.state = .opened ∧ 1 ≤ r.level
    let pattern (e : ExhibitId) : BeaconPattern :=
      if s.annunciators.lampTest ≠ none then .steady
      else if ∃ r ∈ s.alerts.records, lit e r ∧ r.severity = .urgent then .fast
      else if (s.exhibit e).state = .faulted then .fast
      else if ∃ r ∈ s.alerts.records, lit e r then .slow
      else if (s.exhibit e).state = .service then .steady
      else if (s.exhibit e).state = .held ∧ (s.exhibit e).holds.guard = true then .slow
      else .off
    let count := s.annunciators.flash
    let shines : BeaconPattern → Prop
      | .off => False
      | .steady => True
      | .slow => count ≤ 499
      | .fast => count ≤ 124 ∨ (250 ≤ count ∧ count ≤ 374) ∨ (500 ≤ count ∧ count ≤ 624) ∨
          (750 ≤ count ∧ count ≤ 874)
    let hertz (n : Note) : Nat := [500, 630, 800, 1000, 1250, 1600, 2000, 2500].getD n.pitch.val 0
    (s.pins.showLine = true ↔ shares .showMaster) ∧ (s.pins.deskLine = true ↔ shares .deskMaster) ∧
    (s.pins.combined = true ↔ shares .showMaster ∨ shares .deskMaster) ∧
    (s.pins.allCall = true ↔ ∃ r ∈ s.alerts.records, r.state = .opened ∧ r.level = 3) ∧
    (∀ e : ExhibitId, (s.pins.beacons.get e).pattern = pattern e) ∧
    (count ≤ 999 → ∀ e : ExhibitId, (s.pins.beacons.get e).lit = true ↔ shines (pattern e)) ∧
    (s.annunciators.tone = .silent → s.pins.toneOut = .silent) ∧
    (∀ n, s.annunciators.tone = .alertTone n ∨ (∃ k, s.annunciators.tone = .chime n k) →
      (n.elapsed < n.onTime ∨ n.offTime = 0 →
        (n.envelope = .flat → s.pins.toneOut = .tone (hertz n) 1 1) ∧
        (n.envelope = .decay →
          s.pins.toneOut = .tone (hertz n) (4 * n.onTime - 3 * n.elapsed) (4 * n.onTime))) ∧
      (n.onTime ≤ n.elapsed → n.offTime ≠ 0 → s.pins.toneOut = .silent)) ∧
    (∀ a : AxisId, s.pins.pwm.get a = match (s.axis a).drive with | .off => 0 | .on _ level => level))

/-- Tier 3. Every step keeps the drives consistent: an axis's drive is other than OFF exactly when it is
ACCELERATING or MOVING (R80). Every step keeps the arbiter in agreement with the axes: an axis is in the start
queue exactly when it is WAITING_START, and once; the units in use are the start costs of the axes in
ACCELERATING, and never exceed the start budget; a busy axis has a move, and in SETUP every axis is DISABLED
(R104, R105). -/
def Obligations.DrivesOkKept : Prop :=
  (∀ s t : State, DrivesOk s → step s = .next t → DrivesOk t) ∧
  (∀ s t : State, ArbiterOk s → step s = .next t → ArbiterOk t)

/-- Tier 3. Every step keeps the event queues within their capacities, and their next sequence numbers
other than 0 (R42, R45, R49). Every step keeps each cue frame in exactly one place, with the places of an exhibit
following its state (R118, R121). Every step keeps the alert list in order: no two records share a number or a
key, at most 23 are ordinary, LIST_FULL has its key alone, and the next number is free (R161, R163). -/
def Obligations.QueuesOkKept : Prop :=
  (∀ s t : State, QueuesOk s → step s = .next t → QueuesOk t) ∧
  (∀ s t : State, PlacesOk s → step s = .next t → PlacesOk t) ∧
  (∀ s t : State, AlertsOk s → step s = .next t → AlertsOk t)

/-! ## Ports and frames -/

/-- Tier 2. A frame whose code names no command is answered UNKNOWN_COMMAND before any other check; a
command is refused by the first check that fails: WRONG_PORT, then WRONG_MODE, then BAD_LENGTH; and a
refused command changes nothing but the response and, at the service port, the idle timer. The table's rows: each
command's code, the ports that may send it and the gallery modes that admit it; a code of no row names no command
(R199). The payload lengths that the commands' fields give (R199, R200): a fixed number of bytes, or a count
followed by that many items, or, for NOTE-WRITE, a slot and 1 to 16 bytes (R204); the length of CONFIG-CHANNEL
with the binding as a bare number, log 22. -/
def Obligations.CommandChecksInOrder : Prop :=
  (∀ (c : Command) (port : Port) (p : List Byte) (s : State), Ready port s → p.length ≤ 200 →
     (port ∉ c.ports → Answers c port p s .wrongPort [] s) ∧
     (port ∈ c.ports → s.mode ∉ c.modes → Answers c port p s .wrongMode [] s) ∧
     (port ∈ c.ports → s.mode ∈ c.modes → c.lengthOk p = false → Answers c port p s .badLength [] s)) ∧
  (∀ (port : Port) (code tag : Byte) (p : List Byte) (s : State), Ready port s → p.length ≤ 200 →
     Command.ofCode code = none → (port = .servicePort ∨ code ≠ 0xFF) →
     exec (.unknownCommand port code tag p) s
       = .next (answered port p.length ⟨tag, .unknownCommand, []⟩ s)) ∧
  (let S : List Port := [.showPort]
   let D : List Port := [.deskPort]
   let V : List Port := [.servicePort]
   let all : List GalleryMode := [.setup, .closed, .opened, .quiet]
   let coq : List GalleryMode := [.closed, .opened, .quiet]
   let row (c : Command) (code : Byte) (ports : List Port) (modes : List GalleryMode) :=
     Command.ofCode code = some c ∧ c.code = code ∧ (∀ p, p ∈ c.ports ↔ p ∈ ports) ∧
       ∀ m, m ∈ c.modes ↔ m ∈ modes
   row .heartbeat 0x01 (S ++ D) all ∧ row .eventRead 0x02 (S ++ D ++ V) all ∧
   row .attentionRead 0x03 (S ++ D) all ∧ row .attentionMask 0x04 (S ++ D) all ∧
   row .noteWrite 0x05 (S ++ D) all ∧ row .noteRead 0x06 (S ++ D) all ∧
   row .galleryOpen 0x10 D [.closed, .quiet] ∧ row .galleryQuiet 0x11 D [.opened] ∧
   row .galleryClose 0x12 D [.quiet] ∧ row .restart 0x13 D coq ∧ row .exhibitOpen 0x14 D [.opened] ∧
   row .exhibitClose 0x15 D coq ∧ row .exhibitHold 0x16 D coq ∧ row .exhibitRelease 0x17 D coq ∧
   row .faultClear 0x18 D coq ∧ row .exhibitStatus 0x19 (S ++ D ++ V) all ∧
   row .lineEnable 0x20 (S ++ D ++ V) coq ∧ row .lineDisable 0x21 (S ++ D ++ V) coq ∧
   row .lineStatus 0x22 (S ++ D ++ V) all ∧
   row .scanList 0x28 S coq ∧ row .scanOnce 0x29 S coq ∧ row .scanLimits 0x2A S coq ∧
   row .senseRead 0x2B (S ++ D ++ V) all ∧
   row .jog 0x30 V coq ∧ row .axisStatus 0x31 (S ++ D ++ V) all ∧ row .budgetStatus 0x32 (S ++ D ++ V) all ∧
   row .frameTake 0x38 S coq ∧ row .frameWrite 0x39 S coq ∧ row .frameDrop 0x3A S coq ∧
   row .cuePost 0x3B S coq ∧ row .cueCancel 0x3C S coq ∧ row .cueFlush 0x3D S coq ∧
   row .cueResult 0x3E S coq ∧ row .cueStatus 0x3F (S ++ D ++ V) all ∧
   row .servicePermit 0x40 D coq ∧ row .serviceRevoke 0x41 D coq ∧ row .exhibitTake 0x42 V coq ∧
   row .exhibitGive 0x43 V coq ∧ row .linkStatus 0x44 (S ++ D ++ V) all ∧
   row .alertAck 0x48 D all ∧ row .alertClear 0x49 D all ∧ row .alertRaise 0x4A S all ∧
   row .alertList 0x4B (D ++ V) all ∧
   row .chime 0x50 (S ++ D) all ∧ row .silence 0x51 D all ∧ row .lampTest 0x52 D all ∧
   row .configExhibit 0x60 (S ++ V) [.setup] ∧ row .configLine 0x61 (S ++ V) [.setup] ∧
   row .configAxis 0x62 (S ++ V) [.setup] ∧ row .configChannel 0x63 (S ++ V) [.setup] ∧
   row .configScan 0x64 (S ++ V) [.setup] ∧ row .configTiming 0x65 (S ++ V) [.setup] ∧
   row .configTone 0x66 (S ++ V) [.setup] ∧ row .configCommit 0x67 (S ++ V) [.setup] ∧
   row .reconfigure 0x68 D [.closed]) ∧
  (∀ code : Byte, Command.ofCode code = none ↔ ∀ c : Command, c.code ≠ code) ∧
  (∀ (c : Command) (p : List Byte),
    let takes (n : Nat) := c.lengthOk p = true ↔ p.length = n
    let counted (head item : Nat) :=
      c.lengthOk p = true ↔ head ≤ p.length ∧ p.length = head + item * (p.getD (head - 1) 0).toNat
    (c ∈ [.heartbeat, .attentionRead, .galleryOpen, .galleryQuiet, .galleryClose, .restart, .scanOnce,
      .budgetStatus, .frameTake, .cueResult, .linkStatus, .silence, .lampTest, .configCommit, .reconfigure] →
      takes 0) ∧
    (c ∈ [.eventRead, .attentionMask, .noteRead, .exhibitOpen, .exhibitClose, .exhibitHold, .exhibitRelease,
      .faultClear, .exhibitStatus, .lineEnable, .lineDisable, .lineStatus, .axisStatus, .frameDrop, .cueCancel,
      .cueFlush, .cueStatus, .serviceRevoke, .exhibitTake, .exhibitGive, .alertList] → takes 1) ∧
    (c ∈ [.senseRead, .cuePost, .servicePermit, .alertAck, .alertClear] → takes 2) ∧
    (c ∈ [.chime, .configExhibit] → takes 3) ∧ (c = .alertRaise → takes 4) ∧
    (c ∈ [.scanLimits, .jog] → takes 5) ∧ (c = .configTone → takes 8) ∧ (c = .configChannel → takes 9) ∧
    (c = .configLine → takes 10) ∧ (c = .configAxis → takes 19) ∧ (c = .configTiming → takes 31) ∧
    (c = .noteWrite → (c.lengthOk p = true ↔ 2 ≤ p.length ∧ p.length ≤ 17)) ∧
    (c = .scanList → counted 1 2) ∧ (c = .frameWrite → counted 2 8) ∧ (c = .configScan → counted 2 2))

/-- Tier 2. The examination of a frame received whole, in the order of R198: its length, then its check
byte. At an SPI port the response carries the second byte as tag, or 00H, and no payload, and nothing but
the held response changes (R195). At a service port at rest a frame whole by its length field with a wrong
check byte, arriving byte by byte, is answered BAD_CHECK and the idle timer does not restart (R196). -/
def Obligations.BadFrameIsAnswered : Prop :=
  (∀ (m : Master) (b : Byte) (rest : List Byte) (s : State), s.inReset = false → b ≠ 0xFF →
     let bytes := b :: rest
     let wrongLength := bytes.length < 5 ∨ 200 < lengthField bytes ∨ bytes.length ≠ 5 + lengthField bytes
     let after (st : Status) := drivePins <| s.modSpi m fun x =>
       { x with held := some ⟨rest.getD 0 0, st, []⟩, dataOut := List.replicate bytes.length 0 }
     (wrongLength → exec (.frameCheckFailure m.port bytes) s = .next (after .badLength)) ∧
     (¬ wrongLength → bytes.getLast? ≠ some (crc bytes.dropLast) →
       exec (.frameCheckFailure m.port bytes) s = .next (after .badCheck))) ∧
  (∀ (bytes : List Byte) (s : State), Ready .servicePort s → 5 ≤ bytes.length →
     lengthField bytes ≤ 200 → bytes.length = 5 + lengthField bytes →
     bytes.getLast? ≠ some (crc bytes.dropLast) →
     exec (.frameCheckFailure .servicePort bytes) s
       = .next (drivePins (sendService ⟨bytes.getD 1 0, .badCheck, []⟩ s)))

/-- Tier 1. The check byte of R197 is a CRC-8 with the polynomial 07H from 00H: a byte is combined with the
register by exclusive or and the register is then shifted eight times toward its top, combined with 07H at each
shift at which the bit that leaves the top is 1; the bytes are taken in their order; the frames of the story of
one exchange have the check bytes the spec gives. -/
def Obligations.CheckByteOfFrames : Prop :=
  (∀ r : Byte, crcShift r = if r.getLsbD 7 then (r <<< 1) ^^^ 0x07 else r <<< 1) ∧
  (∀ r b : Byte,
    let shift (x : Byte) : Byte := if x.getLsbD 7 then (x <<< 1) ^^^ 0x07 else x <<< 1
    crcByte r b = shift (shift (shift (shift (shift (shift (shift (shift (r ^^^ b))))))))) ∧
  (∀ (l : List Byte) (b : Byte), crc [] = 0 ∧ crc (l ++ [b]) = crcByte (crc l) b) ∧
  (∀ (code tag : Byte) (p : List Byte),
    let body := [code, tag] ++ [BitVec.ofNat 8 p.length, BitVec.ofNat 8 (p.length / 256)] ++ p
    commandFrame code tag p = body ++ [crc body]) ∧
  commandFrame Command.heartbeat.code 0 [] = [0x01, 0x00, 0x00, 0x00, 0x16] ∧
  commandFrame Command.eventRead.code 1 [8] = [0x02, 0x01, 0x01, 0x00, 0x08, 0x81] ∧
  noResponse.bytes = [0x00, 0x11, 0x00, 0x00, 0xC9]

/-- Tier 2. A collect transaction of `n` whole bytes sends, in the byte periods after the first, the held
response, or the NO_RESPONSE frame when none is held, and FFH beyond the last byte; the held response
goes when one of its bytes was clocked out, and stays when the FFH byte alone was (R195). -/
def Obligations.CollectTransactionSendsTheResponse : Prop :=
  ∀ (m : Master) (n : Nat) (s : State), s.inReset = false → 1 ≤ n →
    ∃ t, exec (.collectTransaction m n) s = .next t ∧
      (t.spi m).dataOut.length = n - 1 ∧
      (∀ i, i < n - 1 →
        (t.spi m).dataOut[i]? = some ((((s.spi m).held.getD noResponse).bytes)[i]?.getD 0xFF)) ∧
      (t.spi m).held = (if 2 ≤ n then none else (s.spi m).held) ∧
      (t.spi m).edges = (s.spi m).edges ∧ (t.spi m).mask = (s.spi m).mask ∧
      t = drivePins (s.modSpi m fun _ => t.spi m)

/-- Tier 2. The receiver assembles a frame by counting bytes: the bytes of a command frame, arriving one
at a time at a service port at rest, have the effect and the answer of the frame (R196). -/
def Obligations.ServicePortAssemblesFrames : Prop :=
  ∀ (c : Command) (tag : Byte) (p : List Byte) (s : State), Ready .servicePort s → PinsFollow s →
    p.length ≤ 200 →
    bytesArrive (commandFrame c.code tag p) s = exec (frameOf c .servicePort tag p) s

/-- Tier 2. A byte at the receiver: the first byte of a frame begins it, a byte of a frame that is not
yet whole joins it and starts the 10 ms anew, and while a frame waits or bytes are discarded it is
discarded. A frame that becomes complete while a response is being sent waits whole, the receiver being idle
again. The discarding ends after 10 ms without a byte, and the receiver is idle; a byte with a missing
stop bit that is discarded starts the 10 ms anew; one that reaches an idle receiver makes it discard, and
whether it is answered is left open (R196; log 8). -/
def Obligations.ReceiverTakesAndDiscardsBytes : Prop :=
  (∀ (b : Byte) (s : State), s.inReset = false →
     (s.uart.waitingFrame = none → s.uart.rx = .idle →
       exec (.uartByteReceived b) s
         = .next (drivePins (s.modUart fun u => { u with rx := .inFrame [b], quiet := some 10 }))) ∧
     (∀ bytes, s.uart.waitingFrame = none → s.uart.rx = .inFrame bytes →
       (bytes.length < 3 ∨
         (lengthField (bytes ++ [b]) ≤ 200 ∧ bytes.length + 1 < 5 + lengthField (bytes ++ [b]))) →
       exec (.uartByteReceived b) s
         = .next (drivePins (s.modUart fun u => { u with rx := .inFrame (bytes ++ [b]), quiet := some 10 }))) ∧
     (∀ bytes, s.uart.waitingFrame = none → s.uart.rx = .inFrame bytes → s.uart.sending ≠ none →
       4 ≤ bytes.length → bytes.length + 1 = 5 + lengthField (bytes ++ [b]) →
       exec (.uartByteReceived b) s
         = .next (drivePins (s.modUart fun u => { u with
             rx := .idle, quiet := none, waitingFrame := some (bytes ++ [b]) }))) ∧
     (s.uart.waitingFrame.isSome ∨ s.uart.rx = .discarding →
       exec (.uartByteReceived b) s
         = .next (drivePins (s.modUart fun u => { u with rx := .discarding, quiet := some 10 })))) ∧
  (∀ s : State, s.inReset = false →
     (s.uart.rx = .discarding → s.uart.quiet = some 0 →
       exec .uartDiscardEnd s
         = .next (drivePins (s.modUart fun u => { u with rx := .idle, quiet := none }))) ∧
     (s.uart.waitingFrame.isSome ∨ s.uart.rx = .discarding →
       exec .uartStopBitFault s
         = .next (drivePins (s.modUart fun u => { u with rx := .discarding, quiet := some 10 }))) ∧
     (s.uart.waitingFrame = none → s.uart.rx = .idle →
       ∃ t, exec .uartStopBitFault s = .next t ∧ t.uart.rx = .discarding ∧ t.uart.quiet = some 10 ∧
         ∀ m, t.spi m = s.spi m))

/-- Tier 2. What breaks a frame at the service port: a length above 200 at the fourth byte, 10 ms without
a byte, and a byte with a missing stop bit each end it with BAD_LENGTH and the second byte as tag; after
the first and the last the receiver discards until 10 ms have passed without a byte. The response is sent
at once by an idle transmitter and otherwise waits behind the others (R196). That a byte with a missing stop bit
which is itself the second byte gives no tag, so that the answer carries 00H, is the model's choice (log 25). -/
def Obligations.BrokenFrameIsAnswered : Prop :=
  ∀ (bytes : List Byte) (s : State), s.inReset = false → s.uart.waitingFrame = none →
    s.uart.rx = .inFrame bytes →
    let answer : Response := ⟨bytes.getD 1 0, .badLength, []⟩
    let send (u : Uart) : Uart :=
      if u.sending = none then { u with sending := some answer }
      else { u with waiting := u.waiting ++ [answer] }
    (∀ b : Byte, bytes.length = 3 → 200 < lengthField (bytes ++ [b]) →
      exec (.uartLengthFieldTooLarge b) s
        = .next (drivePins (s.modUart fun u => send { u with rx := .discarding, quiet := some 10 }))) ∧
    (s.uart.quiet = some 0 →
      exec .uartGapTimeout s
        = .next (drivePins (s.modUart fun u => send { u with rx := .idle, quiet := none }))) ∧
    exec .uartStopBitFault s
      = .next (drivePins (s.modUart fun u => send { u with rx := .discarding, quiet := some 10 }))

/-- Tier 2. When the last byte of a response has been sent, a waiting response is sent next, in the order
in which they arose; with none, a waiting frame is taken; with neither the transmitter is idle (R196). -/
def Obligations.ResponseSentThenTheNext : Prop :=
  ∀ (r : Response) (s : State), s.inReset = false → s.uart.sending = some r →
    (∀ first rest, s.uart.waiting = first :: rest →
      exec .uartResponseSent s
        = .next (drivePins (s.modUart fun u => { u with sending := some first, waiting := rest }))) ∧
    (s.uart.waiting = [] → s.uart.waitingFrame = none →
      exec .uartResponseSent s = .next (drivePins (s.modUart fun u => { u with sending := none }))) ∧
    (∀ (c : Command) (tag : Byte) (p reply : List Byte) (st : Status) (t : State), p.length ≤ 200 →
      s.uart.waiting = [] → s.uart.waitingFrame = some (commandFrame c.code tag p) →
      perform .servicePort c.code p (s.modUart fun u => { u with sending := none, waitingFrame := none })
        = (t, { status := st, payload := reply }) →
      exec .uartResponseSent s = .next (sentAfter ⟨tag, st, reply⟩ t))

/-- Tier 2. FULL_RESET and RESET_RELEASE go on from every state. While RESET is low every block is at its
full-reset values, each line record with its latest sample from its input and every other field written out, and the
outputs are released, dark, silent and off; no command, floor event or timer then acts; and the rise of RESET leaves
the state at those values (R24, R210). The model's choices: the input of a line is its level at its latest sample
(log 5), a LINE_SAMPLE in full reset changes the line's input and its latest sample alone (log 20), RESET low and its
rise are two commands (log 4), and a RESET_RELEASE outside full reset changes nothing (log 3). -/
def Obligations.FullResetHoldsThePart : Prop :=
  (∀ s : State, ∃ t, exec .fullReset s = .next t ∧ t.inReset = true ∧ t.pending = s.pending ∧
    t.pins = {
      showLine := false, deskLine := false, combined := false, allCall := false
      beacons := Vector.replicate 16 { pattern := .off, lit := false }, toneOut := .silent
      pwm := Vector.replicate 12 0 } ∧
    (∀ l, t.line l = {
      exhibit := none, role := none, activeLevel := .low, debounce := 20, repeatGuard := 300, stuckTime := 30
      enabled := true, input := (s.line l).input, latest := (s.line l).input = .low, state := .inert
      accepted := false, destination := none, lastAccepted := none, debounceTimer := 0, stuckTimer := none }) ∧
    { t with lines := State.reset.lines, inReset := false, pending := [] } = State.reset) ∧
  (∀ (c : Instr) (s : State), s.inReset = true → c ≠ .fullReset → c ≠ .resetRelease →
    (∀ l v, c ≠ .lineSample l v) → exec c s = .next s) ∧
  (∀ (l : LineId) (v : Level) (s : State), s.inReset = true →
    exec (.lineSample l v) s
      = .next (s.modLine l fun x => { x with input := v, latest := v = x.activeLevel })) ∧
  (∀ s : State, s.inReset = true →
    exec .resetRelease s = .next (drivePins { s with inReset := false })) ∧
  (∀ s : State, s.inReset = false → exec .resetRelease s = .next s)

/-! ## Attention and notes -/

/-- Tier 2. The causes of the attention sets: EVENTS while the port's queue is nonempty, RETIRED (show)
while the retired list is, ALERTS (desk) while a record is OPEN, and the two edges as they were set
(R52, R137, R180, R201). ATTENTION-MASK replaces the sending port's mask and answers the mask and the set;
a bit above bit 4, bit 1 from the desk port or bit 2 from the show port is refused BAD_VALUE.
ATTENTION-READ answers the sending port's set as it stands and its mask, and clears the port's two edge
causes alone (R202). -/
def Obligations.AttentionFollowsItsCauses : Prop :=
  (∀ (s : State),
     ((attentionSet s .showMaster).getLsbD 0 = !s.showQueue.events.isEmpty) ∧
     ((attentionSet s .deskMaster).getLsbD 0 = !s.deskQueue.events.isEmpty) ∧
     ((attentionSet s .showMaster).getLsbD 1 = !s.retiredList.isEmpty) ∧
     ((attentionSet s .deskMaster).getLsbD 1 = false) ∧
     ((attentionSet s .showMaster).getLsbD 2 = false) ∧
     ((attentionSet s .deskMaster).getLsbD 2 = s.alerts.records.any fun r => r.state = .opened) ∧
     (∀ m, (attentionSet s m).getLsbD 3 = (s.spi m).edges.noteIn ∧
       (attentionSet s m).getLsbD 4 = (s.spi m).edges.noteTaken ∧
       (attentionSet s m).toNat < 32)) ∧
  (∀ (m : Master) (b : Byte) (s : State), Admitted .attentionMask m.port s →
     let bad := 0x1F < b.toNat ∨ (m = .deskMaster ∧ b.getLsbD 1) ∨ (m = .showMaster ∧ b.getLsbD 2)
     (¬ bad → Answers .attentionMask m.port [b] s .ok [b, attentionSet s m]
       (s.modSpi m fun x => { x with mask := b })) ∧
     (bad → Answers .attentionMask m.port [b] s .badValue [] s)) ∧
  (∀ (m : Master) (s : State), Admitted .attentionRead m.port s →
     Answers .attentionRead m.port [] s .ok [attentionSet s m, (s.spi m).mask]
       (s.modSpi m fun x => { x with edges := { noteIn := false, noteTaken := false } }))

/-- Tier 2. NOTE-WRITE: a slot above 7 is refused NO_SUCH, one the port does not write WRONG_PORT, a FULL
one FULL; otherwise the slot becomes FULL with the content and the clock, NOTE_IN is set at its reading
port, and the response carries the slot and its write time (R204). NOTE-READ: a slot above 7 is refused
NO_SUCH, one the port does not read WRONG_PORT, an EMPTY one EMPTY; otherwise the response carries the
slot, its write time and its content as a list, the slot becomes EMPTY, and NOTE_TAKEN is set at its
writing port (R205). -/
def Obligations.NotesAreWrittenAndRead : Prop :=
  (∀ (m : Master) (b : Byte) (content : List Byte) (s : State), Admitted .noteWrite m.port s →
     content.length ≤ 199 →
     (¬ (1 ≤ content.length ∧ content.length ≤ 16) →
       Answers .noteWrite m.port (b :: content) s .badLength [] s) ∧
     (1 ≤ content.length → content.length ≤ 16 → 7 < b.toNat →
       Answers .noteWrite m.port (b :: content) s .noSuch [] s) ∧
     (∀ i : SlotId, i.val = b.toNat → 1 ≤ content.length → content.length ≤ 16 →
       let writer : Master := if i.val ≤ 3 then .showMaster else .deskMaster
       let reader : Master := if i.val ≤ 3 then .deskMaster else .showMaster
       (writer ≠ m → Answers .noteWrite m.port (b :: content) s .wrongPort [] s) ∧
       (writer = m → (s.note i).isSome → Answers .noteWrite m.port (b :: content) s .full [] s) ∧
       (writer = m → s.note i = none →
         Answers .noteWrite m.port (b :: content) s .ok (b :: clockBytes s.clock)
           ((s.setNote i (some ⟨content, s.clock⟩)).modSpi reader fun x =>
             { x with edges := { x.edges with noteIn := true } })))) ∧
  (∀ (m : Master) (b : Byte) (s : State), Admitted .noteRead m.port s →
     (7 < b.toNat → Answers .noteRead m.port [b] s .noSuch [] s) ∧
     (∀ i : SlotId, i.val = b.toNat →
       let writer : Master := if i.val ≤ 3 then .showMaster else .deskMaster
       let reader : Master := if i.val ≤ 3 then .deskMaster else .showMaster
       (reader ≠ m → Answers .noteRead m.port [b] s .wrongPort [] s) ∧
       (reader = m → s.note i = none → Answers .noteRead m.port [b] s .empty [] s) ∧
       (∀ n, reader = m → s.note i = some n →
         Answers .noteRead m.port [b] s .ok
           (b :: (clockBytes n.time ++ BitVec.ofNat 8 n.content.length :: n.content))
           ((s.setNote i none).modSpi writer fun x =>
             { x with edges := { x.edges with noteTaken := true } }))))

/-! ## Gallery and exhibits -/

/-- Tier 2. A number above its range is refused NO_SUCH: an exhibit above 15, a line above 63, a channel
above 31, an axis above 11, a cue frame above 47, a tone pattern above 3 (R11, R15, R17, R19, R23, R39,
R41, R74, R102, R123, R186, R206 and the rules of the other commands that name them); a CUE-POST whose frame is
above 47 is refused NO_SUCH before its other checks, whatever its exhibit's state (R125). -/
def Obligations.NumbersAboveRangeAreNoSuch : Prop :=
  ∀ (c : Command) (port : Port) (b : Byte) (rest : List Byte) (s : State), Admitted c port s →
    rest.length ≤ 199 → c.lengthOk (b :: rest) = true →
    (c ∈ [.exhibitOpen, .exhibitClose, .exhibitHold, .exhibitRelease, .faultClear, .exhibitStatus, .cuePost,
        .cueCancel, .cueFlush, .cueStatus, .servicePermit, .serviceRevoke, .exhibitTake, .exhibitGive,
        .configExhibit] → 15 < b.toNat → Answers c port (b :: rest) s .noSuch [] s) ∧
    (c ∈ [.lineEnable, .lineDisable, .lineStatus, .configLine] → 63 < b.toNat →
      Answers c port (b :: rest) s .noSuch [] s) ∧
    (c ∈ [.scanLimits, .senseRead, .configChannel] → 31 < b.toNat →
      Answers c port (b :: rest) s .noSuch [] s) ∧
    (c ∈ [.jog, .axisStatus, .configAxis] → 11 < b.toNat → Answers c port (b :: rest) s .noSuch [] s) ∧
    (c ∈ [.frameWrite, .frameDrop] → 47 < b.toNat → Answers c port (b :: rest) s .noSuch [] s) ∧
    (c ∈ [.chime, .configTone] → 3 < b.toNat → Answers c port (b :: rest) s .noSuch [] s) ∧
    (∀ f : Byte, c = .cuePost → rest = [f] → 47 < f.toNat → Answers c port (b :: rest) s .noSuch [] s)

/-- Tier 2. A change of gallery mode appends GALLERY_MODE with the new mode's code to the show and desk queues
(R2, R47). The settle test, in QUIET: with every exhibit in SERVICE, or with no active frame and no axis in one of
the five busy states, and the settled-noted flag clear, it appends GALLERY_MODE with value 4 to both queues and
sets the flag; otherwise it changes nothing (R5). GALLERY-OPEN: the mode becomes OPEN with its event, every line
is evaluated, the scanner's regime is re-evaluated; then from CLOSED each CLOSED exhibit with its
open-with-gallery flag is opened, ascending, and from QUIET each READY exhibit with a nonempty cue queue takes its
head, ascending (R3). GALLERY-QUIET: the settled-noted flag is cleared, the mode becomes QUIET with its event, and
every frame whose current group has a WAIT_PRESS step, on RUNNING and HELD exhibits alike, is retired CANCELLED,
in ascending exhibit number; then the settle test is made (R4, R5, R134). What stands is left as it is but for the
mode (R26, R70). The place of the lines and the regime after GALLERY_MODE is log 18; the settle test around the
arbiter's evaluation is log 14. -/
def Obligations.GalleryOpensAndGoesQuiet : Prop :=
  let event (code : BitVec 16) : Event := { kind := .galleryMode, value := some code }
  let announce (code : BitVec 16) (u : State) := appendTo .deskQ (event code) (appendTo .showQ (event code) u)
  (∀ s : State, setMode .setup s = announce 0 { s with mode := .setup } ∧
     setMode .closed s = announce 1 { s with mode := .closed } ∧
     setMode .opened s = announce 2 { s with mode := .opened } ∧
     setMode .quiet s = announce 3 { s with mode := .quiet }) ∧
  (∀ s : State,
     let atRest := ∀ e, (s.exhibit e).state = .service ∨ ((s.exhibit e).active = none ∧
       ∀ a ∈ (s.exhibit e).axes, (s.axis a).state ∉ [.waitingStart, .accelerating, .moving, .settling, .held])
     (s.mode = .quiet → s.settledNoted = false → atRest →
       settleTest s = announce 4 { s with settledNoted := true }) ∧
     (s.mode ≠ .quiet ∨ s.settledNoted = true ∨ ¬ atRest → settleTest s = s) ∧
     conclude s = settleTest (evaluate (settleTest s))) ∧
  (∀ s : State, Admitted .galleryOpen .deskPort s →
     let flagged (u : State) (e : ExhibitId) :=
       (u.exhibit e).state = .closed ∧ (u.exhibit e).openWithGallery = true
     let waiting (u : State) (e : ExhibitId) :=
       (u.exhibit e).state = .ready ∧ u.mode = .opened ∧ (u.exhibit e).queue ≠ []
     ∃ lit t,
       InTurn 64 (fun l u v => v = evaluateLine l u) (announce 2 { s with mode := .opened }) lit ∧
       (s.mode = .closed → InTurn 16 (fun e u v =>
         (flagged u e → v = openExhibit e u) ∧ (¬ flagged u e → v = u)) (reviewRegime lit) t) ∧
       (s.mode = .quiet → InTurn 16 (fun e u v =>
         (waiting u e → v = takeFrame e u) ∧ (¬ waiting u e → v = u)) (reviewRegime lit) t) ∧
       Answers .galleryOpen .deskPort [] s .ok [] (conclude t) ∧
       Undisturbed { s with mode := .opened } (conclude t)) ∧
  (∀ s : State, Admitted .galleryQuiet .deskPort s →
     let waits (u : State) (e : ExhibitId) :=
       ((u.exhibit e).state = .running ∨ (u.exhibit e).state = .held) ∧
       ∃ f g i w l timeout, (u.exhibit e).active = some f ∧ (u.frame f).currentGroup = some g ∧ g ≤ i ∧
         (u.frame f).steps[i]? = some ⟨w, .waitPress l timeout⟩ ∧
         ∀ j, g < j → j ≤ i → ∃ x, (u.frame f).steps[j]? = some x ∧ x.withPrevious = true
     ∃ lit t,
       InTurn 64 (fun l u v => v = evaluateLine l u)
         (announce 3 { s with mode := .quiet, settledNoted := false }) lit ∧
       InTurn 16 (fun e u v =>
         (waits u e → v = retireActive e .cancelled none u) ∧ (¬ waits u e → v = u)) (reviewRegime lit) t ∧
       Answers .galleryQuiet .deskPort [] s .ok [] (conclude t) ∧
       Undisturbed { s with mode := .quiet } (conclude t))

/-- Tier 2. GALLERY-CLOSE: an exhibit outside SERVICE with an active frame or a busy axis makes it refused
NOT_SETTLED, and nothing changes (R5, R6). Otherwise the mode becomes CLOSED with GALLERY_MODE in the show and
desk queues; every line is evaluated, ascending, but the ACTION lines of the exhibits that are about to close;
every READY, HELD and FAULTED exhibit is closed, ascending; the scanner's regime is re-evaluated; and AFTER_HOURS
is triggered for each exhibit outside SERVICE whose presence window is INSIDE, ascending (R6, R70, R171). The
place of the lines and of the regime is log 18. -/
def Obligations.GalleryCloses : Prop :=
  ∀ s : State, Admitted .galleryClose .deskPort s →
    let isSettled := ∀ e, (s.exhibit e).state = .service ∨ ((s.exhibit e).active = none ∧
      ∀ a ∈ (s.exhibit e).axes, (s.axis a).state ∉ [.waitingStart, .accelerating, .moving, .settling, .held])
    let event : Event := { kind := .galleryMode, value := some 1 }
    let changed := appendTo .deskQ event (appendTo .showQ event { s with mode := .closed })
    let closes (u : State) (e : ExhibitId) :=
      (u.exhibit e).state = .ready ∨ (u.exhibit e).state = .held ∨ (u.exhibit e).state = .faulted
    let spared (u : State) (l : LineId) :=
      ∃ e, (u.line l).exhibit = some e ∧ (u.line l).role = some .action ∧ closes u e
    let intruded (u : State) (e : ExhibitId) :=
      (u.exhibit e).state ≠ .service ∧ ∃ c, (u.exhibit e).presence = some c ∧ (u.channel c).window = .inside
    (¬ isSettled → Answers .galleryClose .deskPort [] s .notSettled [] s) ∧
    (isSettled → ∃ lit shut t,
      InTurn 64 (fun l u v => (spared u l → v = u) ∧ (¬ spared u l → v = evaluateLine l u)) changed lit ∧
      InTurn 16 (fun e u v => (closes u e → v = closeExhibit e u) ∧ (¬ closes u e → v = u)) lit shut ∧
      InTurn 16 (fun e u v =>
        (intruded u e →
          v = raiseAlert { kind := .afterHours, severity := .attention, exhibit := some e } u) ∧
        (¬ intruded u e → v = u)) (reviewRegime shut) t ∧
      Answers .galleryClose .deskPort [] s .ok [] (conclude t) ∧
      Undisturbed { s with mode := .closed } (conclude t))

/-- Tier 2. RESTART performs a warm restart. First every block is at its warm-restart values: the configuration,
the clock, the links, the permits, the tone patterns, the flash counter and the ports' responses and masks are
kept; every exhibit is CLOSED with GUARD where it has a presence channel, every axis DISABLED with its drive OFF,
every window UNKNOWN, every frame free, every queue empty with its numbering continued and GALLERY_MODE (CLOSED)
in the show and desk queues, the alert list empty with its numbering continued, the arbiter at its values of
R117, the tone SILENT with silence and lamp test out of force, the tenures absent, the note slots EMPTY with the
edge causes clear; the scanner WARMING in CLOSED_SCAN; each assigned HELP line live from its latest sample, every
other line INERT. Then RESTARTED is triggered, and SHOW_LINK_LOST and DESK_LINK_LOST anew for each link that is
LAPSED: these are the records of the list (R7, R8, R24, R27, R53-R55, R64, R71, R76, R98, R117, R143, R152, R159,
R181, R194, R203, R210). A latest sample taken from the input's level is log 5. -/
def Obligations.RestartIsAWarmRestart : Prop :=
  ∀ s : State, Admitted .restart .deskPort s →
    ∃ u t, Answers .restart .deskPort [] s .ok [] t ∧
      (let event (n : BitVec 32) : EventQueue := {
         events := [{ kind := .galleryMode, seq := n, time := s.clock, value := some 1 }]
         nextSeq := nextSequence n, gap := false }
       u = { s with
         mode := .closed, settledNoted := false, exhibits := u.exhibits, lines := u.lines
         showQueue := event s.showQueue.nextSeq, deskQueue := event s.deskQueue.nextSeq
         serviceQueue := { events := [], nextSeq := s.serviceQueue.nextSeq, gap := false }
         channels := u.channels
         scanner := { s.scanner with
           regime := .closedScan, state := .warming, passPosition := none, inFlight := none
           warmUp := some 1, pace := none, closedPaceTimer := some s.timing.closedPace
           passRequested := false }
         axes := u.axes
         arbiter := { unitsInUse := 0, startQueue := [], accel := Vector.replicate 12 none, sag := .normal
                      sagTimer := none }
         frames := u.frames, freeList := List.finRange 48, takenSet := [], retiredList := []
         tenures := u.tenures, serviceIdle := none
         alerts := { records := [], nextNumber := s.alerts.nextNumber }
         annunciators := { s.annunciators with
           tone := .silent, silence := none, silenceBegan := none, lampTest := none }
         showSpi := { s.showSpi with edges := { noteIn := false, noteTaken := false } }
         deskSpi := { s.deskSpi with edges := { noteIn := false, noteTaken := false } }
         notes := u.notes } ∧
       (∀ e, u.exhibit e = { s.exhibit e with
         state := .closed, active := none, queue := [], guardRelease := none, guardLong := none
         lastChange := s.clock
         holds := { guard := (s.exhibit e).presence.isSome, attendant := false, lapse := false
                    supply := false } }) ∧
       (∀ l, u.line l = { s.line l with
         enabled := true, latest := (s.line l).input = (s.line l).activeLevel, accepted := false
         destination := none, lastAccepted := none, debounceTimer := 0, stuckTimer := none
         state := if (s.line l).exhibit.isSome ∧ (s.line l).role = some .help then
             (if (s.line l).input = (s.line l).activeLevel then .waitRelease else .released)
           else .inert }) ∧
       (∀ c, u.channel c = { s.channel c with
         latest := none, window := .unknown, candidate := none, agreement := 0 }) ∧
       (∀ a, u.axis a = { s.axis a with
         state := .disabled, move := none, drive := .off, corrections := 0, fault := none, travel := none
         settle := none, suppress := false }) ∧
       (∀ f, u.frame f = { exhibit := none, steps := [], currentGroup := none, run := [] }) ∧
       (∀ e, u.tenure e = none) ∧ (∀ i, u.note i = none)) ∧
      (let renewed (k : AlertKind) (x : LinkRecord) (v : State) :=
         if x.state = .lapsed then raiseAlert { kind := k, severity := .urgent } v else v
       t = renewed .deskLinkLost s.deskLink (renewed .showLinkLost s.showLink
         (raiseAlert { kind := .restarted, severity := .notice } u))) ∧
      (let raised (k : AlertKind) (sev : Severity) := (k, sev, s.clock)
       t.alerts.records.map (fun r => (r.kind, r.severity, r.raised)) =
         raised .restarted .notice ::
           ((if s.showLink.state = .lapsed then [raised .showLinkLost .urgent] else []) ++
             if s.deskLink.state = .lapsed then [raised .deskLinkLost .urgent] else [])) ∧
      (∀ r ∈ t.alerts.records, r.state = .opened ∧ r.repeatCount = 1 ∧ r.exhibit = none ∧ r.subject = none ∧
        r.showCode = none ∧ r.acked = none) ∧
      { t with alerts := u.alerts, annunciators := u.annunciators, deskQueue := u.deskQueue } = u ∧
      t.annunciators.patterns = s.annunciators.patterns ∧ t.annunciators.silence = none ∧
      t.annunciators.lampTest = none ∧ t.annunciators.flash = s.annunciators.flash ∧
      (s.showLink.state ≠ .lapsed → s.deskLink.state ≠ .lapsed → t.annunciators.tone = .silent) ∧
      t.deskQueue.events.head? = u.deskQueue.events.head?

/-- Tier 2. EXHIBIT-OPEN: an exhibit that is not CLOSED is refused WRONG_STATE and nothing changes; a
CLOSED one is opened, and the response carries its state after it (R11). Opening computes its hold-reason
set afresh, makes it READY or HELD, makes its DISABLED axes IDLE, starts the guard-long timer when GUARD is
in the set, and touches no other exhibit, no other exhibit's lines, no other axis, and neither the arbiter,
the cue store nor the alert list (R10, R22, R27, R81). -/
def Obligations.ExhibitOpens : Prop :=
  (∀ (e : ExhibitId) (s : State), Admitted .exhibitOpen .deskPort s →
     ((s.exhibit e).state ≠ .closed → Answers .exhibitOpen .deskPort (num1 e.val) s .wrongState [] s) ∧
     ((s.exhibit e).state = .closed →
       let t := conclude (openExhibit e s)
       Answers .exhibitOpen .deskPort (num1 e.val) s .ok (num1 (t.exhibit e).state.code) t)) ∧
  (∀ (e : ExhibitId) (s : State), Admitted .exhibitOpen .deskPort s → s.arbiter.startQueue = [] →
     (s.exhibit e).state = .closed →
     let window := (s.exhibit e).presence.map fun c => (s.channel c).window
     let fresh : HoldSet :=
       { guard := window = some .inside || window = some .unknown, attendant := false
         lapse := s.showLink.state = .lapsed, supply := s.arbiter.sag = .sagHold }
     let after : ExhibitState := if fresh = {} then .ready else .held
     ∃ t, Answers .exhibitOpen .deskPort (num1 e.val) s .ok (num1 after.code) t ∧
       t.exhibit e = { s.exhibit e with
         state := after, holds := fresh, lastChange := s.clock
         guardRelease := if fresh.guard then (s.exhibit e).guardRelease else none
         guardLong :=
           if fresh.guard then some (1000 * s.timing.guardAlertTime) else (s.exhibit e).guardLong } ∧
       (∀ d, d ≠ e → t.exhibit d = s.exhibit d) ∧
       (∀ a, t.axis a =
         if a ∈ (s.exhibit e).axes ∧ (s.axis a).state = .disabled then
           { s.axis a with state := .idle, move := none, drive := .off, corrections := 0, fault := none }
         else s.axis a) ∧
       (∀ l, (s.line l).exhibit ≠ some e → t.line l = s.line l) ∧
       (∀ l, (s.line l).exhibit = some e → (s.line l).role = some .action → (s.line l).enabled = true →
         (s.line l).state = .inert →
         (t.line l).state = if (s.line l).latest then .waitRelease else .released) ∧
       t.arbiter = s.arbiter ∧ t.frames = s.frames ∧ t.freeList = s.freeList ∧ t.takenSet = s.takenSet ∧
       t.retiredList = s.retiredList ∧ t.alerts = s.alerts ∧ t.channels = s.channels ∧
       t.scanner = s.scanner ∧ t.annunciators = s.annunciators ∧ t.tenures = s.tenures ∧
       Undisturbed s t)

/-- Tier 2. EXHIBIT-CLOSE: an exhibit that is CLOSED or in SERVICE is refused WRONG_STATE and nothing
changes; otherwise it is closed, with no payload in the response (R17). Closing: it becomes CLOSED with no
active frame and an empty cue queue, keeps GUARD and SUPPLY and loses ATTENDANT and LAPSE, its guard-long
timer stops and its guard release timer runs on; its frames stand at the tail of the retired list, the
active one first, all CANCELLED; and its axes are DISABLED with the drive OFF, no move, no cause and no
timer (R16, R98, R135). -/
def Obligations.ExhibitCloses : Prop :=
  (∀ (e : ExhibitId) (s : State), Admitted .exhibitClose .deskPort s →
     ((s.exhibit e).state = .closed ∨ (s.exhibit e).state = .service →
       Answers .exhibitClose .deskPort (num1 e.val) s .wrongState [] s) ∧
     ((s.exhibit e).state ≠ .closed → (s.exhibit e).state ≠ .service →
       Answers .exhibitClose .deskPort (num1 e.val) s .ok [] (conclude (closeExhibit e s)) ∧
       Undisturbed s (conclude (closeExhibit e s)))) ∧
  (∀ (e : ExhibitId) (s : State),
     let t := closeExhibit e s
     let gone := (s.exhibit e).active.toList ++ (s.exhibit e).queue
     gone.Nodup →
     t.exhibit e = { s.exhibit e with
       state := .closed, active := none, queue := [], lastChange := s.clock, guardLong := none
       holds := { (s.exhibit e).holds with attendant := false, lapse := false } } ∧
     (∀ d, d ≠ e → t.exhibit d = s.exhibit d) ∧
     (∀ a ∈ (s.exhibit e).axes, (t.axis a).state = .disabled ∧ (t.axis a).drive = .off ∧
       (t.axis a).move = none ∧ (t.axis a).fault = none ∧ (t.axis a).travel = none ∧
       (t.axis a).settle = none ∧
       ((s.axis a).state = .waitingStart → a ∉ t.arbiter.startQueue)) ∧
     (t.retiredList.map fun r => (r.frame, r.exhibit, r.outcome, r.endTime))
       = (s.retiredList.map fun r => (r.frame, r.exhibit, r.outcome, r.endTime))
         ++ gone.map fun f => (f, e, CueOutcome.cancelled, s.clock))

/-- Tier 2. EXHIBIT-HOLD adds ATTENDANT to any exhibit but a CLOSED one, which it refuses WRONG_STATE;
EXHIBIT-RELEASE removes it, and is refused WRONG_STATE where it is absent; both answer the exhibit's state
after the command, and a hold that is there already changes nothing but what an evaluation does (R13,
R19). -/
def Obligations.AttendantHoldAndRelease : Prop :=
  ∀ (e : ExhibitId) (s : State),
    (Admitted .exhibitHold .deskPort s →
      ((s.exhibit e).state = .closed → Answers .exhibitHold .deskPort (num1 e.val) s .wrongState [] s) ∧
      ((s.exhibit e).state ≠ .closed →
        let t := conclude (addHold .attendant e s)
        Answers .exhibitHold .deskPort (num1 e.val) s .ok (num1 (t.exhibit e).state.code) t ∧
        Undisturbed s t) ∧
      ((s.exhibit e).state ≠ .closed → (s.exhibit e).holds.attendant = true →
        let t := conclude s
        Answers .exhibitHold .deskPort (num1 e.val) s .ok (num1 (t.exhibit e).state.code) t)) ∧
    (Admitted .exhibitRelease .deskPort s →
      ((s.exhibit e).holds.attendant = false →
        Answers .exhibitRelease .deskPort (num1 e.val) s .wrongState [] s) ∧
      ((s.exhibit e).holds.attendant = true →
        let t := conclude (removeHold .attendant e s)
        Answers .exhibitRelease .deskPort (num1 e.val) s .ok (num1 (t.exhibit e).state.code) t ∧
        Undisturbed s t))

/-- Tier 2. The reaction to a hold-reason set that becomes nonempty: a READY or RUNNING exhibit becomes
HELD and keeps its active frame and its cue queue, and its working axes become HELD with the drive OFF
and their moves kept; a SERVICE exhibit keeps its state and its working axes become HELD; a CLOSED or
FAULTED exhibit changes in its set alone. A reason added to a set that has another changes the set alone
(R13, R95). The working axes are taken in the order of the exhibit's list, after its own change of state; each has
its units returned from ACCELERATING, leaves the start queue from WAITING_START, and appends AXIS_HELD with its
exhibit, its number and the cue step of its move to the show queue, or in SERVICE to the service queue (R48, R95,
R103). The running step timers of a READY, RUNNING or HELD exhibit's active frame become suspended (R133).
The removal of the last reason: a HELD exhibit with an active frame becomes RUNNING, its HELD axes rejoin the
start queue, ascending, with AXIS_RESUMED, and its suspended step timers restart in full; one without takes the
head of its cue queue in OPEN, or becomes READY; in SERVICE its HELD axes rejoin; any other state changes the set
alone, and so does the removal of a reason that is not the last (R12, R13, R96, R133). A change of an exhibit's
state stamps the clock and appends EXHIBIT_STATE to the show and desk queues, and to the service queue on a change
to or from SERVICE (R9, R47, R48). -/
def Obligations.HoldReaction : Prop :=
  (∀ (e : ExhibitId) (new : ExhibitState) (s : State),
    let code : BitVec 16 := match new with
      | .closed => 0 | .ready => 1 | .running => 2 | .held => 3 | .faulted => 4 | .service => 5
    let event : Event := { kind := .exhibitState, exhibit := some e, value := some code }
    let both := appendTo .deskQ event <| appendTo .showQ event <|
      s.modExhibit e fun x => { x with state := new, lastChange := s.clock }
    changeState e new s =
      if (s.exhibit e).state = .service ∨ new = .service then appendTo .serviceQ event both else both) ∧
  (∀ (a : AxisId) (s : State),
    let x := s.axis a
    let step : Option StepId := match x.move with
      | some ⟨_, _, .cueStep _ i⟩ => some i
      | _ => none
    let event : Event := {
      kind := .axisResumed, exhibit := x.exhibit, subject := some (BitVec.ofNat 8 a.val), step := step }
    let joined := (s.modAxis a fun y => { y with state := .waitingStart }).modArbiter fun y =>
      { y with startQueue := y.startQueue ++ [a] }
    let serving := ∃ e, x.exhibit = some e ∧ (s.exhibit e).state = .service
    (x.state ≠ .held → resumeAxis a s = s) ∧
    (x.state = .held → serving → resumeAxis a s = appendTo .serviceQ event joined) ∧
    (x.state = .held → ¬ serving → resumeAxis a s = appendTo .showQ event joined)) ∧
  (∀ (a : AxisId) (s : State),
    let x := s.axis a
    let step : Option StepId := match x.move with
      | some ⟨_, _, .cueStep _ i⟩ => some i
      | _ => none
    let event : Event := {
      kind := .axisHeld, exhibit := x.exhibit, subject := some (BitVec.ofNat 8 a.val), step := step }
    let left := match x.state with
      | .waitingStart => s.modArbiter fun y => { y with startQueue := y.startQueue.filter (· ≠ a) }
      | .accelerating => s.modArbiter fun y => { y with
          unitsInUse := y.unitsInUse - x.startCost, accel := modTable y.accel a fun _ => none }
      | _ => s
    let held := left.modAxis a fun y => { y with state := .held, drive := .off, travel := none, settle := none }
    let working := x.state = .waitingStart ∨ x.state = .accelerating ∨ x.state = .moving ∨ x.state = .settling
    let serving := ∃ e, x.exhibit = some e ∧ (s.exhibit e).state = .service
    (¬ working → holdAxis a s = s) ∧
    (working → serving → holdAxis a s = appendTo .serviceQ event held) ∧
    (working → ¬ serving → holdAxis a s = appendTo .showQ event held)) ∧
  (∀ (r : HoldReason) (e : ExhibitId) (s : State),
    let x := s.exhibit e
    let t := removeHold r e s
    let left : HoldSet := {
      guard := x.holds.guard && r ≠ .guard, attendant := x.holds.attendant && r ≠ .attendant
      lapse := x.holds.lapse && r ≠ .lapse, supply := x.holds.supply && r ≠ .supply }
    let cleared := s.modExhibit e fun y => { y with holds := left }
    let resumed (u : State) := x.axes.foldl (fun v a => resumeAxis a v) u
    (x.holds.has r = false → t = s) ∧
    (x.holds.has r = true →
      (left ≠ {} → t = cleared) ∧
      (left = {} →
        (x.state ≠ .held → x.state ≠ .service → t = cleared) ∧
        (x.state = .service → t = resumed cleared) ∧
        (∀ f, x.state = .held → x.active = some f →
          t = (resumed (changeState e .running cleared)).modFrame f fun y => { y with
            run := y.steps.zipWith (fun step z => match z.timer, step.body with
              | .suspended, .move _ _ _ dwell => { z with timer := .running (dwell.getD 0) }
              | .suspended, .pause d => { z with timer := .running d }
              | .suspended, .waitPress _ timeout => { z with timer := .running (timeout.getD 0) }
              | _, _ => z) y.run }) ∧
        (x.state = .held → x.active = none → s.mode = .opened → x.queue ≠ [] →
          t = resumed (takeFrame e cleared)) ∧
        (x.state = .held → x.active = none → s.mode ≠ .opened ∨ x.queue = [] →
          t = resumed (changeState e .ready cleared))))) ∧
  ∀ (r : HoldReason) (e : ExhibitId) (s : State), (s.exhibit e).holds.has r = false →
    let t := addHold r e s
    let kept := { (s.exhibit e).holds with
      guard := r = .guard || (s.exhibit e).holds.guard
      attendant := r = .attendant || (s.exhibit e).holds.attendant
      lapse := r = .lapse || (s.exhibit e).holds.lapse
      supply := r = .supply || (s.exhibit e).holds.supply }
    ((s.exhibit e).holds ≠ {} → t = s.modExhibit e fun x => { x with holds := kept }) ∧
    (let x := s.exhibit e
     let added := s.modExhibit e fun y => { y with holds := kept }
     let held (u : State) := x.axes.foldl (fun v a => holdAxis a v) u
     let suspended (u : State) := match x.active with
       | none => u
       | some f => u.modFrame f fun y => { y with run := y.run.map fun z => match z.timer with
           | .running _ => { z with timer := .suspended }
           | _ => z }
     x.holds = {} →
      (x.state = .ready ∨ x.state = .running → t = suspended (held (changeState e .held added))) ∧
      (x.state = .held → t = suspended (held added)) ∧ (x.state = .service → t = held added)) ∧
    ((s.exhibit e).holds = {} →
      ((s.exhibit e).state = .closed ∨ (s.exhibit e).state = .faulted →
        t = s.modExhibit e fun x => { x with holds := kept }) ∧
      ((s.exhibit e).state = .ready ∨ (s.exhibit e).state = .running →
        t.exhibit e = { s.exhibit e with state := .held, holds := kept, lastChange := s.clock }) ∧
      ((s.exhibit e).state = .service ∨ (s.exhibit e).state = .held →
        t.exhibit e = { s.exhibit e with holds := kept }) ∧
      ((s.exhibit e).state ≠ .closed → (s.exhibit e).state ≠ .faulted →
        (∀ a ∈ (s.exhibit e).axes, (s.axis a).state.working = true →
          t.axis a = { s.axis a with state := .held, drive := .off, travel := none, settle := none } ∧
          ((s.axis a).state = .waitingStart → a ∉ t.arbiter.startQueue)) ∧
        (∀ a, a ∉ (s.exhibit e).axes ∨ (s.axis a).state.working = false → t.axis a = s.axis a)) ∧
      (∀ f, (s.exhibit e).state = .ready ∨ (s.exhibit e).state = .running ∨ (s.exhibit e).state = .held →
        (s.exhibit e).active = some f → t.frame f = { s.frame f with
          run := (s.frame f).run.map fun z => match z.timer with
            | .running _ => { z with timer := .suspended }
            | _ => z }) ∧
      (∀ d, d ≠ e → t.exhibit d = s.exhibit d) ∧ Undisturbed s t)

/-- Tier 2. FAULT-CLEAR: an exhibit that is not FAULTED is refused WRONG_STATE; a FAULTED axis that fails
the test of its cause (OVERCURRENT: its current window is other than ABOVE; OVERTRAVEL: its position window is
INSIDE; the other causes pass) makes it refused STILL_ACTIVE with the number of the first, ascending; otherwise
the FAULTED axes become IDLE with their causes cleared, LAPSE joins the set while the show link is LAPSED,
and the exhibit becomes READY or HELD by its set (R15, R99). -/
def Obligations.FaultClearReturnsToUse : Prop :=
  ∀ (e : ExhibitId) (s : State), Admitted .faultClear .deskPort s →
    let passes (a : AxisId) : Bool := match (s.axis a).fault with
      | some .overcurrent => match (s.axis a).currentChannel with
        | some c => (s.channel c).window ≠ .above
        | none => true
      | some .overtravel => match (s.axis a).positionChannel with
        | some c => (s.channel c).window = .inside
        | none => false
      | some .moveTimeout | some .noFeedback | some .noSettle | none => true
    ((s.exhibit e).state ≠ .faulted → Answers .faultClear .deskPort (num1 e.val) s .wrongState [] s) ∧
    (∀ a, (s.exhibit e).state = .faulted →
      ((s.exhibit e).axes.find? fun b => (s.axis b).state = .faulted ∧ passes b = false) = some a →
      Answers .faultClear .deskPort (num1 e.val) s .stillActive (num1 a.val) s) ∧
    ((s.exhibit e).state = .faulted → s.arbiter.startQueue = [] → s.mode ≠ .quiet →
      (∀ a ∈ (s.exhibit e).axes, (s.axis a).state = .faulted → passes a = true) →
      let holds := { (s.exhibit e).holds with
        lapse := (s.exhibit e).holds.lapse || s.showLink.state = .lapsed }
      let after : ExhibitState := if holds = {} then .ready else .held
      ∃ t, Answers .faultClear .deskPort (num1 e.val) s .ok (num1 after.code) t ∧
        t.exhibit e = { s.exhibit e with state := after, holds := holds, lastChange := s.clock } ∧
        (∀ a, t.axis a =
          if a ∈ (s.exhibit e).axes ∧ (s.axis a).state = .faulted then
            { s.axis a with
              state := .idle, fault := none, corrections := 0, drive := .off, travel := none, settle := none }
          else s.axis a) ∧
        (∀ d, d ≠ e → t.exhibit d = s.exhibit d) ∧ t.lines = s.lines ∧ t.alerts = s.alerts ∧
        t.arbiter = s.arbiter ∧ t.frames = s.frames ∧ Undisturbed s t)

/-- Tier 2. EXHIBIT-STATUS and LINE-STATUS are accepted from every port in every gallery mode, change
nothing but the response, refuse a number above 15 or above 63 NO_SUCH, and carry the record in the order
of their rules (R23, R41), laid out by R200. -/
def Obligations.ExhibitAndLineStatusReadRecords : Prop :=
  (∀ (port : Port) (b : Byte) (s : State), Ready port s →
    (15 < b.toNat → Answers .exhibitStatus port [b] s .noSuch [] s) ∧
    (63 < b.toNat → Answers .lineStatus port [b] s .noSuch [] s)) ∧
  (∀ (port : Port) (e : ExhibitId) (s : State), Ready port s →
     let x := s.exhibit e
     let optional (i : Option Nat) : List Byte :=
       match i with
       | none => [0, 0]
       | some n => [1, BitVec.ofNat 8 n]
     Answers .exhibitStatus port (num1 e.val) s .ok
       (num1 e.val ++ num1 x.state.code
         ++ num1 (bitIf x.holds.guard 1 + bitIf x.holds.attendant 2 + bitIf x.holds.lapse 4
           + bitIf x.holds.supply 8)
         ++ optional (x.active.map Fin.val)
         ++ BitVec.ofNat 8 x.queue.length :: x.queue.map (fun f => BitVec.ofNat 8 f.val)
         ++ BitVec.ofNat 8 x.axes.length :: x.axes.map (fun a => BitVec.ofNat 8 a.val)
         ++ optional (x.presence.map Fin.val)
         ++ num1 (match x.busyPolicy with | .deliver => 0 | .swallowWhileRunning => 1)
         ++ flagByte x.openWithGallery ++ flagByte x.permit
         ++ num4 (x.guardRelease.getD 0) ++ num4 (x.guardLong.getD 0) ++ clockBytes x.lastChange
         ++ num1 s.mode.code ++ clockBytes s.clock)
       s) ∧
  (∀ (port : Port) (l : LineId) (s : State), Ready port s →
     let x := s.line l
     let optional (i : Option Nat) : List Byte :=
       match i with
       | none => [0, 0]
       | some n => [1, BitVec.ofNat 8 n]
     Answers .lineStatus port (num1 l.val) s .ok
       (num1 l.val ++ optional (x.exhibit.map Fin.val)
         ++ optional (x.role.map fun r => match r with | .action => 0 | .help => 1)
         ++ num1 (match x.activeLevel with | .low => 0 | .high => 1)
         ++ num1 x.debounce ++ num2 x.repeatGuard ++ num1 x.stuckTime
         ++ flagByte x.enabled ++ num1 (if x.latest then 0 else 1) ++ num1 x.state.code
         ++ flagByte x.accepted
         ++ optional (x.destination.map fun d => match d with | .showQueue => 0 | .serviceQueue => 1)
         ++ (match x.lastAccepted with | none => [0, 0, 0, 0, 0] | some c => 1 :: clockBytes c)
         ++ num4 x.debounceTimer ++ num4 (x.stuckTimer.getD 0) ++ clockBytes s.clock)
       s)

/-- Tier 2. The guard release timer's expiry removes GUARD and cancels the guard-long timer; the
guard-long timer's expiry triggers GUARD_LONG for the exhibit while GUARD is present and does not restart
the timer (R21, R22). The sag hold timer's expiry makes the sag state SAG_HOLD and adds SUPPLY to every
exhibit that is not CLOSED, ascending (R112). Each acts only when its timer runs with no time left (log 3). -/
def Obligations.HoldTimersExpire : Prop :=
  (∀ (e : ExhibitId) (s : State), s.inReset = false →
     ((s.exhibit e).guardRelease = some 0 →
       let t := conclude (removeHold .guard e
         (s.modExhibit e fun x => { x with guardRelease := none, guardLong := none }))
       exec (.guardReleaseExpiry e) s = .next (drivePins t) ∧ Undisturbed s t) ∧
     ((s.exhibit e).guardRelease ≠ some 0 → exec (.guardReleaseExpiry e) s = .next (drivePins s)) ∧
     ((s.exhibit e).guardLong = some 0 → (s.exhibit e).holds.guard = true →
       let t := raiseAlert
         { kind := .guardLong, severity := .attention, exhibit := some e, subject := none, showCode := none }
         (s.modExhibit e fun x => { x with guardLong := none })
       exec (.guardLongExpiry e) s = .next (drivePins t) ∧ Undisturbed s t ∧
         t.exhibit e = { s.exhibit e with guardLong := none }) ∧
     ((s.exhibit e).guardLong = some 0 → (s.exhibit e).holds.guard = false →
       exec (.guardLongExpiry e) s
         = .next (drivePins (s.modExhibit e fun x => { x with guardLong := none }))) ∧
     ((s.exhibit e).guardLong ≠ some 0 → exec (.guardLongExpiry e) s = .next (drivePins s))) ∧
  (∀ s : State, s.inReset = false →
    let expired := s.arbiter.sag = .sagPending ∧ s.arbiter.sagTimer = some 0
    let t := forEach (fun e u => if (u.exhibit e).state = .closed then u else addHold .supply e u)
      (s.modArbiter fun x => { x with sag := .sagHold, sagTimer := none })
    (expired → exec .sagHoldExpiry s = .next (drivePins (conclude t)) ∧ Undisturbed s (conclude t) ∧
      t.arbiter.sag = .sagHold ∧ t.arbiter.sagTimer = none ∧
      ∀ e, (t.exhibit e).holds = if (s.exhibit e).state = .closed then (s.exhibit e).holds
        else { (s.exhibit e).holds with supply := true }) ∧
    (¬ expired → exec .sagHoldExpiry s = .next (drivePins s)))

/-! ## Lines -/

/-- Tier 2. A sample that completes no run and reaches no stuck time: what the line's record becomes in
each state (R25, R29, R30, R34, R37, R38). -/
def Obligations.LineSampleTransitions : Prop :=
  ∀ (l : LineId) (v : Level) (s : State), s.inReset = false →
    let x := s.line l
    let active := v = x.activeLevel
    let y := { x with input := v, latest := active }
    let counted := { y with debounceTimer := x.debounceTimer + 1 }
    let held := { y with stuckTimer := some (x.stuckTimer.getD 0 + 1) }
    let short := x.debounceTimer + 1 < x.debounce
    let free := x.stuckTimer.getD 0 + 1 < 1000 * x.stuckTime
    let goesTo (z : Line) := exec (.lineSample l v) s = .next (drivePins (conclude (s.modLine l fun _ => z)))
    (x.state = .inert → goesTo y) ∧
    (x.state = .waitRelease ∨ x.state = .stuck → active → goesTo { y with debounceTimer := 0 }) ∧
    (x.state = .waitRelease ∨ x.state = .stuck → ¬ active → short → goesTo counted) ∧
    (x.state = .released → active → goesTo { y with state := .pressPending, debounceTimer := 1 }) ∧
    (x.state = .released → ¬ active → goesTo y) ∧
    (x.state = .pressPending → active → short → goesTo counted) ∧
    (x.state = .pressPending → ¬ active → goesTo { y with state := .released, debounceTimer := 0 }) ∧
    (x.state = .pressed → active → free → goesTo held) ∧
    (x.state = .pressed → ¬ active → free →
      goesTo { held with state := .releasePending, debounceTimer := 1 }) ∧
    (x.state = .releasePending → active → free →
      goesTo { held with state := .pressed, debounceTimer := 0 }) ∧
    (x.state = .releasePending → ¬ active → short → free →
      goesTo { held with debounceTimer := x.debounceTimer + 1 })

/-- Tier 2. A press is taken when the run of active samples reaches the debounce time: the line becomes
PRESSED with its stuck timer at 0; the press is accepted when no press was accepted less than the repeat
guard ago; an accepted HELP press triggers HELP_CALL, and an accepted ACTION press is placed by the first
case that matches: SERVICE, QUIET, a WAIT_PRESS step on the line, the busy policy, READY, HELD or FAULTED
(R30-R33, R35, R36). -/
def Obligations.PressIsTakenAndPlaced : Prop :=
  ∀ (l : LineId) (s : State), s.inReset = false → (s.line l).state = .pressPending →
    (s.line l).debounce ≤ (s.line l).debounceTimer + 1 →
    let x := s.line l
    let down := { x with
      input := x.activeLevel, latest := true, state := .pressed, debounceTimer := 0, stuckTimer := some 0 }
    let taken := { down with lastAccepted := some s.clock, accepted := true }
    let accepted := ∀ t, x.lastAccepted = some t → x.repeatGuard ≤ elapsed t s.clock
    let goesTo (t : State) := exec (.pressTaken l) s = .next (drivePins (conclude t)) ∧
      exec (.lineSample l x.activeLevel) s = .next (drivePins (conclude t))
    let swallowed := s.modLine l fun _ => taken
    let placed (d : PressDestination) := s.modLine l fun _ => { taken with destination := some d }
    let press (value : Option (BitVec 16)) (step : Option StepId) : Event :=
      { kind := .buttonPress, exhibit := x.exhibit, subject := some (BitVec.ofNat 8 l.val)
        value := value, step := step }
    (¬ accepted → goesTo (s.modLine l fun _ => down)) ∧
    (∀ e, accepted → x.exhibit = some e → x.role = some .help →
      goesTo (raiseAlert { kind := .helpCall, severity := .attention, exhibit := some e } swallowed)) ∧
    (∀ e, accepted → x.exhibit = some e → x.role = some .action →
      let z := s.exhibit e
      let step := z.active.bind fun f => (waitingStep (s.frame f) l).map fun i => (f, i)
      (z.state = .service → goesTo (emit [.serviceQ] (press none none) (placed .serviceQueue))) ∧
      (z.state ≠ .service → s.mode = .quiet → goesTo swallowed) ∧
      (∀ f i, z.state = .running → s.mode ≠ .quiet → step = some (f, i) →
        goesTo (afterDone e f (emit [.showQ] (press none (some (stepIndex i)))
          ((placed .showQueue).modFrame f fun y => y.modRun i fun _ => ⟨.done, none, .notRunning⟩)))) ∧
      (z.state = .running → s.mode ≠ .quiet → step = none → z.busyPolicy = .swallowWhileRunning →
        goesTo swallowed) ∧
      (z.state = .running → s.mode ≠ .quiet → step = none → z.busyPolicy = .deliver →
        goesTo (emit [.showQ] (press none none) (placed .showQueue))) ∧
      (z.state = .ready → s.mode ≠ .quiet →
        goesTo (emit [.showQ] (press none none) (placed .showQueue))) ∧
      (z.state = .held ∨ z.state = .faulted → s.mode ≠ .quiet →
        goesTo (emit [.showQ] (press (some (BitVec.ofNat 16 z.state.code)) none) (placed .showQueue))))

/-- Tier 2. A clean run of inactive samples of the debounce time takes a WAIT_RELEASE, RELEASE_PENDING or
STUCK line to RELEASED with its timers stopped; a press accepted and delivered gives one BUTTON_RELEASE
without a value to the queue that received it, and the flag and destination are cleared (R29, R34, R36,
R38). A line whose stuck timer reaches its stuck time at a sample that leaves it down becomes STUCK: the
timer stops, a run of inactive samples is kept from RELEASE_PENDING and starts at 0 from PRESSED, and
BUTTON_STUCK is triggered with its exhibit and its number; the accepted flag and destination are kept
(R37). From PRESSED the first inactive sample is the one sample that both begins a run and sticks. -/
def Obligations.LineIsReleasedOrBecomesStuck : Prop :=
  (∀ (l : LineId) (s : State), s.inReset = false →
     (s.line l).debounce ≤ (s.line l).debounceTimer + 1 →
     let x := s.line l
     let up := { x with
       input := Level.other x.activeLevel, latest := false, state := .released, debounceTimer := 0
       stuckTimer := none, accepted := false, destination := none }
     let release : Event :=
       { kind := .buttonRelease, exhibit := x.exhibit, subject := some (BitVec.ofNat 8 l.val) }
     let t := match x.accepted, x.destination with
       | true, some .showQueue => emit [.showQ] release (s.modLine l fun _ => up)
       | true, some .serviceQueue => emit [.serviceQ] release (s.modLine l fun _ => up)
       | _, _ => s.modLine l fun _ => up
     (x.state = .waitRelease → exec (.waitReleaseCleared l) s = .next (drivePins (conclude t))) ∧
     (x.state = .releasePending → exec (.releaseTaken l) s = .next (drivePins (conclude t))) ∧
     (x.state = .stuck → exec (.stuckRelease l) s = .next (drivePins (conclude t))) ∧
     (x.state = .waitRelease ∨ x.state = .releasePending ∨ x.state = .stuck →
       exec (.lineSample l (Level.other x.activeLevel)) s = .next (drivePins (conclude t)))) ∧
  (∀ (l : LineId) (v : Level) (s : State), s.inReset = false →
     1000 * (s.line l).stuckTime ≤ (s.line l).stuckTimer.getD 0 + 1 →
     let x := s.line l
     let active := v = x.activeLevel
     let down := { x with input := v, latest := active, state := .stuck, stuckTimer := none }
     let goesTo (z : Line) := exec (.lineStuck l v) s = .next (drivePins (conclude (raiseAlert
       { kind := .buttonStuck, severity := .attention, exhibit := x.exhibit, subject := some l.val }
       (s.modLine l fun _ => z))))
     (x.state = .pressed ∨ x.state = .releasePending → active → goesTo { down with debounceTimer := 0 }) ∧
     (x.state = .pressed → ¬ active → goesTo { down with debounceTimer := 1 }) ∧
     (x.state = .releasePending → ¬ active → x.debounceTimer + 1 < x.debounce →
       goesTo { down with debounceTimer := x.debounceTimer + 1 }))

/-- Tier 2. When a line is live, and what going live and ceasing to be live do to it: from its latest
sample to WAIT_RELEASE or RELEASED, and to INERT with the forced BUTTON_RELEASE of a delivered press; a
line that stays as it was keeps its record (R26, R27, R28). -/
def Obligations.LivenessOfALine : Prop :=
  ∀ (l : LineId) (s : State),
    let x := s.line l
    let live := x.enabled = true ∧ ∃ e, x.exhibit = some e ∧
      ((x.role = some .action ∧
        ((((s.exhibit e).state = .ready ∨ (s.exhibit e).state = .running ∨ (s.exhibit e).state = .held ∨
          (s.exhibit e).state = .faulted) ∧ (s.mode = .opened ∨ s.mode = .quiet)) ∨
         ((s.exhibit e).state = .service ∧ s.mode ≠ .setup))) ∨
       (x.role = some .help ∧ s.mode ≠ .setup))
    let inert := s.modLine l fun _ => { x with
      state := .inert, accepted := false, destination := none, debounceTimer := 0, stuckTimer := none }
    let forced : Event :=
      { kind := .buttonRelease, exhibit := x.exhibit, subject := some (BitVec.ofNat 8 l.val), value := some 1 }
    (live → x.state = .inert → evaluateLine l s = s.modLine l fun _ => { x with
      state := if x.latest then .waitRelease else .released
      accepted := false, destination := none, debounceTimer := 0, stuckTimer := none }) ∧
    (live → x.state ≠ .inert → evaluateLine l s = s) ∧
    (¬ live → x.state = .inert → evaluateLine l s = s) ∧
    (¬ live → x.state ≠ .inert → x.accepted = false ∨ x.destination = none → evaluateLine l s = inert) ∧
    (¬ live → x.state ≠ .inert → x.accepted = true → x.destination = some .showQueue →
      evaluateLine l s = emit [.showQ] forced inert) ∧
    (¬ live → x.state ≠ .inert → x.accepted = true → x.destination = some .serviceQueue →
      evaluateLine l s = emit [.serviceQ] forced inert)

/-- Tier 2. LINE-DISABLE and LINE-ENABLE: from the show port a line of an exhibit in SERVICE is refused
WRONG_STATE, from the service port a line that is of none is, and the desk may set any line; otherwise the
flag is cleared or set, the line's liveness follows, and the response carries its state after the command.
Nothing but that line and the queues changes (R39, R40). -/
def Obligations.LineEnableAndDisable : Prop :=
  ∀ (port : Port) (l : LineId) (s : State),
    let service := ∃ e, (s.line l).exhibit = some e ∧ (s.exhibit e).state = .service
    let refused := (port = .showPort ∧ service) ∨ (port = .servicePort ∧ ¬ service)
    let after (b : Bool) := evaluateLine l (s.modLine l fun x => { x with enabled := b })
    let frame (t : State) := (∀ k, k ≠ l → t.line k = s.line k) ∧
      t = { s with lines := t.lines, showQueue := t.showQueue, serviceQueue := t.serviceQueue }
    (Admitted .lineDisable port s →
      (refused → Answers .lineDisable port (num1 l.val) s .wrongState [] s) ∧
      (¬ refused → Answers .lineDisable port (num1 l.val) s .ok (num1 0) (after false) ∧
        ((after false).line l).state = .inert ∧ ((after false).line l).enabled = false ∧
        frame (after false))) ∧
    (Admitted .lineEnable port s →
      (refused → Answers .lineEnable port (num1 l.val) s .wrongState [] s) ∧
      (¬ refused → Answers .lineEnable port (num1 l.val) s .ok
          (num1 ((after true).line l).state.code) (after true) ∧
        ((after true).line l).enabled = true ∧ frame (after true)))

/-! ## Scanner -/

/-- Tier 2. The window filter: the zone of a result by the limits, a result equal to a limit being INSIDE;
the agreement count and candidate by the zone; and the window state changes only when the filter count of
consecutive results agree on a new zone (R59). -/
def Obligations.WindowFilter : Prop :=
  ∀ (x : Channel) (v : Nat),
    let z : Zone := if v < x.lower then .below else if x.upper < v then .above else .inside
    let same := (z = .below ∧ x.window = .below) ∨ (z = .inside ∧ x.window = .inside) ∨
      (z = .above ∧ x.window = .above)
    let n := if x.candidate = some z then x.agreement + 1 else 1
    let new : Window := match z with | .below => .below | .inside => .inside | .above => .above
    (same → x.filter v = { x with agreement := 0, candidate := none }) ∧
    (¬ same → x.filterCount ≤ n → x.filter v = { x with window := new, agreement := 0, candidate := none }) ∧
    (¬ same → n < x.filterCount → x.filter v = { x with candidate := some z, agreement := n })

/-- Tier 2. At the completion of a conversion the result becomes the channel's latest value at the clock's
time and goes through the filter; a changed window is handed on before the position sample; then the pass
advances (R58, R60, R62). Where it goes: a day pass to the next entry of the list, and at its end to entry
0 again in CONTINUOUS and to WAITING in PACED and SINGLE; a closed pass to the next entry with the
keep-when-closed flag, and without one to DOZING (R66-R69). What a window change does at its owner: at an axis,
BELOW or ABOVE of its position window faults OVERTRAVEL unless suppressed and INSIDE ends the suppression (R90),
ABOVE of its current window faults OVERCURRENT (R91); at an exhibit, INSIDE or UNKNOWN adds GUARD and starts the
guard-long timer unless CLOSED, or cancels the release timer, BELOW or ABOVE starts the release timer, which a
delay of 0 ends at once (R20-R22), and INSIDE triggers AFTER_HOURS in a CLOSED gallery outside SERVICE (R171); at
the supply, BELOW triggers SUPPLY_SAG and from NORMAL starts the sag hold timer, INSIDE or ABOVE ends the sag and
from SAG_HOLD removes SUPPLY, ascending (R111, R114); a GENERAL channel's goes to the show queue as SENSE_CHANGE.
What a fresh sample does at an axis: a driving axis that has reached its target settles (R85); a SETTLING axis
further than twice its tolerance starts a correction, and the fourth faults NO_SETTLE (R88). -/
def Obligations.ConversionCompletes : Prop :=
  (∀ (c : ChannelId) (s : State),
     let x := s.channel c
     let outside := x.window = .below ∨ x.window = .above
     (∀ a, x.role = .position → x.binding = some (.axis a) →
       (outside → (s.axis a).suppress = false → handWindow c s = faultAxis a .overtravel s) ∧
       (outside → (s.axis a).suppress = true → handWindow c s = s) ∧
       (x.window = .inside → handWindow c s = s.modAxis a fun y => { y with suppress := false }) ∧
       (x.window = .unknown → handWindow c s = s)) ∧
     (∀ a, x.role = .current → x.binding = some (.axis a) →
       (x.window = .above → handWindow c s = faultAxis a .overcurrent s) ∧
       (x.window ≠ .above → handWindow c s = s)) ∧
     (∀ e, x.role = .presence → x.binding = some (.exhibit e) →
       let y := s.exhibit e
       let timed := if y.state = .closed then s
         else s.modExhibit e fun z => { z with guardLong := some (1000 * s.timing.guardAlertTime) }
       let entered := if y.holds.guard = true then s.modExhibit e fun z => { z with guardRelease := none }
         else addHold .guard e timed
       let left := if y.holds.guard = true ∧ y.guardRelease = none then
           (if s.timing.guardReleaseDelay = 0 then
             removeHold .guard e (s.modExhibit e fun z => { z with guardRelease := none, guardLong := none })
           else s.modExhibit e fun z => { z with guardRelease := some s.timing.guardReleaseDelay })
         else s
       (x.window = .inside → s.mode = .closed → y.state ≠ .service → handWindow c s
         = raiseAlert { kind := .afterHours, severity := .attention, exhibit := some e } entered) ∧
       (x.window = .inside → s.mode ≠ .closed ∨ y.state = .service → handWindow c s = entered) ∧
       (x.window = .unknown → handWindow c s = entered) ∧ (outside → handWindow c s = left)) ∧
     (x.role = .supply →
       let sagging := raiseAlert { kind := .supplySag, severity := .attention } s
       let normal := s.modArbiter fun y => { y with sag := .normal, sagTimer := none }
       (x.window = .below → s.arbiter.sag = .normal → handWindow c s = sagging.modArbiter fun y =>
         { y with sag := .sagPending, sagTimer := some s.timing.sagHoldTime }) ∧
       (x.window = .below → s.arbiter.sag ≠ .normal → handWindow c s = sagging) ∧
       (x.window = .inside ∨ x.window = .above → s.arbiter.sag = .sagHold →
         handWindow c s = forEach (fun e u => removeHold .supply e u) normal) ∧
       (x.window = .inside ∨ x.window = .above → s.arbiter.sag ≠ .sagHold → handWindow c s = normal) ∧
       (x.window = .unknown → handWindow c s = s)) ∧
     (x.role = .general →
       let code : BitVec 16 := match x.window with | .unknown => 0 | .below => 1 | .inside => 2 | .above => 3
       handWindow c s = appendTo .showQ
         { kind := .senseChange, subject := some (BitVec.ofNat 8 c.val), value := some code } s) ∧
     (x.role = .none → handWindow c s = s)) ∧
  (∀ (a : AxisId) (v : Nat) (s : State),
     let x := s.axis a
     let settling (u : State) := u.modAxis a fun y => { y with
       state := .settling, drive := .off, travel := none, settle := some y.settleTime }
     let returned := s.modArbiter fun y => { y with
       unitsInUse := y.unitsInUse - x.startCost, accel := modTable y.accel a fun _ => none }
     (∀ d n m, x.state = .accelerating ∨ x.state = .moving → x.drive = .on d n → x.move = some m →
       let arrived := match d with
         | .forward => m.target ≤ v + x.tolerance
         | .reverse => v ≤ m.target + x.tolerance
       (¬ arrived → takeSample a v s = s) ∧
       (arrived → x.state = .moving → takeSample a v s = settling s) ∧
       (arrived → x.state = .accelerating → takeSample a v s = settling returned)) ∧
     (∀ m, x.state = .settling → x.move = some m →
       let near := v ≤ m.target + 2 * x.tolerance ∧ m.target ≤ v + 2 * x.tolerance
       (near → takeSample a v s = s) ∧
       (¬ near → x.corrections = 3 → takeSample a v s = faultAxis a .noSettle s) ∧
       (¬ near → x.corrections ≠ 3 → takeSample a v s = joinQueue a (s.modAxis a fun y => { y with
         state := .waitingStart, drive := .off, travel := none, settle := none
         corrections := y.corrections + 1 }))) ∧
     (x.state ∉ [.accelerating, .moving, .settling] → takeSample a v s = s)) ∧
  (∀ (r : BitVec 12) (i : Nat) (c : ChannelId) (s : State), s.inReset = false →
     s.scanner.state = .converting → s.scanner.passPosition = some i → s.scanner.inFlight = some c →
     let stored := s.modChannel c fun x =>
       { x.filter r.toNat with latest := some { value := r.toNat, time := s.clock } }
     let handed := if (stored.channel c).window = (s.channel c).window then stored else handWindow c stored
     let sampled := match (handed.channel c).role, (handed.channel c).binding with
       | .position, some (.axis a) => takeSample a r.toNat handed
       | _, _ => handed
     let t := conclude (sampled.modScanner fun x => x.advance i)
     exec (.conversionComplete r) s = .next (drivePins t) ∧ Undisturbed s t ∧
       (∀ d, d ≠ c → t.channel d = s.channel d) ∧ t.channel c = stored.channel c) ∧
  (∀ (x : Scanner) (i : Nat),
     let converting (j : Nat) (e : ScanEntry) :=
       { x with state := .converting, passPosition := some j, inFlight := some e.channel }
     let stopped (st : ScannerState) := { x with state := st, passPosition := none, inFlight := none }
     (∀ e, x.regime = .day → x.scanList[i + 1]? = some e → x.advance i = converting (i + 1) e) ∧
     (∀ e, x.regime = .day → x.scanList[i + 1]? = none → x.dayMode = .continuous →
       x.scanList[0]? = some e → x.advance i = converting 0 e) ∧
     (x.regime = .day → x.scanList[i + 1]? = none → x.dayMode ≠ .continuous → x.advance i = stopped .waiting) ∧
     (∀ j e, x.regime = .closedScan → i < j → x.scanList[j]? = some e → e.keepWhenClosed = true →
       (∀ k d, i < k → k < j → x.scanList[k]? = some d → d.keepWhenClosed = false) →
       x.advance i = converting j e) ∧
     (x.regime = .closedScan →
       (∀ k d, i < k → x.scanList[k]? = some d → d.keepWhenClosed = false) → x.advance i = stopped .dozing))

/-- Tier 2. The warm-up's end: a closed pass in CLOSED_SCAN; in DAY a day pass in CONTINUOUS, a day pass
and the pace timer in PACED, and in SINGLE a day pass when one was requested, else WAITING; over an empty
list a pass ends at its start (R62, R65). The two periodic timers restart at their expiry. The pace timer
starts a day pass from WAITING, and appends SCAN_OVERRUN to the show queue in CONVERTING; the closed pace
timer warms a DOZING scanner up when the list has a keep-when-closed entry, and is ignored otherwise (R67,
R69). A closed pass starts at the first keep-when-closed entry of the list, and without one the scanner is DOZING
(R62, R65). -/
def Obligations.ScannerTimersExpire : Prop :=
  (∀ s : State, s.inReset = false → s.scanner.state = .warming → s.scanner.warmUp = some 0 →
     let x := { s.scanner with warmUp := none }
     let goesTo (y : Scanner) := exec .warmUpExpiry s = .next (drivePins { s with scanner := y })
     let day (y : Scanner) : Scanner := match y.scanList with
       | [] => { y with state := .waiting, passPosition := none, inFlight := none }
       | e :: _ => { y with state := .converting, passPosition := some 0, inFlight := some e.channel }
     let closed (y : Scanner) : Scanner := match y.scanList.findIdx? fun e => e.keepWhenClosed with
       | none => { y with state := .dozing, passPosition := none, inFlight := none }
       | some i => { y with
           state := .converting, passPosition := some i, inFlight := y.scanList[i]?.map fun e => e.channel }
     (x.regime = .closedScan → goesTo (closed x)) ∧
     (x.regime = .day → x.dayMode = .continuous → goesTo (day x)) ∧
     (x.regime = .day → x.dayMode = .paced → goesTo (day { x with pace := some s.timing.paceInterval })) ∧
     (x.regime = .day → x.dayMode = .single → x.passRequested = true →
       goesTo (day { x with passRequested := false })) ∧
     (x.regime = .day → x.dayMode = .single → x.passRequested = false →
       goesTo { x with state := .waiting, passPosition := none, inFlight := none })) ∧
  (∀ s : State, s.inReset = false →
     let paced := { s.scanner with pace := some s.timing.paceInterval }
     let closed := { s.scanner with closedPaceTimer := some s.timing.closedPace }
     let hasEntry := ∃ e ∈ s.scanner.scanList, e.keepWhenClosed = true
     let paceGoes (t : State) := exec .paceTimerExpiry s = .next (drivePins t)
     let closedGoes (y : Scanner) := exec .closedPaceExpiry s = .next (drivePins { s with scanner := y })
     (∀ e rest, s.scanner.pace = some 0 → s.scanner.state = .waiting → s.scanner.scanList = e :: rest →
       paceGoes { s with scanner := { paced with
         state := .converting, passPosition := some 0, inFlight := some e.channel } }) ∧
     (s.scanner.pace = some 0 → s.scanner.state = .waiting → s.scanner.scanList = [] →
       paceGoes { s with scanner := { paced with passPosition := none, inFlight := none } }) ∧
     (s.scanner.pace = some 0 → s.scanner.state = .converting →
       paceGoes (emit [.showQ] { kind := .scanOverrun } { s with scanner := paced })) ∧
     (s.scanner.pace = some 0 → s.scanner.state ≠ .waiting → s.scanner.state ≠ .converting →
       paceGoes { s with scanner := paced }) ∧
     (s.scanner.closedPaceTimer = some 0 → s.scanner.state = .dozing → hasEntry →
       closedGoes { closed with
         state := .warming, warmUp := some 1, passPosition := none, inFlight := none }) ∧
     (s.scanner.closedPaceTimer = some 0 → s.scanner.state = .dozing → ¬ hasEntry → closedGoes closed) ∧
     (s.scanner.closedPaceTimer = some 0 → s.scanner.state ≠ .dozing → closedGoes closed))

/-- Tier 2. The scanner's regime is OFF in SETUP, DAY in OPEN and QUIET and in CLOSED while an exhibit is in
SERVICE, and CLOSED_SCAN otherwise; a re-evaluation that gives the same regime leaves the scanner; one that
gives another changes the regime, clears the request flag and stops or starts the timers of the regimes,
then acts by the scanner's state: from OFF or DOZING the converter powers up; a warm-up runs on; a change to DAY in
CONVERTING applies the day mode at once, and a change to CLOSED_SCAN in CONVERTING or WAITING starts a closed pass
at the first keep-when-closed entry or, without one, dozes; no other part of the state changes (R62, R65, R70,
R71). -/
def Obligations.RegimeFollowsTheGallery : Prop :=
  ∀ s : State,
    let t := reviewRegime s
    let serving := ∃ e, (s.exhibit e).state = .service
    let regime : Regime := regimeOf s
    (s.mode = .setup → regime = .off) ∧
    (s.mode = .opened ∨ s.mode = .quiet → regime = .day) ∧
    (s.mode = .closed → serving → regime = .day) ∧ (s.mode = .closed → ¬ serving → regime = .closedScan) ∧
    (s.scanner.regime = regime → t = s) ∧
    t = { s with scanner := t.scanner } ∧ t.scanner.regime = regime ∧
    (s.scanner.regime ≠ regime → t.scanner.passRequested = false) ∧
    (s.scanner.regime ≠ .off → regime = .off → t.scanner = { s.scanner with
      regime := .off, state := .off, passPosition := none, inFlight := none, passRequested := false
      warmUp := none, pace := none, closedPaceTimer := none }) ∧
    (s.scanner.regime ≠ regime → regime = .closedScan →
      t.scanner.pace = none ∧ t.scanner.closedPaceTimer = some s.timing.closedPace) ∧
    (s.scanner.regime ≠ regime → regime = .day → t.scanner.closedPaceTimer = none) ∧
    (s.scanner.regime ≠ regime → regime ≠ .off → s.scanner.state = .off →
      t.scanner.state = .warming ∧ t.scanner.warmUp = some 1) ∧
    (let x := s.scanner
     let warming (y : Scanner) : Scanner :=
       { y with state := .warming, passPosition := none, inFlight := none, warmUp := some 1 }
     let waiting (y : Scanner) : Scanner := { y with state := .waiting, passPosition := none, inFlight := none }
     let day (y : Scanner) : Scanner := match y.scanList with
       | [] => waiting y
       | e :: _ => { y with state := .converting, passPosition := some 0, inFlight := some e.channel }
     let closed (y : Scanner) : Scanner := match y.scanList.findIdx? fun e => e.keepWhenClosed with
       | none => { y with state := .dozing, passPosition := none, inFlight := none }
       | some i => { y with
           state := .converting, passPosition := some i, inFlight := y.scanList[i]?.map fun e => e.channel }
     (x.regime ≠ .day → regime = .day →
       let y := { x with regime := .day, passRequested := false, closedPaceTimer := none }
       (x.state = .off ∨ x.state = .dozing → t.scanner = warming y) ∧
       (x.state = .warming → t.scanner = y) ∧
       (x.state = .converting → x.dayMode = .continuous → t.scanner = day y) ∧
       (x.state = .converting → x.dayMode = .paced →
         t.scanner = day { y with pace := some s.timing.paceInterval }) ∧
       (x.state = .converting → x.dayMode = .single → t.scanner = waiting y)) ∧
     (x.regime ≠ .closedScan → regime = .closedScan →
       let y := { x with
         regime := .closedScan, passRequested := false, pace := none
         closedPaceTimer := some s.timing.closedPace }
       (x.state = .off → t.scanner = warming y) ∧ (x.state = .warming → t.scanner = y) ∧
       (x.state = .converting ∨ x.state = .waiting → t.scanner = closed y)))

/-- Tier 2. SCAN-LIST: a count of 0 or above 40 is refused BAD_VALUE; the first entry whose channel is above 31 or
whose flag is no flag is named, whatever follows it, and then the first whose channel has role NONE; otherwise the
list is replaced whole and the scanner acts by its state: a pass in progress restarts on the new list, a CONTINUOUS
scanner that waits starts one, and any other state is kept (R62, R72; the flag with its entry, log 13); a closed pass
restarts at the first keep-when-closed entry, or ends and the scanner dozes. SCAN-ONCE is refused WRONG_STATE outside
regime DAY with day mode SINGLE; in it, WAITING and CONVERTING start a day pass at entry 0 on the list, and WARMING
turns the pass-requested flag on (R73). -/
def Obligations.ScanListAndScanOnce : Prop :=
  (∀ (list : List ScanEntry) (s : State), Admitted .scanList .showPort s →
     let item (e : ScanEntry) : List Byte := [BitVec.ofNat 8 e.channel.val, if e.keepWhenClosed then 1 else 0]
     let payload : List Byte := BitVec.ofNat 8 list.length :: (list.map item).flatten
     let unused (e : ScanEntry) : Bool := (s.channel e.channel).role = .none
     let listed := { s.scanner with scanList := list }
     (list = [] → Answers .scanList .showPort payload s .badValue [] s) ∧
     (∀ i, list.length ≤ 40 → list.findIdx? unused = some i →
       Answers .scanList .showPort payload s .badValue (num1 i) s) ∧
     (1 ≤ list.length → list.length ≤ 40 → list.findIdx? unused = none →
       let goesTo (y : Scanner) := Answers .scanList .showPort payload s .ok [] { s with scanner := y }
       let day : Scanner := { listed with
         state := .converting, passPosition := some 0, inFlight := list.head?.map fun e => e.channel }
       let closed : Scanner := match list.findIdx? fun e => e.keepWhenClosed with
         | none => { listed with state := .dozing, passPosition := none, inFlight := none }
         | some i => { listed with
             state := .converting, passPosition := some i, inFlight := list[i]?.map fun e => e.channel }
       (s.scanner.state = .converting → s.scanner.regime = .day → goesTo day) ∧
       (s.scanner.state = .converting → s.scanner.regime = .closedScan → goesTo closed) ∧
       (s.scanner.state = .waiting → s.scanner.regime = .day → s.scanner.dayMode = .continuous →
         goesTo day) ∧
       (s.scanner.state = .waiting → s.scanner.dayMode ≠ .continuous → goesTo listed) ∧
       (s.scanner.state = .warming ∨ s.scanner.state = .dozing → goesTo listed)) ∧
     (∀ (before : List ScanEntry) (count b flag : Byte) (after : List Byte),
       31 < b.toNat ∨ 1 < flag.toNat → count.toNat ≤ 40 → before.length < count.toNat →
       after.length = 2 * (count.toNat - before.length - 1) →
       Answers .scanList .showPort (count :: ((before.map item).flatten ++ [b, flag] ++ after)) s .badValue
         (num1 before.length) s) ∧
     (∀ (count : Byte) (rest : List Byte), 40 < count.toNat → rest.length = 2 * count.toNat →
       rest.length ≤ 199 → Answers .scanList .showPort (count :: rest) s .badValue [] s)) ∧
  (∀ s : State, Admitted .scanOnce .showPort s →
     let single := s.scanner.regime = .day ∧ s.scanner.dayMode = .single
     (¬ single → Answers .scanOnce .showPort [] s .wrongState [] s) ∧
     (∀ e rest, single → s.scanner.state = .waiting ∨ s.scanner.state = .converting →
       s.scanner.scanList = e :: rest →
       Answers .scanOnce .showPort [] s .ok [] { s with scanner := { s.scanner with
         state := .converting, passPosition := some 0, inFlight := some e.channel } }) ∧
     (single → s.scanner.state = .waiting ∨ s.scanner.state = .converting → s.scanner.scanList = [] →
       Answers .scanOnce .showPort [] s .ok [] { s with scanner := { s.scanner with
         state := .waiting, passPosition := none, inFlight := none } }) ∧
     (single → s.scanner.state = .warming →
       Answers .scanOnce .showPort [] s .ok [] { s with scanner := { s.scanner with passRequested := true } }))

/-- Tier 2. SCAN-LIMITS: a channel that belongs to an exhibit in SERVICE is refused WRONG_STATE; limits out
of range or out of order, and limits of a POSITION channel that do not enclose its axis's targets, are
refused BAD_VALUE; otherwise the limits are replaced and the window becomes UNKNOWN with its filter
restarted, its latest value kept, and a window that was decided is handed on (R74). -/
def Obligations.ScanLimitsResetTheWindow : Prop :=
  ∀ (c : ChannelId) (lower upper : BitVec 16) (s : State), Admitted .scanLimits .showPort s →
    let payload := num1 c.val ++ num2 lower.toNat ++ num2 upper.toNat
    let inOrder := lower.toNat ≤ 4095 ∧ upper.toNat ≤ 4095 ∧ lower.toNat ≤ upper.toNat
    let encloses := ∀ a, (s.channel c).role = .position → (s.channel c).binding = some (.axis a) →
      lower.toNat ≤ (s.axis a).targetMin ∧ (s.axis a).targetMax ≤ upper.toNat
    let serving := ((s.channel c).role = .presence ∧ ∃ e, (s.channel c).binding = some (.exhibit e) ∧
        (s.exhibit e).state = .service) ∨
      (((s.channel c).role = .position ∨ (s.channel c).role = .current) ∧
        ∃ a e, (s.channel c).binding = some (.axis a) ∧ (s.axis a).exhibit = some e ∧
          (s.exhibit e).state = .service)
    let set := s.modChannel c fun x => { x with
      window := .unknown, agreement := 0, candidate := none, lower := lower.toNat, upper := upper.toNat }
    (serving → Answers .scanLimits .showPort payload s .wrongState [] s) ∧
    (¬ serving → ¬ (inOrder ∧ encloses) →
      Answers .scanLimits .showPort payload s .badValue [] s) ∧
    (¬ serving → inOrder → encloses → (s.channel c).window = .unknown →
      Answers .scanLimits .showPort payload s .ok (num1 0) (conclude set)) ∧
    (¬ serving → inOrder → encloses → (s.channel c).window ≠ .unknown →
      Answers .scanLimits .showPort payload s .ok (num1 0) (conclude (handWindow c set)))

/-- Tier 2. SENSE-READ: a first channel above 31 is refused NO_SUCH; a count of 0, above 8, or past channel
31 BAD_VALUE; otherwise, from every port in every mode, it carries the scanner and the channels read,
ascending, each with its number, role, binding, limits, filter count, latest value and sample time, window, candidate
zone and agreement count, and changes nothing but the response (R55, R75, R200). The latest value and the sample
time as two optional fields are log 10; the binding as a bare number, log 22. -/
def Obligations.SenseReadReadsChannels : Prop :=
  ∀ (port : Port) (first count : Byte) (s : State), Ready port s →
    let bad := count = 0 ∨ 8 < count.toNat ∨ 32 < first.toNat + count.toNat
    let low (n : Nat) : Byte := BitVec.ofNat 8 n
    let two (n : Nat) : List Byte := [low n, low (n / 256)]
    let record (c : ChannelId) : List Byte :=
      let x := s.channel c
      let role : Byte := match x.role with
        | .none => 0 | .position => 1 | .current => 2 | .presence => 3 | .supply => 4 | .general => 5
      let binding : List Byte := match x.binding with
        | none => [0, 0]
        | some (.axis a) => [1, low a.val]
        | some (.exhibit e) => [1, low e.val]
      let value : List Byte := match x.latest with
        | none => [0, 0, 0]
        | some y => 1 :: two y.value
      let time : List Byte := match x.latest with
        | none => [0, 0, 0, 0, 0]
        | some y => 1 :: (two y.time.toNat ++ two (y.time.toNat / 65536))
      let window : Byte := match x.window with | .unknown => 0 | .below => 1 | .inside => 2 | .above => 3
      let candidate : List Byte := match x.candidate with
        | none => [0, 0] | some .below => [1, 0] | some .inside => [1, 1] | some .above => [1, 2]
      [low c.val, role] ++ binding ++ two x.lower ++ two x.upper ++ [low x.filterCount] ++ value ++ time
        ++ [window] ++ candidate ++ [low x.agreement]
    (31 < first.toNat → Answers .senseRead port [first, count] s .noSuch [] s) ∧
    (first.toNat ≤ 31 → bad → Answers .senseRead port [first, count] s .badValue [] s) ∧
    (first.toNat ≤ 31 → ¬ bad → ∃ channels : List ChannelId,
      channels.length = count.toNat ∧
      (∀ k, k < count.toNat → (channels[k]?).map Fin.val = some (first.toNat + k)) ∧
      Answers .senseRead port [first, count] s .ok
        (num1 s.scanner.regime.code ++ num1 s.scanner.state.code ++ num1 s.scanner.dayMode.code
          ++ (match s.scanner.passPosition with | none => [0, 0] | some i => [1, BitVec.ofNat 8 i])
          ++ num1 s.scanner.scanList.length ++ clockBytes s.clock
          ++ count :: (channels.map record).flatten)
        s)

/-! ## Axes and the start arbiter -/

/-- Tier 2. JOG: an axis of no exhibit in SERVICE is refused WRONG_STATE; a target or a speed outside its
range, or a presence byte that is no flag, BAD_VALUE; a nonempty hold-reason set, a HELD axis and an axis
FAULTED by another cause than OVERTRAVEL, WRONG_STATE. Otherwise the response carries the axis's state
after the command, and by its state before: an IDLE axis, and one faulted OVERTRAVEL with its cause
cleared and detection suppressed while its window is not INSIDE, joins the start queue; a WAITING_START
axis has its move replaced; a driving axis drives on at the new speed with its travel timer restarted when
the target lies in its direction, and otherwise, like a SETTLING axis, returns to the start queue (R100,
R101). That any speed byte is accepted where the speed is absent is the model's choice (log 13). -/
def Obligations.JogMovesAnAxisInService : Prop :=
  ∀ (a : AxisId) (target : BitVec 16) (flag speed : Byte) (s : State), Admitted .jog .servicePort s →
    let x := s.axis a
    let payload := num1 a.val ++ num2 target.toNat ++ [flag, speed]
    let serving (e : ExhibitId) := x.configured = true ∧ x.exhibit = some e ∧ (s.exhibit e).state = .service
    let inRange := x.targetMin ≤ target.toNat ∧ target.toNat ≤ x.targetMax ∧
      (flag = 0 ∨ (flag = 1 ∧ 1 ≤ speed.toNat ∧ speed.toNat ≤ 8))
    let level := if flag = 0 then x.defaultSpeed else speed.toNat
    let m : Move := ⟨target.toNat, level, .jog⟩
    let answers (st : Status) := Answers .jog .servicePort payload s st [] s
    let goesTo (t : State) :=
      Answers .jog .servicePort payload s .ok (num1 ((conclude t).axis a).state.code) (conclude t) ∧
        Undisturbed s (conclude t)
    let set (y : Axis) := s.modAxis a fun _ => { y with move := some m, corrections := 0 }
    let requeued := joinQueue a <| (releaseAxis a s).modAxis a fun y => { y with
      state := .waitingStart, drive := .off, travel := none, settle := none, move := some m, corrections := 0 }
    let outside := windowOf s x.positionChannel ≠ some .inside
    ((∀ e, ¬ serving e) → answers .wrongState) ∧
    (∀ e, serving e → ¬ inRange → answers .badValue) ∧
    (∀ e, serving e → inRange →
      (s.exhibit e).holds ≠ {} ∨ x.state = .held ∨ (x.state = .faulted ∧ x.fault ≠ some .overtravel) →
      answers .wrongState) ∧
    (∀ e, serving e → inRange → (s.exhibit e).holds = {} →
      (x.state = .idle → goesTo (joinQueue a (set { x with state := .waitingStart }))) ∧
      (x.state = .faulted → x.fault = some .overtravel → goesTo (joinQueue a
        (set { x with state := .waitingStart, fault := none, suppress := x.suppress || outside }))) ∧
      (x.state = .waitingStart → goesTo (set x)) ∧
      (∀ d n p, x.state = .accelerating ∨ x.state = .moving → x.drive = .on d n →
        positionSampleOf s a = some p →
        let ahead : Direction := if p.value < target.toNat then .forward else .reverse
        (ahead = d → goesTo (set { x.driveOn d level with travel := some x.travelLimit })) ∧
        (ahead ≠ d → goesTo requeued)) ∧
      (x.state = .settling → goesTo requeued))

/-- Tier 2. The end of the acceleration period makes an ACCELERATING axis MOVING and returns its units; a
driving axis whose latest sample is older than its feedback timeout faults NO_FEEDBACK, and one whose
travel timer runs out faults MOVE_TIMEOUT; an event that cannot occur changes nothing (R84, R86, R87,
R108; log 3). -/
def Obligations.AxisTimersExpire : Prop :=
  ∀ (a : AxisId) (s : State), s.inReset = false →
    let x := s.axis a
    let driving := x.state = .accelerating ∨ x.state = .moving
    let stale := ∀ p, positionSampleOf s a = some p → x.feedbackTimeout < elapsed p.time s.clock
    let ended := x.state = .accelerating ∧ s.arbiter.accel.get a = some 0
    let moving := conclude <| (s.modArbiter fun y => { y with
      unitsInUse := y.unitsInUse - x.startCost, accel := modTable y.accel a fun _ => none }).modAxis a
        fun y => { y with state := .moving }
    let faulted (cause : FaultCause) := conclude (faultAxis a cause s)
    let goesTo (c : Instr) (t : State) := exec c s = .next (drivePins t) ∧ Undisturbed s t
    (ended → goesTo (.accelerationTimerExpiry a) moving) ∧
    (¬ ended → goesTo (.accelerationTimerExpiry a) s) ∧
    (driving → stale → goesTo (.feedbackTimeout a) (faulted .noFeedback)) ∧
    (¬ (driving ∧ stale) → goesTo (.feedbackTimeout a) s) ∧
    (driving → x.travel = some 0 → goesTo (.travelTimerExpiry a) (faulted .moveTimeout)) ∧
    (¬ (driving ∧ x.travel = some 0) → goesTo (.travelTimerExpiry a) s)

/-- Tier 2. At the expiry of its settle timer a SETTLING axis is judged by its latest sample: within the
tolerance it becomes IDLE with AXIS_ARRIVED, carrying the sample and the step of a cue's move, and the
runner is told of a cue's move; outside it a correction rejoins the start queue with the correction count
raised, and the fourth faults NO_SETTLE (R88, R89). That an expiry on an axis that is not SETTLING, or whose
settle timer still runs, leaves the state is the model's choice (log 3). -/
def Obligations.SettledAxisIsJudged : Prop :=
  ∀ (a : AxisId) (s : State), s.inReset = false →
    let x := s.axis a
    let goesTo (t : State) := exec (.settleTimerExpiry a) s = .next (drivePins t) ∧ Undisturbed s t
    (¬ (x.state = .settling ∧ x.settle = some 0) → goesTo s) ∧
    (∀ m p, x.state = .settling → x.settle = some 0 → x.move = some m → positionSampleOf s a = some p →
      let near := p.value ≤ m.target + x.tolerance ∧ m.target ≤ p.value + x.tolerance
      let arrived (step : Option StepId) := emit [floorQueue s x.exhibit]
        { kind := .axisArrived, exhibit := x.exhibit, subject := some (BitVec.ofNat 8 a.val)
          value := some (BitVec.ofNat 16 p.value), step := step }
        (s.modAxis a fun y => { y with
          state := .idle, drive := .off, travel := none, settle := none, corrections := 0, move := none })
      (near → m.source = .jog → goesTo (conclude (arrived none))) ∧
      (∀ f i, near → m.source = .cueStep f i → goesTo (conclude (moveArrived f i.val (arrived (some i))))) ∧
      (¬ near → x.corrections = 3 → goesTo (conclude (faultAxis a .noSettle s))) ∧
      (¬ near → x.corrections ≠ 3 → goesTo (conclude (joinQueue a (s.modAxis a fun y => { y with
        state := .waitingStart, drive := .off, travel := none, settle := none
        corrections := y.corrections + 1 })))))

/-- Tier 2. A fault of an axis that is neither DISABLED nor FAULTED, in this order: the axis leaves the start queue
or returns its units and is FAULTED with its cause, the drive OFF, no move, no timer and no correction; AXIS_FAULT is
appended with the axis's exhibit and number, the cause as value and the cue step of its move, to the show queue, or
for an exhibit in SERVICE to the service queue, and to the desk queue; the URGENT alert AXIS_FAULT of the exhibit and
the axis is triggered; and the exhibit reacts. One in use becomes FAULTED with its EXHIBIT_STATE, its active frame is
retired FAULTED with the axis recorded and then its queued frames CANCELLED, oldest first, and its other busy axes
are stopped; one CLOSED, FAULTED or in SERVICE keeps its record; no other exhibit changes. A stop takes a busy axis
to IDLE without a move, its units returned and its place in the start queue given up (R14, R47, R48, R92, R93, R94,
R103, R135, R164). -/
def Obligations.AxisFaultStopsItsExhibit : Prop :=
  (∀ (a : AxisId) (s : State),
    let x := s.axis a
    let left := match x.state with
      | .waitingStart => s.modArbiter fun y => { y with startQueue := y.startQueue.filter (· ≠ a) }
      | .accelerating => s.modArbiter fun y => { y with
          unitsInUse := y.unitsInUse - x.startCost, accel := modTable y.accel a fun _ => none }
      | _ => s
    let busy := x.state = .waitingStart ∨ x.state = .accelerating ∨ x.state = .moving ∨ x.state = .settling ∨
      x.state = .held
    (¬ busy → stopAxis a s = s) ∧
    (busy → stopAxis a s = left.modAxis a fun y => { y with
      state := .idle, drive := .off, travel := none, settle := none, move := none, corrections := 0 })) ∧
  (∀ (a : AxisId) (cause : FaultCause) (s : State),
    let x := s.axis a
    let t := faultAxis a cause s
    let left := match x.state with
      | .waitingStart => s.modArbiter fun y => { y with startQueue := y.startQueue.filter (· ≠ a) }
      | .accelerating => s.modArbiter fun y => { y with
          unitsInUse := y.unitsInUse - x.startCost, accel := modTable y.accel a fun _ => none }
      | _ => s
    let marked := left.modAxis a fun y => { y with
      state := .faulted, fault := some cause, drive := .off, travel := none, settle := none, move := none
      corrections := 0, suppress := false }
    let code : BitVec 16 := match cause with
      | .overcurrent => 1 | .overtravel => 2 | .moveTimeout => 3 | .noFeedback => 4 | .noSettle => 5
    let step : Option StepId := match x.move with
      | some ⟨_, _, .cueStep _ i⟩ => some i
      | _ => none
    let event : Event := {
      kind := .axisFault, exhibit := x.exhibit, subject := some (BitVec.ofNat 8 a.val), value := some code
      step := step }
    let alerted (q : QueueName) := raiseAlert {
      kind := .axisFault, severity := .urgent, exhibit := x.exhibit, subject := some a.val }
      (appendTo .deskQ event (appendTo q event marked))
    x.state ≠ .disabled → x.state ≠ .faulted →
      (x.exhibit = none → t = alerted .showQ) ∧
      (∀ e, x.exhibit = some e →
        let y := s.exhibit e
        let record (o : CueOutcome) (fault : Option AxisId) (f : FrameId) : RetiredRecord :=
          ⟨f, e, o, ((s.frame f).run.filter fun r => r.status = .done).length, s.clock, fault⟩
        (y.state = .service → t = alerted .serviceQ) ∧
        (y.state = .closed ∨ y.state = .faulted → t = alerted .showQ) ∧
        (y.state = .ready ∨ y.state = .running ∨ y.state = .held →
          t = y.axes.foldl (fun u b => stopAxis b u)
            (retireQueue e (retireActive e .faulted (some a) (changeState e .faulted (alerted .showQ)))) ∧
          t.retiredList = s.retiredList ++ y.active.toList.map (record .faulted (some a))
            ++ (y.queue.filter fun f => y.active ≠ some f).map (record .cancelled none)))) ∧
  ∀ (a : AxisId) (cause : FaultCause) (s : State),
    let x := s.axis a
    let t := faultAxis a cause s
    (x.state = .disabled ∨ x.state = .faulted → t = s) ∧
    (x.state ≠ .disabled → x.state ≠ .faulted →
      t.axis a = { x with
        state := .faulted, fault := some cause, drive := .off, travel := none, settle := none, move := none
        corrections := 0, suppress := false } ∧
      (x.state = .waitingStart → a ∉ t.arbiter.startQueue) ∧
      (∀ e, x.exhibit = some e →
        let used := (s.exhibit e).state = .ready ∨ (s.exhibit e).state = .running ∨ (s.exhibit e).state = .held
        (used → t.exhibit e = { s.exhibit e with
          state := .faulted, active := none, queue := [], lastChange := s.clock }) ∧
        (used → ∀ b ∈ (s.exhibit e).axes, b ≠ a → (s.axis b).state.busy = true →
          t.axis b = { s.axis b with
            state := .idle, move := none, drive := .off, corrections := 0, travel := none, settle := none }) ∧
        (¬ used → t.exhibit e = s.exhibit e ∧ ∀ b, b ≠ a → t.axis b = s.axis b)) ∧
      (∀ d, x.exhibit ≠ some d → t.exhibit d = s.exhibit d) ∧ Undisturbed s t)

/-- Tier 2. The start arbiter: the head of the start queue is granted while the supply is not frozen and the free
units cover its cost, strictly first in, first out; a grant charges the cost, starts the acceleration timer, and with
fresh feedback sets the drive toward the target and starts the travel timer; without it the units return at once and
the axis faults NO_FEEDBACK, with its whole consequence before the next head is tested. The freeze is in force
exactly while the SUPPLY channel's window is BELOW or UNKNOWN (R83, R104, R106, R107, R110). -/
def Obligations.ArbiterGrantsTheHead : Prop :=
  ∀ (s : State),
    (s.arbiter.startQueue = [] → evaluate s = s) ∧
    ((∀ c, (s.channel c).role ≠ .supply) → frozen s = false) ∧
    (∀ c, (∀ d, (s.channel d).role = .supply ↔ d = c) →
      (frozen s = true ↔ (s.channel c).window = .below ∨ (s.channel c).window = .unknown)) ∧
    (∀ a rest, s.arbiter.startQueue = a :: rest →
      let x := s.axis a
      let free := s.timing.startBudget - s.arbiter.unitsInUse
      let granted := (s.modArbiter fun y => { y with
        startQueue := rest, unitsInUse := y.unitsInUse + x.startCost
        accel := modTable y.accel a fun _ => some x.accelTime })
      (frozen s = true ∨ free < x.startCost → evaluate s = s) ∧
      (∀ m p, frozen s = false → x.startCost ≤ free → x.move = some m → positionSampleOf s a = some p →
        elapsed p.time s.clock ≤ x.feedbackTimeout →
        let d : Direction := if p.value < m.target then .forward else .reverse
        evaluate s = evaluate (granted.modAxis a fun y => { y.driveOn d m.speed with
          state := .accelerating, travel := some y.travelLimit })) ∧
      ((∀ p, positionSampleOf s a = some p → x.feedbackTimeout < elapsed p.time s.clock) →
        let faulted := faultAxis a .noFeedback (s.modArbiter fun y => { y with
          startQueue := rest, accel := modTable y.accel a fun _ => none })
        grant a s = faulted ∧ (frozen s = false → x.startCost ≤ free → evaluate s = evaluate faulted)))

/-- Tier 2. AXIS-STATUS, BUDGET-STATUS, CUE-STATUS and LINK-STATUS are accepted from every port in every gallery mode
and change nothing but the response; ALERT-LIST is accepted from the desk and service ports, and a position above 23
is refused BAD_VALUE. The responses carry what the rules list, in their order (R102, R116, R141, R158, R178), with
the alert record of R213, 19 bytes, in each entry of ALERT-LIST, its condition mark (R165, spelled in
AlertsAreAckedClearedAndRaised) and the time to its next level: 0 on an ACKED record, at level 3 or of severity
NOTICE, else what is left of the next level's time since the raised time (R172, R178). The window byte of an axis
without a channel is left open (log 9); the SUPPLY channel and its window as one optional field in BUDGET-STATUS
(log 28), the value and time of a sample as two optional fields (log 10), the bytes of
a drive (log 11) and the step kinds counted from 0 (log 12) are the model's readings. -/
def Obligations.StatusCommandsReadRecords : Prop :=
  (∀ r : AlertRecord,
    let low (n : Nat) : Byte := BitVec.ofNat 8 n
    let four (n : Nat) : List Byte := [low n, low (n / 256), low (n / 65536), low (n / 16777216)]
    let kinds : List AlertKind := [.helpCall, .buttonStuck, .axisFault, .guardLong, .afterHours, .supplySag,
      .showLinkLost, .deskLinkLost, .showReported, .restarted, .listFull]
    let bit (b : Bool) (n : Nat) : Nat := if b then n else 0
    r.bytes = [low r.number.toNat, low (r.number.toNat / 256), low (kinds.idxOf r.kind + 1),
      match r.severity with | .notice => 0 | .attention => 1 | .urgent => 2,
      match r.exhibit with | none => 0 | some e => low e.val, low (r.subject.getD 0),
      match r.state with | .opened => 0 | .acked => 1, low r.level, low r.repeatCount, r.showCode.getD 0,
      low (bit r.exhibit.isSome 1 + bit r.subject.isSome 2 + bit r.showCode.isSome 4 + bit r.acked.isSome 8)]
      ++ four r.raised.toNat ++ four (r.acked.getD 0).toNat) ∧
  (∀ (port : Port) (a : AxisId) (s : State), Ready port s →
    let x := s.axis a
    let sample := positionSampleOf s a
    let reads (window : Byte) := Answers .axisStatus port (num1 a.val) s .ok
      (num1 a.val ++ flagByte x.configured ++ optIndex x.exhibit ++ optIndex x.positionChannel
      ++ optIndex x.currentChannel ++ num2 x.targetMin ++ num2 x.targetMax ++ num1 x.tolerance
      ++ num1 x.defaultSpeed ++ num1 x.startCost ++ num2 x.accelTime ++ num2 x.travelLimit
      ++ num2 x.settleTime ++ num2 x.feedbackTimeout ++ num1 x.state.code ++ x.drive.bytes
      ++ optBytes 6 Move.bytes x.move ++ num1 x.corrections ++ optBytes 1 (fun y => num1 y.code) x.fault
      ++ flagByte x.suppress ++ timerBytes x.travel ++ timerBytes x.settle
      ++ optBytes 1 num1 (s.arbiter.startQueue.findIdx? (· = a))
      ++ optBytes 2 (fun y => num2 y.value) sample ++ optBytes 4 (fun y => clockBytes y.time) sample
      ++ [window] ++ clockBytes s.clock) s
    (∀ c, x.positionChannel = some c → reads (BitVec.ofNat 8 (s.channel c).window.code)) ∧
    (x.positionChannel = none → ∃ window, reads window)) ∧
  (∀ (port : Port) (s : State), Ready port s →
    let waiting (a : AxisId) :=
      num1 a.val ++ num1 (((s.axis a).exhibit.map Fin.val).getD 0) ++ num1 (s.axis a).startCost
    let driven (a : AxisId) := num1 a.val ++ num1 (s.axis a).startCost ++ timerBytes (s.arbiter.accel.get a)
    let accelerating := (List.finRange 12).filter fun a => (s.axis a).state = .accelerating
    Answers .budgetStatus port [] s .ok
      (num1 s.timing.startBudget ++ num1 s.arbiter.unitsInUse
        ++ num1 (s.timing.startBudget - s.arbiter.unitsInUse) ++ listBytes (s.arbiter.startQueue.map waiting)
        ++ listBytes (accelerating.map driven)
        ++ optBytes 2 (fun c => num1 c.val ++ num1 (s.channel c).window.code) (supplyChannel s)
        ++ flagByte (frozen s) ++ num1 s.arbiter.sag.code ++ timerBytes s.arbiter.sagTimer
        ++ num2 s.timing.sagHoldTime ++ clockBytes s.clock) s) ∧
  (∀ (port : Port) (e : ExhibitId) (s : State), Ready port s →
    let x := s.exhibit e
    let reads (active : List Byte) := Answers .cueStatus port (num1 e.val) s .ok
      (num1 e.val ++ num1 x.state.code ++ num1 s.mode.code ++ active ++ indexList x.queue
        ++ num1 s.freeList.length ++ num1 s.takenSet.length ++ num1 s.retiredList.length
        ++ clockBytes s.clock) s
    let step (y : CueStep) (r : StepRun) :=
      num1 y.body.kindCode ++ num1 r.status.code ++ optBytes 1 (fun ph => num1 ph.code) r.phase
        ++ num4 (match r.timer with | .running n => n | _ => 0) ++ flagByte (r.timer = .suspended)
    (x.active = none → reads [0, 0, 0, 0]) ∧
    (∀ f, x.active = some f → reads (1 :: (num1 f.val ++ num1 ((s.frame f).currentGroup.getD 0)
      ++ listBytes ((s.frame f).steps.zipWith step (s.frame f).run))))) ∧
  (∀ (port : Port) (s : State), Ready port s →
    let link (m : Master) (period : Nat) := num1 (s.link m).state.code ++ num2 period
      ++ timerBytes (s.link m).timer ++ optBytes 4 clockBytes (s.link m).lastHeartbeat
      ++ optBytes 4 clockBytes (s.link m).lastChange
    let held := ∃ e, (s.tenure e).isSome
    let reads (idle : List Byte) := Answers .linkStatus port [] s .ok
      (link .showMaster s.timing.showHeartbeat ++ link .deskMaster s.timing.deskHeartbeat
        ++ num2 s.timing.serviceIdleTime ++ idle
        ++ ((List.finRange 16).map fun e =>
          flagByte (s.exhibit e).permit ++ optBytes 4 clockBytes (s.tenure e)).flatten
        ++ clockBytes s.clock) s
    (port ≠ .servicePort → reads (timerBytes s.serviceIdle)) ∧
    (port = .servicePort → held → reads (num4 (1000 * s.timing.serviceIdleTime))) ∧
    (port = .servicePort → ¬ held → reads (num4 0))) ∧
  (∀ (r : AlertRecord) (s : State),
    let wait := timeToNext s r
    (r.state = .acked ∨ r.severity = .notice ∨ 3 ≤ r.level → wait = 0) ∧
    (∀ times, (r.severity = .urgent ∧ times = s.timing.urgentTimes) ∨
        (r.severity = .attention ∧ times = s.timing.attentionTimes) → r.state = .opened →
      (r.level = 0 → wait = 1000 * times.level1 - elapsed r.raised s.clock) ∧
      (r.level = 1 → wait = 1000 * times.level2 - elapsed r.raised s.clock) ∧
      (r.level = 2 → wait = 1000 * times.level3 - elapsed r.raised s.clock))) ∧
  (∀ (port : Port) (b : Byte) (s : State), Admitted .alertList port s →
    let l := s.alerts
    let order := (l.records.filter fun r => r.severity = .urgent)
      ++ (l.records.filter fun r => r.severity = .attention) ++ l.records.filter fun r => r.severity = .notice
    let entry (r : AlertRecord) := r.bytes ++ flagByte (conditionPresent s r) ++ num4 (timeToNext s r)
    (23 < b.toNat → Answers .alertList port [b] s .badValue [] s) ∧
    (b.toNat ≤ 23 → Answers .alertList port [b] s .ok
      (num1 l.records.length ++ num1 (l.records.filter fun r => r.state = .opened).length ++ [b]
        ++ listBytes (((order.drop b.toNat).take 8).map entry) ++ clockBytes s.clock) s))

/-! ## Cues -/

/-- Tier 2. FRAME-TAKE moves the head of the free list into the taken set and answers its number, and is
refused EMPTY with none free. FRAME-WRITE of a frame not taken is refused NOT_TAKEN; a step count of 0 or
above 6 BAD_VALUE, and a step record of no kind, with a flag above bit 2, or with a field of its kind outside its
range BAD_VALUE with its index: an axis above 11, a target above 4095, a speed outside 1 to 8, a dwell above 60000,
a PAUSE without a duration, a line above 63, a duration or a timeout outside 1 to 60000. Otherwise the steps are
written whole. FRAME-DROP of a frame not taken is refused NOT_TAKEN; otherwise the
frame goes to the tail of the free list without its contents (R120, R122, R123, R124, R214). -/
def Obligations.FramesAreTakenWrittenAndDropped : Prop :=
  (∀ s : State, Admitted .frameTake .showPort s →
    (s.freeList = [] → Answers .frameTake .showPort [] s .empty [] s) ∧
    (∀ f rest, s.freeList = f :: rest →
      Answers .frameTake .showPort [] s .ok (num1 f.val)
        { s with freeList := rest, takenSet := insertTaken f s.takenSet } ∧
      ∀ g, g ∈ insertTaken f s.takenSet ↔ g = f ∨ g ∈ s.takenSet)) ∧
  (∀ (f : FrameId) (s : State), Admitted .frameWrite .showPort s →
    let bit (b : Bool) (n : Nat) : Nat := if b then n else 0
    let flags (x : CueStep) (speed time : Bool) := num1 (bit x.withPrevious 1 + bit speed 2 + bit time 4)
    let record (x : CueStep) : List Byte := match x.body with
      | .move a target speed dwell => num1 1 ++ flags x speed.isSome dwell.isSome ++ num1 a.val
          ++ num1 (speed.getD 0) ++ num2 target ++ num2 (dwell.getD 0)
      | .pause d => num1 2 ++ flags x false true ++ [0, 0, 0, 0] ++ num2 d
      | .waitPress l timeout => num1 3 ++ flags x false timeout.isSome ++ num1 l.val ++ [0, 0, 0]
          ++ num2 (timeout.getD 0)
    let fits (x : CueStep) := match x.body with
      | .move _ target speed dwell =>
        target ≤ 4095 ∧ (∀ n, speed = some n → 1 ≤ n ∧ n ≤ 8) ∧ ∀ n, dwell = some n → n ≤ 60000
      | .pause d => 1 ≤ d ∧ d ≤ 60000
      | .waitPress _ timeout => ∀ n, timeout = some n → 1 ≤ n ∧ n ≤ 60000
    let refused (st : Status) (p reply : List Byte) := Answers .frameWrite .showPort p s st reply s
    (∀ steps : List CueStep, f ∈ s.takenSet → 1 ≤ steps.length → steps.length ≤ 6 → (∀ x ∈ steps, fits x) →
      Answers .frameWrite .showPort (num1 f.val ++ num1 steps.length ++ (steps.map record).flatten) s .ok []
        (s.modFrame f fun x => { x with steps := steps })) ∧
    (∀ (count : Byte) (rest : List Byte), rest.length = 8 * count.toNat → rest.length ≤ 198 →
      (f ∉ s.takenSet → refused .notTaken (num1 f.val ++ [count] ++ rest) []) ∧
      (f ∈ s.takenSet → count.toNat = 0 ∨ 6 < count.toNat →
        refused .badValue (num1 f.val ++ [count] ++ rest) [])) ∧
    (∀ (before : List CueStep) (kind flag : Byte) (fields after : List Byte) (n : Nat), f ∈ s.takenSet →
      (∀ x ∈ before, fits x) → fields.length = 6 → after.length = 8 * n → before.length + 1 + n ≤ 6 →
      kind.toNat = 0 ∨ 3 < kind.toNat ∨ 7 < flag.toNat →
      refused .badValue (num1 f.val ++ num1 (before.length + 1 + n)
        ++ ((before.map record).flatten ++ (kind :: flag :: fields) ++ after)) (num1 before.length)) ∧
    (∀ (before : List CueStep) (flag item speed : Byte) (target time : BitVec 16) (after : List Byte) (n : Nat),
      f ∈ s.takenSet → (∀ x ∈ before, fits x) → flag.toNat ≤ 7 → after.length = 8 * n →
      before.length + 1 + n ≤ 6 →
      let timed := flag.getLsbD 2 = true
      let sent (kind : Byte) := refused .badValue (num1 f.val ++ num1 (before.length + 1 + n)
        ++ ((before.map record).flatten
          ++ (kind :: flag :: item :: speed :: (num2 target.toNat ++ num2 time.toNat)) ++ after))
        (num1 before.length)
      (11 < item.toNat ∨ 4095 < target.toNat ∨
        (flag.getLsbD 1 = true ∧ (speed.toNat = 0 ∨ 8 < speed.toNat)) ∨ (timed ∧ 60000 < time.toNat) →
        sent 1) ∧
      (¬ timed ∨ time.toNat = 0 ∨ 60000 < time.toNat → sent 2) ∧
      (63 < item.toNat ∨ (timed ∧ (time.toNat = 0 ∨ 60000 < time.toNat)) → sent 3))) ∧
  (∀ (f : FrameId) (s : State), Admitted .frameDrop .showPort s →
    (f ∉ s.takenSet → Answers .frameDrop .showPort (num1 f.val) s .notTaken [] s) ∧
    (f ∈ s.takenSet → Answers .frameDrop .showPort (num1 f.val) s .ok []
      { s.modFrame f fun _ => { exhibit := none, steps := [], currentGroup := none, run := [] } with
        freeList := s.freeList ++ [f], takenSet := s.takenSet.filter (· ≠ f) }))

/-- Tier 2. CUE-POST is refused by the first check that fails: an exhibit in SERVICE WRONG_STATE, a frame
not taken NOT_TAKEN, an exhibit neither READY, RUNNING nor HELD WRONG_STATE, a step list that is empty or
has a bad step BAD_FRAME with the first such index, and a cue queue of four FULL. Otherwise the frame goes
to the tail of the cue queue with its steps PENDING, a READY exhibit in OPEN takes the head at once, and the
response carries the place the frame then has (R125, R126, R127; the place is read before the arbiter acts,
log 16). A step is bad: step 0 with its with-previous flag set; a MOVE whose axis is not in the exhibit's list,
whose target lies outside the axis's targets, or on an axis that an earlier MOVE of its group names; a WAIT_PRESS
on a line that is not an ACTION line of the exhibit (R120, R125). Taking the head of a cue queue makes it the
active frame, appends CUE_STARTED to the show queue, makes the exhibit RUNNING unless it is, and starts the first
group (R127, R128). -/
def Obligations.CuePostQueuesAFrame : Prop :=
  (∀ (e : ExhibitId) (s : State),
    let x := s.exhibit e
    (x.queue = [] → takeFrame e s = s) ∧
    (∀ f rest, x.queue = f :: rest →
      let told := appendTo .showQ
        { kind := .cueStarted, exhibit := some e, subject := some (BitVec.ofNat 8 f.val) }
        (s.modExhibit e fun y => { y with active := some f, queue := rest })
      (x.state = .running → takeFrame e s = beginGroup f 0 told) ∧
      (x.state ≠ .running → takeFrame e s = beginGroup f 0 (changeState e .running told)))) ∧
  ∀ (e : ExhibitId) (f : FrameId) (s : State), Admitted .cuePost .showPort s →
    let x := s.exhibit e
    let steps := (s.frame f).steps
    let payload := num1 e.val ++ num1 f.val
    let refused (st : Status) (reply : List Byte) := Answers .cuePost .showPort payload s st reply s
    let taken := f ∈ s.takenSet
    let usable := x.state = .ready ∨ x.state = .running ∨ x.state = .held
    let sameGroup (j i : Nat) := j < i ∧
      ∀ k, j < k → k ≤ i → ∃ y, steps[k]? = some y ∧ y.withPrevious = true
    let bad (i : Nat) := ∃ y, steps[i]? = some y ∧ ((i = 0 ∧ y.withPrevious = true) ∨
      (∃ a target speed dwell, y.body = .move a target speed dwell ∧
        (a ∉ x.axes ∨ target < (s.axis a).targetMin ∨ (s.axis a).targetMax < target ∨
          ∃ j z b u v w, sameGroup j i ∧ steps[j]? = some z ∧ z.body = .move b u v w ∧ b = a)) ∨
      (∃ l timeout, y.body = .waitPress l timeout ∧
        ((s.line l).exhibit ≠ some e ∨ (s.line l).role ≠ some .action)))
    let posted := (({ s with takenSet := s.takenSet.filter (· ≠ f) }).modFrame f fun y => { y with
      exhibit := some e, run := y.steps.map fun _ => ⟨.pending, none, .notRunning⟩ }).modExhibit e
        fun y => { y with queue := y.queue ++ [f] }
    let place (t : State) : List Byte := if (t.exhibit e).active = some f then [0, 0]
      else [1, BitVec.ofNat 8 ((t.exhibit e).queue.idxOf f)]
    let goesTo (t : State) := Answers .cuePost .showPort payload s .ok (place t) (conclude t) ∧
      Undisturbed s (conclude t)
    (x.state = .service → refused .wrongState []) ∧
    (x.state ≠ .service → ¬ taken → refused .notTaken []) ∧
    (x.state = .closed ∨ x.state = .faulted → taken → refused .wrongState []) ∧
    (usable → taken → steps = [] → refused .badFrame [0]) ∧
    (∀ i, usable → taken → bad i → (∀ j, j < i → ¬ bad j) → refused .badFrame (num1 i)) ∧
    (usable → taken → steps ≠ [] → (∀ i, ¬ bad i) →
      (4 ≤ x.queue.length → refused .full []) ∧
      (x.queue.length < 4 → ¬ (x.state = .ready ∧ s.mode = .opened) → goesTo posted) ∧
      (x.queue.length < 4 → x.state = .ready → s.mode = .opened → goesTo (takeFrame e posted)) ∧
      (x.queue = [] → x.state = .ready → s.mode = .opened →
        let t := takeFrame e posted
        (t.exhibit e).active = some f ∧ (t.exhibit e).queue = [] ∧ (t.exhibit e).state = .running ∧
          (t.frame f).currentGroup = some 0))

/-- Tier 2. CUE-CANCEL retires the active frame CANCELLED, CUE-FLUSH every frame of the cue queue, oldest
first, each with CUE_RETIRED; in SERVICE both are refused WRONG_STATE (R157), and so is a CANCEL with no active
frame. A retirement ends the frame's group and step timers, leaves a record at the tail of the retired list with the
outcome, the number of steps DONE, the clock and the fault axis, appends CUE_RETIRED with the exhibit, the frame and
the outcome to the show queue, and from an active slot then stops the busy axes that the frame moves, their units
returned and their places in the start queue given up; a RUNNING exhibit then takes the next frame in OPEN and
otherwise becomes READY with its EXHIBIT_STATE (R92, R97, R135). CUE-RESULT answers the oldest record, whose frame
goes to the tail of the free list without its contents, and is refused EMPTY with none (R135, R138, R139, R140, R157,
R214). -/
def Obligations.CuesEndAndAreCollected : Prop :=
  (∀ (e : ExhibitId) (s : State),
    let x := s.exhibit e
    (Admitted .cueCancel .showPort s →
      (x.state = .service ∨ x.active = none → Answers .cueCancel .showPort (num1 e.val) s .wrongState [] s) ∧
      (x.state ≠ .service → x.active ≠ none →
        let t := conclude (retireActive e .cancelled none s)
        Answers .cueCancel .showPort (num1 e.val) s .ok (num1 (t.exhibit e).state.code) t ∧
          Undisturbed s t)) ∧
    (∀ f o fault, x.active = some f →
      let t := retireActive e o fault s
      t.retiredList = s.retiredList ++
        [⟨f, e, o, ((s.frame f).run.filter fun r => r.status = .done).length, s.clock, fault⟩] ∧
      (x.state ≠ .running → t.exhibit e = { x with active := none, queue := x.queue.filter (· ≠ f) }) ∧
      (x.state = .running → x.queue = [] →
        t.exhibit e = { x with state := .ready, active := none, lastChange := s.clock }) ∧
      (let rest := x.queue.filter (· ≠ f)
       let code : BitVec 16 := match o with | .done => 0 | .cancelled => 1 | .faulted => 2 | .pressTimeout => 3
       let told := appendTo .showQ
         { kind := .cueRetired, exhibit := some e, subject := some (BitVec.ofNat 8 f.val), value := some code }
         { (s.modExhibit e fun y => { y with active := none, queue := rest }).modFrame f fun y => { y with
             currentGroup := none, run := y.run.map fun r => { r with timer := .notRunning } } with
           retiredList := s.retiredList ++
             [⟨f, e, o, ((s.frame f).run.filter fun r => r.status = .done).length, s.clock, fault⟩] }
       let mine (a : AxisId) : Bool := match (s.axis a).move with
         | some ⟨_, _, .cueStep g _⟩ => g = f
         | _ => false
       let charged := (List.finRange 12).filter fun a => mine a && (s.axis a).state = .accelerating
       ∃ u : State, u = { told with axes := u.axes, arbiter := u.arbiter } ∧
         (∀ a, mine a = true → (s.axis a).state.busy = true → u.axis a = { s.axis a with
           state := .idle, move := none, drive := .off, travel := none, settle := none, corrections := 0 }) ∧
         (∀ a, ¬ (mine a = true ∧ (s.axis a).state.busy = true) → u.axis a = s.axis a) ∧
         u.arbiter.startQueue = s.arbiter.startQueue.filter (fun a =>
           !(mine a && (s.axis a).state = .waitingStart)) ∧
         u.arbiter.unitsInUse = s.arbiter.unitsInUse - (charged.map fun a => (s.axis a).startCost).sum ∧
         (∀ a, u.arbiter.accel.get a = if a ∈ charged then none else s.arbiter.accel.get a) ∧
         u.arbiter.sag = s.arbiter.sag ∧ u.arbiter.sagTimer = s.arbiter.sagTimer ∧
         (x.state ≠ .running → t = u) ∧
         (x.state = .running → s.mode = .opened → rest ≠ [] → t = takeFrame e u) ∧
         (x.state = .running → s.mode ≠ .opened ∨ rest = [] →
           t = emit [.showQ, .deskQ] { kind := .exhibitState, exhibit := some e, value := some 1 }
             (u.modExhibit e fun y => { y with state := .ready, lastChange := s.clock })))) ∧
    (Admitted .cueFlush .showPort s →
      (x.state = .service → Answers .cueFlush .showPort (num1 e.val) s .wrongState [] s) ∧
      (x.state ≠ .service →
        let t := retireQueue e s
        Answers .cueFlush .showPort (num1 e.val) s .ok (num1 x.queue.length) (conclude t) ∧
        Undisturbed s (conclude t) ∧ (t.exhibit e).queue = [] ∧
        t.retiredList = s.retiredList ++ (x.queue.map fun f =>
          ⟨f, e, .cancelled, ((s.frame f).run.filter fun r => r.status = .done).length, s.clock, none⟩) ∧
        (∀ f ∈ x.queue, t.frame f = { s.frame f with
          currentGroup := none, run := (s.frame f).run.map fun r => { r with timer := .notRunning } }) ∧
        (∀ f, f ∉ x.queue → t.frame f = s.frame f) ∧
        t.showQueue = (x.queue.foldl (fun u f => appendTo .showQ
          { kind := .cueRetired, exhibit := some e, subject := some (BitVec.ofNat 8 f.val), value := some 1 } u)
          s).showQueue ∧
        t.axes = s.axes ∧ t.arbiter = s.arbiter))) ∧
  (∀ s : State, Admitted .cueResult .showPort s →
    (s.retiredList = [] → Answers .cueResult .showPort [] s .empty [] s) ∧
    (∀ r rest, s.retiredList = r :: rest →
      Answers .cueResult .showPort [] s .ok
        (num1 r.frame.val ++ num1 r.exhibit.val ++ num1 r.outcome.code ++ num1 r.completed
          ++ (match r.faultAxis with | none => [0, 0] | some a => [1, BitVec.ofNat 8 a.val])
          ++ clockBytes r.endTime)
        { s.modFrame r.frame fun _ => { exhibit := none, steps := [], currentGroup := none, run := [] } with
          freeList := s.freeList ++ [r.frame], retiredList := rest }))

/-- Tier 2. At the expiry of its step timer a dwelling MOVE step and a PAUSE step become DONE, and a
WAIT_PRESS step's frame is retired PRESS_TIMEOUT; what a DONE step leads to: while another step of the group
is not DONE, nothing; then the next group, or, after the last, the frame is retired DONE (R129, R130, R131,
R132). The group that begins at a step goes on over the following steps whose with-previous flag is set (R120); it
starts by becoming the current group, its steps becoming ACTIVE in ascending index: a MOVE asks its axis, when
IDLE, for a start at its speed or the axis's default, a PAUSE starts its timer, a WAIT_PRESS its timeout if it has
one (R82, R128). A travelling MOVE step whose axis has arrived dwells, or without a dwell is DONE (R129). The step
a press completes is the lowest ACTIVE WAIT_PRESS step on its line in the current group (R35). That an expiry whose
timer has time left leaves the state is log 3. -/
def Obligations.StepTimersExpire : Prop :=
  (∀ (steps : List CueStep) (g : Nat),
    (∀ i, i ∈ groupSteps steps g ↔ g ≤ i ∧ i < steps.length ∧
      ∀ j, g < j → j ≤ i → ∃ x, steps[j]? = some x ∧ x.withPrevious = true) ∧
    (groupSteps steps g).Pairwise (· < ·) ∧
    (g < steps.length → ∀ i, i ∈ groupSteps steps g ↔ g ≤ i ∧ i < groupEnd steps g) ∧
    (groupWaits steps g = true ↔
      ∃ i ∈ groupSteps steps g, ∃ w l timeout, steps[i]? = some ⟨w, .waitPress l timeout⟩)) ∧
  (∀ (f : FrameId) (g : Nat) (s : State),
    beginGroup f g s = (groupSteps (s.frame f).steps g).foldl (fun u i => startStep f i u)
      (s.modFrame f fun y => { y with currentGroup := some g })) ∧
  (∀ (f : FrameId) (i : StepId) (x : CueStep) (s : State), (s.frame f).steps[i.val]? = some x →
    let active (r : StepRun) := s.modFrame f fun y => { y with run := y.run.modify i.val fun _ => r }
    (∀ a target speed dwell, x.body = .move a target speed dwell →
      let travels := active ⟨.active, some .travelling, .notRunning⟩
      let asked := travels.modAxis a fun y => { y with
        state := .waitingStart, corrections := 0
        move := some ⟨target, speed.getD y.defaultSpeed, .cueStep f i⟩ }
      ((s.axis a).state = .idle → startStep f i.val s = asked.modArbiter fun y => { y with
        startQueue := y.startQueue ++ [a] }) ∧
      ((s.axis a).state ≠ .idle → startStep f i.val s = travels)) ∧
    (∀ d, x.body = .pause d → startStep f i.val s = active ⟨.active, none, .running d⟩) ∧
    (∀ l, x.body = .waitPress l none → startStep f i.val s = active ⟨.active, none, .notRunning⟩) ∧
    (∀ l d, x.body = .waitPress l (some d) → startStep f i.val s = active ⟨.active, none, .running d⟩)) ∧
  (∀ (e : ExhibitId) (f : FrameId) (i : StepId) (w : Bool) (a : AxisId) (target : Nat)
      (speed dwell : Option Nat) (timer : StepTimer) (s : State), (s.frame f).exhibit = some e →
    (s.frame f).steps[i.val]? = some ⟨w, .move a target speed dwell⟩ →
    (s.frame f).run[i.val]? = some ⟨.active, some .travelling, timer⟩ →
    let becomes (r : StepRun) := s.modFrame f fun y => { y with run := y.run.modify i.val fun _ => r }
    (dwell = none ∨ dwell = some 0 →
      moveArrived f i.val s = afterDone e f (becomes ⟨.done, none, .notRunning⟩)) ∧
    (∀ d, dwell = some d → d ≠ 0 →
      moveArrived f i.val s = becomes ⟨.active, some .dwelling, .running d⟩)) ∧
  (∀ (x : CueFrame) (l : LineId) (g : Nat), x.currentGroup = some g →
    let waits (i : Nat) := i ∈ groupSteps x.steps g ∧ ∃ w timeout r,
      x.steps[i]? = some ⟨w, .waitPress l timeout⟩ ∧ x.run[i]? = some r ∧ r.status = .active
    (∀ i, waitingStep x l = some i ↔ waits i ∧ ∀ j, j < i → ¬ waits j) ∧
    (waitingStep x l = none ↔ ∀ i, ¬ waits i)) ∧
  (∀ (e : ExhibitId) (i : StepId) (f : FrameId) (x : CueStep) (r : StepRun) (s : State), s.inReset = false →
    (s.exhibit e).active = some f → (s.frame f).steps[i.val]? = some x → (s.frame f).run[i.val]? = some r →
    let goesTo (c : Instr) (t : State) := exec c s = .next (drivePins t) ∧ Undisturbed s t
    let done := s.modFrame f fun y => { y with run := y.run.modify i.val fun _ => ⟨.done, none, .notRunning⟩ }
    (r.timer = .running 0 →
      (∀ a target speed dwell, x.body = .move a target speed dwell →
        goesTo (.dwellExpiry e i) (conclude (afterDone e f done))) ∧
      (∀ d, x.body = .pause d → goesTo (.pauseExpiry e i) (conclude (afterDone e f done))) ∧
      (∀ l timeout, x.body = .waitPress l timeout →
        goesTo (.pressTimeout e i) (conclude (retireActive e .pressTimeout none s)))) ∧
    (r.timer ≠ .running 0 →
      goesTo (.dwellExpiry e i) s ∧ goesTo (.pauseExpiry e i) s ∧ goesTo (.pressTimeout e i) s)) ∧
  (∀ (e : ExhibitId) (f : FrameId) (g : Nat) (s : State), (s.frame f).currentGroup = some g →
    let steps := (s.frame f).steps
    let done := ∀ i ∈ groupSteps steps g, ∃ r, (s.frame f).run[i]? = some r ∧ r.status = .done
    let next := groupEnd steps g
    (¬ done → afterDone e f s = s) ∧
    (done → steps.length ≤ next → afterDone e f s = retireActive e .done none s) ∧
    (done → next < steps.length → s.mode = .quiet ∧ groupWaits steps next = true → afterDone e f s
      = retireActive e .cancelled none (s.modFrame f fun y => { y with currentGroup := some next })) ∧
    (done → next < steps.length → ¬ (s.mode = .quiet ∧ groupWaits steps next = true) →
      afterDone e f s = beginGroup f next s))

/-! ## Links, service and events -/

/-- Tier 2. HEARTBEAT stamps the link and restarts its timer, and answers the link's state before it, the
period and the clock; a link not ACTIVE becomes ACTIVE with LINK_STATE in the other master's queue, and a
show link that was LAPSED removes LAPSE from every exhibit. When the timer of an ACTIVE link expires it is
LAPSED, with LINK_STATE and its alert; a lapse of the show link adds LAPSE to the exhibits in use and returns
every taken frame to the tail of the free list (R142, R145-R149). Every step keeps each link's heartbeat timer
running exactly while the link is ACTIVE (R144). That the expiry of a timer that has not run out leaves the state
is log 3. -/
def Obligations.LinksLapseAndResume : Prop :=
  (∀ s t : State, LinksOk s → step s = .next t → LinksOk t) ∧
  (∀ (m : Master) (s : State), Admitted .heartbeat m.port s →
    let x := s.link m
    let period := match m with | .showMaster => s.timing.showHeartbeat | .deskMaster => s.timing.deskHeartbeat
    let queue : QueueName := match m with | .showMaster => .deskQ | .deskMaster => .showQ
    let reply := num1 x.state.code ++ num2 period ++ clockBytes s.clock
    let goesTo (t : State) := Answers .heartbeat m.port [] s .ok reply t ∧ Undisturbed s t
    let beat := { x with lastHeartbeat := some s.clock, timer := some period }
    let resumed := emit [queue] { kind := .linkState, value := some 1 }
      (s.modLink m fun _ => { beat with state := .active, lastChange := some s.clock })
    (x.state = .active → goesTo (conclude (s.modLink m fun _ => beat))) ∧
    (x.state = .neverSeen → goesTo (conclude resumed)) ∧
    (x.state = .lapsed → m = .deskMaster → goesTo (conclude resumed)) ∧
    (x.state = .lapsed → m = .showMaster →
      goesTo (conclude (forEach (fun e t => removeHold .lapse e t) resumed)))) ∧
  (∀ (m : Master) (s : State), s.inReset = false →
    let x := s.link m
    let goesTo (t : State) := exec (.heartbeatTimerExpiry m) s = .next (drivePins t) ∧ Undisturbed s t
    let lost (q : QueueName) (k : AlertKind) := raiseAlert { kind := k, severity := .urgent } <|
      emit [q] { kind := .linkState, value := some 2 }
        (s.modLink m fun _ => { x with state := .lapsed, timer := none, lastChange := some s.clock })
    let expired := x.state = .active ∧ x.timer = some 0
    let held := forEach (fun e t => if (t.exhibit e).state = .ready ∨ (t.exhibit e).state = .running ∨
      (t.exhibit e).state = .held then addHold .lapse e t else t) (lost .deskQ .showLinkLost)
    (expired → m = .deskMaster → goesTo (conclude (lost .showQ .deskLinkLost))) ∧
    (expired → m = .showMaster → goesTo (conclude (returnTaken held))) ∧
    (returnTaken s).takenSet = [] ∧ (returnTaken s).freeList = s.freeList ++ s.takenSet ∧
    (¬ expired → goesTo s))

/-- Tier 2. SERVICE-PERMIT sets or clears the permit, and a permit cleared in SERVICE ends the tenure; EXHIBIT-TAKE
without a permit is refused NOT_PERMITTED, on an exhibit neither CLOSED nor FAULTED WRONG_STATE, and otherwise begins
a tenure at the clock's time; SERVICE-REVOKE and EXHIBIT-GIVE end it, and are refused WRONG_STATE outside SERVICE;
the idle timer's expiry ends every tenure. A tenure's end, in this order, makes it absent, closes its exhibit, stops
the idle timer when none remains, and re-evaluates the scanner's regime (R18, R153, R154, R155, R156); an exhibit of
SERVICE so closed has its EXHIBIT_STATE in all three queues, its axes DISABLED with their units returned, ATTENDANT
and LAPSE gone from its set, and its lines that are no longer live INERT, each delivered press closed by a forced
BUTTON_RELEASE in the queue that has it (R16, R28, R98, R155). On entry to SERVICE from CLOSED the exhibit's DISABLED
axes become IDLE and, with GUARD in its set, the guard-long timer starts; from FAULTED its axes stay as they are;
SUPPLY joins the set while the sag hold is in force; its lines become live (R18, R22, R27, R81, R113). Every step
keeps a tenure present exactly while its exhibit is in SERVICE and only while its permit is on, and the idle timer
running exactly while a tenure is present (R152). That a SERVICE_IDLE_EXPIRY whose timer has not run out leaves the
state is log 3. -/
def Obligations.TenuresBeginAndEnd : Prop :=
  (∀ s t : State, TenuresOk s → step s = .next t → TenuresOk t) ∧
  (∀ (e : ExhibitId) (s : State),
    let x := s.exhibit e
    let t := beginTenure e s
    x.state = .closed ∨ x.state = .faulted → (∀ a ∈ x.axes, (s.axis a).state.working = false) →
    t.exhibit e = { x with
      state := .service, lastChange := s.clock
      holds := { x.holds with supply := x.holds.supply || s.arbiter.sag = .sagHold }
      guardLong := if x.state = .closed ∧ x.holds.guard = true then some (1000 * s.timing.guardAlertTime)
        else x.guardLong } ∧
    (∀ a, t.axis a =
      if x.state = .closed ∧ a ∈ x.axes ∧ (s.axis a).state = .disabled then
        { s.axis a with state := .idle, move := none, drive := .off, corrections := 0, fault := none }
      else s.axis a) ∧
    (∀ l, (s.line l).exhibit ≠ some e → t.line l = s.line l) ∧
    (∀ l, s.mode ≠ .setup → (s.line l).exhibit = some e → (s.line l).role = some .action →
      (s.line l).enabled = true → (s.line l).state = .inert →
      (t.line l).state = if (s.line l).latest then .waitRelease else .released) ∧
    t.frames = s.frames ∧ t.arbiter = s.arbiter ∧ t.alerts = s.alerts) ∧
  (∀ (e : ExhibitId) (s : State),
    let x := s.exhibit e
    let goesTo (c : Command) (port : Port) (p : List Byte) (before : List Byte) (u : State) :=
      let t := conclude u
      Answers c port p s .ok (before ++ num1 (t.exhibit e).state.code) t
    (Admitted .servicePermit .deskPort s →
      (∀ b : Byte, 1 < b.toNat → Answers .servicePermit .deskPort (num1 e.val ++ [b]) s .badValue [] s) ∧
      goesTo .servicePermit .deskPort (num1 e.val ++ [1]) [1] (s.modExhibit e fun y => { y with permit := true }) ∧
      (x.state ≠ .service → goesTo .servicePermit .deskPort (num1 e.val ++ [0]) [0]
        (s.modExhibit e fun y => { y with permit := false })) ∧
      (x.state = .service → goesTo .servicePermit .deskPort (num1 e.val ++ [0]) [0]
        (endTenure e (s.modExhibit e fun y => { y with permit := false })))) ∧
    (Admitted .serviceRevoke .deskPort s →
      (x.state ≠ .service → Answers .serviceRevoke .deskPort (num1 e.val) s .wrongState [] s) ∧
      (x.state = .service → goesTo .serviceRevoke .deskPort (num1 e.val) [] (endTenure e s))) ∧
    (Admitted .exhibitGive .servicePort s →
      (x.state ≠ .service → Answers .exhibitGive .servicePort (num1 e.val) s .wrongState [] s) ∧
      (x.state = .service → goesTo .exhibitGive .servicePort (num1 e.val) [] (endTenure e s))) ∧
    (Admitted .exhibitTake .servicePort s →
      (x.permit = false → Answers .exhibitTake .servicePort (num1 e.val) s .notPermitted [] s) ∧
      (x.permit = true → x.state ≠ .closed → x.state ≠ .faulted →
        Answers .exhibitTake .servicePort (num1 e.val) s .wrongState [] s) ∧
      (x.permit = true → x.state = .closed ∨ x.state = .faulted →
        goesTo .exhibitTake .servicePort (num1 e.val) [] (beginTenure e s))) ∧
    (let t := beginTenure e s
     t.tenure e = some s.clock ∧ (t.exhibit e).state = .service ∧ (∀ d, d ≠ e → t.tenure d = s.tenure d) ∧
        (∀ d, d ≠ e → t.exhibit d = s.exhibit d) ∧ t.scanner.regime = regimeOf t ∧ Undisturbed s t) ∧
    (let t := endTenure e s
     t.tenure e = none ∧ (t.exhibit e).state = .closed ∧ (∀ d, d ≠ e → t.tenure d = s.tenure d) ∧
        (∀ d, d ≠ e → t.exhibit d = s.exhibit d) ∧ t.scanner.regime = regimeOf t ∧
        ((∀ d, d ≠ e → s.tenure d = none) → t.serviceIdle = none) ∧
        (∀ d, d ≠ e → s.tenure d ≠ none → t.serviceIdle = s.serviceIdle) ∧ Undisturbed s t) ∧
    (let closed := closeExhibit e (s.setTenure e none)
     ((∀ d, d ≠ e → s.tenure d = none) → endTenure e s = reviewRegime { closed with serviceIdle := none }) ∧
     (∀ d, d ≠ e → s.tenure d ≠ none → endTenure e s = reviewRegime closed)) ∧
    (PlacesOk s → x.state = .service →
     let t := endTenure e s
     let charged := (List.finRange 12).filter fun a => a ∈ x.axes && (s.axis a).state = .accelerating
     let leaves (l : LineId) : Bool := (s.line l).exhibit = some e &&
       !((s.line l).role = some .help && (s.line l).enabled && s.mode ≠ .setup) && (s.line l).state ≠ .inert
     let released (l : LineId) (d : PressDestination) (q : QueueName) (u : State) :=
       if leaves l && (s.line l).accepted && (s.line l).destination = some d then
         appendTo q { kind := .buttonRelease, exhibit := some e, subject := some (BitVec.ofNat 8 l.val)
                      value := some 1 } u
       else u
     let told (q : QueueName) :=
       appendTo q { kind := .exhibitState, exhibit := some e, value := some 0 } s
     t.exhibit e = { x with
       state := .closed, lastChange := s.clock, guardLong := none
       holds := { x.holds with attendant := false, lapse := false } } ∧
     (∀ a, t.axis a = if a ∈ x.axes then { s.axis a with
         state := .disabled, move := none, drive := .off, travel := none, settle := none, fault := none
         corrections := 0, suppress := false }
       else s.axis a) ∧
     t.arbiter.startQueue = s.arbiter.startQueue.filter (fun a =>
       !(a ∈ x.axes && (s.axis a).state = .waitingStart)) ∧
     t.arbiter.unitsInUse = s.arbiter.unitsInUse - (charged.map fun a => (s.axis a).startCost).sum ∧
     (∀ a, t.arbiter.accel.get a = if a ∈ charged then none else s.arbiter.accel.get a) ∧
     (∀ l, leaves l = true → t.line l = { s.line l with
       state := .inert, accepted := false, destination := none, debounceTimer := 0, stuckTimer := none }) ∧
     t.deskQueue = (told .deskQ).deskQueue ∧
     t.showQueue = ((List.finRange 64).foldl (fun u l => released l .showQueue .showQ u) (told .showQ)).showQueue ∧
     t.serviceQueue = ((List.finRange 64).foldl (fun u l => released l .serviceQueue .serviceQ u)
       (told .serviceQ)).serviceQueue)) ∧
  (∀ s : State, s.inReset = false →
    (s.serviceIdle ≠ some 0 → exec .serviceIdleExpiry s = .next (drivePins s)) ∧
    (∃ u, InTurn 16 (fun e a b => b = if (a.tenure e).isSome then endTenure e a else a) s u ∧
      endTenures s = { u with serviceIdle := none }) ∧
    (s.serviceIdle = some 0 → let t := endTenures s
      exec .serviceIdleExpiry s = .next (drivePins (conclude t)) ∧ t.serviceIdle = none ∧
      (∀ e, t.tenure e = none ∧ (s.tenure e ≠ none → (t.exhibit e).state = .closed) ∧
        (s.tenure e = none → t.exhibit e = s.exhibit e)) ∧ Undisturbed s t))

/-- Tier 2. EVENT-READ: a count above 8 is refused BAD_VALUE; otherwise, from every port in every mode, the
oldest events of the port's queue, up to the count, leave the queue and are answered, the first marked with
the queue's gap flag, with the number left and the gap flag after the read. An event placed in a queue takes
its next sequence number and the clock; into a full queue it displaces the oldest button event, without one
it is dropped when it is a button event and displaces the oldest event when it is not, and the gap flag is
set (R42-R45, R49-R51). An event record is 15 bytes: sequence number, time, kind, exhibit, subject, flags, value,
cue step, absent fields 0 (R212), with the kinds' codes of R46. -/
def Obligations.EventQueuesReadAndOverflow : Prop :=
  (∀ v : Event,
    let low (n : Nat) : Byte := BitVec.ofNat 8 n
    let four (n : Nat) : List Byte := [low n, low (n / 256), low (n / 65536), low (n / 16777216)]
    let kinds : List EventKind := [.buttonPress, .buttonRelease, .axisArrived, .axisHeld, .axisResumed, .axisFault,
      .cueStarted, .cueRetired, .senseChange, .scanOverrun, .exhibitState, .galleryMode, .linkState, .alertRaised,
      .alertChanged, .alertRemoved, .chimeCut]
    let bit (b : Bool) (n : Nat) : Nat := if b then n else 0
    let value := (v.value.getD 0).toNat
    v.bytes = four v.seq.toNat ++ four v.time.toNat ++ [low (kinds.idxOf v.kind + 1),
      match v.exhibit with | none => 0 | some e => low e.val, v.subject.getD 0,
      low (bit v.exhibit.isSome 1 + bit v.subject.isSome 2 + bit v.value.isSome 4 + bit v.step.isSome 8
        + bit v.gap 16),
      low value, low (value / 256), match v.step with | none => 0 | some i => low i.val]) ∧
  (portQueue .showPort = .showQ ∧ portQueue .deskPort = .deskQ ∧ portQueue .servicePort = .serviceQ) ∧
  (QueueName.showQ.capacity = 64 ∧ QueueName.deskQ.capacity = 32 ∧ QueueName.serviceQ.capacity = 16) ∧
  (∀ (port : Port) (b : Byte) (s : State), Ready port s →
    let q := portQueue port
    let x := s.queue q
    (8 < b.toNat → Answers .eventRead port [b] s .badValue [] s) ∧
    (b.toNat ≤ 8 → x.events.take b.toNat = [] →
      Answers .eventRead port [b] s .ok ([0] ++ num1 x.events.length ++ flagByte x.gap) s) ∧
    (∀ v rest, b.toNat ≤ 8 → x.events.take b.toNat = v :: rest →
      Answers .eventRead port [b] s .ok
        (num1 (rest.length + 1) ++ (({ v with gap := x.gap } :: rest).map Event.bytes).flatten
          ++ num1 (x.events.length - (rest.length + 1)) ++ num1 0)
        (s.modQueue q fun _ => { x with events := x.events.drop b.toNat, gap := false }))) ∧
  (∀ (q : QueueName) (v : Event) (s : State),
    let x := s.queue q
    let n := q.capacity
    let new := { v with seq := x.nextSeq, time := s.clock, gap := false }
    let after := if x.nextSeq + 1 = 0 then 1 else x.nextSeq + 1
    let button (w : Event) := w.kind = .buttonPress ∨ w.kind = .buttonRelease
    let becomes (l : List Event) (gap : Bool) :=
      appendTo q v s = s.modQueue q fun _ => { events := l, nextSeq := after, gap := gap }
    (x.events.length < n → becomes (x.events ++ [new]) x.gap) ∧
    (∀ l w r, n ≤ x.events.length → x.events = l ++ w :: r → (∀ u ∈ l, ¬ button u) → button w →
      becomes (l ++ r ++ [new]) true) ∧
    (n ≤ x.events.length → (∀ u ∈ x.events, ¬ button u) →
      (button v → becomes x.events true) ∧ (¬ button v → becomes (x.events.tail ++ [new]) true)))

/-! ## Alerts and annunciators -/

/-- Tier 2. ALERT-ACK and ALERT-CLEAR of a number no record holds are refused NO_SUCH. ALERT-ACK of an ACKED record
is refused WRONG_STATE; otherwise the record becomes ACKED at the clock's time with level 0, with ALERT_CHANGED, and
is answered. ALERT-CLEAR of a condition-bound record whose condition is present is refused STILL_ACTIVE; otherwise
the record leaves the list with ALERT_REMOVED, and its number and the number left are answered. ALERT-RAISE of no
severity or with a presence byte that is no flag is refused BAD_VALUE, of an exhibit above 15 NO_SUCH; otherwise
SHOW_REPORTED is triggered, and the record's number, or that it was not stored, is answered (R174, R176, R177; the
mark, and that with presence byte 0 the exhibit byte is not examined and any value of it is taken, are the model's
choices, log 13). The condition of a record is looked up in the block of its kind: a STUCK line, a FAULTED axis,
GUARD in the set, a presence window INSIDE, a supply window BELOW, a LAPSED link; of the four other kinds it is
absent (R165; of two SUPPLY channels in SETUP the lowest-numbered, log 24). What a trigger does: on an OPEN record of
its key it counts, up to 255, and may raise the severity; an ACKED one it reopens, behind the others; without one it
creates a record with the next number, evicting with 23 ordinary records in the list the first ACKED one of the
lowest severity, else the first OPEN NOTICE; with none to evict it is not stored, and LIST_FULL is triggered in the
reserved place, with the severity ATTENTION of its kind; each with its event, and then every level whose time has
come is reached (R163, R164, R166-R169, R173, R179). The number after a creation is the next that no record holds,
passing from 65535 to 1 (R163). The tone arbiter re-evaluates once after the whole trigger (R170, R184; log 15). -/
def Obligations.AlertsAreAckedClearedAndRaised : Prop :=
  (∀ (records : List AlertRecord) (n : BitVec 16), records.length ≤ 24 → n ≠ 0 →
    let after (k : BitVec 16) : BitVec 16 := if k = 65535 then 1 else k + 1
    ∃ k, freeNumber records 25 (bumpNumber n) = after^[k + 1] n ∧
      (∀ r ∈ records, r.number ≠ after^[k + 1] n) ∧
      ∀ j, j < k → ∃ r ∈ records, r.number = after^[j + 1] n) ∧
  (∀ (t : Trigger) (s : State),
    let find (v : Trigger) := s.alerts.records.find? fun r =>
      r.kind = v.kind && r.exhibit = v.exhibit && r.subject = v.subject && r.showCode = v.showCode
    let ordinary := s.alerts.records.filter fun r => r.kind ≠ .listFull
    let rank (sev : Severity) : Nat := match sev with | .notice => 0 | .attention => 1 | .urgent => 2
    let tell (k : EventKind) (r : AlertRecord) (value : BitVec 16) := appendTo .deskQ
      { kind := k, exhibit := r.exhibit, subject := some (r.number.setWidth 8), value := some value }
    let counted (v : Trigger) (r : AlertRecord) : AlertRecord := { r with
      repeatCount := min 255 (r.repeatCount + 1)
      severity := if rank r.severity < rank v.severity then v.severity else r.severity }
    let counts (v : Trigger) (r : AlertRecord) : State :=
      let u := tell .alertChanged r r.number <| s.modAlerts fun l => { l with
        records := l.records.map fun y => if y.number = r.number then counted v r else y }
      if rank r.severity < rank v.severity then climbElapsed r.number u else u
    let reopens (v : Trigger) (r : AlertRecord) : State :=
      climbElapsed r.number <| tell .alertChanged r r.number <| s.modAlerts fun l => { l with
        records := l.records.filter (fun y => y.number ≠ r.number) ++
          [{ counted v r with state := .opened, level := 0, raised := s.clock, acked := none }] }
    let creates (v : Trigger) (u : State) : State :=
      let new : AlertRecord := {
        number := u.alerts.nextNumber, kind := v.kind, severity := v.severity, exhibit := v.exhibit
        subject := v.subject, showCode := v.showCode, state := .opened, level := 0, repeatCount := 1
        raised := u.clock, acked := none }
      let all := u.alerts.records ++ [new]
      climbElapsed new.number <| tell .alertRaised new new.number <| u.modAlerts fun _ =>
        { records := all, nextNumber := freeNumber all 25 (bumpNumber new.number) }
    let first (st : AlertState) (sev : Severity) := ordinary.find? fun r => r.state = st && r.severity = sev
    let victim := (first .acked .notice).or <| (first .acked .attention).or <| (first .acked .urgent).or <|
      first .opened .notice
    let full : Trigger := { kind := .listFull, severity := .attention }
    raiseAlert t s = reevaluateTone (storeTrigger t s).1 ∧
    (∀ r, find t = some r →
      (r.state = .opened → storeTrigger t s = (counts t r, some r.number)) ∧
      (r.state = .acked → storeTrigger t s = (reopens t r, some r.number))) ∧
    (find t = none → ordinary.length < 23 → storeTrigger t s = (creates t s, some s.alerts.nextNumber)) ∧
    (∀ r, find t = none → t.kind ≠ .listFull → 23 ≤ ordinary.length → victim = some r →
      storeTrigger t s = (creates t (tell .alertRemoved r 1 (s.modAlerts fun l => { l with
        records := l.records.filter fun y => y.number ≠ r.number })), some s.alerts.nextNumber)) ∧
    (find t = none → t.kind ≠ .listFull → 23 ≤ ordinary.length → victim = none →
      (∀ r, find full = some r → r.state = .opened → storeTrigger t s = (counts full r, none)) ∧
      (∀ r, find full = some r → r.state = .acked → storeTrigger t s = (reopens full r, none)) ∧
      (find full = none → storeTrigger t s = (creates full s, none)))) ∧
  (∀ (r : AlertRecord) (s : State),
    let present := conditionPresent s r = true
    (r.kind = .buttonStuck → (present ↔ ∃ l : LineId, r.subject = some l.val ∧ (s.line l).state = .stuck)) ∧
    (r.kind = .axisFault → (present ↔ ∃ a : AxisId, r.subject = some a.val ∧ (s.axis a).state = .faulted)) ∧
    (r.kind = .guardLong → (present ↔ ∃ e, r.exhibit = some e ∧ (s.exhibit e).holds.guard = true)) ∧
    (r.kind = .afterHours → (present ↔ ∃ e c, r.exhibit = some e ∧ (s.exhibit e).presence = some c ∧
      (s.channel c).window = .inside)) ∧
    (r.kind = .supplySag → (present ↔ ∃ c, (s.channel c).role = .supply ∧
      (∀ d, d < c → (s.channel d).role ≠ .supply) ∧ (s.channel c).window = .below)) ∧
    (r.kind = .showLinkLost → (present ↔ s.showLink.state = .lapsed)) ∧
    (r.kind = .deskLinkLost → (present ↔ s.deskLink.state = .lapsed)) ∧
    (r.kind = .helpCall ∨ r.kind = .showReported ∨ r.kind = .restarted ∨ r.kind = .listFull → ¬ present)) ∧
  (∀ (n : BitVec 16) (s : State),
    let held := s.alerts.records.find? fun r => r.number = n
    let event (k : EventKind) (r : AlertRecord) (value : BitVec 16) : Event :=
      { kind := k, exhibit := r.exhibit, subject := some (r.number.setWidth 8), value := some value }
    (Admitted .alertAck .deskPort s →
      let goes (st : Status) := Answers .alertAck .deskPort (num2 n.toNat) s st [] s
      (held = none → goes .noSuch) ∧
      (∀ r, held = some r → r.state = .acked → goes .wrongState) ∧
      (∀ r, held = some r → r.state = .opened →
        let acked := { r with state := .acked, acked := some s.clock, level := 0 }
        let t := reevaluateTone <| emit [.deskQ] (event .alertChanged acked n) <|
          s.modAlerts fun l => { l with records := l.records.map fun y => if y.number = n then acked else y }
        Answers .alertAck .deskPort (num2 n.toNat) s .ok acked.bytes t ∧ Undisturbed s t)) ∧
    (Admitted .alertClear .deskPort s →
      let goes (st : Status) := Answers .alertClear .deskPort (num2 n.toNat) s st [] s
      let free (r : AlertRecord) := r.kind = .helpCall ∨ r.kind = .showReported ∨ r.kind = .restarted ∨
        r.kind = .listFull
      (held = none → goes .noSuch) ∧
      (∀ r, held = some r → ¬ free r → conditionPresent s r = true → goes .stillActive) ∧
      (∀ r, held = some r → free r ∨ conditionPresent s r = false →
        let left := s.alerts.records.filter fun y => y.number ≠ n
        let t := reevaluateTone <| emit [.deskQ] (event .alertRemoved r 2) <|
          s.modAlerts fun l => { l with records := left }
        Answers .alertClear .deskPort (num2 n.toNat) s .ok (num2 n.toNat ++ num1 left.length) t ∧
          Undisturbed s t))) ∧
  (∀ (b flag number code : Byte) (s : State), Admitted .alertRaise .showPort s →
    let p := [b, flag, number, code]
    (2 < b.toNat ∨ 1 < flag.toNat → Answers .alertRaise .showPort p s .badValue [] s) ∧
    (b.toNat ≤ 2 → flag = 1 → 15 < number.toNat → Answers .alertRaise .showPort p s .noSuch [] s) ∧
    (∀ (sev : Severity) (e : Option ExhibitId), sev.code = b.toNat →
      (flag = 0 ∧ e = none) ∨ (flag = 1 ∧ e.map Fin.val = some number.toNat) →
      let t : Trigger := { kind := .showReported, severity := sev, exhibit := e, showCode := some code }
      let reply := match (storeTrigger t s).2 with
        | some n => num2 n.toNat ++ [0]
        | none => [0, 0, 1]
      Answers .alertRaise .showPort p s .ok reply (raiseAlert t s) ∧ Undisturbed s (raiseAlert t s)))

/-- Tier 2. The escalation times of URGENT and ATTENTION, in seconds, are those of the timing record, and NOTICE has
none. An OPEN record whose next escalation time has come reaches that level and every further one of a time not
later; reaching level 2 ends silence. A record that is not OPEN, of severity NOTICE, or whose time has not come, and
a number no record holds, change nothing (R172, R173, R189; log 3). Each level is reached with its own ALERT_CHANGED
in the desk queue, and after the last the tone arbiter re-evaluates (R173, R184). When a record's elapsed time is
looked at within a trigger or at a CONFIG-TIMING, an OPEN record reaches, one at a time, each next level whose time
is not later, with one ALERT_CHANGED each (R173, R206); that the next level alone is looked at, also where the times
decrease, is log 26. -/
def Obligations.AlertLevelsAreReached : Prop :=
  (∀ (n : BitVec 16) (s : State),
    let t := climbElapsed n s
    let held := s.alerts.records.find? fun r => r.number = n
    let time (r : AlertRecord) (level : Nat) := levelTime s.timing r.severity level
    (held = none → t = s) ∧
    (∀ r, held = some r → ∃ k,
      let event : Event := {
        kind := .alertChanged, exhibit := r.exhibit, subject := some (n.setWidth 8), value := some n }
      (r.state ≠ .opened → k = 0) ∧ (k ≠ 0 → r.level + k ≤ 3) ∧
      (∀ j, 1 ≤ j → j ≤ k → ∃ u, time r (r.level + j) = some u ∧ u ≤ elapsed r.raised s.clock) ∧
      (r.state = .opened → ∀ u, time r (r.level + k + 1) = some u → elapsed r.raised s.clock < u) ∧
      (k = 0 → t = s) ∧
      (k ≠ 0 → t.alerts = { s.alerts with
        records := s.alerts.records.map fun y => if y.number = n then { r with level := r.level + k } else y }) ∧
      t.annunciators = (if r.level < 2 ∧ 2 ≤ r.level + k then
        { s.annunciators with silence := none, silenceBegan := none } else s.annunciators) ∧
      t.deskQueue = ((appendTo .deskQ event)^[k] s).deskQueue ∧
      { t with alerts := s.alerts, annunciators := s.annunciators, deskQueue := s.deskQueue } = s)) ∧
  (∀ (x : Timing) (n : Nat), levelTime x .notice n = none ∧
    (∀ sev times, (sev = .urgent ∧ times = x.urgentTimes) ∨ (sev = .attention ∧ times = x.attentionTimes) →
      levelTime x sev 1 = some (1000 * times.level1) ∧ levelTime x sev 2 = some (1000 * times.level2) ∧
      levelTime x sev 3 = some (1000 * times.level3) ∧ (3 < n → levelTime x sev n = none))) ∧
  (∀ (n : BitVec 16) (s : State), s.inReset = false →
    let held := s.alerts.records.find? fun r => r.number = n
    let time (r : AlertRecord) (level : Nat) := levelTime s.timing r.severity level
    let reached (r : AlertRecord) (limit : Nat) :=
      r.state = .opened ∧ time r (r.level + 1) = some limit ∧ limit ≤ elapsed r.raised s.clock
    ((∀ r limit, held = some r → ¬ reached r limit) →
      exec (.alertLevelReached n) s = .next (drivePins s)) ∧
    (∀ r limit, held = some r → reached r limit →
      ∃ t v k, exec (.alertLevelReached n) s = .next (drivePins t) ∧ t = reevaluateTone v ∧
        1 ≤ k ∧ r.level + k ≤ 3 ∧
        (∀ j, 1 ≤ j → j ≤ k → ∃ u, time r (r.level + j) = some u ∧ u ≤ limit) ∧
        (∀ u, time r (r.level + k + 1) = some u → limit < u) ∧
        (let event : Event := {
           kind := .alertChanged, exhibit := r.exhibit, subject := some (n.setWidth 8), value := some n }
         v.alerts = { s.alerts with
           records := s.alerts.records.map fun y => if y.number = n then { r with level := r.level + k } else y } ∧
         v.annunciators = (if r.level < 2 ∧ 2 ≤ r.level + k then
           { s.annunciators with silence := none, silenceBegan := none } else s.annunciators) ∧
         v.deskQueue = ((appendTo .deskQ event)^[k] s).deskQueue ∧
         { v with alerts := s.alerts, annunciators := s.annunciators, deskQueue := s.deskQueue } = s) ∧
        t.alerts.records
          = s.alerts.records.map (fun y => if y.number = n then { r with level := r.level + k } else y) ∧
        t.alerts.nextNumber = s.alerts.nextNumber ∧
        (r.level < 2 → 2 ≤ r.level + k → t.annunciators.silence = none) ∧ Undisturbed s t))

/-- Tier 2. CHIME: a count outside 1 to 15, or none with a pattern of no repeats, is refused BAD_VALUE, and
alert demand BUSY; otherwise the chime starts and its pattern and count are answered. SILENCE answers whether
demand existed and its time, and silences an alert tone; LAMP-TEST runs for 5 s. A note that ends starts the
next, and after the last of a chime the arbiter is SILENT; the expiries of the silence and lamp-test timers end
them (R183-R189, R193). The re-evaluation of alert demand: outside silence the demanded pattern is 0 while an OPEN
URGENT record is at level 2 or 3, else 1 while any OPEN record is; demand that appears or changes its pattern
starts the first note of the pattern, demand that ends stops an alert tone, and a chime is cut with CHIME_CUT, its
pattern as value, in the desk queue (R184, R185, R187). That an expiry or a note's end that cannot have come leaves
the state is log 3; SILENCE's time in milliseconds, log 10; the unexamined count byte of a CHIME that gives none,
log 13. -/
def Obligations.AnnunciatorsSound : Prop :=
  (∀ s : State,
    let pressing (r : AlertRecord) := r.state = .opened ∧ 2 ≤ r.level
    let demand : Option PatternId :=
      if s.annunciators.silence ≠ none then none
      else if ∃ r ∈ s.alerts.records, pressing r ∧ r.severity = .urgent then some 0
      else if ∃ r ∈ s.alerts.records, pressing r then some 1
      else none
    let play (q : PatternId) (u : State) := u.modAnnunciators fun x =>
      let y := s.annunciators.patterns.get q
      { x with tone := .alertTone ⟨q, y.pitch, y.onTime, y.offTime, y.envelope, 0⟩ }
    let cut (note : Note) := appendTo .deskQ
      { kind := .chimeCut, value := some (BitVec.ofNat 16 note.pattern.val) } s
    let t := reevaluateTone s
    (s.annunciators.tone = .silent → demand = none → t = s) ∧
    (∀ q, s.annunciators.tone = .silent → demand = some q → t = play q s) ∧
    (∀ note, s.annunciators.tone = .alertTone note →
      (demand = none → t = s.modAnnunciators fun x => { x with tone := .silent }) ∧
      (demand = some note.pattern → t = s) ∧
      (∀ q, demand = some q → q ≠ note.pattern → t = play q s)) ∧
    (∀ note k, s.annunciators.tone = .chime note k →
      (demand = none → t = s) ∧ (∀ q, demand = some q → t = play q (cut note)))) ∧
  (∀ (port : Port) (q : PatternId) (flag b : Byte) (s : State), Admitted .chime port s →
    let pattern := s.annunciators.patterns.get q
    let count := if flag = 0 then pattern.repeats else b.toNat
    let valid := (flag = 0 ∧ pattern.repeats ≠ 0) ∨ (flag = 1 ∧ 1 ≤ b.toNat ∧ b.toNat ≤ 15)
    let demand := s.annunciators.silence = none ∧ ∃ r ∈ s.alerts.records, r.state = .opened ∧ 2 ≤ r.level
    let note : Note := ⟨q, pattern.pitch, pattern.onTime, pattern.offTime, pattern.envelope, 0⟩
    let p := num1 q.val ++ [flag, b]
    (¬ valid → Answers .chime port p s .badValue [] s) ∧
    (valid → demand → Answers .chime port p s .busy [] s) ∧
    (valid → ¬ demand → Answers .chime port p s .ok (num1 q.val ++ num1 count)
      (s.modAnnunciators fun x => { x with tone := .chime note count }))) ∧
  (∀ s : State, Admitted .silence .deskPort s →
    let demand := s.annunciators.silence = none ∧ ∃ r ∈ s.alerts.records, r.state = .opened ∧ 2 ≤ r.level
    let time := 1000 * s.timing.silenceTime
    let tone (x : ToneArbiter) : ToneArbiter := match x with | .alertTone _ => .silent | y => y
    let t := s.modAnnunciators fun x => { x with
      silence := some time, silenceBegan := some s.clock, tone := tone x.tone }
    (demand → Answers .silence .deskPort [] s .ok (1 :: num4 time) t) ∧
    (¬ demand → Answers .silence .deskPort [] s .ok (0 :: num4 time) t)) ∧
  (∀ s : State, Admitted .lampTest .deskPort s →
    Answers .lampTest .deskPort [] s .ok [] (s.modAnnunciators fun x => { x with lampTest := some 5000 })) ∧
  (∀ s : State, s.inReset = false →
    let goesTo (c : Instr) (t : State) := exec c s = .next (drivePins t)
    let next (q : PatternId) : Note :=
      let y := s.annunciators.patterns.get q
      ⟨q, y.pitch, y.onTime, y.offTime, y.envelope, 0⟩
    let tone (y : ToneArbiter) := s.modAnnunciators fun x => { x with tone := y }
    (s.annunciators.tone = .silent → goesTo .toneNoteEnd s) ∧
    (∀ note, s.annunciators.tone = .alertTone note → note.onTime + note.offTime ≤ note.elapsed →
      goesTo .toneNoteEnd (tone (.alertTone (next note.pattern)))) ∧
    (∀ note k, s.annunciators.tone = .chime note k → note.onTime + note.offTime ≤ note.elapsed →
      (k ≤ 1 → goesTo .toneNoteEnd (tone .silent)) ∧
      (1 < k → goesTo .toneNoteEnd (tone (.chime (next note.pattern) (k - 1))))) ∧
    (∀ note, s.annunciators.tone = .alertTone note ∨ (∃ k, s.annunciators.tone = .chime note k) →
      note.elapsed < note.onTime + note.offTime → goesTo .toneNoteEnd s) ∧
    (s.annunciators.silence = some 0 →
      let t := reevaluateTone (s.modAnnunciators fun x => { x with silence := none, silenceBegan := none })
      goesTo .silenceTimerExpiry t ∧ t.annunciators.silence = none ∧ Undisturbed s t) ∧
    (s.annunciators.silence ≠ some 0 → goesTo .silenceTimerExpiry s) ∧
    (s.annunciators.lampTest = some 0 →
      goesTo .lampTestExpiry (s.modAnnunciators fun x => { x with lampTest := none })) ∧
    (s.annunciators.lampTest ≠ some 0 → goesTo .lampTestExpiry s))

/-! ## Configuration and the clock -/

/-- Tier 2. The configuration commands of SETUP, from the show and service ports: an item whose fields are within
their ranges is written into its record and the response carries no payload; a field outside its range, an
enumeration, flag or presence byte outside its codes, and a binding given for a role that has none are refused
BAD_VALUE and nothing changes, the first bad scan list entry with its number, whatever follows it (R24, R55, R64,
R77, R172, R182, R200, R206). A CONFIG-TIMING that changes escalation times makes every OPEN record reach the levels
whose times its elapsed time has reached, and alert demand is re-evaluated after them (R173, R184, R206). That the
records are the configuration is log 6; the refusal of a scan list entry with a bad flag by its number, and the
unexamined bytes of absent fields, log 13; the order of CONFIG-SCAN's checks, day mode and count before the entries,
so that a bad one of the two is answered without an entry's number whatever the entries, log 27; the order of the
records at a CONFIG-TIMING, log 17; the binding as a bare number, log 22. -/
def Obligations.ConfigurationIsWritten : Prop :=
  ∀ (port : Port) (s : State),
    let index {n : Nat} (i : Option (Fin n)) : List Byte :=
      match i with | none => [0, 0] | some j => [1, BitVec.ofNat 8 j.val]
    let item (c : Command) (p : List Byte) (ok : Prop) (t : State) :=
      Admitted c port s → (ok → Answers c port p s .ok [] t) ∧ (¬ ok → Answers c port p s .badValue [] s)
    (∀ (e : ExhibitId) (policy flag : Byte),
      item .configExhibit (num1 e.val ++ [policy, flag]) (policy.toNat ≤ 1 ∧ flag.toNat ≤ 1)
        (s.modExhibit e fun x => { x with
          busyPolicy := if policy = 0 then .deliver else .swallowWhileRunning, openWithGallery := flag = 1 })) ∧
    (∀ (l : LineId) (e : Option ExhibitId) (role : Option LineRole) (level debounce stuck : Byte)
        (guard : BitVec 16),
      item .configLine
        (num1 l.val ++ index e
          ++ (match role with | none => [0, 0] | some .action => [1, 0] | some .help => [1, 1])
          ++ [level, debounce] ++ num2 guard.toNat ++ [stuck])
        (level.toNat ≤ 1 ∧ 5 ≤ debounce.toNat ∧ debounce.toNat ≤ 100 ∧ guard.toNat ≤ 5000 ∧
          5 ≤ stuck.toNat ∧ stuck.toNat ≤ 120)
        (s.modLine l fun x => { x with
          exhibit := e, role := role, activeLevel := if level = 0 then .low else .high
          debounce := debounce.toNat, repeatGuard := guard.toNat, stuckTime := stuck.toNat })) ∧
    (∀ (a : AxisId) (e : Option ExhibitId) (flag tolerance speed cost : Byte)
        (targetMin targetMax accel travel settle feedback : BitVec 16),
      item .configAxis
        (num1 a.val ++ [flag] ++ index e ++ num2 targetMin.toNat ++ num2 targetMax.toNat
          ++ [tolerance, speed, cost] ++ num2 accel.toNat ++ num2 travel.toNat ++ num2 settle.toNat
          ++ num2 feedback.toNat)
        (flag.toNat ≤ 1 ∧ targetMin.toNat ≤ 4095 ∧ targetMax.toNat ≤ 4095 ∧ 2 ≤ tolerance.toNat ∧
          tolerance.toNat ≤ 200 ∧ 1 ≤ speed.toNat ∧ speed.toNat ≤ 8 ∧ 1 ≤ cost.toNat ∧ cost.toNat ≤ 4 ∧
          20 ≤ accel.toNat ∧ accel.toNat ≤ 2000 ∧ 500 ≤ travel.toNat ∧ travel.toNat ≤ 60000 ∧
          10 ≤ settle.toNat ∧ settle.toNat ≤ 2000 ∧ 20 ≤ feedback.toNat ∧ feedback.toNat ≤ 500)
        (s.modAxis a fun x => { x with
          configured := flag = 1, exhibit := e, targetMin := targetMin.toNat, targetMax := targetMax.toNat
          tolerance := tolerance.toNat, defaultSpeed := speed.toNat, startCost := cost.toNat
          accelTime := accel.toNat, travelLimit := travel.toNat, settleTime := settle.toNat
          feedbackTimeout := feedback.toNat })) ∧
    (∀ (c : ChannelId) (role : ChannelRole) (b : Option Binding) (count : Byte) (lower upper : BitVec 16),
      (∀ a, b = some (.axis a) → role = .position ∨ role = .current) →
      (∀ e, b = some (.exhibit e) → role = .presence) →
      item .configChannel
        (num1 c.val ++ num1 role.code
          ++ (match b with
            | none => [0, 0]
            | some (.axis a) => [1, BitVec.ofNat 8 a.val]
            | some (.exhibit e) => [1, BitVec.ofNat 8 e.val])
          ++ num2 lower.toNat ++ num2 upper.toNat ++ [count])
        (lower.toNat ≤ upper.toNat ∧ upper.toNat ≤ 4095 ∧ 1 ≤ count.toNat ∧ count.toNat ≤ 8)
        (s.modChannel c fun x => { x with
          role := role, binding := b, lower := lower.toNat, upper := upper.toNat
          filterCount := count.toNat })) ∧
    (∀ (mode : DayMode) (list : List ScanEntry), list.length ≤ 40 →
      item .configScan
        (num1 mode.code ++ num1 list.length ++ (list.map fun x =>
          [BitVec.ofNat 8 x.channel.val, if x.keepWhenClosed then 1 else 0]).flatten) True
        { s with scanner := { s.scanner with dayMode := mode, scanList := list } }) ∧
    (∀ (mode : DayMode) (before : List ScanEntry) (count b flag : Byte) (after : List Byte),
      Admitted .configScan port s → 31 < b.toNat ∨ 1 < flag.toNat → count.toNat ≤ 40 →
      before.length < count.toNat → after.length = 2 * (count.toNat - before.length - 1) →
      Answers .configScan port (num1 mode.code ++ [count] ++ (before.map fun x =>
          [BitVec.ofNat 8 x.channel.val, if x.keepWhenClosed then 1 else 0]).flatten ++ [b, flag] ++ after)
        s .badValue (num1 before.length) s) ∧
    (∀ (show_ desk release alert sag silence idle u1 u2 u3 a1 a2 a3 pace closed : BitVec 16) (budget : Byte),
      let within (x : BitVec 16) (lo hi : Nat) := lo ≤ x.toNat ∧ x.toNat ≤ hi
      let timing : Timing := {
        showHeartbeat := show_.toNat, deskHeartbeat := desk.toNat, guardReleaseDelay := release.toNat
        guardAlertTime := alert.toNat, sagHoldTime := sag.toNat, silenceTime := silence.toNat
        serviceIdleTime := idle.toNat, urgentTimes := ⟨u1.toNat, u2.toNat, u3.toNat⟩
        attentionTimes := ⟨a1.toNat, a2.toNat, a3.toNat⟩, startBudget := budget.toNat
        paceInterval := pace.toNat, closedPace := closed.toNat }
      item .configTiming
        (num2 show_.toNat ++ num2 desk.toNat ++ num2 release.toNat ++ num2 alert.toNat ++ num2 sag.toNat
          ++ num2 silence.toNat ++ num2 idle.toNat ++ num2 u1.toNat ++ num2 u2.toNat ++ num2 u3.toNat
          ++ num2 a1.toNat ++ num2 a2.toNat ++ num2 a3.toNat ++ [budget] ++ num2 pace.toNat
          ++ num2 closed.toNat)
        (within show_ 250 10000 ∧ within desk 250 10000 ∧ release.toNat ≤ 10000 ∧ within alert 5 300 ∧
          within sag 50 5000 ∧ within silence 10 600 ∧ within idle 10 600 ∧ u1.toNat ≤ 3600 ∧
          u2.toNat ≤ 3600 ∧ u3.toNat ≤ 3600 ∧ a1.toNat ≤ 3600 ∧ a2.toNat ≤ 3600 ∧ a3.toNat ≤ 3600 ∧
          1 ≤ budget.toNat ∧ budget.toNat ≤ 15 ∧ within pace 2 1000 ∧ within closed 100 10000)
        (setTiming timing s) ∧
      (setTiming timing s).timing = timing) ∧
    (∀ timing : Timing,
      let level (sev : Severity) := s.alerts.records.filter fun r => r.severity = sev
      let order := level .urgent ++ level .attention ++ level .notice
      let t := order.foldl (fun u r => if r.state = .opened then climbElapsed r.number u else u)
        { s with timing := timing }
      let same := timing.urgentTimes = s.timing.urgentTimes ∧ timing.attentionTimes = s.timing.attentionTimes
      (same → setTiming timing s = { s with timing := timing }) ∧
      (¬ same → setTiming timing s = reevaluateTone t)) ∧
    (let refused (c : Command) (p : List Byte) := Admitted c port s → Answers c port p s .badValue [] s
     (∀ (l : LineId) (eb e rb r level debounce stuck : Byte) (guard : BitVec 16),
       1 < eb.toNat ∨ (eb = 1 ∧ 15 < e.toNat) ∨ 1 < rb.toNat ∨ (rb = 1 ∧ 1 < r.toNat) →
       refused .configLine (num1 l.val ++ [eb, e, rb, r, level, debounce] ++ num2 guard.toNat ++ [stuck])) ∧
     (∀ (a : AxisId) (flag eb e : Byte) (rest : List Byte), rest.length = 15 →
       1 < eb.toNat ∨ (eb = 1 ∧ 15 < e.toNat) → refused .configAxis (num1 a.val ++ [flag, eb, e] ++ rest)) ∧
     (∀ (c : ChannelId) (role bb b : Byte) (rest : List Byte), rest.length = 5 →
       5 < role.toNat ∨ 1 < bb.toNat ∨ (bb = 1 ∧ (role = 0 ∨ role = 4 ∨ role = 5 ∨
         ((role = 1 ∨ role = 2) ∧ 11 < b.toNat) ∨ (role = 3 ∧ 15 < b.toNat))) →
       refused .configChannel (num1 c.val ++ [role, bb, b] ++ rest)) ∧
     (∀ (mode count : Byte) (rest : List Byte), rest.length = 2 * count.toNat → rest.length ≤ 198 →
       2 < mode.toNat ∨ 40 < count.toNat → refused .configScan (mode :: count :: rest))) ∧
    (∀ (q : PatternId) (pitch envelope repeats : Byte) (on off : BitVec 16),
      item .configTone
        (num1 q.val ++ [pitch] ++ num2 on.toNat ++ num2 off.toNat ++ [envelope, repeats])
        (pitch.toNat ≤ 7 ∧ 20 ≤ on.toNat ∧ on.toNat ≤ 2000 ∧ off.toNat ≤ 2000 ∧ envelope.toNat ≤ 1 ∧
          repeats.toNat ≤ 15)
        (s.modAnnunciators fun x => { x with patterns := modTable x.patterns q fun _ =>
          ⟨⟨pitch.toNat % 8, Nat.mod_lt _ (by decide)⟩, on.toNat, off.toNat,
            if envelope = 0 then .flat else .decay, repeats.toNat⟩ }))

/-- Tier 2. CONFIG-COMMIT makes the nine checks of R207 in their order, each over its items in ascending number; the
first failure is answered BAD_VALUE with its item kind and index, and nothing changes. Otherwise the gallery becomes
CLOSED with GALLERY_MODE in the show and desk queues and the derived fields set: each exhibit's axes are the
configured axes that name it and its presence channel the PRESENCE channel bound to it, with GUARD in the set of an
exhibit that has one; each axis has its position and current channels; windows are UNKNOWN, the arbiter is at its
values of R117, every line is enabled and each assigned HELP line live from its latest sample, the scanner goes from
OFF to WARMING in CLOSED_SCAN, and the rest is kept (R8, R24, R27, R55, R70, R71, R76, R78, R207, R208). RECONFIGURE
is refused NOT_PERMITTED while an exhibit is in SERVICE; otherwise the gallery becomes SETUP with GALLERY_MODE in the
show and desk queues, whose numbering continues; the blocks are at their warm-restart values, the scanner OFF, every
line INERT, and the configuration, the permits, the links, the ports' responses and masks are kept (R8, R24, R53,
R55, R71, R98, R117, R143, R152, R159, R181, R194, R203, R209, R210). A latest sample taken from the input's level is
log 5; the lowest-numbered channel of several bound to an axis that is not configured, log 23. -/
def Obligations.CommitAndReconfigure : Prop :=
  (∀ s : State,
    let conf (a : AxisId) := (s.axis a).configured = true
    let bound (role : ChannelRole) (a : AxisId) (c : ChannelId) :=
      (s.channel c).role = role ∧ (s.channel c).binding = some (.axis a)
    let count (role : ChannelRole) (a : AxisId) := ((List.finRange 32).filter fun c =>
      (s.channel c).role = role && (s.channel c).binding = some (.axis a)).length
    let ordered (x : LevelTimes) := x.level1 ≤ x.level2 ∧ x.level2 ≤ x.level3
    let axis (bad : AxisId → Prop) : Nat × (Nat → Prop) := (3, fun i => ∃ a, a.val = i ∧ conf a ∧ bad a)
    let channel (bad : ChannelId → Prop) : Nat × (Nat → Prop) := (4, fun i => ∃ c, c.val = i ∧ bad c)
    let checks : List (Nat × (Nat → Prop)) :=
      [axis fun a => (s.axis a).exhibit = none,
        (1, fun i => ∃ e : ExhibitId, e.val = i ∧ 4 < ((List.finRange 12).filter fun a =>
          (s.axis a).configured && (s.axis a).exhibit = some e).length),
        axis fun a => count .position a ≠ 1 ∨ 1 < count .current a,
        channel fun c => ((s.channel c).role = .position ∨ (s.channel c).role = .current) ∧
          (s.channel c).binding = none,
        axis fun a => (s.axis a).targetMax ≤ (s.axis a).targetMin ∨ ∃ c, bound .position a c ∧
          ¬ ((s.channel c).lower ≤ (s.axis a).targetMin ∧ (s.axis a).targetMax ≤ (s.channel c).upper),
        axis fun a => s.timing.startBudget < (s.axis a).startCost,
        channel fun c => (s.channel c).role = .presence ∧ (s.channel c).binding = none,
        channel fun c => (s.channel c).role = .presence ∧ ∃ d, d < c ∧ (s.channel d).role = .presence ∧
          (s.channel d).binding = (s.channel c).binding,
        channel fun c => (s.channel c).role = .supply ∧ ∃ d, d < c ∧ (s.channel d).role = .supply,
        (5, fun i => i = 0 ∧ s.scanner.scanList = [] ∧ ∃ a, conf a),
        (5, fun i => ∃ x, s.scanner.scanList[i]? = some x ∧ (s.channel x.channel).role = .none),
        axis fun a => ∃ c, bound .position a c ∧ ∀ x ∈ s.scanner.scanList, x.channel ≠ c,
        (6, fun i => (i = 1 ∧ ¬ ordered s.timing.attentionTimes) ∨ (i = 2 ∧ ¬ ordered s.timing.urgentTimes)),
        (2, fun i => ∃ l : LineId, l.val = i ∧ (s.line l).exhibit ≠ none ∧ (s.line l).role = none)]
    let passes (check : Nat × (Nat → Prop)) := ∀ i, ¬ check.2 i
    (commitFault s = none ↔ ∀ check ∈ checks, passes check) ∧
    (∀ k i, commitFault s = some (k, i) ↔ ∃ before check after, checks = before ++ check :: after ∧
      (∀ x ∈ before, passes x) ∧ check.1 = k ∧ check.2 i ∧ ∀ j, j < i → ¬ check.2 j)) ∧
  (∀ (port : Port) (s : State), Admitted .configCommit port s →
    let boundTo (role : ChannelRole) (b : Binding) :=
      (List.finRange 32).find? fun c => (s.channel c).role = role && (s.channel c).binding = some b
    let event : Event := { kind := .galleryMode, value := some 1 }
    (∀ k i, commitFault s = some (k, i) →
      Answers .configCommit port [] s .badValue (num1 k ++ num1 i) s) ∧
    (commitFault s = none → let t := commitHub s
      Answers .configCommit port [] s .ok [] t ∧ t.mode = .closed ∧ t.clock = s.clock ∧ t.timing = s.timing ∧
      (∀ e, t.exhibit e = { s.exhibit e with
        state := .closed, active := none, queue := [], guardRelease := none, guardLong := none
        axes := (List.finRange 12).filter fun a => (s.axis a).configured && (s.axis a).exhibit = some e
        presence := boundTo .presence (.exhibit e)
        holds := { guard := (boundTo .presence (.exhibit e)).isSome } }) ∧
      (∀ a, t.axis a = { s.axis a with
        positionChannel := boundTo .position (.axis a), currentChannel := boundTo .current (.axis a) }) ∧
      (∀ c, t.channel c = { s.channel c with
        latest := none, window := .unknown, candidate := none, agreement := 0 }) ∧
      (∀ l, t.line l = { s.line l with
        enabled := true, latest := (s.line l).input = (s.line l).activeLevel, accepted := false
        destination := none, lastAccepted := none, debounceTimer := 0, stuckTimer := none
        state := if (s.line l).exhibit.isSome ∧ (s.line l).role = some .help then
            (if (s.line l).input = (s.line l).activeLevel then .waitRelease else .released)
          else .inert }) ∧
      t.showQueue = (appendTo .showQ event s).showQueue ∧ t.deskQueue = (appendTo .deskQ event s).deskQueue ∧
      t.arbiter = { unitsInUse := 0, startQueue := [], accel := Vector.replicate 12 none, sag := .normal
                    sagTimer := none } ∧
      (s.scanner.regime = .off → s.scanner.state = .off → t.scanner = { s.scanner with
        regime := .closedScan, state := .warming, passPosition := none, inFlight := none, warmUp := some 1
        pace := none, closedPaceTimer := some s.timing.closedPace, passRequested := false }) ∧
      t.scanner.scanList = s.scanner.scanList ∧ t.scanner.dayMode = s.scanner.dayMode ∧
      { t with
        mode := s.mode, exhibits := s.exhibits, axes := s.axes, channels := s.channels, lines := s.lines
        showQueue := s.showQueue, deskQueue := s.deskQueue, arbiter := s.arbiter, scanner := s.scanner } = s)) ∧
  (∀ s : State, Admitted .reconfigure .deskPort s →
    let serving := ∃ e, (s.exhibit e).state = .service
    let event (n : BitVec 32) : EventQueue := {
      events := [{ kind := .galleryMode, seq := n, time := s.clock, value := some 0 }]
      nextSeq := nextSequence n, gap := false }
    (serving → Answers .reconfigure .deskPort [] s .notPermitted [] s) ∧
    (¬ serving → ∃ t, Answers .reconfigure .deskPort [] s .ok [] t ∧
      t = { s with
        mode := .setup, settledNoted := false, exhibits := t.exhibits, lines := t.lines
        showQueue := event s.showQueue.nextSeq, deskQueue := event s.deskQueue.nextSeq
        serviceQueue := { events := [], nextSeq := s.serviceQueue.nextSeq, gap := false }
        channels := t.channels
        scanner := { s.scanner with
          regime := .off, state := .off, passPosition := none, inFlight := none, passRequested := false
          warmUp := none, pace := none, closedPaceTimer := none }
        axes := t.axes
        arbiter := { unitsInUse := 0, startQueue := [], accel := Vector.replicate 12 none, sag := .normal
                     sagTimer := none }
        frames := t.frames, freeList := List.finRange 48, takenSet := [], retiredList := []
        tenures := t.tenures, serviceIdle := none
        alerts := { records := [], nextNumber := s.alerts.nextNumber }
        annunciators := { s.annunciators with
          tone := .silent, silence := none, silenceBegan := none, lampTest := none }
        showSpi := { s.showSpi with edges := { noteIn := false, noteTaken := false } }
        deskSpi := { s.deskSpi with edges := { noteIn := false, noteTaken := false } }
        notes := t.notes } ∧
      (∀ e, t.exhibit e = { s.exhibit e with
        state := .closed, active := none, queue := [], guardRelease := none, guardLong := none
        holds := { guard := (s.exhibit e).presence.isSome, attendant := false, lapse := false
                   supply := false } }) ∧
      (∀ l, t.line l = { s.line l with
        enabled := true, latest := (s.line l).input = (s.line l).activeLevel, state := .inert, accepted := false
        destination := none, lastAccepted := none, debounceTimer := 0, stuckTimer := none }) ∧
      (∀ c, t.channel c = { s.channel c with
        latest := none, window := .unknown, candidate := none, agreement := 0 }) ∧
      (∀ a, t.axis a = { s.axis a with
        state := .disabled, move := none, drive := .off, corrections := 0, fault := none, travel := none
        settle := none, suppress := false }) ∧
      (∀ f, t.frame f = { exhibit := none, steps := [], currentGroup := none, run := [] }) ∧
      (∀ e, t.tenure e = none) ∧ (∀ i, t.note i = none)))

/-- Tier 2. One millisecond: the gallery clock advances by 1, modulo 2^32; the flash counter by 1, from 999
to 0; every running timer has one millisecond less, down to 0, and the note in progress one more; nothing
else changes but the pins that follow (R1, R133, R183, R191; the tick, log 2). -/
def Obligations.ClockTickAdvancesTimers : Prop :=
  ∀ s : State, s.inReset = false →
    let less (t : Option Nat) : Option Nat := match t with | none => none | some n => some (n - 1)
    let step (r : StepRun) : StepRun := match r.timer with
      | .running n => { r with timer := .running (n - 1) }
      | _ => r
    let note (x : Note) : Note := { x with elapsed := min (x.elapsed + 1) (x.onTime + x.offTime) }
    ∃ t, exec .galleryClockTick s = .next (drivePins t) ∧
      t.clock = s.clock + 1 ∧ t.annunciators.flash = (s.annunciators.flash + 1) % 1000 ∧
      (∀ e, t.exhibit e = { s.exhibit e with
        guardRelease := less (s.exhibit e).guardRelease, guardLong := less (s.exhibit e).guardLong }) ∧
      (∀ a, t.axis a = { s.axis a with travel := less (s.axis a).travel, settle := less (s.axis a).settle }) ∧
      (∀ a, t.arbiter.accel.get a = less (s.arbiter.accel.get a)) ∧
      t.arbiter = { s.arbiter with accel := t.arbiter.accel, sagTimer := less s.arbiter.sagTimer } ∧
      t.scanner = { s.scanner with
        warmUp := less s.scanner.warmUp, pace := less s.scanner.pace
        closedPaceTimer := less s.scanner.closedPaceTimer } ∧
      (∀ f, t.frame f = { s.frame f with run := (s.frame f).run.map step }) ∧
      t.annunciators = { s.annunciators with
        tone := (match s.annunciators.tone with
          | .silent => .silent
          | .alertTone x => .alertTone (note x)
          | .chime x k => .chime (note x) k)
        silence := less s.annunciators.silence, lampTest := less s.annunciators.lampTest
        flash := t.annunciators.flash } ∧
      (∀ m, t.link m = { s.link m with timer := less (s.link m).timer }) ∧
      t.serviceIdle = less s.serviceIdle ∧ t.uart = { s.uart with quiet := less s.uart.quiet } ∧
      { s with
        clock := t.clock, exhibits := t.exhibits, axes := t.axes, arbiter := t.arbiter, scanner := t.scanner
        frames := t.frames, annunciators := t.annunciators, showLink := t.showLink, deskLink := t.deskLink
        serviceIdle := t.serviceIdle, uart := t.uart } = t

end
end

