-- ==== Sys2Proof/Decode.lean ====
section
/-! DEFINITION. The words of the table: spec/opcode_table.json gives no row any bits, so no word spells a
command. The bytes of command frames are read by the ports (Machine/Frames.lean). -/

namespace Sys2Proof

/-- The command that a word spells by the table's bits: the table gives bits to no row. -/
def decodeTableWord (_nbits _w : Nat) : Option Instr := none

end Sys2Proof
end

