-- ==== Sys2Proof/Laws/State.lean ====
section
/-! SUPPORT. One lemma for each field under each update of the state, and for each accessor. -/

namespace Sys2Proof.Machine

/-! ## Tables -/

/-- An entry read through its index. -/
theorem get_as_index {α : Type} {n : Nat} (v : Vector α n) (i : Fin n) : v.get i = v[i.val] := rfl

/-- Entry `i` of an updated table is the updated entry. -/
@[simp] theorem get_modTable_same {α : Type} {n : Nat} (v : Vector α n) (i : Fin n) (f : α → α) :
    (modTable v i f).get i = f (v.get i) := by
  simp [modTable, get_as_index]

/-- Any other entry of an updated table is as it was. -/
theorem get_modTable_other {α : Type} {n : Nat} (v : Vector α n) (i j : Fin n) (f : α → α) (h : j ≠ i) :
    (modTable v i f).get j = v.get j := by
  have h' : i.val ≠ j.val := fun e => h (Fin.ext e.symm)
  simp [modTable, get_as_index, h']

/-- An entry of an updated table, by cases. -/
theorem get_modTable {α : Type} {n : Nat} (v : Vector α n) (i j : Fin n) (f : α → α) :
    (modTable v i f).get j = if j = i then f (v.get i) else v.get j := by
  by_cases h : j = i
  · subst h; simp
  · simp [h, get_modTable_other]

/-- An entry of a mapped table. -/
@[simp] theorem get_mapTable {α : Type} {n : Nat} (v : Vector α n) (i : Fin n) (f : α → α) :
    (mapTable f v).get i = f (v.get i) := by
  simp [mapTable, get_as_index]

/-! ## modExhibit -/

@[simp] theorem modExhibit_exhibit_same (s : State) (e : ExhibitId) (f : Exhibit → Exhibit) : (s.modExhibit e f).exhibit e = f (s.exhibit e) :=
  get_modTable_same _ _ _
theorem modExhibit_exhibit_other (s : State) (e : ExhibitId) (f : Exhibit → Exhibit) (j : ExhibitId) (h : j ≠ e) :
    (s.modExhibit e f).exhibit j = s.exhibit j := get_modTable_other _ _ _ _ h
@[simp] theorem modExhibit_line (s : State) (e : ExhibitId) (f : Exhibit → Exhibit) (j : LineId) : (s.modExhibit e f).line j = s.line j := rfl
@[simp] theorem modExhibit_channel (s : State) (e : ExhibitId) (f : Exhibit → Exhibit) (j : ChannelId) : (s.modExhibit e f).channel j = s.channel j := rfl
@[simp] theorem modExhibit_axis (s : State) (e : ExhibitId) (f : Exhibit → Exhibit) (j : AxisId) : (s.modExhibit e f).axis j = s.axis j := rfl
@[simp] theorem modExhibit_frame (s : State) (e : ExhibitId) (f : Exhibit → Exhibit) (j : FrameId) : (s.modExhibit e f).frame j = s.frame j := rfl
@[simp] theorem modExhibit_tenure (s : State) (e : ExhibitId) (f : Exhibit → Exhibit) (j : ExhibitId) : (s.modExhibit e f).tenure j = s.tenure j := rfl
@[simp] theorem modExhibit_note (s : State) (e : ExhibitId) (f : Exhibit → Exhibit) (j : SlotId) : (s.modExhibit e f).note j = s.note j := rfl
@[simp] theorem modExhibit_inReset (s : State) (e : ExhibitId) (f : Exhibit → Exhibit) : (s.modExhibit e f).inReset = s.inReset := rfl
@[simp] theorem modExhibit_clock (s : State) (e : ExhibitId) (f : Exhibit → Exhibit) : (s.modExhibit e f).clock = s.clock := rfl
@[simp] theorem modExhibit_mode (s : State) (e : ExhibitId) (f : Exhibit → Exhibit) : (s.modExhibit e f).mode = s.mode := rfl
@[simp] theorem modExhibit_settledNoted (s : State) (e : ExhibitId) (f : Exhibit → Exhibit) : (s.modExhibit e f).settledNoted = s.settledNoted := rfl
@[simp] theorem modExhibit_exhibits (s : State) (e : ExhibitId) (f : Exhibit → Exhibit) : (s.modExhibit e f).exhibits = modTable s.exhibits e f := rfl
@[simp] theorem modExhibit_lines (s : State) (e : ExhibitId) (f : Exhibit → Exhibit) : (s.modExhibit e f).lines = s.lines := rfl
@[simp] theorem modExhibit_showQueue (s : State) (e : ExhibitId) (f : Exhibit → Exhibit) : (s.modExhibit e f).showQueue = s.showQueue := rfl
@[simp] theorem modExhibit_deskQueue (s : State) (e : ExhibitId) (f : Exhibit → Exhibit) : (s.modExhibit e f).deskQueue = s.deskQueue := rfl
@[simp] theorem modExhibit_serviceQueue (s : State) (e : ExhibitId) (f : Exhibit → Exhibit) : (s.modExhibit e f).serviceQueue = s.serviceQueue := rfl
@[simp] theorem modExhibit_channels (s : State) (e : ExhibitId) (f : Exhibit → Exhibit) : (s.modExhibit e f).channels = s.channels := rfl
@[simp] theorem modExhibit_scanner (s : State) (e : ExhibitId) (f : Exhibit → Exhibit) : (s.modExhibit e f).scanner = s.scanner := rfl
@[simp] theorem modExhibit_timing (s : State) (e : ExhibitId) (f : Exhibit → Exhibit) : (s.modExhibit e f).timing = s.timing := rfl
@[simp] theorem modExhibit_axes (s : State) (e : ExhibitId) (f : Exhibit → Exhibit) : (s.modExhibit e f).axes = s.axes := rfl
@[simp] theorem modExhibit_arbiter (s : State) (e : ExhibitId) (f : Exhibit → Exhibit) : (s.modExhibit e f).arbiter = s.arbiter := rfl
@[simp] theorem modExhibit_frames (s : State) (e : ExhibitId) (f : Exhibit → Exhibit) : (s.modExhibit e f).frames = s.frames := rfl
@[simp] theorem modExhibit_freeList (s : State) (e : ExhibitId) (f : Exhibit → Exhibit) : (s.modExhibit e f).freeList = s.freeList := rfl
@[simp] theorem modExhibit_takenSet (s : State) (e : ExhibitId) (f : Exhibit → Exhibit) : (s.modExhibit e f).takenSet = s.takenSet := rfl
@[simp] theorem modExhibit_retiredList (s : State) (e : ExhibitId) (f : Exhibit → Exhibit) : (s.modExhibit e f).retiredList = s.retiredList := rfl
@[simp] theorem modExhibit_showLink (s : State) (e : ExhibitId) (f : Exhibit → Exhibit) : (s.modExhibit e f).showLink = s.showLink := rfl
@[simp] theorem modExhibit_deskLink (s : State) (e : ExhibitId) (f : Exhibit → Exhibit) : (s.modExhibit e f).deskLink = s.deskLink := rfl
@[simp] theorem modExhibit_tenures (s : State) (e : ExhibitId) (f : Exhibit → Exhibit) : (s.modExhibit e f).tenures = s.tenures := rfl
@[simp] theorem modExhibit_serviceIdle (s : State) (e : ExhibitId) (f : Exhibit → Exhibit) : (s.modExhibit e f).serviceIdle = s.serviceIdle := rfl
@[simp] theorem modExhibit_alerts (s : State) (e : ExhibitId) (f : Exhibit → Exhibit) : (s.modExhibit e f).alerts = s.alerts := rfl
@[simp] theorem modExhibit_annunciators (s : State) (e : ExhibitId) (f : Exhibit → Exhibit) : (s.modExhibit e f).annunciators = s.annunciators := rfl
@[simp] theorem modExhibit_showSpi (s : State) (e : ExhibitId) (f : Exhibit → Exhibit) : (s.modExhibit e f).showSpi = s.showSpi := rfl
@[simp] theorem modExhibit_deskSpi (s : State) (e : ExhibitId) (f : Exhibit → Exhibit) : (s.modExhibit e f).deskSpi = s.deskSpi := rfl
@[simp] theorem modExhibit_uart (s : State) (e : ExhibitId) (f : Exhibit → Exhibit) : (s.modExhibit e f).uart = s.uart := rfl
@[simp] theorem modExhibit_notes (s : State) (e : ExhibitId) (f : Exhibit → Exhibit) : (s.modExhibit e f).notes = s.notes := rfl
@[simp] theorem modExhibit_pins (s : State) (e : ExhibitId) (f : Exhibit → Exhibit) : (s.modExhibit e f).pins = s.pins := rfl
@[simp] theorem modExhibit_pending (s : State) (e : ExhibitId) (f : Exhibit → Exhibit) : (s.modExhibit e f).pending = s.pending := rfl

/-! ## modLine -/

@[simp] theorem modLine_line_same (s : State) (l : LineId) (f : Line → Line) : (s.modLine l f).line l = f (s.line l) :=
  get_modTable_same _ _ _
theorem modLine_line_other (s : State) (l : LineId) (f : Line → Line) (j : LineId) (h : j ≠ l) :
    (s.modLine l f).line j = s.line j := get_modTable_other _ _ _ _ h
@[simp] theorem modLine_exhibit (s : State) (l : LineId) (f : Line → Line) (j : ExhibitId) : (s.modLine l f).exhibit j = s.exhibit j := rfl
@[simp] theorem modLine_channel (s : State) (l : LineId) (f : Line → Line) (j : ChannelId) : (s.modLine l f).channel j = s.channel j := rfl
@[simp] theorem modLine_axis (s : State) (l : LineId) (f : Line → Line) (j : AxisId) : (s.modLine l f).axis j = s.axis j := rfl
@[simp] theorem modLine_frame (s : State) (l : LineId) (f : Line → Line) (j : FrameId) : (s.modLine l f).frame j = s.frame j := rfl
@[simp] theorem modLine_tenure (s : State) (l : LineId) (f : Line → Line) (j : ExhibitId) : (s.modLine l f).tenure j = s.tenure j := rfl
@[simp] theorem modLine_note (s : State) (l : LineId) (f : Line → Line) (j : SlotId) : (s.modLine l f).note j = s.note j := rfl
@[simp] theorem modLine_inReset (s : State) (l : LineId) (f : Line → Line) : (s.modLine l f).inReset = s.inReset := rfl
@[simp] theorem modLine_clock (s : State) (l : LineId) (f : Line → Line) : (s.modLine l f).clock = s.clock := rfl
@[simp] theorem modLine_mode (s : State) (l : LineId) (f : Line → Line) : (s.modLine l f).mode = s.mode := rfl
@[simp] theorem modLine_settledNoted (s : State) (l : LineId) (f : Line → Line) : (s.modLine l f).settledNoted = s.settledNoted := rfl
@[simp] theorem modLine_exhibits (s : State) (l : LineId) (f : Line → Line) : (s.modLine l f).exhibits = s.exhibits := rfl
@[simp] theorem modLine_lines (s : State) (l : LineId) (f : Line → Line) : (s.modLine l f).lines = modTable s.lines l f := rfl
@[simp] theorem modLine_showQueue (s : State) (l : LineId) (f : Line → Line) : (s.modLine l f).showQueue = s.showQueue := rfl
@[simp] theorem modLine_deskQueue (s : State) (l : LineId) (f : Line → Line) : (s.modLine l f).deskQueue = s.deskQueue := rfl
@[simp] theorem modLine_serviceQueue (s : State) (l : LineId) (f : Line → Line) : (s.modLine l f).serviceQueue = s.serviceQueue := rfl
@[simp] theorem modLine_channels (s : State) (l : LineId) (f : Line → Line) : (s.modLine l f).channels = s.channels := rfl
@[simp] theorem modLine_scanner (s : State) (l : LineId) (f : Line → Line) : (s.modLine l f).scanner = s.scanner := rfl
@[simp] theorem modLine_timing (s : State) (l : LineId) (f : Line → Line) : (s.modLine l f).timing = s.timing := rfl
@[simp] theorem modLine_axes (s : State) (l : LineId) (f : Line → Line) : (s.modLine l f).axes = s.axes := rfl
@[simp] theorem modLine_arbiter (s : State) (l : LineId) (f : Line → Line) : (s.modLine l f).arbiter = s.arbiter := rfl
@[simp] theorem modLine_frames (s : State) (l : LineId) (f : Line → Line) : (s.modLine l f).frames = s.frames := rfl
@[simp] theorem modLine_freeList (s : State) (l : LineId) (f : Line → Line) : (s.modLine l f).freeList = s.freeList := rfl
@[simp] theorem modLine_takenSet (s : State) (l : LineId) (f : Line → Line) : (s.modLine l f).takenSet = s.takenSet := rfl
@[simp] theorem modLine_retiredList (s : State) (l : LineId) (f : Line → Line) : (s.modLine l f).retiredList = s.retiredList := rfl
@[simp] theorem modLine_showLink (s : State) (l : LineId) (f : Line → Line) : (s.modLine l f).showLink = s.showLink := rfl
@[simp] theorem modLine_deskLink (s : State) (l : LineId) (f : Line → Line) : (s.modLine l f).deskLink = s.deskLink := rfl
@[simp] theorem modLine_tenures (s : State) (l : LineId) (f : Line → Line) : (s.modLine l f).tenures = s.tenures := rfl
@[simp] theorem modLine_serviceIdle (s : State) (l : LineId) (f : Line → Line) : (s.modLine l f).serviceIdle = s.serviceIdle := rfl
@[simp] theorem modLine_alerts (s : State) (l : LineId) (f : Line → Line) : (s.modLine l f).alerts = s.alerts := rfl
@[simp] theorem modLine_annunciators (s : State) (l : LineId) (f : Line → Line) : (s.modLine l f).annunciators = s.annunciators := rfl
@[simp] theorem modLine_showSpi (s : State) (l : LineId) (f : Line → Line) : (s.modLine l f).showSpi = s.showSpi := rfl
@[simp] theorem modLine_deskSpi (s : State) (l : LineId) (f : Line → Line) : (s.modLine l f).deskSpi = s.deskSpi := rfl
@[simp] theorem modLine_uart (s : State) (l : LineId) (f : Line → Line) : (s.modLine l f).uart = s.uart := rfl
@[simp] theorem modLine_notes (s : State) (l : LineId) (f : Line → Line) : (s.modLine l f).notes = s.notes := rfl
@[simp] theorem modLine_pins (s : State) (l : LineId) (f : Line → Line) : (s.modLine l f).pins = s.pins := rfl
@[simp] theorem modLine_pending (s : State) (l : LineId) (f : Line → Line) : (s.modLine l f).pending = s.pending := rfl

/-! ## modChannel -/

@[simp] theorem modChannel_channel_same (s : State) (c : ChannelId) (f : Channel → Channel) : (s.modChannel c f).channel c = f (s.channel c) :=
  get_modTable_same _ _ _
theorem modChannel_channel_other (s : State) (c : ChannelId) (f : Channel → Channel) (j : ChannelId) (h : j ≠ c) :
    (s.modChannel c f).channel j = s.channel j := get_modTable_other _ _ _ _ h
@[simp] theorem modChannel_exhibit (s : State) (c : ChannelId) (f : Channel → Channel) (j : ExhibitId) : (s.modChannel c f).exhibit j = s.exhibit j := rfl
@[simp] theorem modChannel_line (s : State) (c : ChannelId) (f : Channel → Channel) (j : LineId) : (s.modChannel c f).line j = s.line j := rfl
@[simp] theorem modChannel_axis (s : State) (c : ChannelId) (f : Channel → Channel) (j : AxisId) : (s.modChannel c f).axis j = s.axis j := rfl
@[simp] theorem modChannel_frame (s : State) (c : ChannelId) (f : Channel → Channel) (j : FrameId) : (s.modChannel c f).frame j = s.frame j := rfl
@[simp] theorem modChannel_tenure (s : State) (c : ChannelId) (f : Channel → Channel) (j : ExhibitId) : (s.modChannel c f).tenure j = s.tenure j := rfl
@[simp] theorem modChannel_note (s : State) (c : ChannelId) (f : Channel → Channel) (j : SlotId) : (s.modChannel c f).note j = s.note j := rfl
@[simp] theorem modChannel_inReset (s : State) (c : ChannelId) (f : Channel → Channel) : (s.modChannel c f).inReset = s.inReset := rfl
@[simp] theorem modChannel_clock (s : State) (c : ChannelId) (f : Channel → Channel) : (s.modChannel c f).clock = s.clock := rfl
@[simp] theorem modChannel_mode (s : State) (c : ChannelId) (f : Channel → Channel) : (s.modChannel c f).mode = s.mode := rfl
@[simp] theorem modChannel_settledNoted (s : State) (c : ChannelId) (f : Channel → Channel) : (s.modChannel c f).settledNoted = s.settledNoted := rfl
@[simp] theorem modChannel_exhibits (s : State) (c : ChannelId) (f : Channel → Channel) : (s.modChannel c f).exhibits = s.exhibits := rfl
@[simp] theorem modChannel_lines (s : State) (c : ChannelId) (f : Channel → Channel) : (s.modChannel c f).lines = s.lines := rfl
@[simp] theorem modChannel_showQueue (s : State) (c : ChannelId) (f : Channel → Channel) : (s.modChannel c f).showQueue = s.showQueue := rfl
@[simp] theorem modChannel_deskQueue (s : State) (c : ChannelId) (f : Channel → Channel) : (s.modChannel c f).deskQueue = s.deskQueue := rfl
@[simp] theorem modChannel_serviceQueue (s : State) (c : ChannelId) (f : Channel → Channel) : (s.modChannel c f).serviceQueue = s.serviceQueue := rfl
@[simp] theorem modChannel_channels (s : State) (c : ChannelId) (f : Channel → Channel) : (s.modChannel c f).channels = modTable s.channels c f := rfl
@[simp] theorem modChannel_scanner (s : State) (c : ChannelId) (f : Channel → Channel) : (s.modChannel c f).scanner = s.scanner := rfl
@[simp] theorem modChannel_timing (s : State) (c : ChannelId) (f : Channel → Channel) : (s.modChannel c f).timing = s.timing := rfl
@[simp] theorem modChannel_axes (s : State) (c : ChannelId) (f : Channel → Channel) : (s.modChannel c f).axes = s.axes := rfl
@[simp] theorem modChannel_arbiter (s : State) (c : ChannelId) (f : Channel → Channel) : (s.modChannel c f).arbiter = s.arbiter := rfl
@[simp] theorem modChannel_frames (s : State) (c : ChannelId) (f : Channel → Channel) : (s.modChannel c f).frames = s.frames := rfl
@[simp] theorem modChannel_freeList (s : State) (c : ChannelId) (f : Channel → Channel) : (s.modChannel c f).freeList = s.freeList := rfl
@[simp] theorem modChannel_takenSet (s : State) (c : ChannelId) (f : Channel → Channel) : (s.modChannel c f).takenSet = s.takenSet := rfl
@[simp] theorem modChannel_retiredList (s : State) (c : ChannelId) (f : Channel → Channel) : (s.modChannel c f).retiredList = s.retiredList := rfl
@[simp] theorem modChannel_showLink (s : State) (c : ChannelId) (f : Channel → Channel) : (s.modChannel c f).showLink = s.showLink := rfl
@[simp] theorem modChannel_deskLink (s : State) (c : ChannelId) (f : Channel → Channel) : (s.modChannel c f).deskLink = s.deskLink := rfl
@[simp] theorem modChannel_tenures (s : State) (c : ChannelId) (f : Channel → Channel) : (s.modChannel c f).tenures = s.tenures := rfl
@[simp] theorem modChannel_serviceIdle (s : State) (c : ChannelId) (f : Channel → Channel) : (s.modChannel c f).serviceIdle = s.serviceIdle := rfl
@[simp] theorem modChannel_alerts (s : State) (c : ChannelId) (f : Channel → Channel) : (s.modChannel c f).alerts = s.alerts := rfl
@[simp] theorem modChannel_annunciators (s : State) (c : ChannelId) (f : Channel → Channel) : (s.modChannel c f).annunciators = s.annunciators := rfl
@[simp] theorem modChannel_showSpi (s : State) (c : ChannelId) (f : Channel → Channel) : (s.modChannel c f).showSpi = s.showSpi := rfl
@[simp] theorem modChannel_deskSpi (s : State) (c : ChannelId) (f : Channel → Channel) : (s.modChannel c f).deskSpi = s.deskSpi := rfl
@[simp] theorem modChannel_uart (s : State) (c : ChannelId) (f : Channel → Channel) : (s.modChannel c f).uart = s.uart := rfl
@[simp] theorem modChannel_notes (s : State) (c : ChannelId) (f : Channel → Channel) : (s.modChannel c f).notes = s.notes := rfl
@[simp] theorem modChannel_pins (s : State) (c : ChannelId) (f : Channel → Channel) : (s.modChannel c f).pins = s.pins := rfl
@[simp] theorem modChannel_pending (s : State) (c : ChannelId) (f : Channel → Channel) : (s.modChannel c f).pending = s.pending := rfl

/-! ## modAxis -/

@[simp] theorem modAxis_axis_same (s : State) (a : AxisId) (f : Axis → Axis) : (s.modAxis a f).axis a = f (s.axis a) :=
  get_modTable_same _ _ _
theorem modAxis_axis_other (s : State) (a : AxisId) (f : Axis → Axis) (j : AxisId) (h : j ≠ a) :
    (s.modAxis a f).axis j = s.axis j := get_modTable_other _ _ _ _ h
@[simp] theorem modAxis_exhibit (s : State) (a : AxisId) (f : Axis → Axis) (j : ExhibitId) : (s.modAxis a f).exhibit j = s.exhibit j := rfl
@[simp] theorem modAxis_line (s : State) (a : AxisId) (f : Axis → Axis) (j : LineId) : (s.modAxis a f).line j = s.line j := rfl
@[simp] theorem modAxis_channel (s : State) (a : AxisId) (f : Axis → Axis) (j : ChannelId) : (s.modAxis a f).channel j = s.channel j := rfl
@[simp] theorem modAxis_frame (s : State) (a : AxisId) (f : Axis → Axis) (j : FrameId) : (s.modAxis a f).frame j = s.frame j := rfl
@[simp] theorem modAxis_tenure (s : State) (a : AxisId) (f : Axis → Axis) (j : ExhibitId) : (s.modAxis a f).tenure j = s.tenure j := rfl
@[simp] theorem modAxis_note (s : State) (a : AxisId) (f : Axis → Axis) (j : SlotId) : (s.modAxis a f).note j = s.note j := rfl
@[simp] theorem modAxis_inReset (s : State) (a : AxisId) (f : Axis → Axis) : (s.modAxis a f).inReset = s.inReset := rfl
@[simp] theorem modAxis_clock (s : State) (a : AxisId) (f : Axis → Axis) : (s.modAxis a f).clock = s.clock := rfl
@[simp] theorem modAxis_mode (s : State) (a : AxisId) (f : Axis → Axis) : (s.modAxis a f).mode = s.mode := rfl
@[simp] theorem modAxis_settledNoted (s : State) (a : AxisId) (f : Axis → Axis) : (s.modAxis a f).settledNoted = s.settledNoted := rfl
@[simp] theorem modAxis_exhibits (s : State) (a : AxisId) (f : Axis → Axis) : (s.modAxis a f).exhibits = s.exhibits := rfl
@[simp] theorem modAxis_lines (s : State) (a : AxisId) (f : Axis → Axis) : (s.modAxis a f).lines = s.lines := rfl
@[simp] theorem modAxis_showQueue (s : State) (a : AxisId) (f : Axis → Axis) : (s.modAxis a f).showQueue = s.showQueue := rfl
@[simp] theorem modAxis_deskQueue (s : State) (a : AxisId) (f : Axis → Axis) : (s.modAxis a f).deskQueue = s.deskQueue := rfl
@[simp] theorem modAxis_serviceQueue (s : State) (a : AxisId) (f : Axis → Axis) : (s.modAxis a f).serviceQueue = s.serviceQueue := rfl
@[simp] theorem modAxis_channels (s : State) (a : AxisId) (f : Axis → Axis) : (s.modAxis a f).channels = s.channels := rfl
@[simp] theorem modAxis_scanner (s : State) (a : AxisId) (f : Axis → Axis) : (s.modAxis a f).scanner = s.scanner := rfl
@[simp] theorem modAxis_timing (s : State) (a : AxisId) (f : Axis → Axis) : (s.modAxis a f).timing = s.timing := rfl
@[simp] theorem modAxis_axes (s : State) (a : AxisId) (f : Axis → Axis) : (s.modAxis a f).axes = modTable s.axes a f := rfl
@[simp] theorem modAxis_arbiter (s : State) (a : AxisId) (f : Axis → Axis) : (s.modAxis a f).arbiter = s.arbiter := rfl
@[simp] theorem modAxis_frames (s : State) (a : AxisId) (f : Axis → Axis) : (s.modAxis a f).frames = s.frames := rfl
@[simp] theorem modAxis_freeList (s : State) (a : AxisId) (f : Axis → Axis) : (s.modAxis a f).freeList = s.freeList := rfl
@[simp] theorem modAxis_takenSet (s : State) (a : AxisId) (f : Axis → Axis) : (s.modAxis a f).takenSet = s.takenSet := rfl
@[simp] theorem modAxis_retiredList (s : State) (a : AxisId) (f : Axis → Axis) : (s.modAxis a f).retiredList = s.retiredList := rfl
@[simp] theorem modAxis_showLink (s : State) (a : AxisId) (f : Axis → Axis) : (s.modAxis a f).showLink = s.showLink := rfl
@[simp] theorem modAxis_deskLink (s : State) (a : AxisId) (f : Axis → Axis) : (s.modAxis a f).deskLink = s.deskLink := rfl
@[simp] theorem modAxis_tenures (s : State) (a : AxisId) (f : Axis → Axis) : (s.modAxis a f).tenures = s.tenures := rfl
@[simp] theorem modAxis_serviceIdle (s : State) (a : AxisId) (f : Axis → Axis) : (s.modAxis a f).serviceIdle = s.serviceIdle := rfl
@[simp] theorem modAxis_alerts (s : State) (a : AxisId) (f : Axis → Axis) : (s.modAxis a f).alerts = s.alerts := rfl
@[simp] theorem modAxis_annunciators (s : State) (a : AxisId) (f : Axis → Axis) : (s.modAxis a f).annunciators = s.annunciators := rfl
@[simp] theorem modAxis_showSpi (s : State) (a : AxisId) (f : Axis → Axis) : (s.modAxis a f).showSpi = s.showSpi := rfl
@[simp] theorem modAxis_deskSpi (s : State) (a : AxisId) (f : Axis → Axis) : (s.modAxis a f).deskSpi = s.deskSpi := rfl
@[simp] theorem modAxis_uart (s : State) (a : AxisId) (f : Axis → Axis) : (s.modAxis a f).uart = s.uart := rfl
@[simp] theorem modAxis_notes (s : State) (a : AxisId) (f : Axis → Axis) : (s.modAxis a f).notes = s.notes := rfl
@[simp] theorem modAxis_pins (s : State) (a : AxisId) (f : Axis → Axis) : (s.modAxis a f).pins = s.pins := rfl
@[simp] theorem modAxis_pending (s : State) (a : AxisId) (f : Axis → Axis) : (s.modAxis a f).pending = s.pending := rfl

/-! ## modFrame -/

@[simp] theorem modFrame_frame_same (s : State) (i : FrameId) (f : CueFrame → CueFrame) : (s.modFrame i f).frame i = f (s.frame i) :=
  get_modTable_same _ _ _
theorem modFrame_frame_other (s : State) (i : FrameId) (f : CueFrame → CueFrame) (j : FrameId) (h : j ≠ i) :
    (s.modFrame i f).frame j = s.frame j := get_modTable_other _ _ _ _ h
@[simp] theorem modFrame_exhibit (s : State) (i : FrameId) (f : CueFrame → CueFrame) (j : ExhibitId) : (s.modFrame i f).exhibit j = s.exhibit j := rfl
@[simp] theorem modFrame_line (s : State) (i : FrameId) (f : CueFrame → CueFrame) (j : LineId) : (s.modFrame i f).line j = s.line j := rfl
@[simp] theorem modFrame_channel (s : State) (i : FrameId) (f : CueFrame → CueFrame) (j : ChannelId) : (s.modFrame i f).channel j = s.channel j := rfl
@[simp] theorem modFrame_axis (s : State) (i : FrameId) (f : CueFrame → CueFrame) (j : AxisId) : (s.modFrame i f).axis j = s.axis j := rfl
@[simp] theorem modFrame_tenure (s : State) (i : FrameId) (f : CueFrame → CueFrame) (j : ExhibitId) : (s.modFrame i f).tenure j = s.tenure j := rfl
@[simp] theorem modFrame_note (s : State) (i : FrameId) (f : CueFrame → CueFrame) (j : SlotId) : (s.modFrame i f).note j = s.note j := rfl
@[simp] theorem modFrame_inReset (s : State) (i : FrameId) (f : CueFrame → CueFrame) : (s.modFrame i f).inReset = s.inReset := rfl
@[simp] theorem modFrame_clock (s : State) (i : FrameId) (f : CueFrame → CueFrame) : (s.modFrame i f).clock = s.clock := rfl
@[simp] theorem modFrame_mode (s : State) (i : FrameId) (f : CueFrame → CueFrame) : (s.modFrame i f).mode = s.mode := rfl
@[simp] theorem modFrame_settledNoted (s : State) (i : FrameId) (f : CueFrame → CueFrame) : (s.modFrame i f).settledNoted = s.settledNoted := rfl
@[simp] theorem modFrame_exhibits (s : State) (i : FrameId) (f : CueFrame → CueFrame) : (s.modFrame i f).exhibits = s.exhibits := rfl
@[simp] theorem modFrame_lines (s : State) (i : FrameId) (f : CueFrame → CueFrame) : (s.modFrame i f).lines = s.lines := rfl
@[simp] theorem modFrame_showQueue (s : State) (i : FrameId) (f : CueFrame → CueFrame) : (s.modFrame i f).showQueue = s.showQueue := rfl
@[simp] theorem modFrame_deskQueue (s : State) (i : FrameId) (f : CueFrame → CueFrame) : (s.modFrame i f).deskQueue = s.deskQueue := rfl
@[simp] theorem modFrame_serviceQueue (s : State) (i : FrameId) (f : CueFrame → CueFrame) : (s.modFrame i f).serviceQueue = s.serviceQueue := rfl
@[simp] theorem modFrame_channels (s : State) (i : FrameId) (f : CueFrame → CueFrame) : (s.modFrame i f).channels = s.channels := rfl
@[simp] theorem modFrame_scanner (s : State) (i : FrameId) (f : CueFrame → CueFrame) : (s.modFrame i f).scanner = s.scanner := rfl
@[simp] theorem modFrame_timing (s : State) (i : FrameId) (f : CueFrame → CueFrame) : (s.modFrame i f).timing = s.timing := rfl
@[simp] theorem modFrame_axes (s : State) (i : FrameId) (f : CueFrame → CueFrame) : (s.modFrame i f).axes = s.axes := rfl
@[simp] theorem modFrame_arbiter (s : State) (i : FrameId) (f : CueFrame → CueFrame) : (s.modFrame i f).arbiter = s.arbiter := rfl
@[simp] theorem modFrame_frames (s : State) (i : FrameId) (f : CueFrame → CueFrame) : (s.modFrame i f).frames = modTable s.frames i f := rfl
@[simp] theorem modFrame_freeList (s : State) (i : FrameId) (f : CueFrame → CueFrame) : (s.modFrame i f).freeList = s.freeList := rfl
@[simp] theorem modFrame_takenSet (s : State) (i : FrameId) (f : CueFrame → CueFrame) : (s.modFrame i f).takenSet = s.takenSet := rfl
@[simp] theorem modFrame_retiredList (s : State) (i : FrameId) (f : CueFrame → CueFrame) : (s.modFrame i f).retiredList = s.retiredList := rfl
@[simp] theorem modFrame_showLink (s : State) (i : FrameId) (f : CueFrame → CueFrame) : (s.modFrame i f).showLink = s.showLink := rfl
@[simp] theorem modFrame_deskLink (s : State) (i : FrameId) (f : CueFrame → CueFrame) : (s.modFrame i f).deskLink = s.deskLink := rfl
@[simp] theorem modFrame_tenures (s : State) (i : FrameId) (f : CueFrame → CueFrame) : (s.modFrame i f).tenures = s.tenures := rfl
@[simp] theorem modFrame_serviceIdle (s : State) (i : FrameId) (f : CueFrame → CueFrame) : (s.modFrame i f).serviceIdle = s.serviceIdle := rfl
@[simp] theorem modFrame_alerts (s : State) (i : FrameId) (f : CueFrame → CueFrame) : (s.modFrame i f).alerts = s.alerts := rfl
@[simp] theorem modFrame_annunciators (s : State) (i : FrameId) (f : CueFrame → CueFrame) : (s.modFrame i f).annunciators = s.annunciators := rfl
@[simp] theorem modFrame_showSpi (s : State) (i : FrameId) (f : CueFrame → CueFrame) : (s.modFrame i f).showSpi = s.showSpi := rfl
@[simp] theorem modFrame_deskSpi (s : State) (i : FrameId) (f : CueFrame → CueFrame) : (s.modFrame i f).deskSpi = s.deskSpi := rfl
@[simp] theorem modFrame_uart (s : State) (i : FrameId) (f : CueFrame → CueFrame) : (s.modFrame i f).uart = s.uart := rfl
@[simp] theorem modFrame_notes (s : State) (i : FrameId) (f : CueFrame → CueFrame) : (s.modFrame i f).notes = s.notes := rfl
@[simp] theorem modFrame_pins (s : State) (i : FrameId) (f : CueFrame → CueFrame) : (s.modFrame i f).pins = s.pins := rfl
@[simp] theorem modFrame_pending (s : State) (i : FrameId) (f : CueFrame → CueFrame) : (s.modFrame i f).pending = s.pending := rfl

/-! ## setTenure -/

@[simp] theorem setTenure_tenure_same (s : State) (e : ExhibitId) (t : Option Clock) : (s.setTenure e t).tenure e = t :=
  get_modTable_same _ _ _
theorem setTenure_tenure_other (s : State) (e : ExhibitId) (t : Option Clock) (j : ExhibitId) (h : j ≠ e) :
    (s.setTenure e t).tenure j = s.tenure j := get_modTable_other _ _ _ _ h
@[simp] theorem setTenure_exhibit (s : State) (e : ExhibitId) (t : Option Clock) (j : ExhibitId) : (s.setTenure e t).exhibit j = s.exhibit j := rfl
@[simp] theorem setTenure_line (s : State) (e : ExhibitId) (t : Option Clock) (j : LineId) : (s.setTenure e t).line j = s.line j := rfl
@[simp] theorem setTenure_channel (s : State) (e : ExhibitId) (t : Option Clock) (j : ChannelId) : (s.setTenure e t).channel j = s.channel j := rfl
@[simp] theorem setTenure_axis (s : State) (e : ExhibitId) (t : Option Clock) (j : AxisId) : (s.setTenure e t).axis j = s.axis j := rfl
@[simp] theorem setTenure_frame (s : State) (e : ExhibitId) (t : Option Clock) (j : FrameId) : (s.setTenure e t).frame j = s.frame j := rfl
@[simp] theorem setTenure_note (s : State) (e : ExhibitId) (t : Option Clock) (j : SlotId) : (s.setTenure e t).note j = s.note j := rfl
@[simp] theorem setTenure_inReset (s : State) (e : ExhibitId) (t : Option Clock) : (s.setTenure e t).inReset = s.inReset := rfl
@[simp] theorem setTenure_clock (s : State) (e : ExhibitId) (t : Option Clock) : (s.setTenure e t).clock = s.clock := rfl
@[simp] theorem setTenure_mode (s : State) (e : ExhibitId) (t : Option Clock) : (s.setTenure e t).mode = s.mode := rfl
@[simp] theorem setTenure_settledNoted (s : State) (e : ExhibitId) (t : Option Clock) : (s.setTenure e t).settledNoted = s.settledNoted := rfl
@[simp] theorem setTenure_exhibits (s : State) (e : ExhibitId) (t : Option Clock) : (s.setTenure e t).exhibits = s.exhibits := rfl
@[simp] theorem setTenure_lines (s : State) (e : ExhibitId) (t : Option Clock) : (s.setTenure e t).lines = s.lines := rfl
@[simp] theorem setTenure_showQueue (s : State) (e : ExhibitId) (t : Option Clock) : (s.setTenure e t).showQueue = s.showQueue := rfl
@[simp] theorem setTenure_deskQueue (s : State) (e : ExhibitId) (t : Option Clock) : (s.setTenure e t).deskQueue = s.deskQueue := rfl
@[simp] theorem setTenure_serviceQueue (s : State) (e : ExhibitId) (t : Option Clock) : (s.setTenure e t).serviceQueue = s.serviceQueue := rfl
@[simp] theorem setTenure_channels (s : State) (e : ExhibitId) (t : Option Clock) : (s.setTenure e t).channels = s.channels := rfl
@[simp] theorem setTenure_scanner (s : State) (e : ExhibitId) (t : Option Clock) : (s.setTenure e t).scanner = s.scanner := rfl
@[simp] theorem setTenure_timing (s : State) (e : ExhibitId) (t : Option Clock) : (s.setTenure e t).timing = s.timing := rfl
@[simp] theorem setTenure_axes (s : State) (e : ExhibitId) (t : Option Clock) : (s.setTenure e t).axes = s.axes := rfl
@[simp] theorem setTenure_arbiter (s : State) (e : ExhibitId) (t : Option Clock) : (s.setTenure e t).arbiter = s.arbiter := rfl
@[simp] theorem setTenure_frames (s : State) (e : ExhibitId) (t : Option Clock) : (s.setTenure e t).frames = s.frames := rfl
@[simp] theorem setTenure_freeList (s : State) (e : ExhibitId) (t : Option Clock) : (s.setTenure e t).freeList = s.freeList := rfl
@[simp] theorem setTenure_takenSet (s : State) (e : ExhibitId) (t : Option Clock) : (s.setTenure e t).takenSet = s.takenSet := rfl
@[simp] theorem setTenure_retiredList (s : State) (e : ExhibitId) (t : Option Clock) : (s.setTenure e t).retiredList = s.retiredList := rfl
@[simp] theorem setTenure_showLink (s : State) (e : ExhibitId) (t : Option Clock) : (s.setTenure e t).showLink = s.showLink := rfl
@[simp] theorem setTenure_deskLink (s : State) (e : ExhibitId) (t : Option Clock) : (s.setTenure e t).deskLink = s.deskLink := rfl
@[simp] theorem setTenure_tenures (s : State) (e : ExhibitId) (t : Option Clock) : (s.setTenure e t).tenures = modTable s.tenures e fun _ => t := rfl
@[simp] theorem setTenure_serviceIdle (s : State) (e : ExhibitId) (t : Option Clock) : (s.setTenure e t).serviceIdle = s.serviceIdle := rfl
@[simp] theorem setTenure_alerts (s : State) (e : ExhibitId) (t : Option Clock) : (s.setTenure e t).alerts = s.alerts := rfl
@[simp] theorem setTenure_annunciators (s : State) (e : ExhibitId) (t : Option Clock) : (s.setTenure e t).annunciators = s.annunciators := rfl
@[simp] theorem setTenure_showSpi (s : State) (e : ExhibitId) (t : Option Clock) : (s.setTenure e t).showSpi = s.showSpi := rfl
@[simp] theorem setTenure_deskSpi (s : State) (e : ExhibitId) (t : Option Clock) : (s.setTenure e t).deskSpi = s.deskSpi := rfl
@[simp] theorem setTenure_uart (s : State) (e : ExhibitId) (t : Option Clock) : (s.setTenure e t).uart = s.uart := rfl
@[simp] theorem setTenure_notes (s : State) (e : ExhibitId) (t : Option Clock) : (s.setTenure e t).notes = s.notes := rfl
@[simp] theorem setTenure_pins (s : State) (e : ExhibitId) (t : Option Clock) : (s.setTenure e t).pins = s.pins := rfl
@[simp] theorem setTenure_pending (s : State) (e : ExhibitId) (t : Option Clock) : (s.setTenure e t).pending = s.pending := rfl

/-! ## setNote -/

@[simp] theorem setNote_note_same (s : State) (i : SlotId) (n : Option NoteContent) : (s.setNote i n).note i = n :=
  get_modTable_same _ _ _
theorem setNote_note_other (s : State) (i : SlotId) (n : Option NoteContent) (j : SlotId) (h : j ≠ i) :
    (s.setNote i n).note j = s.note j := get_modTable_other _ _ _ _ h
@[simp] theorem setNote_exhibit (s : State) (i : SlotId) (n : Option NoteContent) (j : ExhibitId) : (s.setNote i n).exhibit j = s.exhibit j := rfl
@[simp] theorem setNote_line (s : State) (i : SlotId) (n : Option NoteContent) (j : LineId) : (s.setNote i n).line j = s.line j := rfl
@[simp] theorem setNote_channel (s : State) (i : SlotId) (n : Option NoteContent) (j : ChannelId) : (s.setNote i n).channel j = s.channel j := rfl
@[simp] theorem setNote_axis (s : State) (i : SlotId) (n : Option NoteContent) (j : AxisId) : (s.setNote i n).axis j = s.axis j := rfl
@[simp] theorem setNote_frame (s : State) (i : SlotId) (n : Option NoteContent) (j : FrameId) : (s.setNote i n).frame j = s.frame j := rfl
@[simp] theorem setNote_tenure (s : State) (i : SlotId) (n : Option NoteContent) (j : ExhibitId) : (s.setNote i n).tenure j = s.tenure j := rfl
@[simp] theorem setNote_inReset (s : State) (i : SlotId) (n : Option NoteContent) : (s.setNote i n).inReset = s.inReset := rfl
@[simp] theorem setNote_clock (s : State) (i : SlotId) (n : Option NoteContent) : (s.setNote i n).clock = s.clock := rfl
@[simp] theorem setNote_mode (s : State) (i : SlotId) (n : Option NoteContent) : (s.setNote i n).mode = s.mode := rfl
@[simp] theorem setNote_settledNoted (s : State) (i : SlotId) (n : Option NoteContent) : (s.setNote i n).settledNoted = s.settledNoted := rfl
@[simp] theorem setNote_exhibits (s : State) (i : SlotId) (n : Option NoteContent) : (s.setNote i n).exhibits = s.exhibits := rfl
@[simp] theorem setNote_lines (s : State) (i : SlotId) (n : Option NoteContent) : (s.setNote i n).lines = s.lines := rfl
@[simp] theorem setNote_showQueue (s : State) (i : SlotId) (n : Option NoteContent) : (s.setNote i n).showQueue = s.showQueue := rfl
@[simp] theorem setNote_deskQueue (s : State) (i : SlotId) (n : Option NoteContent) : (s.setNote i n).deskQueue = s.deskQueue := rfl
@[simp] theorem setNote_serviceQueue (s : State) (i : SlotId) (n : Option NoteContent) : (s.setNote i n).serviceQueue = s.serviceQueue := rfl
@[simp] theorem setNote_channels (s : State) (i : SlotId) (n : Option NoteContent) : (s.setNote i n).channels = s.channels := rfl
@[simp] theorem setNote_scanner (s : State) (i : SlotId) (n : Option NoteContent) : (s.setNote i n).scanner = s.scanner := rfl
@[simp] theorem setNote_timing (s : State) (i : SlotId) (n : Option NoteContent) : (s.setNote i n).timing = s.timing := rfl
@[simp] theorem setNote_axes (s : State) (i : SlotId) (n : Option NoteContent) : (s.setNote i n).axes = s.axes := rfl
@[simp] theorem setNote_arbiter (s : State) (i : SlotId) (n : Option NoteContent) : (s.setNote i n).arbiter = s.arbiter := rfl
@[simp] theorem setNote_frames (s : State) (i : SlotId) (n : Option NoteContent) : (s.setNote i n).frames = s.frames := rfl
@[simp] theorem setNote_freeList (s : State) (i : SlotId) (n : Option NoteContent) : (s.setNote i n).freeList = s.freeList := rfl
@[simp] theorem setNote_takenSet (s : State) (i : SlotId) (n : Option NoteContent) : (s.setNote i n).takenSet = s.takenSet := rfl
@[simp] theorem setNote_retiredList (s : State) (i : SlotId) (n : Option NoteContent) : (s.setNote i n).retiredList = s.retiredList := rfl
@[simp] theorem setNote_showLink (s : State) (i : SlotId) (n : Option NoteContent) : (s.setNote i n).showLink = s.showLink := rfl
@[simp] theorem setNote_deskLink (s : State) (i : SlotId) (n : Option NoteContent) : (s.setNote i n).deskLink = s.deskLink := rfl
@[simp] theorem setNote_tenures (s : State) (i : SlotId) (n : Option NoteContent) : (s.setNote i n).tenures = s.tenures := rfl
@[simp] theorem setNote_serviceIdle (s : State) (i : SlotId) (n : Option NoteContent) : (s.setNote i n).serviceIdle = s.serviceIdle := rfl
@[simp] theorem setNote_alerts (s : State) (i : SlotId) (n : Option NoteContent) : (s.setNote i n).alerts = s.alerts := rfl
@[simp] theorem setNote_annunciators (s : State) (i : SlotId) (n : Option NoteContent) : (s.setNote i n).annunciators = s.annunciators := rfl
@[simp] theorem setNote_showSpi (s : State) (i : SlotId) (n : Option NoteContent) : (s.setNote i n).showSpi = s.showSpi := rfl
@[simp] theorem setNote_deskSpi (s : State) (i : SlotId) (n : Option NoteContent) : (s.setNote i n).deskSpi = s.deskSpi := rfl
@[simp] theorem setNote_uart (s : State) (i : SlotId) (n : Option NoteContent) : (s.setNote i n).uart = s.uart := rfl
@[simp] theorem setNote_notes (s : State) (i : SlotId) (n : Option NoteContent) : (s.setNote i n).notes = modTable s.notes i fun _ => n := rfl
@[simp] theorem setNote_pins (s : State) (i : SlotId) (n : Option NoteContent) : (s.setNote i n).pins = s.pins := rfl
@[simp] theorem setNote_pending (s : State) (i : SlotId) (n : Option NoteContent) : (s.setNote i n).pending = s.pending := rfl

/-! ## modScanner -/

@[simp] theorem modScanner_exhibit (s : State) (f : Scanner → Scanner) (j : ExhibitId) : (s.modScanner f).exhibit j = s.exhibit j := rfl
@[simp] theorem modScanner_line (s : State) (f : Scanner → Scanner) (j : LineId) : (s.modScanner f).line j = s.line j := rfl
@[simp] theorem modScanner_channel (s : State) (f : Scanner → Scanner) (j : ChannelId) : (s.modScanner f).channel j = s.channel j := rfl
@[simp] theorem modScanner_axis (s : State) (f : Scanner → Scanner) (j : AxisId) : (s.modScanner f).axis j = s.axis j := rfl
@[simp] theorem modScanner_frame (s : State) (f : Scanner → Scanner) (j : FrameId) : (s.modScanner f).frame j = s.frame j := rfl
@[simp] theorem modScanner_tenure (s : State) (f : Scanner → Scanner) (j : ExhibitId) : (s.modScanner f).tenure j = s.tenure j := rfl
@[simp] theorem modScanner_note (s : State) (f : Scanner → Scanner) (j : SlotId) : (s.modScanner f).note j = s.note j := rfl
@[simp] theorem modScanner_inReset (s : State) (f : Scanner → Scanner) : (s.modScanner f).inReset = s.inReset := rfl
@[simp] theorem modScanner_clock (s : State) (f : Scanner → Scanner) : (s.modScanner f).clock = s.clock := rfl
@[simp] theorem modScanner_mode (s : State) (f : Scanner → Scanner) : (s.modScanner f).mode = s.mode := rfl
@[simp] theorem modScanner_settledNoted (s : State) (f : Scanner → Scanner) : (s.modScanner f).settledNoted = s.settledNoted := rfl
@[simp] theorem modScanner_exhibits (s : State) (f : Scanner → Scanner) : (s.modScanner f).exhibits = s.exhibits := rfl
@[simp] theorem modScanner_lines (s : State) (f : Scanner → Scanner) : (s.modScanner f).lines = s.lines := rfl
@[simp] theorem modScanner_showQueue (s : State) (f : Scanner → Scanner) : (s.modScanner f).showQueue = s.showQueue := rfl
@[simp] theorem modScanner_deskQueue (s : State) (f : Scanner → Scanner) : (s.modScanner f).deskQueue = s.deskQueue := rfl
@[simp] theorem modScanner_serviceQueue (s : State) (f : Scanner → Scanner) : (s.modScanner f).serviceQueue = s.serviceQueue := rfl
@[simp] theorem modScanner_channels (s : State) (f : Scanner → Scanner) : (s.modScanner f).channels = s.channels := rfl
@[simp] theorem modScanner_scanner (s : State) (f : Scanner → Scanner) : (s.modScanner f).scanner = f s.scanner := rfl
@[simp] theorem modScanner_timing (s : State) (f : Scanner → Scanner) : (s.modScanner f).timing = s.timing := rfl
@[simp] theorem modScanner_axes (s : State) (f : Scanner → Scanner) : (s.modScanner f).axes = s.axes := rfl
@[simp] theorem modScanner_arbiter (s : State) (f : Scanner → Scanner) : (s.modScanner f).arbiter = s.arbiter := rfl
@[simp] theorem modScanner_frames (s : State) (f : Scanner → Scanner) : (s.modScanner f).frames = s.frames := rfl
@[simp] theorem modScanner_freeList (s : State) (f : Scanner → Scanner) : (s.modScanner f).freeList = s.freeList := rfl
@[simp] theorem modScanner_takenSet (s : State) (f : Scanner → Scanner) : (s.modScanner f).takenSet = s.takenSet := rfl
@[simp] theorem modScanner_retiredList (s : State) (f : Scanner → Scanner) : (s.modScanner f).retiredList = s.retiredList := rfl
@[simp] theorem modScanner_showLink (s : State) (f : Scanner → Scanner) : (s.modScanner f).showLink = s.showLink := rfl
@[simp] theorem modScanner_deskLink (s : State) (f : Scanner → Scanner) : (s.modScanner f).deskLink = s.deskLink := rfl
@[simp] theorem modScanner_tenures (s : State) (f : Scanner → Scanner) : (s.modScanner f).tenures = s.tenures := rfl
@[simp] theorem modScanner_serviceIdle (s : State) (f : Scanner → Scanner) : (s.modScanner f).serviceIdle = s.serviceIdle := rfl
@[simp] theorem modScanner_alerts (s : State) (f : Scanner → Scanner) : (s.modScanner f).alerts = s.alerts := rfl
@[simp] theorem modScanner_annunciators (s : State) (f : Scanner → Scanner) : (s.modScanner f).annunciators = s.annunciators := rfl
@[simp] theorem modScanner_showSpi (s : State) (f : Scanner → Scanner) : (s.modScanner f).showSpi = s.showSpi := rfl
@[simp] theorem modScanner_deskSpi (s : State) (f : Scanner → Scanner) : (s.modScanner f).deskSpi = s.deskSpi := rfl
@[simp] theorem modScanner_uart (s : State) (f : Scanner → Scanner) : (s.modScanner f).uart = s.uart := rfl
@[simp] theorem modScanner_notes (s : State) (f : Scanner → Scanner) : (s.modScanner f).notes = s.notes := rfl
@[simp] theorem modScanner_pins (s : State) (f : Scanner → Scanner) : (s.modScanner f).pins = s.pins := rfl
@[simp] theorem modScanner_pending (s : State) (f : Scanner → Scanner) : (s.modScanner f).pending = s.pending := rfl

/-! ## modArbiter -/

@[simp] theorem modArbiter_exhibit (s : State) (f : Arbiter → Arbiter) (j : ExhibitId) : (s.modArbiter f).exhibit j = s.exhibit j := rfl
@[simp] theorem modArbiter_line (s : State) (f : Arbiter → Arbiter) (j : LineId) : (s.modArbiter f).line j = s.line j := rfl
@[simp] theorem modArbiter_channel (s : State) (f : Arbiter → Arbiter) (j : ChannelId) : (s.modArbiter f).channel j = s.channel j := rfl
@[simp] theorem modArbiter_axis (s : State) (f : Arbiter → Arbiter) (j : AxisId) : (s.modArbiter f).axis j = s.axis j := rfl
@[simp] theorem modArbiter_frame (s : State) (f : Arbiter → Arbiter) (j : FrameId) : (s.modArbiter f).frame j = s.frame j := rfl
@[simp] theorem modArbiter_tenure (s : State) (f : Arbiter → Arbiter) (j : ExhibitId) : (s.modArbiter f).tenure j = s.tenure j := rfl
@[simp] theorem modArbiter_note (s : State) (f : Arbiter → Arbiter) (j : SlotId) : (s.modArbiter f).note j = s.note j := rfl
@[simp] theorem modArbiter_inReset (s : State) (f : Arbiter → Arbiter) : (s.modArbiter f).inReset = s.inReset := rfl
@[simp] theorem modArbiter_clock (s : State) (f : Arbiter → Arbiter) : (s.modArbiter f).clock = s.clock := rfl
@[simp] theorem modArbiter_mode (s : State) (f : Arbiter → Arbiter) : (s.modArbiter f).mode = s.mode := rfl
@[simp] theorem modArbiter_settledNoted (s : State) (f : Arbiter → Arbiter) : (s.modArbiter f).settledNoted = s.settledNoted := rfl
@[simp] theorem modArbiter_exhibits (s : State) (f : Arbiter → Arbiter) : (s.modArbiter f).exhibits = s.exhibits := rfl
@[simp] theorem modArbiter_lines (s : State) (f : Arbiter → Arbiter) : (s.modArbiter f).lines = s.lines := rfl
@[simp] theorem modArbiter_showQueue (s : State) (f : Arbiter → Arbiter) : (s.modArbiter f).showQueue = s.showQueue := rfl
@[simp] theorem modArbiter_deskQueue (s : State) (f : Arbiter → Arbiter) : (s.modArbiter f).deskQueue = s.deskQueue := rfl
@[simp] theorem modArbiter_serviceQueue (s : State) (f : Arbiter → Arbiter) : (s.modArbiter f).serviceQueue = s.serviceQueue := rfl
@[simp] theorem modArbiter_channels (s : State) (f : Arbiter → Arbiter) : (s.modArbiter f).channels = s.channels := rfl
@[simp] theorem modArbiter_scanner (s : State) (f : Arbiter → Arbiter) : (s.modArbiter f).scanner = s.scanner := rfl
@[simp] theorem modArbiter_timing (s : State) (f : Arbiter → Arbiter) : (s.modArbiter f).timing = s.timing := rfl
@[simp] theorem modArbiter_axes (s : State) (f : Arbiter → Arbiter) : (s.modArbiter f).axes = s.axes := rfl
@[simp] theorem modArbiter_arbiter (s : State) (f : Arbiter → Arbiter) : (s.modArbiter f).arbiter = f s.arbiter := rfl
@[simp] theorem modArbiter_frames (s : State) (f : Arbiter → Arbiter) : (s.modArbiter f).frames = s.frames := rfl
@[simp] theorem modArbiter_freeList (s : State) (f : Arbiter → Arbiter) : (s.modArbiter f).freeList = s.freeList := rfl
@[simp] theorem modArbiter_takenSet (s : State) (f : Arbiter → Arbiter) : (s.modArbiter f).takenSet = s.takenSet := rfl
@[simp] theorem modArbiter_retiredList (s : State) (f : Arbiter → Arbiter) : (s.modArbiter f).retiredList = s.retiredList := rfl
@[simp] theorem modArbiter_showLink (s : State) (f : Arbiter → Arbiter) : (s.modArbiter f).showLink = s.showLink := rfl
@[simp] theorem modArbiter_deskLink (s : State) (f : Arbiter → Arbiter) : (s.modArbiter f).deskLink = s.deskLink := rfl
@[simp] theorem modArbiter_tenures (s : State) (f : Arbiter → Arbiter) : (s.modArbiter f).tenures = s.tenures := rfl
@[simp] theorem modArbiter_serviceIdle (s : State) (f : Arbiter → Arbiter) : (s.modArbiter f).serviceIdle = s.serviceIdle := rfl
@[simp] theorem modArbiter_alerts (s : State) (f : Arbiter → Arbiter) : (s.modArbiter f).alerts = s.alerts := rfl
@[simp] theorem modArbiter_annunciators (s : State) (f : Arbiter → Arbiter) : (s.modArbiter f).annunciators = s.annunciators := rfl
@[simp] theorem modArbiter_showSpi (s : State) (f : Arbiter → Arbiter) : (s.modArbiter f).showSpi = s.showSpi := rfl
@[simp] theorem modArbiter_deskSpi (s : State) (f : Arbiter → Arbiter) : (s.modArbiter f).deskSpi = s.deskSpi := rfl
@[simp] theorem modArbiter_uart (s : State) (f : Arbiter → Arbiter) : (s.modArbiter f).uart = s.uart := rfl
@[simp] theorem modArbiter_notes (s : State) (f : Arbiter → Arbiter) : (s.modArbiter f).notes = s.notes := rfl
@[simp] theorem modArbiter_pins (s : State) (f : Arbiter → Arbiter) : (s.modArbiter f).pins = s.pins := rfl
@[simp] theorem modArbiter_pending (s : State) (f : Arbiter → Arbiter) : (s.modArbiter f).pending = s.pending := rfl

/-! ## modAnnunciators -/

@[simp] theorem modAnnunciators_exhibit (s : State) (f : Annunciators → Annunciators) (j : ExhibitId) : (s.modAnnunciators f).exhibit j = s.exhibit j := rfl
@[simp] theorem modAnnunciators_line (s : State) (f : Annunciators → Annunciators) (j : LineId) : (s.modAnnunciators f).line j = s.line j := rfl
@[simp] theorem modAnnunciators_channel (s : State) (f : Annunciators → Annunciators) (j : ChannelId) : (s.modAnnunciators f).channel j = s.channel j := rfl
@[simp] theorem modAnnunciators_axis (s : State) (f : Annunciators → Annunciators) (j : AxisId) : (s.modAnnunciators f).axis j = s.axis j := rfl
@[simp] theorem modAnnunciators_frame (s : State) (f : Annunciators → Annunciators) (j : FrameId) : (s.modAnnunciators f).frame j = s.frame j := rfl
@[simp] theorem modAnnunciators_tenure (s : State) (f : Annunciators → Annunciators) (j : ExhibitId) : (s.modAnnunciators f).tenure j = s.tenure j := rfl
@[simp] theorem modAnnunciators_note (s : State) (f : Annunciators → Annunciators) (j : SlotId) : (s.modAnnunciators f).note j = s.note j := rfl
@[simp] theorem modAnnunciators_inReset (s : State) (f : Annunciators → Annunciators) : (s.modAnnunciators f).inReset = s.inReset := rfl
@[simp] theorem modAnnunciators_clock (s : State) (f : Annunciators → Annunciators) : (s.modAnnunciators f).clock = s.clock := rfl
@[simp] theorem modAnnunciators_mode (s : State) (f : Annunciators → Annunciators) : (s.modAnnunciators f).mode = s.mode := rfl
@[simp] theorem modAnnunciators_settledNoted (s : State) (f : Annunciators → Annunciators) : (s.modAnnunciators f).settledNoted = s.settledNoted := rfl
@[simp] theorem modAnnunciators_exhibits (s : State) (f : Annunciators → Annunciators) : (s.modAnnunciators f).exhibits = s.exhibits := rfl
@[simp] theorem modAnnunciators_lines (s : State) (f : Annunciators → Annunciators) : (s.modAnnunciators f).lines = s.lines := rfl
@[simp] theorem modAnnunciators_showQueue (s : State) (f : Annunciators → Annunciators) : (s.modAnnunciators f).showQueue = s.showQueue := rfl
@[simp] theorem modAnnunciators_deskQueue (s : State) (f : Annunciators → Annunciators) : (s.modAnnunciators f).deskQueue = s.deskQueue := rfl
@[simp] theorem modAnnunciators_serviceQueue (s : State) (f : Annunciators → Annunciators) : (s.modAnnunciators f).serviceQueue = s.serviceQueue := rfl
@[simp] theorem modAnnunciators_channels (s : State) (f : Annunciators → Annunciators) : (s.modAnnunciators f).channels = s.channels := rfl
@[simp] theorem modAnnunciators_scanner (s : State) (f : Annunciators → Annunciators) : (s.modAnnunciators f).scanner = s.scanner := rfl
@[simp] theorem modAnnunciators_timing (s : State) (f : Annunciators → Annunciators) : (s.modAnnunciators f).timing = s.timing := rfl
@[simp] theorem modAnnunciators_axes (s : State) (f : Annunciators → Annunciators) : (s.modAnnunciators f).axes = s.axes := rfl
@[simp] theorem modAnnunciators_arbiter (s : State) (f : Annunciators → Annunciators) : (s.modAnnunciators f).arbiter = s.arbiter := rfl
@[simp] theorem modAnnunciators_frames (s : State) (f : Annunciators → Annunciators) : (s.modAnnunciators f).frames = s.frames := rfl
@[simp] theorem modAnnunciators_freeList (s : State) (f : Annunciators → Annunciators) : (s.modAnnunciators f).freeList = s.freeList := rfl
@[simp] theorem modAnnunciators_takenSet (s : State) (f : Annunciators → Annunciators) : (s.modAnnunciators f).takenSet = s.takenSet := rfl
@[simp] theorem modAnnunciators_retiredList (s : State) (f : Annunciators → Annunciators) : (s.modAnnunciators f).retiredList = s.retiredList := rfl
@[simp] theorem modAnnunciators_showLink (s : State) (f : Annunciators → Annunciators) : (s.modAnnunciators f).showLink = s.showLink := rfl
@[simp] theorem modAnnunciators_deskLink (s : State) (f : Annunciators → Annunciators) : (s.modAnnunciators f).deskLink = s.deskLink := rfl
@[simp] theorem modAnnunciators_tenures (s : State) (f : Annunciators → Annunciators) : (s.modAnnunciators f).tenures = s.tenures := rfl
@[simp] theorem modAnnunciators_serviceIdle (s : State) (f : Annunciators → Annunciators) : (s.modAnnunciators f).serviceIdle = s.serviceIdle := rfl
@[simp] theorem modAnnunciators_alerts (s : State) (f : Annunciators → Annunciators) : (s.modAnnunciators f).alerts = s.alerts := rfl
@[simp] theorem modAnnunciators_annunciators (s : State) (f : Annunciators → Annunciators) : (s.modAnnunciators f).annunciators = f s.annunciators := rfl
@[simp] theorem modAnnunciators_showSpi (s : State) (f : Annunciators → Annunciators) : (s.modAnnunciators f).showSpi = s.showSpi := rfl
@[simp] theorem modAnnunciators_deskSpi (s : State) (f : Annunciators → Annunciators) : (s.modAnnunciators f).deskSpi = s.deskSpi := rfl
@[simp] theorem modAnnunciators_uart (s : State) (f : Annunciators → Annunciators) : (s.modAnnunciators f).uart = s.uart := rfl
@[simp] theorem modAnnunciators_notes (s : State) (f : Annunciators → Annunciators) : (s.modAnnunciators f).notes = s.notes := rfl
@[simp] theorem modAnnunciators_pins (s : State) (f : Annunciators → Annunciators) : (s.modAnnunciators f).pins = s.pins := rfl
@[simp] theorem modAnnunciators_pending (s : State) (f : Annunciators → Annunciators) : (s.modAnnunciators f).pending = s.pending := rfl

/-! ## modAlerts -/

@[simp] theorem modAlerts_exhibit (s : State) (f : AlertList → AlertList) (j : ExhibitId) : (s.modAlerts f).exhibit j = s.exhibit j := rfl
@[simp] theorem modAlerts_line (s : State) (f : AlertList → AlertList) (j : LineId) : (s.modAlerts f).line j = s.line j := rfl
@[simp] theorem modAlerts_channel (s : State) (f : AlertList → AlertList) (j : ChannelId) : (s.modAlerts f).channel j = s.channel j := rfl
@[simp] theorem modAlerts_axis (s : State) (f : AlertList → AlertList) (j : AxisId) : (s.modAlerts f).axis j = s.axis j := rfl
@[simp] theorem modAlerts_frame (s : State) (f : AlertList → AlertList) (j : FrameId) : (s.modAlerts f).frame j = s.frame j := rfl
@[simp] theorem modAlerts_tenure (s : State) (f : AlertList → AlertList) (j : ExhibitId) : (s.modAlerts f).tenure j = s.tenure j := rfl
@[simp] theorem modAlerts_note (s : State) (f : AlertList → AlertList) (j : SlotId) : (s.modAlerts f).note j = s.note j := rfl
@[simp] theorem modAlerts_inReset (s : State) (f : AlertList → AlertList) : (s.modAlerts f).inReset = s.inReset := rfl
@[simp] theorem modAlerts_clock (s : State) (f : AlertList → AlertList) : (s.modAlerts f).clock = s.clock := rfl
@[simp] theorem modAlerts_mode (s : State) (f : AlertList → AlertList) : (s.modAlerts f).mode = s.mode := rfl
@[simp] theorem modAlerts_settledNoted (s : State) (f : AlertList → AlertList) : (s.modAlerts f).settledNoted = s.settledNoted := rfl
@[simp] theorem modAlerts_exhibits (s : State) (f : AlertList → AlertList) : (s.modAlerts f).exhibits = s.exhibits := rfl
@[simp] theorem modAlerts_lines (s : State) (f : AlertList → AlertList) : (s.modAlerts f).lines = s.lines := rfl
@[simp] theorem modAlerts_showQueue (s : State) (f : AlertList → AlertList) : (s.modAlerts f).showQueue = s.showQueue := rfl
@[simp] theorem modAlerts_deskQueue (s : State) (f : AlertList → AlertList) : (s.modAlerts f).deskQueue = s.deskQueue := rfl
@[simp] theorem modAlerts_serviceQueue (s : State) (f : AlertList → AlertList) : (s.modAlerts f).serviceQueue = s.serviceQueue := rfl
@[simp] theorem modAlerts_channels (s : State) (f : AlertList → AlertList) : (s.modAlerts f).channels = s.channels := rfl
@[simp] theorem modAlerts_scanner (s : State) (f : AlertList → AlertList) : (s.modAlerts f).scanner = s.scanner := rfl
@[simp] theorem modAlerts_timing (s : State) (f : AlertList → AlertList) : (s.modAlerts f).timing = s.timing := rfl
@[simp] theorem modAlerts_axes (s : State) (f : AlertList → AlertList) : (s.modAlerts f).axes = s.axes := rfl
@[simp] theorem modAlerts_arbiter (s : State) (f : AlertList → AlertList) : (s.modAlerts f).arbiter = s.arbiter := rfl
@[simp] theorem modAlerts_frames (s : State) (f : AlertList → AlertList) : (s.modAlerts f).frames = s.frames := rfl
@[simp] theorem modAlerts_freeList (s : State) (f : AlertList → AlertList) : (s.modAlerts f).freeList = s.freeList := rfl
@[simp] theorem modAlerts_takenSet (s : State) (f : AlertList → AlertList) : (s.modAlerts f).takenSet = s.takenSet := rfl
@[simp] theorem modAlerts_retiredList (s : State) (f : AlertList → AlertList) : (s.modAlerts f).retiredList = s.retiredList := rfl
@[simp] theorem modAlerts_showLink (s : State) (f : AlertList → AlertList) : (s.modAlerts f).showLink = s.showLink := rfl
@[simp] theorem modAlerts_deskLink (s : State) (f : AlertList → AlertList) : (s.modAlerts f).deskLink = s.deskLink := rfl
@[simp] theorem modAlerts_tenures (s : State) (f : AlertList → AlertList) : (s.modAlerts f).tenures = s.tenures := rfl
@[simp] theorem modAlerts_serviceIdle (s : State) (f : AlertList → AlertList) : (s.modAlerts f).serviceIdle = s.serviceIdle := rfl
@[simp] theorem modAlerts_alerts (s : State) (f : AlertList → AlertList) : (s.modAlerts f).alerts = f s.alerts := rfl
@[simp] theorem modAlerts_annunciators (s : State) (f : AlertList → AlertList) : (s.modAlerts f).annunciators = s.annunciators := rfl
@[simp] theorem modAlerts_showSpi (s : State) (f : AlertList → AlertList) : (s.modAlerts f).showSpi = s.showSpi := rfl
@[simp] theorem modAlerts_deskSpi (s : State) (f : AlertList → AlertList) : (s.modAlerts f).deskSpi = s.deskSpi := rfl
@[simp] theorem modAlerts_uart (s : State) (f : AlertList → AlertList) : (s.modAlerts f).uart = s.uart := rfl
@[simp] theorem modAlerts_notes (s : State) (f : AlertList → AlertList) : (s.modAlerts f).notes = s.notes := rfl
@[simp] theorem modAlerts_pins (s : State) (f : AlertList → AlertList) : (s.modAlerts f).pins = s.pins := rfl
@[simp] theorem modAlerts_pending (s : State) (f : AlertList → AlertList) : (s.modAlerts f).pending = s.pending := rfl

/-! ## modUart -/

@[simp] theorem modUart_exhibit (s : State) (f : Uart → Uart) (j : ExhibitId) : (s.modUart f).exhibit j = s.exhibit j := rfl
@[simp] theorem modUart_line (s : State) (f : Uart → Uart) (j : LineId) : (s.modUart f).line j = s.line j := rfl
@[simp] theorem modUart_channel (s : State) (f : Uart → Uart) (j : ChannelId) : (s.modUart f).channel j = s.channel j := rfl
@[simp] theorem modUart_axis (s : State) (f : Uart → Uart) (j : AxisId) : (s.modUart f).axis j = s.axis j := rfl
@[simp] theorem modUart_frame (s : State) (f : Uart → Uart) (j : FrameId) : (s.modUart f).frame j = s.frame j := rfl
@[simp] theorem modUart_tenure (s : State) (f : Uart → Uart) (j : ExhibitId) : (s.modUart f).tenure j = s.tenure j := rfl
@[simp] theorem modUart_note (s : State) (f : Uart → Uart) (j : SlotId) : (s.modUart f).note j = s.note j := rfl
@[simp] theorem modUart_inReset (s : State) (f : Uart → Uart) : (s.modUart f).inReset = s.inReset := rfl
@[simp] theorem modUart_clock (s : State) (f : Uart → Uart) : (s.modUart f).clock = s.clock := rfl
@[simp] theorem modUart_mode (s : State) (f : Uart → Uart) : (s.modUart f).mode = s.mode := rfl
@[simp] theorem modUart_settledNoted (s : State) (f : Uart → Uart) : (s.modUart f).settledNoted = s.settledNoted := rfl
@[simp] theorem modUart_exhibits (s : State) (f : Uart → Uart) : (s.modUart f).exhibits = s.exhibits := rfl
@[simp] theorem modUart_lines (s : State) (f : Uart → Uart) : (s.modUart f).lines = s.lines := rfl
@[simp] theorem modUart_showQueue (s : State) (f : Uart → Uart) : (s.modUart f).showQueue = s.showQueue := rfl
@[simp] theorem modUart_deskQueue (s : State) (f : Uart → Uart) : (s.modUart f).deskQueue = s.deskQueue := rfl
@[simp] theorem modUart_serviceQueue (s : State) (f : Uart → Uart) : (s.modUart f).serviceQueue = s.serviceQueue := rfl
@[simp] theorem modUart_channels (s : State) (f : Uart → Uart) : (s.modUart f).channels = s.channels := rfl
@[simp] theorem modUart_scanner (s : State) (f : Uart → Uart) : (s.modUart f).scanner = s.scanner := rfl
@[simp] theorem modUart_timing (s : State) (f : Uart → Uart) : (s.modUart f).timing = s.timing := rfl
@[simp] theorem modUart_axes (s : State) (f : Uart → Uart) : (s.modUart f).axes = s.axes := rfl
@[simp] theorem modUart_arbiter (s : State) (f : Uart → Uart) : (s.modUart f).arbiter = s.arbiter := rfl
@[simp] theorem modUart_frames (s : State) (f : Uart → Uart) : (s.modUart f).frames = s.frames := rfl
@[simp] theorem modUart_freeList (s : State) (f : Uart → Uart) : (s.modUart f).freeList = s.freeList := rfl
@[simp] theorem modUart_takenSet (s : State) (f : Uart → Uart) : (s.modUart f).takenSet = s.takenSet := rfl
@[simp] theorem modUart_retiredList (s : State) (f : Uart → Uart) : (s.modUart f).retiredList = s.retiredList := rfl
@[simp] theorem modUart_showLink (s : State) (f : Uart → Uart) : (s.modUart f).showLink = s.showLink := rfl
@[simp] theorem modUart_deskLink (s : State) (f : Uart → Uart) : (s.modUart f).deskLink = s.deskLink := rfl
@[simp] theorem modUart_tenures (s : State) (f : Uart → Uart) : (s.modUart f).tenures = s.tenures := rfl
@[simp] theorem modUart_serviceIdle (s : State) (f : Uart → Uart) : (s.modUart f).serviceIdle = s.serviceIdle := rfl
@[simp] theorem modUart_alerts (s : State) (f : Uart → Uart) : (s.modUart f).alerts = s.alerts := rfl
@[simp] theorem modUart_annunciators (s : State) (f : Uart → Uart) : (s.modUart f).annunciators = s.annunciators := rfl
@[simp] theorem modUart_showSpi (s : State) (f : Uart → Uart) : (s.modUart f).showSpi = s.showSpi := rfl
@[simp] theorem modUart_deskSpi (s : State) (f : Uart → Uart) : (s.modUart f).deskSpi = s.deskSpi := rfl
@[simp] theorem modUart_uart (s : State) (f : Uart → Uart) : (s.modUart f).uart = f s.uart := rfl
@[simp] theorem modUart_notes (s : State) (f : Uart → Uart) : (s.modUart f).notes = s.notes := rfl
@[simp] theorem modUart_pins (s : State) (f : Uart → Uart) : (s.modUart f).pins = s.pins := rfl
@[simp] theorem modUart_pending (s : State) (f : Uart → Uart) : (s.modUart f).pending = s.pending := rfl

/-! ## modSpi -/

@[simp] theorem modSpi_exhibit (s : State) (m : Master) (f : SpiPort → SpiPort) (j : ExhibitId) : (s.modSpi m f).exhibit j = s.exhibit j := by
  cases m <;> rfl
@[simp] theorem modSpi_line (s : State) (m : Master) (f : SpiPort → SpiPort) (j : LineId) : (s.modSpi m f).line j = s.line j := by
  cases m <;> rfl
@[simp] theorem modSpi_channel (s : State) (m : Master) (f : SpiPort → SpiPort) (j : ChannelId) : (s.modSpi m f).channel j = s.channel j := by
  cases m <;> rfl
@[simp] theorem modSpi_axis (s : State) (m : Master) (f : SpiPort → SpiPort) (j : AxisId) : (s.modSpi m f).axis j = s.axis j := by
  cases m <;> rfl
@[simp] theorem modSpi_frame (s : State) (m : Master) (f : SpiPort → SpiPort) (j : FrameId) : (s.modSpi m f).frame j = s.frame j := by
  cases m <;> rfl
@[simp] theorem modSpi_tenure (s : State) (m : Master) (f : SpiPort → SpiPort) (j : ExhibitId) : (s.modSpi m f).tenure j = s.tenure j := by
  cases m <;> rfl
@[simp] theorem modSpi_note (s : State) (m : Master) (f : SpiPort → SpiPort) (j : SlotId) : (s.modSpi m f).note j = s.note j := by
  cases m <;> rfl
@[simp] theorem modSpi_inReset (s : State) (m : Master) (f : SpiPort → SpiPort) : (s.modSpi m f).inReset = s.inReset := by cases m <;> rfl
@[simp] theorem modSpi_clock (s : State) (m : Master) (f : SpiPort → SpiPort) : (s.modSpi m f).clock = s.clock := by cases m <;> rfl
@[simp] theorem modSpi_mode (s : State) (m : Master) (f : SpiPort → SpiPort) : (s.modSpi m f).mode = s.mode := by cases m <;> rfl
@[simp] theorem modSpi_settledNoted (s : State) (m : Master) (f : SpiPort → SpiPort) : (s.modSpi m f).settledNoted = s.settledNoted := by cases m <;> rfl
@[simp] theorem modSpi_exhibits (s : State) (m : Master) (f : SpiPort → SpiPort) : (s.modSpi m f).exhibits = s.exhibits := by cases m <;> rfl
@[simp] theorem modSpi_lines (s : State) (m : Master) (f : SpiPort → SpiPort) : (s.modSpi m f).lines = s.lines := by cases m <;> rfl
@[simp] theorem modSpi_showQueue (s : State) (m : Master) (f : SpiPort → SpiPort) : (s.modSpi m f).showQueue = s.showQueue := by cases m <;> rfl
@[simp] theorem modSpi_deskQueue (s : State) (m : Master) (f : SpiPort → SpiPort) : (s.modSpi m f).deskQueue = s.deskQueue := by cases m <;> rfl
@[simp] theorem modSpi_serviceQueue (s : State) (m : Master) (f : SpiPort → SpiPort) : (s.modSpi m f).serviceQueue = s.serviceQueue := by cases m <;> rfl
@[simp] theorem modSpi_channels (s : State) (m : Master) (f : SpiPort → SpiPort) : (s.modSpi m f).channels = s.channels := by cases m <;> rfl
@[simp] theorem modSpi_scanner (s : State) (m : Master) (f : SpiPort → SpiPort) : (s.modSpi m f).scanner = s.scanner := by cases m <;> rfl
@[simp] theorem modSpi_timing (s : State) (m : Master) (f : SpiPort → SpiPort) : (s.modSpi m f).timing = s.timing := by cases m <;> rfl
@[simp] theorem modSpi_axes (s : State) (m : Master) (f : SpiPort → SpiPort) : (s.modSpi m f).axes = s.axes := by cases m <;> rfl
@[simp] theorem modSpi_arbiter (s : State) (m : Master) (f : SpiPort → SpiPort) : (s.modSpi m f).arbiter = s.arbiter := by cases m <;> rfl
@[simp] theorem modSpi_frames (s : State) (m : Master) (f : SpiPort → SpiPort) : (s.modSpi m f).frames = s.frames := by cases m <;> rfl
@[simp] theorem modSpi_freeList (s : State) (m : Master) (f : SpiPort → SpiPort) : (s.modSpi m f).freeList = s.freeList := by cases m <;> rfl
@[simp] theorem modSpi_takenSet (s : State) (m : Master) (f : SpiPort → SpiPort) : (s.modSpi m f).takenSet = s.takenSet := by cases m <;> rfl
@[simp] theorem modSpi_retiredList (s : State) (m : Master) (f : SpiPort → SpiPort) : (s.modSpi m f).retiredList = s.retiredList := by cases m <;> rfl
@[simp] theorem modSpi_showLink (s : State) (m : Master) (f : SpiPort → SpiPort) : (s.modSpi m f).showLink = s.showLink := by cases m <;> rfl
@[simp] theorem modSpi_deskLink (s : State) (m : Master) (f : SpiPort → SpiPort) : (s.modSpi m f).deskLink = s.deskLink := by cases m <;> rfl
@[simp] theorem modSpi_tenures (s : State) (m : Master) (f : SpiPort → SpiPort) : (s.modSpi m f).tenures = s.tenures := by cases m <;> rfl
@[simp] theorem modSpi_serviceIdle (s : State) (m : Master) (f : SpiPort → SpiPort) : (s.modSpi m f).serviceIdle = s.serviceIdle := by cases m <;> rfl
@[simp] theorem modSpi_alerts (s : State) (m : Master) (f : SpiPort → SpiPort) : (s.modSpi m f).alerts = s.alerts := by cases m <;> rfl
@[simp] theorem modSpi_annunciators (s : State) (m : Master) (f : SpiPort → SpiPort) : (s.modSpi m f).annunciators = s.annunciators := by cases m <;> rfl
@[simp] theorem modSpi_uart (s : State) (m : Master) (f : SpiPort → SpiPort) : (s.modSpi m f).uart = s.uart := by cases m <;> rfl
@[simp] theorem modSpi_notes (s : State) (m : Master) (f : SpiPort → SpiPort) : (s.modSpi m f).notes = s.notes := by cases m <;> rfl
@[simp] theorem modSpi_pins (s : State) (m : Master) (f : SpiPort → SpiPort) : (s.modSpi m f).pins = s.pins := by cases m <;> rfl
@[simp] theorem modSpi_pending (s : State) (m : Master) (f : SpiPort → SpiPort) : (s.modSpi m f).pending = s.pending := by cases m <;> rfl

/-! ## modLink -/

@[simp] theorem modLink_exhibit (s : State) (m : Master) (f : LinkRecord → LinkRecord) (j : ExhibitId) : (s.modLink m f).exhibit j = s.exhibit j := by
  cases m <;> rfl
@[simp] theorem modLink_line (s : State) (m : Master) (f : LinkRecord → LinkRecord) (j : LineId) : (s.modLink m f).line j = s.line j := by
  cases m <;> rfl
@[simp] theorem modLink_channel (s : State) (m : Master) (f : LinkRecord → LinkRecord) (j : ChannelId) : (s.modLink m f).channel j = s.channel j := by
  cases m <;> rfl
@[simp] theorem modLink_axis (s : State) (m : Master) (f : LinkRecord → LinkRecord) (j : AxisId) : (s.modLink m f).axis j = s.axis j := by
  cases m <;> rfl
@[simp] theorem modLink_frame (s : State) (m : Master) (f : LinkRecord → LinkRecord) (j : FrameId) : (s.modLink m f).frame j = s.frame j := by
  cases m <;> rfl
@[simp] theorem modLink_tenure (s : State) (m : Master) (f : LinkRecord → LinkRecord) (j : ExhibitId) : (s.modLink m f).tenure j = s.tenure j := by
  cases m <;> rfl
@[simp] theorem modLink_note (s : State) (m : Master) (f : LinkRecord → LinkRecord) (j : SlotId) : (s.modLink m f).note j = s.note j := by
  cases m <;> rfl
@[simp] theorem modLink_inReset (s : State) (m : Master) (f : LinkRecord → LinkRecord) : (s.modLink m f).inReset = s.inReset := by cases m <;> rfl
@[simp] theorem modLink_clock (s : State) (m : Master) (f : LinkRecord → LinkRecord) : (s.modLink m f).clock = s.clock := by cases m <;> rfl
@[simp] theorem modLink_mode (s : State) (m : Master) (f : LinkRecord → LinkRecord) : (s.modLink m f).mode = s.mode := by cases m <;> rfl
@[simp] theorem modLink_settledNoted (s : State) (m : Master) (f : LinkRecord → LinkRecord) : (s.modLink m f).settledNoted = s.settledNoted := by cases m <;> rfl
@[simp] theorem modLink_exhibits (s : State) (m : Master) (f : LinkRecord → LinkRecord) : (s.modLink m f).exhibits = s.exhibits := by cases m <;> rfl
@[simp] theorem modLink_lines (s : State) (m : Master) (f : LinkRecord → LinkRecord) : (s.modLink m f).lines = s.lines := by cases m <;> rfl
@[simp] theorem modLink_showQueue (s : State) (m : Master) (f : LinkRecord → LinkRecord) : (s.modLink m f).showQueue = s.showQueue := by cases m <;> rfl
@[simp] theorem modLink_deskQueue (s : State) (m : Master) (f : LinkRecord → LinkRecord) : (s.modLink m f).deskQueue = s.deskQueue := by cases m <;> rfl
@[simp] theorem modLink_serviceQueue (s : State) (m : Master) (f : LinkRecord → LinkRecord) : (s.modLink m f).serviceQueue = s.serviceQueue := by cases m <;> rfl
@[simp] theorem modLink_channels (s : State) (m : Master) (f : LinkRecord → LinkRecord) : (s.modLink m f).channels = s.channels := by cases m <;> rfl
@[simp] theorem modLink_scanner (s : State) (m : Master) (f : LinkRecord → LinkRecord) : (s.modLink m f).scanner = s.scanner := by cases m <;> rfl
@[simp] theorem modLink_timing (s : State) (m : Master) (f : LinkRecord → LinkRecord) : (s.modLink m f).timing = s.timing := by cases m <;> rfl
@[simp] theorem modLink_axes (s : State) (m : Master) (f : LinkRecord → LinkRecord) : (s.modLink m f).axes = s.axes := by cases m <;> rfl
@[simp] theorem modLink_arbiter (s : State) (m : Master) (f : LinkRecord → LinkRecord) : (s.modLink m f).arbiter = s.arbiter := by cases m <;> rfl
@[simp] theorem modLink_frames (s : State) (m : Master) (f : LinkRecord → LinkRecord) : (s.modLink m f).frames = s.frames := by cases m <;> rfl
@[simp] theorem modLink_freeList (s : State) (m : Master) (f : LinkRecord → LinkRecord) : (s.modLink m f).freeList = s.freeList := by cases m <;> rfl
@[simp] theorem modLink_takenSet (s : State) (m : Master) (f : LinkRecord → LinkRecord) : (s.modLink m f).takenSet = s.takenSet := by cases m <;> rfl
@[simp] theorem modLink_retiredList (s : State) (m : Master) (f : LinkRecord → LinkRecord) : (s.modLink m f).retiredList = s.retiredList := by cases m <;> rfl
@[simp] theorem modLink_tenures (s : State) (m : Master) (f : LinkRecord → LinkRecord) : (s.modLink m f).tenures = s.tenures := by cases m <;> rfl
@[simp] theorem modLink_serviceIdle (s : State) (m : Master) (f : LinkRecord → LinkRecord) : (s.modLink m f).serviceIdle = s.serviceIdle := by cases m <;> rfl
@[simp] theorem modLink_alerts (s : State) (m : Master) (f : LinkRecord → LinkRecord) : (s.modLink m f).alerts = s.alerts := by cases m <;> rfl
@[simp] theorem modLink_annunciators (s : State) (m : Master) (f : LinkRecord → LinkRecord) : (s.modLink m f).annunciators = s.annunciators := by cases m <;> rfl
@[simp] theorem modLink_showSpi (s : State) (m : Master) (f : LinkRecord → LinkRecord) : (s.modLink m f).showSpi = s.showSpi := by cases m <;> rfl
@[simp] theorem modLink_deskSpi (s : State) (m : Master) (f : LinkRecord → LinkRecord) : (s.modLink m f).deskSpi = s.deskSpi := by cases m <;> rfl
@[simp] theorem modLink_uart (s : State) (m : Master) (f : LinkRecord → LinkRecord) : (s.modLink m f).uart = s.uart := by cases m <;> rfl
@[simp] theorem modLink_notes (s : State) (m : Master) (f : LinkRecord → LinkRecord) : (s.modLink m f).notes = s.notes := by cases m <;> rfl
@[simp] theorem modLink_pins (s : State) (m : Master) (f : LinkRecord → LinkRecord) : (s.modLink m f).pins = s.pins := by cases m <;> rfl
@[simp] theorem modLink_pending (s : State) (m : Master) (f : LinkRecord → LinkRecord) : (s.modLink m f).pending = s.pending := by cases m <;> rfl

/-! ## modQueue -/

@[simp] theorem modQueue_exhibit (s : State) (q : QueueName) (f : EventQueue → EventQueue) (j : ExhibitId) : (s.modQueue q f).exhibit j = s.exhibit j := by
  cases q <;> rfl
@[simp] theorem modQueue_line (s : State) (q : QueueName) (f : EventQueue → EventQueue) (j : LineId) : (s.modQueue q f).line j = s.line j := by
  cases q <;> rfl
@[simp] theorem modQueue_channel (s : State) (q : QueueName) (f : EventQueue → EventQueue) (j : ChannelId) : (s.modQueue q f).channel j = s.channel j := by
  cases q <;> rfl
@[simp] theorem modQueue_axis (s : State) (q : QueueName) (f : EventQueue → EventQueue) (j : AxisId) : (s.modQueue q f).axis j = s.axis j := by
  cases q <;> rfl
@[simp] theorem modQueue_frame (s : State) (q : QueueName) (f : EventQueue → EventQueue) (j : FrameId) : (s.modQueue q f).frame j = s.frame j := by
  cases q <;> rfl
@[simp] theorem modQueue_tenure (s : State) (q : QueueName) (f : EventQueue → EventQueue) (j : ExhibitId) : (s.modQueue q f).tenure j = s.tenure j := by
  cases q <;> rfl
@[simp] theorem modQueue_note (s : State) (q : QueueName) (f : EventQueue → EventQueue) (j : SlotId) : (s.modQueue q f).note j = s.note j := by
  cases q <;> rfl
@[simp] theorem modQueue_inReset (s : State) (q : QueueName) (f : EventQueue → EventQueue) : (s.modQueue q f).inReset = s.inReset := by cases q <;> rfl
@[simp] theorem modQueue_clock (s : State) (q : QueueName) (f : EventQueue → EventQueue) : (s.modQueue q f).clock = s.clock := by cases q <;> rfl
@[simp] theorem modQueue_mode (s : State) (q : QueueName) (f : EventQueue → EventQueue) : (s.modQueue q f).mode = s.mode := by cases q <;> rfl
@[simp] theorem modQueue_settledNoted (s : State) (q : QueueName) (f : EventQueue → EventQueue) : (s.modQueue q f).settledNoted = s.settledNoted := by cases q <;> rfl
@[simp] theorem modQueue_exhibits (s : State) (q : QueueName) (f : EventQueue → EventQueue) : (s.modQueue q f).exhibits = s.exhibits := by cases q <;> rfl
@[simp] theorem modQueue_lines (s : State) (q : QueueName) (f : EventQueue → EventQueue) : (s.modQueue q f).lines = s.lines := by cases q <;> rfl
@[simp] theorem modQueue_channels (s : State) (q : QueueName) (f : EventQueue → EventQueue) : (s.modQueue q f).channels = s.channels := by cases q <;> rfl
@[simp] theorem modQueue_scanner (s : State) (q : QueueName) (f : EventQueue → EventQueue) : (s.modQueue q f).scanner = s.scanner := by cases q <;> rfl
@[simp] theorem modQueue_timing (s : State) (q : QueueName) (f : EventQueue → EventQueue) : (s.modQueue q f).timing = s.timing := by cases q <;> rfl
@[simp] theorem modQueue_axes (s : State) (q : QueueName) (f : EventQueue → EventQueue) : (s.modQueue q f).axes = s.axes := by cases q <;> rfl
@[simp] theorem modQueue_arbiter (s : State) (q : QueueName) (f : EventQueue → EventQueue) : (s.modQueue q f).arbiter = s.arbiter := by cases q <;> rfl
@[simp] theorem modQueue_frames (s : State) (q : QueueName) (f : EventQueue → EventQueue) : (s.modQueue q f).frames = s.frames := by cases q <;> rfl
@[simp] theorem modQueue_freeList (s : State) (q : QueueName) (f : EventQueue → EventQueue) : (s.modQueue q f).freeList = s.freeList := by cases q <;> rfl
@[simp] theorem modQueue_takenSet (s : State) (q : QueueName) (f : EventQueue → EventQueue) : (s.modQueue q f).takenSet = s.takenSet := by cases q <;> rfl
@[simp] theorem modQueue_retiredList (s : State) (q : QueueName) (f : EventQueue → EventQueue) : (s.modQueue q f).retiredList = s.retiredList := by cases q <;> rfl
@[simp] theorem modQueue_showLink (s : State) (q : QueueName) (f : EventQueue → EventQueue) : (s.modQueue q f).showLink = s.showLink := by cases q <;> rfl
@[simp] theorem modQueue_deskLink (s : State) (q : QueueName) (f : EventQueue → EventQueue) : (s.modQueue q f).deskLink = s.deskLink := by cases q <;> rfl
@[simp] theorem modQueue_tenures (s : State) (q : QueueName) (f : EventQueue → EventQueue) : (s.modQueue q f).tenures = s.tenures := by cases q <;> rfl
@[simp] theorem modQueue_serviceIdle (s : State) (q : QueueName) (f : EventQueue → EventQueue) : (s.modQueue q f).serviceIdle = s.serviceIdle := by cases q <;> rfl
@[simp] theorem modQueue_alerts (s : State) (q : QueueName) (f : EventQueue → EventQueue) : (s.modQueue q f).alerts = s.alerts := by cases q <;> rfl
@[simp] theorem modQueue_annunciators (s : State) (q : QueueName) (f : EventQueue → EventQueue) : (s.modQueue q f).annunciators = s.annunciators := by cases q <;> rfl
@[simp] theorem modQueue_showSpi (s : State) (q : QueueName) (f : EventQueue → EventQueue) : (s.modQueue q f).showSpi = s.showSpi := by cases q <;> rfl
@[simp] theorem modQueue_deskSpi (s : State) (q : QueueName) (f : EventQueue → EventQueue) : (s.modQueue q f).deskSpi = s.deskSpi := by cases q <;> rfl
@[simp] theorem modQueue_uart (s : State) (q : QueueName) (f : EventQueue → EventQueue) : (s.modQueue q f).uart = s.uart := by cases q <;> rfl
@[simp] theorem modQueue_notes (s : State) (q : QueueName) (f : EventQueue → EventQueue) : (s.modQueue q f).notes = s.notes := by cases q <;> rfl
@[simp] theorem modQueue_pins (s : State) (q : QueueName) (f : EventQueue → EventQueue) : (s.modQueue q f).pins = s.pins := by cases q <;> rfl
@[simp] theorem modQueue_pending (s : State) (q : QueueName) (f : EventQueue → EventQueue) : (s.modQueue q f).pending = s.pending := by cases q <;> rfl

/-! ## Named members -/

@[simp] theorem modSpi_spi_same (s : State) (m : Master) (f : SpiPort → SpiPort) :
    (s.modSpi m f).spi m = f (s.spi m) := by cases m <;> rfl
theorem modSpi_spi_other (s : State) (m k : Master) (f : SpiPort → SpiPort) (h : k ≠ m) :
    (s.modSpi m f).spi k = s.spi k := by cases m <;> cases k <;> first | rfl | exact absurd rfl h
@[simp] theorem modLink_link_same (s : State) (m : Master) (f : LinkRecord → LinkRecord) :
    (s.modLink m f).link m = f (s.link m) := by cases m <;> rfl
theorem modLink_link_other (s : State) (m k : Master) (f : LinkRecord → LinkRecord) (h : k ≠ m) :
    (s.modLink m f).link k = s.link k := by cases m <;> cases k <;> first | rfl | exact absurd rfl h
@[simp] theorem modQueue_queue_same (s : State) (q : QueueName) (f : EventQueue → EventQueue) :
    (s.modQueue q f).queue q = f (s.queue q) := by cases q <;> rfl
theorem modQueue_queue_other (s : State) (q k : QueueName) (f : EventQueue → EventQueue) (h : k ≠ q) :
    (s.modQueue q f).queue k = s.queue k := by cases q <;> cases k <;> first | rfl | exact absurd rfl h

end Sys2Proof.Machine
end

