-- ==== Sys2Proof/Laws/Closure.lean ====
section
/-! SUPPORT. What the floor operations can do, said once: any relation on states that is closed under a few
moves holds between the state before and after every operation. -/

namespace Sys2Proof.Machine

/-! ## Events leave the rest of the state -/

/-- What no queue update changes, no emitted event changes. -/
theorem emit_keeps {α : Type} (g : State → α) (hg : ∀ q f s, g (State.modQueue s q f) = g s)
    (qs : List QueueName) (v : Event) (s : State) : g (emit qs v s) = g s := by
  unfold emit forList
  induction qs generalizing s with
  | nil => rfl
  | cons q qs ih => rw [List.foldl_cons, ih]; exact hg _ _ _

@[simp] theorem emit_axes (qs : List QueueName) (v : Event) (s : State) : (emit qs v s).axes = s.axes :=
  emit_keeps State.axes (fun q _ _ => by cases q <;> rfl) qs v s

@[simp] theorem emit_axis (qs : List QueueName) (v : Event) (s : State) (a : AxisId) :
    (emit qs v s).axis a = s.axis a := congrArg (Vector.get · a) (emit_axes qs v s)

@[simp] theorem emit_exhibits (qs : List QueueName) (v : Event) (s : State) :
    (emit qs v s).exhibits = s.exhibits := emit_keeps State.exhibits (fun q _ _ => by cases q <;> rfl) qs v s

@[simp] theorem emit_exhibit (qs : List QueueName) (v : Event) (s : State) (e : ExhibitId) :
    (emit qs v s).exhibit e = s.exhibit e := congrArg (Vector.get · e) (emit_exhibits qs v s)

@[simp] theorem emit_arbiter (qs : List QueueName) (v : Event) (s : State) :
    (emit qs v s).arbiter = s.arbiter := emit_keeps State.arbiter (fun q _ _ => by cases q <;> rfl) qs v s

@[simp] theorem emit_mode (qs : List QueueName) (v : Event) (s : State) : (emit qs v s).mode = s.mode :=
  emit_keeps State.mode (fun q _ _ => by cases q <;> rfl) qs v s

@[simp] theorem emit_alerts (qs : List QueueName) (v : Event) (s : State) : (emit qs v s).alerts = s.alerts :=
  emit_keeps State.alerts (fun q _ _ => by cases q <;> rfl) qs v s

@[simp] theorem emit_timing (qs : List QueueName) (v : Event) (s : State) : (emit qs v s).timing = s.timing :=
  emit_keeps State.timing (fun q _ _ => by cases q <;> rfl) qs v s

/-- A released axis leaves the axis records. -/
@[simp] theorem releaseAxis_axis (a b : AxisId) (s : State) : (releaseAxis a s).axis b = s.axis b := by
  unfold releaseAxis; split <;> rfl

@[simp] theorem releaseAxis_mode (a : AxisId) (s : State) : (releaseAxis a s).mode = s.mode := by
  unfold releaseAxis; split <;> rfl

/-- An axis outside the arbiter has nothing to release. -/
theorem releaseAxis_none {a : AxisId} {s : State} (h1 : (s.axis a).state ≠ .waitingStart)
    (h2 : (s.axis a).state ≠ .accelerating) : releaseAxis a s = s := by
  unfold releaseAxis; split <;> simp_all

@[simp] theorem enableAxis_mode (a : AxisId) (s : State) : (enableAxis a s).mode = s.mode := by
  unfold enableAxis; split <;> rfl

@[simp] theorem changeState_mode (e : ExhibitId) (n : ExhibitState) (s : State) :
    (changeState e n s).mode = s.mode := emit_mode _ _ _

/-! ## Moves of an axis -/

/-- The states in which an axis has a place or units at the start arbiter (R104, R105). -/
def AxisState.claims : AxisState → Bool
  | .waitingStart | .accelerating => true
  | .disabled | .idle | .moving | .settling | .held | .faulted => false

/-- An update leaves an axis with a pending move if it leaves it busy. -/
def KeepsMove (x y : Axis) : Prop :=
  y.state.busy = true → y.move.isSome = true ∨ x.state.busy = true ∧ y.move = x.move

/-- An update of axis `a` that leaves its place and its units at the arbiter. -/
structure Calm (s : State) (a : AxisId) (f : Axis → Axis) : Prop where
  standing : ∀ x, (f x).standing = x.standing
  drive : DriveOk (s.axis a) → DriveOk (f (s.axis a))
  claims : (f (s.axis a)).state = (s.axis a).state ∨
    (s.axis a).state.claims = false ∧ (f (s.axis a)).state.claims = false
  move : KeepsMove (s.axis a) (f (s.axis a))
  wakes : (s.axis a).state = .disabled → (f (s.axis a)).state = .disabled ∨ s.mode ≠ .setup

/-- An update of axis `a`, released, that leaves it with the drive OFF outside the arbiter. -/
structure Leaves (s : State) (a : AxisId) (f : Axis → Axis) : Prop where
  off : ∀ x, (f x).drive = .off ∧ (f x).state.driving = false ∧ (f x).standing = x.standing
  claims : (f (s.axis a)).state.claims = false
  move : KeepsMove (s.axis a) (f (s.axis a))
  wakes : (s.axis a).state = .disabled → (f (s.axis a)).state = .disabled

/-- An update of axis `a`, released, as it joins the start queue. -/
structure Joins (s : State) (a : AxisId) (f : Axis → Axis) : Prop where
  standing : ∀ x, (f x).standing = x.standing
  drive : DriveOk (s.axis a) → DriveOk (f (s.axis a))
  state : (f (s.axis a)).state = .waitingStart
  old : (s.axis a).state ≠ .waitingStart ∧ (s.axis a).state ≠ .disabled
  move : KeepsMove (s.axis a) (f (s.axis a))

/-! ## Moves of the alert list -/

/-- A record with the number and the key of another, and a level as good. -/
def SameRecord (r r' : AlertRecord) : Prop :=
  r'.number = r.number ∧ r'.kind = r.kind ∧ r'.exhibit = r.exhibit ∧ r'.subject = r.subject ∧
    r'.showCode = r.showCode ∧
    (r.level ≤ 3 ∧ (r.state = .acked → r.level = 0) → r'.level ≤ 3 ∧ (r'.state = .acked → r'.level = 0))

/-- The record a trigger creates (R163, R167). -/
def Trigger.newRecord (t : Trigger) (s : State) : AlertRecord :=
  { number := s.alerts.nextNumber, kind := t.kind, severity := t.severity, exhibit := t.exhibit
    subject := t.subject, showCode := t.showCode, state := .opened, level := 0, repeatCount := 1
    raised := s.clock, acked := none }

/-- The created record enters the list and the numbering goes on (R163, R167). -/
def admitRecord (t : Trigger) (s : State) : State :=
  s.modAlerts fun _ =>
    { records := s.alerts.records ++ [t.newRecord s]
      nextNumber := freeNumber (s.alerts.records ++ [t.newRecord s]) 25 (bumpNumber s.alerts.nextNumber) }

/-- A trigger may create a record: no record has its key, and it has a place. -/
structure Admits (t : Trigger) (s : State) : Prop where
  fresh : s.alerts.records.find? t.matches = none
  place : t.kind = .listFull ∧ t.exhibit = none ∧ t.subject = none ∧ t.showCode = none ∨
    t.kind ≠ .listFull ∧ (ordinaryRecords s).length < 23

/-- The record that goes for a trigger's: no record has its key, and an ordinary one is evicted (R168). -/
structure Evicts (t : Trigger) (s : State) (r : AlertRecord) : Prop where
  fresh : s.alerts.records.find? t.matches = none
  kind : t.kind ≠ .listFull
  ordinary : r ∈ ordinaryRecords s

/-! ## Moves of an exhibit -/

/-- An update of an exhibit that leaves its state and its frames. -/
def Exhibit.Keeps (f : Exhibit → Exhibit) : Prop :=
  ∀ x, (f x).standing = x.standing ∧ (f x).state = x.state ∧ (f x).active = x.active ∧ (f x).queue = x.queue

/-- The changes of an exhibit's state that move no frame (R10, R13, R15). -/
def Turns (s : State) (e : ExhibitId) (n : ExhibitState) : Prop :=
  match n with
  | .held =>
    (s.exhibit e).state = .ready ∨ (s.exhibit e).state = .running ∨
      ((s.exhibit e).state = .closed ∨ (s.exhibit e).state = .faulted) ∧ s.mode ≠ .setup
  | .ready =>
    (s.exhibit e).state = .held ∧ (s.exhibit e).active = none ∨
      ((s.exhibit e).state = .closed ∨ (s.exhibit e).state = .faulted) ∧ s.mode ≠ .setup
  | .running => (s.exhibit e).state = .held ∧ (s.exhibit e).active.isSome = true
  | .closed | .faulted | .service => False

/-- The changes of an exhibit's state that empty it of frames (R14, R16). -/
def Empties (s : State) (e : ExhibitId) (n : ExhibitState) : Prop :=
  n = .closed ∧ (s.exhibit e).state ≠ .service ∨
    n = .faulted ∧ ((s.exhibit e).state = .ready ∨ (s.exhibit e).state = .running ∨ (s.exhibit e).state = .held)

/-! ## Closed relations -/

/-- A relation closed under the moves that leave the exhibits' states and the places of the frames. -/
structure Base (R : State → State → Prop) : Prop where
  refl : ∀ s, R s s
  trans : ∀ {s t u}, R s t → R t u → R s u
  exhibit : ∀ s e f, Exhibit.Keeps f → R s (State.modExhibit s e f)
  line : ∀ s l f, (∀ x, (f x).standing = x.standing) → R s (State.modLine s l f)
  calm : ∀ s a f, Calm s a f → R s (s.modAxis a f)
  leaves : ∀ s a f, Leaves s a f → R s ((releaseAxis a s).modAxis a f)
  joins : ∀ s a f, Joins s a f → R s (joinQueue a ((releaseAxis a s).modAxis a f))
  granted : ∀ s a rest, s.arbiter.startQueue = a :: rest → (s.axis a).startCost ≤ freeUnits s →
    feedbackStale s a = false → R s (startDrive a (chargeGrant a s))
  spilled : ∀ s a rest, s.arbiter.startQueue = a :: rest →
    (s.axis a).state = .disabled ∨ (s.axis a).state = .faulted → R s (returnUnits a (chargeGrant a s))
  faulted : ∀ s a rest c, s.arbiter.startQueue = a :: rest →
    R s (markFaulted a c (returnUnits a (chargeGrant a s)))
  arbiter : ∀ s f, (∀ x, (f x).startQueue = x.startQueue ∧ (f x).unitsInUse = x.unitsInUse) →
    R s (State.modArbiter s f)
  frame : ∀ s i f, R s (State.modFrame s i f)
  annunciators : ∀ s f, (∀ x, (f x).patterns = x.patterns) → R s (State.modAnnunciators s f)
  replace : ∀ s r r', r ∈ s.alerts.records → SameRecord r r' → R s (replaceRecord r.number r' s)
  remove : ∀ s n, R s (removeRecord n s)
  readmit : ∀ s r r', r ∈ s.alerts.records → SameRecord r r' →
    R s ((removeRecord r.number s).modAlerts fun l => { l with records := l.records ++ [r'] })
  joins_list : ∀ s t, Admits t s → R s (admitRecord t s)
  evict : ∀ s t r, Evicts t s r → R s (admitRecord t (alertRemoved r 1 (removeRecord r.number s)))
  append : ∀ q v s, R s (appendTo q v s)
  noted : ∀ s b, R s { s with settledNoted := b }

/-- A closed relation that asks nothing of the exhibits' states and of the places of the frames. -/
structure Free (R : State → State → Prop) : Prop extends Base R where
  exhibitAny : ∀ s e f, (∀ x, (f x).standing = x.standing) → R s (State.modExhibit s e f)
  lists : ∀ s a b c, R s { s with freeList := a, takenSet := b, retiredList := c }

/-- A relation closed also under the moves of the exhibits and of the cue runner. -/
structure Floor (R : State → State → Prop) : Prop extends Base R where
  turns : ∀ s e n, Turns s e n → R s (changeState e n s)
  takes : ∀ s e, (s.exhibit e).state = .ready ∨ (s.exhibit e).state = .held ∧ (s.exhibit e).active = none →
    R s (takeFrame e s)
  retires : ∀ s e o a, R s (retireActive e o a s)
  flushes : ∀ s e, R s (retireQueue e s)
  empties : ∀ s e n o a, Empties s e n → R s (retireQueue e (retireActive e o a (changeState e n s)))

variable {R : State → State → Prop}

/-- A wider relation, closed under composition, is closed under the same moves. -/
theorem Base.widen (h : Base R) {Q : State → State → Prop} (hq : ∀ {s t}, R s t → Q s t)
    (ht : ∀ {s t u}, Q s t → Q t u → Q s u) : Base Q where
  refl s := hq (h.refl s)
  trans := ht
  exhibit s e f a := hq (h.exhibit s e f a)
  line s e f a := hq (h.line s e f a)
  calm s e f a := hq (h.calm s e f a)
  leaves s e f a := hq (h.leaves s e f a)
  joins s e f a := hq (h.joins s e f a)
  granted s a r h1 h2 h3 := hq (h.granted s a r h1 h2 h3)
  spilled s a r h1 h2 := hq (h.spilled s a r h1 h2)
  faulted s a r c h1 := hq (h.faulted s a r c h1)
  arbiter s f a := hq (h.arbiter s f a)
  frame s i f := hq (h.frame s i f)
  annunciators s f a := hq (h.annunciators s f a)
  replace s r r' h1 h2 := hq (h.replace s r r' h1 h2)
  remove s n := hq (h.remove s n)
  readmit s r r' h1 h2 := hq (h.readmit s r r' h1 h2)
  joins_list s t a := hq (h.joins_list s t a)
  evict s t r a := hq (h.evict s t r a)
  append q v s := hq (h.append q v s)
  noted s b := hq (h.noted s b)

/-- A wider relation, closed under composition, is closed under the same moves of the exhibits. -/
theorem Floor.widen (h : Floor R) {Q : State → State → Prop} (hq : ∀ {s t}, R s t → Q s t)
    (ht : ∀ {s t u}, Q s t → Q t u → Q s u) : Floor Q where
  toBase := h.toBase.widen hq ht
  turns s e n a := hq (h.turns s e n a)
  takes s e a := hq (h.takes s e a)
  retires s e o a := hq (h.retires s e o a)
  flushes s e := hq (h.flushes s e)
  empties s e n o a h1 := hq (h.empties s e n o a h1)

namespace Base

/-! ## Loops -/

theorem list (h : Base R) {α : Type} (f : α → State → State) (hf : ∀ a s, R s (f a s)) :
    ∀ (l : List α) s, R s (forList l f s)
  | [], s => h.refl s
  | a :: l, s => h.trans (hf a s) (list h f hf l (f a s))

theorem each (h : Base R) {n : Nat} (f : Fin n → State → State) (hf : ∀ a s, R s (f a s)) (s : State) :
    R s (forEach f s) := h.list f hf _ s

/-! ## Events, settle test -/

theorem emit (h : Base R) (qs : List QueueName) (v : Event) (s : State) : R s (emit qs v s) :=
  h.list _ (fun q t => h.append q v t) qs s

theorem settleTest (h : Base R) (s : State) : R s (settleTest s) := by
  unfold Machine.settleTest
  split
  · exact h.trans (h.noted s true) (h.emit _ _ _)
  · exact h.refl s

/-! ## Tone and alerts -/

theorem playAlert (h : Base R) (p : PatternId) (s : State) : R s (playAlert p s) := h.annunciators s _ (by exact fun _ => rfl)

theorem toneSilent (h : Base R) (s : State) : R s (toneSilent s) := h.annunciators s _ (by exact fun _ => rfl)

theorem chimeCut (h : Base R) (n : Note) (s : State) : R s (chimeCut n s) := h.emit _ _ s

theorem reevaluateTone (h : Base R) (s : State) : R s (reevaluateTone s) := by
  unfold Machine.reevaluateTone
  split
  · exact h.refl s
  · exact h.playAlert _ s
  · exact h.toneSilent s
  · split
    · exact h.refl s
    · exact h.playAlert _ s
  · exact h.refl s
  · exact h.trans (h.chimeCut _ s) (h.playAlert _ _)

theorem endSilence (h : Base R) (s : State) : R s (endSilence s) := h.annunciators s _ (by exact fun _ => rfl)

theorem alertChanged (h : Base R) (r : AlertRecord) (s : State) : R s (alertChanged r s) := h.emit _ _ s

theorem alertRaised (h : Base R) (r : AlertRecord) (s : State) : R s (alertRaised r s) := h.emit _ _ s

theorem alertRemoved (h : Base R) (r : AlertRecord) (n : BitVec 16) (s : State) :
    R s (alertRemoved r n s) := h.emit _ _ s

/-- A level whose time is set is at most 3. -/
theorem level_le {s : State} {r : AlertRecord} {limit : Nat} (hd : levelDue s r limit = true) :
    r.state = .opened ∧ r.level + 1 ≤ 3 := by
  simp only [levelDue, Bool.and_eq_true, decide_eq_true_eq] at hd
  refine ⟨hd.1, ?_⟩
  have := hd.2
  unfold levelTime at this
  by_cases h : r.level + 1 ≤ 3
  · exact h
  · exfalso
    have h1 : r.level + 1 ≠ 1 := by omega
    have h2 : r.level + 1 ≠ 2 := by omega
    have h3 : r.level + 1 ≠ 3 := by omega
    cases hs : r.severity <;> simp_all

/-- The record a number names is in the list, with that number. -/
theorem recordOf_some {s : State} {n : BitVec 16} {r : AlertRecord} (hr : recordOf s n = some r) :
    r ∈ s.alerts.records ∧ r.number = n :=
  ⟨List.mem_of_find?_eq_some hr, by simpa using List.find?_some hr⟩

theorem reachLevel (h : Base R) (r : AlertRecord) (s : State) (hr : r ∈ s.alerts.records)
    (ho : r.state = .opened) (hl : r.level + 1 ≤ 3) : R s (reachLevel r s) := by
  unfold Machine.reachLevel
  have a := h.trans (h.replace s r { r with level := r.level + 1 } hr
    ⟨rfl, rfl, rfl, rfl, rfl, fun _ => ⟨hl, by simp [ho]⟩⟩) (h.alertChanged { r with level := r.level + 1 } _)
  dsimp only
  split
  · exact h.trans a (h.endSilence _)
  · exact a

theorem climb (h : Base R) : ∀ (fuel : Nat) (n : BitVec 16) (limit : Nat) (s : State),
    R s (climb fuel n limit s)
  | 0, _, _, s => h.refl s
  | fuel + 1, n, limit, s => by
    unfold Machine.climb
    split
    · exact h.refl s
    · rename_i r hr
      split
      · rename_i hd
        exact h.trans (h.reachLevel r s (recordOf_some hr).1 (level_le hd).1 (level_le hd).2)
          (climb h fuel n limit _)
      · exact h.refl s

theorem climbElapsed (h : Base R) (n : BitVec 16) (s : State) : R s (climbElapsed n s) := by
  unfold Machine.climbElapsed
  split
  · exact h.refl s
  · exact h.climb _ _ _ s

theorem countOn (h : Base R) (t : Trigger) (r : AlertRecord) (s : State) (hr : r ∈ s.alerts.records) :
    R s (countOn t r s) := by
  unfold Machine.countOn
  have a := fun r' hs => h.trans (h.replace s r r' hr hs) (h.alertChanged r' _)
  dsimp only
  split
  · exact a _ (by exact ⟨rfl, rfl, rfl, rfl, rfl, id⟩)
  · exact h.trans (a _ (by exact ⟨rfl, rfl, rfl, rfl, rfl, id⟩)) (h.climbElapsed _ _)

theorem reopen (h : Base R) (t : Trigger) (r : AlertRecord) (s : State) (hr : r ∈ s.alerts.records) :
    R s (reopen t r s) :=
  h.trans (h.trans (h.readmit s r _ hr
    (by exact ⟨rfl, rfl, rfl, rfl, rfl, fun _ => ⟨Nat.zero_le _, fun _ => rfl⟩⟩))
    (h.alertChanged _ _)) (h.climbElapsed _ _)

/-- What creating a record is after the record has entered the list. -/
theorem createRecord_eq (t : Trigger) (s : State) :
    createRecord t s = Machine.climbElapsed s.alerts.nextNumber (Machine.alertRaised (t.newRecord s) (admitRecord t s)) :=
  rfl

theorem createRecord (h : Base R) (t : Trigger) (s : State) (ht : Admits t s) : R s (createRecord t s) :=
  h.trans (h.trans (h.joins_list s t ht) (h.alertRaised _ _)) (h.climbElapsed _ _)

theorem triggerListFull (h : Base R) (s : State) : R s (triggerListFull s) := by
  unfold Machine.triggerListFull
  dsimp only
  split
  · rename_i r hr
    split
    · exact h.countOn _ _ s (List.mem_of_find?_eq_some hr)
    · exact h.reopen _ _ s (List.mem_of_find?_eq_some hr)
  · rename_i hn
    exact h.createRecord _ s ⟨hn, .inl ⟨rfl, rfl, rfl, rfl⟩⟩

/-- The record eviction takes is an ordinary one. -/
theorem evictionChoice_mem {s : State} {r : AlertRecord} (hr : evictionChoice s = some r) :
    r ∈ ordinaryRecords s := by
  simp only [evictionChoice, Option.or_eq_some_iff] at hr
  rcases hr with h | ⟨-, h | ⟨-, h | ⟨-, h⟩⟩⟩ <;> exact List.mem_of_find?_eq_some h

theorem storeTrigger (h : Base R) (t : Trigger) (s : State) (ht : t.kind ≠ .listFull) :
    R s (storeTrigger t s).1 := by
  unfold Machine.storeTrigger
  split
  · rename_i r hr
    dsimp only
    split
    · exact h.countOn _ _ s (List.mem_of_find?_eq_some hr)
    · exact h.reopen _ _ s (List.mem_of_find?_eq_some hr)
  · rename_i hn
    split
    · rename_i hl
      exact h.createRecord _ s ⟨hn, .inr ⟨ht, hl⟩⟩
    · split
      · rename_i r hr
        exact h.trans (h.trans (h.evict s t r ⟨hn, ht, evictionChoice_mem hr⟩) (h.alertRaised _ _))
          (h.climbElapsed _ _)
      · exact h.triggerListFull s

theorem raiseAlert (h : Base R) (t : Trigger) (s : State) (ht : t.kind ≠ .listFull) : R s (raiseAlert t s) :=
  h.trans (h.storeTrigger t s ht) (h.reevaluateTone _)

/-- A trigger whose severity the table fixes. -/
theorem raiseTable (h : Base R) (k : AlertKind) (e : Option ExhibitId) (u : Option Nat) (s : State)
    (hk : k ≠ .listFull := by decide) : R s (Machine.raiseAlert (tableTrigger k e u) s) :=
  h.raiseAlert _ s hk

/-! ## Axes and the arbiter -/

/-- An update of an axis that leaves its state, its drive and its move. -/
theorem axisKeep (h : Base R) (a : AxisId) (f : Axis → Axis) (s : State)
    (hf : ∀ x, (f x).drive = x.drive ∧ (f x).state = x.state ∧ (f x).move = x.move ∧ (f x).standing = x.standing) :
    R s (s.modAxis a f) :=
  h.calm s a f
    { standing := fun x => (hf x).2.2.2
      drive := fun hx => by simpa [DriveOk, hf] using hx
      claims := .inl (hf _).2.1
      move := fun hb => .inr ⟨by simpa [hf] using hb, (hf _).2.2.1⟩
      wakes := fun hx => .inl (by simpa [hf] using hx) }

/-- An update of an axis that is outside the arbiter and not DISABLED, to a state at rest. -/
theorem axisRest (h : Base R) (a : AxisId) (f : Axis → Axis) (s : State)
    (hf : ∀ x, (f x).drive = .off ∧ (f x).state = .idle ∧ (f x).standing = x.standing)
    (hc : (s.axis a).state.claims = false) (hd : (s.axis a).state = .disabled → s.mode ≠ .setup) :
    R s (s.modAxis a f) :=
  h.calm s a f
    { standing := fun x => (hf x).2.2
      drive := fun _ => by simp [DriveOk, hf, AxisState.driving]
      claims := .inr ⟨hc, by simp [hf, AxisState.claims]⟩
      move := fun hb => by simp [hf, AxisState.busy] at hb
      wakes := fun hx => .inr (hd hx) }

/-- The axis is released and, with its drive OFF, takes a state that is neither busy nor other than DISABLED
for an axis that was DISABLED. -/
theorem quit (h : Base R) (a : AxisId) (f : Axis → Axis) (n : AxisState) (s : State)
    (hf : ∀ x, (f x).drive = .off ∧ (f x).state = n ∧ (f x).standing = x.standing)
    (hn : n.busy = false) (hw : (s.axis a).state = .disabled → n = .disabled) :
    R s ((Machine.releaseAxis a s).modAxis a f) :=
  h.leaves s a f
    { off := fun x => ⟨(hf x).1, by rw [(hf x).2.1]; cases n <;> simp_all [AxisState.busy, AxisState.driving],
        (hf x).2.2⟩
      claims := by rw [(hf _).2.1]; cases n <;> simp_all [AxisState.busy, AxisState.claims]
      move := fun hb => by rw [(hf _).2.1, hn] at hb; cases hb
      wakes := fun hx => (hf _).2.1.trans (hw hx) }

theorem stopAxis (h : Base R) (a : AxisId) (s : State) : R s (stopAxis a s) := by
  unfold Machine.stopAxis
  split
  · rename_i hb
    exact h.quit a _ .idle s (by exact fun _ => ⟨rfl, rfl, rfl⟩) rfl fun hd => by
      rw [hd] at hb; cases hb
  · exact h.refl s

/-- An axis that is in the midst of a move leaves the arbiter with its move. -/
theorem carries (h : Base R) (a : AxisId) (f : Axis → Axis) (n : AxisState) (s : State)
    (hf : ∀ x, (f x).drive = .off ∧ (f x).state = n ∧ (f x).move = x.move ∧ (f x).standing = x.standing)
    (hn : n = .held ∨ n = .settling) (hb : (s.axis a).state.busy = true) :
    R s ((Machine.releaseAxis a s).modAxis a f) :=
  h.leaves s a f
    { off := fun x => ⟨(hf x).1, by rw [(hf x).2.1]; rcases hn with rfl | rfl <;> rfl, (hf x).2.2.2⟩
      claims := by rw [(hf _).2.1]; rcases hn with rfl | rfl <;> rfl
      move := fun _ => .inr ⟨hb, (hf _).2.2.1⟩
      wakes := fun hx => by rw [hx] at hb; cases hb }

/-- A working axis is busy. -/
theorem busy_of_working {x : AxisState} (h : x.working = true) : x.busy = true := by
  cases x <;> simp_all [AxisState.working, AxisState.busy]

theorem holdAxis (h : Base R) (a : AxisId) (s : State) : R s (holdAxis a s) := by
  unfold Machine.holdAxis
  split
  · rename_i hw
    exact h.trans (h.carries a _ .held s (by exact fun _ => ⟨rfl, rfl, rfl, rfl⟩) (.inl rfl) (busy_of_working hw))
      (h.emit _ _ _)
  · exact h.refl s

/-- An axis outside the arbiter, not DISABLED, joins the start queue. -/
theorem rejoin (h : Base R) (a : AxisId) (f : Axis → Axis) (s : State) (hc : (s.axis a).state.claims = false)
    (hd : (s.axis a).state ≠ .disabled) (hs : ∀ x, (f x).standing = x.standing)
    (hw : ∀ x, (f x).state = .waitingStart)
    (hm : KeepsMove (s.axis a) (f (s.axis a)))
    (ho : DriveOk (s.axis a) → (f (s.axis a)).drive = .off) :
    R s (Machine.joinQueue a (s.modAxis a f)) := by
  have h1 : (s.axis a).state ≠ .waitingStart := fun hx => by rw [hx] at hc; cases hc
  have h2 : (s.axis a).state ≠ .accelerating := fun hx => by rw [hx] at hc; cases hc
  have := h.joins s a f
    { standing := hs, drive := fun hx => by simp [DriveOk, hw, ho hx, AxisState.driving]
      state := hw _, old := ⟨h1, hd⟩, move := hm }
  rwa [releaseAxis_none h1 h2] at this

theorem resumeAxis (h : Base R) (a : AxisId) (s : State) : R s (resumeAxis a s) := by
  unfold Machine.resumeAxis
  split
  · rename_i hs
    refine h.trans (h.rejoin a _ s (by simp [hs, AxisState.claims]) (by simp [hs]) (by exact fun _ => rfl)
      (by exact fun _ => rfl) (fun _ => .inr ⟨by simp [hs, AxisState.busy], rfl⟩) ?_) (h.emit _ _ _)
    intro hd
    simpa [DriveOk, hs, AxisState.driving] using hd
  · exact h.refl s

theorem disableAxis (h : Base R) (a : AxisId) (s : State) : R s (disableAxis a s) :=
  h.quit a _ .disabled s (by exact fun _ => ⟨rfl, rfl, rfl⟩) rfl fun _ => rfl

theorem enableAxis (h : Base R) (a : AxisId) (s : State) (hm : s.mode ≠ .setup) : R s (enableAxis a s) := by
  unfold Machine.enableAxis
  split
  · rename_i hs
    exact h.axisRest a _ s (by exact fun _ => ⟨rfl, rfl, rfl⟩) (by simp [hs, AxisState.claims]) fun _ => hm
  · exact h.refl s

theorem startRequest (h : Base R) (a : AxisId) (m : Move) (s : State) : R s (startRequest a m s) := by
  unfold Machine.startRequest
  split
  · rename_i hs
    refine h.rejoin a _ s (by simp [hs, AxisState.claims]) (by simp [hs]) (by exact fun _ => rfl)
      (by exact fun _ => rfl) (fun _ => .inl rfl) ?_
    intro hd
    simpa [DriveOk, hs, AxisState.driving] using hd
  · exact h.refl s

theorem stopFrameAxes (h : Base R) (f : FrameId) (s : State) : R s (stopFrameAxes f s) :=
  h.each _ (fun a t => by split; exact h.stopAxis a t; exact h.refl t) s

theorem stopExhibitAxes (h : Base R) (e : ExhibitId) (s : State) : R s (stopExhibitAxes e s) :=
  h.list _ (fun a t => h.stopAxis a t) _ s

/-! ## Steps and step timers -/

theorem startStep (h : Base R) (f : FrameId) (i : Nat) (s : State) : R s (startStep f i s) := by
  unfold Machine.startStep
  split
  · exact h.refl s
  · exact h.trans (h.frame s f _) (h.startRequest _ _ _)
  all_goals exact h.frame s f _

theorem beginGroup (h : Base R) (f : FrameId) (g : Nat) (s : State) : R s (beginGroup f g s) :=
  h.trans (h.frame s f _) (h.list _ (fun i t => h.startStep f i t) _ _)

theorem markDone (h : Base R) (f : FrameId) (i : Nat) (s : State) : R s (markDone f i s) := h.frame s f _

theorem suspendTimers (h : Base R) (e : ExhibitId) (s : State) : R s (suspendTimers e s) := by
  unfold Machine.suspendTimers
  split
  · exact h.refl s
  · exact h.frame s _ _

theorem restartTimers (h : Base R) (e : ExhibitId) (s : State) : R s (restartTimers e s) := by
  unfold Machine.restartTimers
  split
  · exact h.refl s
  · exact h.frame s _ _

/-! ## Faults and arrivals -/

theorem markFaulted (h : Base R) (a : AxisId) (c : FaultCause) (s : State)
    (hd : (s.axis a).state ≠ .disabled) : R s (markFaulted a c s) :=
  h.quit a _ .faulted s (by exact fun _ => ⟨rfl, rfl, rfl⟩) rfl fun hx => absurd hx hd

/-- A FAULTED axis forgets its move. -/
theorem forgetMove (h : Base R) (a : AxisId) (s : State) (hf : (s.axis a).state = .faulted) :
    R s (forgetMove a s) :=
  h.calm s a _
    { standing := by exact fun _ => rfl
      drive := fun hx => hx
      claims := .inl rfl
      move := fun hb => by simp [hf, AxisState.busy] at hb
      wakes := fun hx => by rw [hf] at hx; cases hx }

theorem arriveAxis (h : Base R) (a : AxisId) (s : State) (hb : (s.axis a).state.busy = true) :
    R s (arriveAxis a s) :=
  h.carries a _ .settling s (by exact fun _ => ⟨rfl, rfl, rfl, rfl⟩) (.inr rfl) hb

/-! ## Lines -/

theorem releasePress (h : Base R) (l : LineId) (v : Option (BitVec 16)) (s : State) :
    R s (releasePress l v s) := by
  unfold Machine.releasePress
  dsimp only
  refine h.trans ?_ ((h.line _ l _ (by exact fun _ => rfl)))
  split
  · exact h.emit _ _ s
  · exact h.refl s

theorem leaveInert (h : Base R) (l : LineId) (s : State) : R s (leaveInert l s) := (h.line s l _ (by exact fun _ => rfl))

theorem becomeInert (h : Base R) (l : LineId) (s : State) : R s (becomeInert l s) :=
  h.trans (h.releasePress l _ s) ((h.line _ l _ (by exact fun _ => rfl)))

theorem evaluateLine (h : Base R) (l : LineId) (s : State) : R s (evaluateLine l s) := by
  unfold Machine.evaluateLine
  split
  · split
    · exact h.leaveInert l s
    · exact h.refl s
  · split
    · exact h.refl s
    · exact h.becomeInert l s

theorem evaluateExhibitLines (h : Base R) (e : ExhibitId) (s : State) : R s (evaluateExhibitLines e s) :=
  h.each _ (fun l t => by split; exact h.evaluateLine l t; exact h.refl t) s

theorem evaluateLines (h : Base R) (s : State) : R s (evaluateLines s) := h.each _ h.evaluateLine s

theorem pressEvent (h : Base R) (l : LineId) (q : QueueName) (v : Option (BitVec 16)) (i : Option StepId)
    (s : State) : R s (pressEvent l q v i s) := h.emit _ _ s

theorem deliverPress (h : Base R) (l : LineId) (d : PressDestination) (v : Option (BitVec 16))
    (i : Option StepId) (s : State) : R s (deliverPress l d v i s) :=
  h.trans ((h.line s l _ (by exact fun _ => rfl))) (h.pressEvent _ _ _ _ _)

theorem countRun (h : Base R) (l : LineId) (s : State) : R s (countRun l s) := (h.line s l _ (by exact fun _ => rfl))

theorem becomeStuck (h : Base R) (l : LineId) (s : State) : R s (becomeStuck l s) :=
  h.trans ((h.line s l _ (by exact fun _ => rfl))) (h.raiseTable _ _ _ _)

theorem stuckTest (h : Base R) (l : LineId) (s : State) : R s (stuckTest l s) := by
  unfold Machine.stuckTest
  dsimp only
  split
  · exact h.trans ((h.line s l _ (by exact fun _ => rfl))) (h.becomeStuck l _)
  · exact (h.line s l _ (by exact fun _ => rfl))

theorem becomeReleased (h : Base R) (l : LineId) (s : State) : R s (becomeReleased l s) :=
  h.trans ((h.line s l _ (by exact fun _ => rfl))) (h.releasePress l _ _)

/-! ## Exhibits -/

theorem forAxes (h : Base R) (e : ExhibitId) (f : AxisId → State → State) (hf : ∀ a s, R s (f a s))
    (s : State) : R s (forAxes e f s) := h.list f hf _ s

theorem startGuardLong (h : Base R) (e : ExhibitId) (s : State) : R s (startGuardLong e s) :=
  h.exhibit s e _ (by exact fun _ => ⟨rfl, rfl, rfl, rfl⟩)

theorem guardOnEntry (h : Base R) (e : ExhibitId) (s : State) : R s (guardOnEntry e s) := by
  unfold Machine.guardOnEntry
  split
  · exact h.startGuardLong e s
  · exact h.refl s

theorem applyFresh (h : Base R) (e : ExhibitId) (x : HoldSet) (s : State) : R s (applyFresh e x s) :=
  h.exhibit s e _ (by exact fun _ => ⟨rfl, rfl, rfl, rfl⟩)

/-- The axes of an exhibit are enabled outside SETUP. -/
theorem enableAxes (h : Base R) : ∀ (l : List AxisId) (s : State), s.mode ≠ .setup →
    R s (forList l Machine.enableAxis s)
  | [], s, _ => h.refl s
  | a :: l, s, hm => h.trans (h.enableAxis a s hm) (enableAxes h l _ (by simpa using hm))

theorem enableExhibit (h : Base R) (e : ExhibitId) (s : State) (hm : s.mode ≠ .setup) :
    R s (Machine.forAxes e Machine.enableAxis s) := h.enableAxes _ s hm

theorem afterHours (h : Base R) (e : ExhibitId) (s : State) : R s (afterHours e s) :=
  h.raiseTable _ _ _ s

end Base

namespace Free

/-! ## The cue store and runner -/

theorem changeState (h : Free R) (e : ExhibitId) (n : ExhibitState) (s : State) : R s (changeState e n s) :=
  h.trans (h.exhibitAny s e _ (by exact fun _ => rfl)) (h.emit _ _ _)

theorem freeFrame (h : Free R) (f : FrameId) (s : State) : R s (freeFrame f s) :=
  h.trans (h.frame s f fun _ => {}) (h.lists _ _ _ _)

theorem unplace (h : Free R) (f : FrameId) (e : ExhibitId) (s : State) : R s (unplace f e s) :=
  h.exhibitAny s e _ (by exact fun _ => rfl)

theorem becomeRunning (h : Free R) (e : ExhibitId) (s : State) : R s (becomeRunning e s) := by
  unfold Machine.becomeRunning
  split
  · exact h.refl s
  · exact h.changeState e _ s

theorem takeFrame (h : Free R) (e : ExhibitId) (s : State) : R s (takeFrame e s) := by
  unfold Machine.takeFrame
  split
  · exact h.refl s
  · exact h.trans (h.exhibitAny s e _ (by exact fun _ => rfl)) (h.trans (h.emit _ _ _)
      (h.trans (h.becomeRunning e _) (h.beginGroup _ _ _)))

theorem retireFrame (h : Free R) (f : FrameId) (e : ExhibitId) (o : CueOutcome) (a : Option AxisId)
    (s : State) : R s (retireFrame f e o a s) :=
  h.trans (h.frame s f _) (h.trans (h.unplace f e _) (h.trans (h.lists _ _ _ _) (h.emit _ _ _)))

theorem followRetirement (h : Free R) (e : ExhibitId) (s : State) : R s (followRetirement e s) := by
  unfold Machine.followRetirement
  split
  · split
    · exact h.takeFrame e s
    · exact h.changeState _ _ s
  · exact h.refl s

theorem retireActive (h : Free R) (e : ExhibitId) (o : CueOutcome) (a : Option AxisId) (s : State) :
    R s (retireActive e o a s) := by
  unfold Machine.retireActive
  split
  · exact h.refl s
  · exact h.trans (h.trans (h.retireFrame _ _ _ _ s) (h.stopFrameAxes _ _)) (h.followRetirement e _)

theorem retireQueue (h : Free R) (e : ExhibitId) (s : State) : R s (retireQueue e s) :=
  h.list _ (fun f t => h.retireFrame f e .cancelled none t) _ s

/-- A relation that asks nothing of the exhibits is closed under their moves. -/
theorem floor (h : Free R) : Floor R where
  toBase := h.toBase
  turns s e n _ := h.changeState e n s
  takes s e _ := h.takeFrame e s
  retires s e o a := h.retireActive e o a s
  flushes s e := h.retireQueue e s
  empties s e n o a _ := h.trans (h.trans (h.changeState e n s) (h.retireActive e o a _)) (h.retireQueue e _)

end Free

namespace Floor

/-! ## The cue runner -/

theorem startGroup (h : Floor R) (e : ExhibitId) (f : FrameId) (g : Nat) (s : State) :
    R s (startGroup e f g s) := by
  unfold Machine.startGroup
  split
  · exact h.trans (h.frame s f _) (h.retires _ _ _ _)
  · exact h.beginGroup f g s

theorem afterDone (h : Floor R) (e : ExhibitId) (f : FrameId) (s : State) : R s (afterDone e f s) := by
  unfold Machine.afterDone
  split
  · exact h.refl s
  · split
    · split
      · exact h.startGroup _ _ _ s
      · exact h.retires s _ _ _
    · exact h.refl s

theorem moveArrived (h : Floor R) (f : FrameId) (i : Nat) (s : State) : R s (moveArrived f i s) := by
  unfold Machine.moveArrived
  split
  · split
    · exact h.trans (h.markDone f i s) (h.afterDone _ _ _)
    · exact h.frame s f _
  · exact h.refl s

/-! ## Faults, grants, arrivals -/

theorem exhibitFault (h : Floor R) (e : ExhibitId) (a : AxisId) (s : State) : R s (exhibitFault e a s) := by
  unfold Machine.exhibitFault
  split
  all_goals first
    | exact h.refl s
    | exact h.trans (h.empties s e .faulted _ _ (.inr ⟨rfl, by simp_all⟩)) (h.stopExhibitAxes e _)

theorem faultExhibitOf (h : Floor R) (a : AxisId) (s : State) : R s (faultExhibitOf a s) := by
  unfold Machine.faultExhibitOf
  split
  · exact h.exhibitFault _ a s
  · exact h.refl s

/-- What follows the marking of a faulted axis. -/
theorem afterMark (h : Floor R) (a : AxisId) (c : FaultCause) (s : State) (hf : (s.axis a).state = .faulted) :
    R s (Machine.faultExhibitOf a (raiseAxisFault a (Machine.forgetMove a (reportFault a c s)))) := by
  have hf' : ((reportFault a c s).axis a).state = .faulted := by simpa [reportFault] using hf
  exact h.trans (h.emit _ _ _) (h.trans (h.forgetMove a _ hf')
    (h.trans (h.raiseTable _ _ _ _) (h.faultExhibitOf a _)))

theorem faultAxis (h : Floor R) (a : AxisId) (c : FaultCause) (s : State) : R s (faultAxis a c s) := by
  unfold Machine.faultAxis
  split
  · exact h.refl s
  · rename_i hs
    exact h.trans (h.markFaulted a c s fun hx => hs (.inl hx)) (h.afterMark a c _ (by simp [Machine.markFaulted]))

/-- A grant to the head of the start queue. -/
theorem grant (h : Floor R) (a : AxisId) (rest : List AxisId) (s : State)
    (hq : s.arbiter.startQueue = a :: rest) (hc : (s.axis a).startCost ≤ freeUnits s) : R s (grant a s) := by
  have hst : feedbackStale (chargeGrant a s) a = feedbackStale s a := rfl
  unfold Machine.grant
  dsimp only
  rw [hst]
  split
  · unfold Machine.faultAxis
    split
    · rename_i hs
      exact h.spilled s a rest hq hs
    · exact h.trans (h.faulted s a rest _ hq) (h.afterMark a _ _ (by simp [Machine.markFaulted]))
  · rename_i hf
    exact h.granted s a rest hq hc (by simpa using hf)

theorem evaluateUpTo (h : Floor R) : ∀ (fuel : Nat) (s : State), R s (evaluateUpTo fuel s)
  | 0, s => h.refl s
  | fuel + 1, s => by
    unfold Machine.evaluateUpTo
    split
    · exact h.refl s
    · rename_i a rest hq
      split
      · exact h.refl s
      · rename_i hc
        exact h.trans (h.grant a rest s hq (Nat.le_of_not_lt fun hx => hc (.inr hx))) (evaluateUpTo h fuel _)

theorem evaluate (h : Floor R) (s : State) : R s (evaluate s) := h.evaluateUpTo _ s

theorem conclude (h : Floor R) (s : State) : R s (conclude s) :=
  h.trans (h.settleTest s) (h.trans (h.evaluate _) (h.settleTest _))

/-- A SETTLING axis is corrected. -/
theorem correctAxis (h : Floor R) (a : AxisId) (s : State) (hs : (s.axis a).state = .settling) :
    R s (correctAxis a s) := by
  unfold Machine.correctAxis
  split
  · exact h.faultAxis a _ s
  · exact h.rejoin a _ s (by simp [hs, AxisState.claims]) (by simp [hs]) (by exact fun _ => rfl)
      (by exact fun _ => rfl) (fun _ => .inr ⟨by simp [hs, AxisState.busy], rfl⟩) fun _ => rfl

theorem takeSample (h : Floor R) (a : AxisId) (v : Nat) (s : State) : R s (takeSample a v s) := by
  unfold Machine.takeSample
  split
  · split
    · exact h.arriveAxis a s (by simp_all [AxisState.busy])
    · exact h.refl s
  · split
    · exact h.arriveAxis a s (by simp_all [AxisState.busy])
    · exact h.refl s
  · split
    · exact h.refl s
    · exact h.correctAxis a s (by assumption)
  · exact h.refl s

theorem tellRunner (h : Floor R) (m : MoveSource) (s : State) : R s (tellRunner m s) := by
  unfold Machine.tellRunner
  split
  · exact h.moveArrived _ _ s
  · exact h.refl s

theorem settleAxis (h : Floor R) (a : AxisId) (v : Nat) (m : MoveSource) (s : State)
    (hs : (s.axis a).state = .settling) : R s (settleAxis a v m s) := by
  refine h.trans (h.axisRest a _ s (by exact fun _ => ⟨rfl, rfl, rfl⟩) (by simp [hs, AxisState.claims])
    (by simp [hs])) (h.trans (h.emit _ _ _) (h.trans (h.calm _ a (fun x => { x with move := none }) ?_)
      (h.tellRunner m _)))
  exact
    { standing := fun _ => rfl
      drive := fun hx => hx
      claims := .inl rfl
      move := fun hb => by simp [Axis.quit, AxisState.busy] at hb
      wakes := fun hx => .inl hx }

/-- A SETTLING axis is judged. -/
theorem judgeSettled (h : Floor R) (a : AxisId) (s : State) (hs : (s.axis a).state = .settling) :
    R s (judgeSettled a s) := by
  unfold Machine.judgeSettled
  split
  · split
    · exact h.settleAxis a _ _ s hs
    · exact h.correctAxis a s hs
  · exact h.correctAxis a s hs

theorem positionWindow (h : Floor R) (a : AxisId) (w : Window) (s : State) : R s (positionWindow a w s) := by
  unfold Machine.positionWindow
  split
  · split
    · exact h.refl s
    · exact h.faultAxis a _ s
  · split
    · exact h.refl s
    · exact h.faultAxis a _ s
  · exact h.axisKeep a _ s (by exact fun _ => ⟨rfl, rfl, rfl, rfl⟩)
  · exact h.refl s

theorem currentWindow (h : Floor R) (a : AxisId) (w : Window) (s : State) : R s (currentWindow a w s) := by
  unfold Machine.currentWindow
  split
  · exact h.faultAxis a _ s
  all_goals exact h.refl s

/-! ## Lines -/

theorem offerPress (h : Floor R) (l : LineId) (e : ExhibitId) (s : State) : R s (offerPress l e s) := by
  unfold Machine.offerPress
  have b : R s (match (s.exhibit e).busyPolicy with
      | .swallowWhileRunning => s
      | .deliver => Machine.deliverPress l .showQueue none none s) := by
    split
    · exact h.refl s
    · exact h.deliverPress _ _ _ _ s
  dsimp only
  split
  · exact b
  · split
    · exact b
    · exact h.trans (h.trans (h.markDone _ _ s) (h.deliverPress _ _ _ _ _)) (h.afterDone _ _ _)

theorem placePress (h : Floor R) (l : LineId) (e : ExhibitId) (s : State) : R s (placePress l e s) := by
  unfold Machine.placePress
  split
  · exact h.deliverPress _ _ _ _ s
  · split
    · exact h.refl s
    · split
      · exact h.offerPress l e s
      all_goals first | exact h.deliverPress _ _ _ _ s | exact h.refl s

theorem testPress (h : Floor R) (l : LineId) (s : State) : R s (testPress l s) := by
  unfold Machine.testPress
  split
  · dsimp only
    split
    · exact h.trans ((h.line s l _ (by exact fun _ => rfl))) (h.raiseTable _ _ _ _)
    · exact h.trans ((h.line s l _ (by exact fun _ => rfl))) (h.placePress _ _ _)
    · exact (h.line s l _ (by exact fun _ => rfl))
  · exact h.refl s

theorem becomePressed (h : Floor R) (l : LineId) (s : State) : R s (becomePressed l s) :=
  h.trans ((h.line s l _ (by exact fun _ => rfl))) (h.testPress l _)

theorem activeSample (h : Floor R) (l : LineId) (s : State) : R s (activeSample l s) := by
  unfold Machine.activeSample
  split
  · exact h.refl s
  · exact (h.line s l _ (by exact fun _ => rfl))
  · exact (h.line s l _ (by exact fun _ => rfl))
  · exact (h.line s l _ (by exact fun _ => rfl))
  · split
    · exact h.becomePressed l s
    · exact h.countRun l s
  · exact h.stuckTest l s
  · exact h.trans ((h.line s l _ (by exact fun _ => rfl))) (h.stuckTest l _)

theorem inactiveSample (h : Floor R) (l : LineId) (s : State) : R s (inactiveSample l s) := by
  unfold Machine.inactiveSample
  split
  · exact h.refl s
  · exact h.refl s
  · split
    · exact h.becomeReleased l s
    · exact h.countRun l s
  · split
    · exact h.becomeReleased l s
    · exact h.countRun l s
  · exact (h.line s l _ (by exact fun _ => rfl))
  · exact h.trans ((h.line s l _ (by exact fun _ => rfl))) (h.stuckTest l _)
  · split
    · exact h.becomeReleased l s
    · exact h.trans (h.countRun l s) (h.stuckTest l _)

theorem sampleLine (h : Floor R) (l : LineId) (v : Level) (s : State) : R s (sampleLine l v s) := by
  unfold Machine.sampleLine
  dsimp only
  split
  · exact h.trans ((h.line s l _ (by exact fun _ => rfl))) (h.activeSample l _)
  · exact h.trans ((h.line s l _ (by exact fun _ => rfl))) (h.inactiveSample l _)

/-! ## Exhibits -/

theorem onHeld (h : Floor R) (e : ExhibitId) (s : State) : R s (onHeld e s) := by
  unfold Machine.onHeld
  have b := fun t => h.trans (h.forAxes e _ h.holdAxis t) (h.suspendTimers e _)
  split
  · exact h.trans (h.turns s e .held (.inl (by assumption))) (b _)
  · exact h.trans (h.turns s e .held (.inr (.inl (by assumption)))) (b _)
  · exact b s
  · exact h.forAxes e _ h.holdAxis s
  all_goals exact h.refl s

theorem onReleased (h : Floor R) (e : ExhibitId) (s : State) : R s (onReleased e s) := by
  unfold Machine.onReleased
  have b := h.forAxes e _ h.resumeAxis
  split
  · rename_i hs
    split
    · rename_i f hf
      exact h.trans (h.turns s e .running ⟨hs, by simp [hf]⟩) (h.trans (b _) (h.restartTimers e _))
    · rename_i hf
      split
      · exact h.trans (h.takes s e (.inr ⟨hs, hf⟩)) (b _)
      · exact h.trans (h.turns s e .ready (.inl ⟨hs, hf⟩)) (b _)
  · exact b s
  all_goals exact h.refl s

theorem addHold (h : Floor R) (r : HoldReason) (e : ExhibitId) (s : State) : R s (addHold r e s) := by
  unfold Machine.addHold
  split
  · exact h.refl s
  · dsimp only
    split
    · exact h.trans (h.exhibit s e _ (by exact fun _ => ⟨rfl, rfl, rfl, rfl⟩)) (h.onHeld e _)
    · exact h.exhibit s e _ (by exact fun _ => ⟨rfl, rfl, rfl, rfl⟩)

theorem removeHold (h : Floor R) (r : HoldReason) (e : ExhibitId) (s : State) : R s (removeHold r e s) := by
  unfold Machine.removeHold
  split
  · dsimp only
    split
    · exact h.trans (h.exhibit s e _ (by exact fun _ => ⟨rfl, rfl, rfl, rfl⟩)) (h.onReleased e _)
    · exact h.exhibit s e _ (by exact fun _ => ⟨rfl, rfl, rfl, rfl⟩)
  · exact h.refl s

theorem guardReleased (h : Floor R) (e : ExhibitId) (s : State) : R s (guardReleased e s) :=
  h.trans (h.exhibit s e _ (by exact fun _ => ⟨rfl, rfl, rfl, rfl⟩)) (h.removeHold _ e _)

theorem guardEntered (h : Floor R) (e : ExhibitId) (s : State) : R s (guardEntered e s) := by
  unfold Machine.guardEntered
  split
  · exact h.exhibit s e _ (by exact fun _ => ⟨rfl, rfl, rfl, rfl⟩)
  · refine h.trans ?_ (h.addHold _ e _)
    split
    · exact h.refl s
    · exact h.startGuardLong e s

theorem guardLeft (h : Floor R) (e : ExhibitId) (s : State) : R s (guardLeft e s) := by
  unfold Machine.guardLeft
  split
  · split
    · exact h.guardReleased e s
    · exact h.exhibit s e _ (by exact fun _ => ⟨rfl, rfl, rfl, rfl⟩)
  · exact h.refl s

theorem guardWindow (h : Floor R) (e : ExhibitId) (w : Window) (s : State) : R s (guardWindow e w s) := by
  unfold Machine.guardWindow
  split
  all_goals first | exact h.guardEntered e s | exact h.guardLeft e s

/-- A CLOSED exhibit is opened outside SETUP. -/
theorem openExhibit (h : Floor R) (e : ExhibitId) (s : State) (hs : (s.exhibit e).state = .closed)
    (hm : s.mode ≠ .setup) : R s (openExhibit e s) := by
  have hs' : ∀ x, ((Machine.applyFresh e x s).exhibit e).state = .closed := fun x => by
    simpa [Machine.applyFresh] using hs
  have ht : ∀ x, R (Machine.applyFresh e x s)
      (Machine.changeState e (if x.isEmpty then .ready else .held) (Machine.applyFresh e x s)) := fun x => by
    split
    · exact h.turns _ e .ready (.inr ⟨.inl (hs' x), hm⟩)
    · exact h.turns _ e .held (.inr (.inr ⟨.inl (hs' x), hm⟩))
  unfold Machine.openExhibit
  generalize freshHolds s e = x
  refine h.trans (h.applyFresh e x s) (h.trans (ht x) (h.trans (h.enableExhibit e _ ?_)
    (h.trans (h.evaluateExhibitLines e _) (h.guardOnEntry e _))))
  rw [changeState_mode]
  exact hm

/-- What closing an exhibit does after its frames have gone. -/
theorem afterEmpty (h : Floor R) (e : ExhibitId) (s : State) : R s
    (Machine.evaluateExhibitLines e ((Machine.forAxes e Machine.disableAxis s).modExhibit e fun x =>
      { x with holds := { x.holds with attendant := false, lapse := false }, guardLong := none })) :=
  h.trans (h.forAxes e _ h.disableAxis _)
    (h.trans (h.exhibit _ e _ (by exact fun _ => ⟨rfl, rfl, rfl, rfl⟩)) (h.evaluateExhibitLines e _))

/-- An exhibit that is not in SERVICE is closed. -/
theorem closeExhibit (h : Floor R) (e : ExhibitId) (s : State) (hs : (s.exhibit e).state ≠ .service) :
    R s (closeExhibit e s) :=
  h.trans (h.empties s e .closed _ _ (.inl ⟨rfl, hs⟩)) (h.afterEmpty e _)

theorem supplyOnEntry (h : Floor R) (e : ExhibitId) (s : State) : R s (supplyOnEntry e s) := by
  unfold Machine.supplyOnEntry
  split
  · exact h.addHold _ e s
  · exact h.refl s

/-- What entering SERVICE does after the exhibit's change of state. -/
theorem afterEnter (h : Floor R) (e : ExhibitId) (b : Bool) (s : State) (hm : s.mode ≠ .setup) : R s
    (Machine.supplyOnEntry e
      (if b then
        Machine.guardOnEntry e (Machine.evaluateExhibitLines e (Machine.forAxes e Machine.enableAxis s))
      else Machine.evaluateExhibitLines e s)) := by
  refine h.trans ?_ (h.supplyOnEntry e _)
  split
  · exact h.trans (h.enableExhibit e _ hm) (h.trans (h.evaluateExhibitLines e _) (h.guardOnEntry e _))
  · exact h.evaluateExhibitLines e _

/-! ## Scanner -/

theorem stopPass_standing (x : Scanner) (st : ScannerState) : (x.stopPass st).standing = x.standing := rfl

theorem startDayPass_standing (x : Scanner) : x.startDayPass.standing = x.standing := by
  unfold Scanner.startDayPass
  split <;> rfl

theorem closedPassFrom_standing (x : Scanner) (i : Nat) : (x.closedPassFrom i).standing = x.standing := by
  unfold Scanner.closedPassFrom
  split <;> rfl

theorem beginDay_standing (p : Nat) (x : Scanner) : (x.beginDay p).standing = x.standing := by
  unfold Scanner.beginDay
  split
  · exact startDayPass_standing x
  · exact startDayPass_standing x
  · split
    · exact startDayPass_standing x
    · rfl

theorem endDayPass_standing (x : Scanner) : x.endDayPass.standing = x.standing := by
  unfold Scanner.endDayPass
  split
  · exact startDayPass_standing x
  all_goals rfl

theorem advance_standing (x : Scanner) (i : Nat) : (x.advance i).standing = x.standing := by
  unfold Scanner.advance
  split
  · split
    · rfl
    · exact endDayPass_standing x
  · exact closedPassFrom_standing x _
  · rfl

theorem toDay_standing (p : Nat) (x : Scanner) : (x.toDay p).standing = x.standing := by
  unfold Scanner.toDay
  dsimp only
  split
  all_goals first
    | rfl
    | exact beginDay_standing _ _

theorem toClosedScan_standing (p : Nat) (x : Scanner) : (x.toClosedScan p).standing = x.standing := by
  unfold Scanner.toClosedScan
  dsimp only
  split
  all_goals first
    | rfl
    | exact closedPassFrom_standing _ _

theorem toOff_standing (x : Scanner) : x.toOff.standing = x.standing := rfl

theorem warmedUp_standing (p : Nat) (x : Scanner) : (x.warmedUp p).standing = x.standing := by
  unfold Scanner.warmedUp
  dsimp only
  split
  · exact closedPassFrom_standing _ _
  · exact beginDay_standing _ _
  · rfl

theorem filter_standing (x : Channel) (v : Nat) : (x.filter v).standing = x.standing := by
  unfold Channel.filter
  dsimp only
  split
  · rfl
  · split <;> rfl

theorem removeSupply (h : Floor R) (s : State) : R s (removeSupply s) := h.each _ (h.removeHold _) s

theorem supplyBelow (h : Floor R) (s : State) : R s (supplyBelow s) := by
  unfold Machine.supplyBelow
  dsimp only
  split
  · exact h.trans (h.raiseTable _ _ _ s) (h.arbiter _ _ (by exact fun _ => ⟨rfl, rfl⟩))
  all_goals exact h.raiseTable _ _ _ s

theorem supplyGood (h : Floor R) (s : State) : R s (supplyGood s) := by
  unfold Machine.supplyGood
  dsimp only
  split
  · exact h.trans (h.arbiter s _ (by exact fun _ => ⟨rfl, rfl⟩)) (h.removeSupply _)
  all_goals exact h.arbiter s _ (by exact fun _ => ⟨rfl, rfl⟩)

theorem supplyWindow (h : Floor R) (w : Window) (s : State) : R s (supplyWindow w s) := by
  unfold Machine.supplyWindow
  split
  · exact h.supplyBelow s
  · exact h.supplyGood s
  · exact h.supplyGood s
  · exact h.refl s

theorem presenceChanged (h : Floor R) (e : ExhibitId) (w : Window) (s : State) :
    R s (presenceChanged e w s) := by
  unfold Machine.presenceChanged
  dsimp only
  split
  · exact h.trans (h.guardWindow e w s) (h.afterHours e _)
  · exact h.guardWindow e w s

theorem handWindow (h : Floor R) (c : ChannelId) (s : State) : R s (handWindow c s) := by
  unfold Machine.handWindow
  dsimp only
  split
  · exact h.positionWindow _ _ s
  · exact h.currentWindow _ _ s
  · exact h.presenceChanged _ _ s
  · exact h.supplyWindow _ s
  · exact h.emit _ _ s
  · exact h.refl s

theorem handSample (h : Floor R) (c : ChannelId) (v : Nat) (s : State) : R s (handSample c v s) := by
  unfold Machine.handSample
  split
  · exact h.takeSample _ v s
  · exact h.refl s

theorem handChange (h : Floor R) (c : ChannelId) (w : Window) (s : State) : R s (handChange c w s) := by
  unfold Machine.handChange
  split
  · exact h.refl s
  · exact h.handWindow c s

/-! ## Links -/

theorem removeLapse (h : Floor R) (s : State) : R s (removeLapse s) := h.each _ (h.removeHold _) s

theorem addLapse (h : Floor R) (s : State) : R s (addLapse s) := by
  refine h.each _ (fun e t => ?_) s
  split
  all_goals first | exact h.addHold _ e t | exact h.refl t

end Floor

/-! ## Every update of the floor -/

/-- The link's record after a heartbeat, its state apart (R145). -/
def heardLink (m : Master) (s : State) : State :=
  s.modLink m fun x => { x with lastHeartbeat := some s.clock, timer := some (heartbeatPeriod s m) }

/-- A relation closed under the moves of the links: a heartbeat of an ACTIVE link, one that makes a link
ACTIVE, and a lapse (R145, R146). -/
structure Linked (R : State → State → Prop) : Prop where
  hears : ∀ s m, (s.link m).state = .active → R s (heardLink m s)
  wakes : ∀ s m, R s (changeLink m .active (heardLink m s))
  lapses : ∀ s m, R s (changeLink m .lapsed (s.modLink m fun x => { x with timer := none }))

/-- A floor relation that is closed also under the updates of the channels and the scanner, and under the
moves of the links, the tenures and the taken set, which the other operations of the floor do not touch. -/
structure Wide (R : State → State → Prop) : Prop extends Floor R, Linked R where
  channel : ∀ s c f, (∀ x, (f x).standing = x.standing) → R s (State.modChannel s c f)
  scanner : ∀ s f, (∀ x, (f x).standing = x.standing) → R s (State.modScanner s f)
  returns : ∀ s, R s (returnTaken s)
  endsTenure : ∀ s e, R s (endTenure e s)
  endsTenures : ∀ s, R s (endTenures s)

/-- A free relation that is closed also under every update of the channels, the scanner and the tenures. -/
structure WideFree (R : State → State → Prop) : Prop extends Free R where
  channel : ∀ s c f, (∀ x, (f x).standing = x.standing) → R s (State.modChannel s c f)
  scanner : ∀ s f, (∀ x, (f x).standing = x.standing) → R s (State.modScanner s f)
  tenure : ∀ s e t, R s (State.setTenure s e t)
  idle : ∀ s t, R s { s with serviceIdle := t }

/-- The regime of the scanner follows the mode and the exhibits, by updates of the scanner alone. -/
theorem reviewRegime_by (hr : ∀ s, R s s)
    (hc : ∀ s f, (∀ x, (f x).standing = x.standing) → R s (State.modScanner s f)) (s : State) :
    R s (reviewRegime s) := by
  unfold reviewRegime
  split
  · exact hr s
  · split
    · exact hc s _ Floor.toOff_standing
    · exact hc s _ (Floor.toDay_standing _)
    · exact hc s _ (Floor.toClosedScan_standing _)

/-- An exhibit is closed from any state. -/
theorem Free.closeExhibit (h : Free R) (e : ExhibitId) (s : State) : R s (closeExhibit e s) :=
  h.trans (h.trans (h.trans (h.changeState e _ s) (h.retireActive e _ _ _)) (h.retireQueue e _))
    (h.floor.afterEmpty e _)

namespace WideFree

theorem returnTaken (h : WideFree R) (s : State) : R s (returnTaken s) :=
  h.trans (h.list _ (fun f t => h.freeFrame f t) _ s) (h.lists _ _ _ _)

theorem stopIdleTimer (h : WideFree R) (s : State) : R s (stopIdleTimer s) := by
  unfold Machine.stopIdleTimer
  split
  · exact h.refl s
  · exact h.idle s _

theorem reviewRegime (h : WideFree R) (s : State) : R s (reviewRegime s) :=
  reviewRegime_by h.refl h.scanner s

/-- An exhibit enters SERVICE outside SETUP. -/
theorem enterService (h : WideFree R) (e : ExhibitId) (s : State) (hm : s.mode ≠ .setup) :
    R s (enterService e s) := by
  have := h.trans (h.changeState e .service s)
    (h.toFree.floor.afterEnter e (decide ((s.exhibit e).state = .closed)) _ (by simpa using hm))
  simpa [Machine.enterService] using this

theorem beginTenure (h : WideFree R) (e : ExhibitId) (s : State) (hm : s.mode ≠ .setup) :
    R s (beginTenure e s) :=
  h.trans (h.tenure s e _) (h.trans (h.enterService e _ hm) (h.reviewRegime _))

theorem endTenure (h : WideFree R) (e : ExhibitId) (s : State) : R s (endTenure e s) :=
  h.trans (h.tenure s e _) (h.trans (h.closeExhibit e _) (h.trans (h.stopIdleTimer _) (h.reviewRegime _)))

theorem endTenures (h : WideFree R) (s : State) : R s (endTenures s) := by
  refine h.trans (h.each _ (fun e t => ?_) s) (h.idle _ _)
  split
  · exact h.endTenure e t
  · exact h.refl t

theorem linked (h : WideFree R) (hl : ∀ s m f, R s (State.modLink s m f)) : Linked R where
  hears s m _ := hl s m _
  wakes s m := h.trans (hl s m _) (h.trans (hl _ m _) (h.emit _ _ _))
  lapses s m := h.trans (hl s m _) (h.trans (hl _ m _) (h.emit _ _ _))

theorem wide (h : WideFree R) (hl : Linked R) : Wide R where
  toLinked := hl
  toFloor := h.toFree.floor
  channel := h.channel
  scanner := h.scanner
  returns := h.returnTaken
  endsTenure s e := h.endTenure e s
  endsTenures s := h.endTenures s

end WideFree

namespace Wide

theorem reviewRegime (h : Wide R) (s : State) : R s (reviewRegime s) := reviewRegime_by h.refl h.scanner s

theorem storeResult (h : Wide R) (c : ChannelId) (v : Nat) (s : State) : R s (storeResult c v s) :=
  h.channel s c _ fun x => Floor.filter_standing x v

theorem recordResult (h : Wide R) (c : ChannelId) (v : Nat) (s : State) : R s (recordResult c v s) :=
  h.trans (h.storeResult c v s) (h.trans (h.handChange c _ _) (h.handSample c v _))

theorem takeHeartbeat (h : Wide R) (m : Master) (s : State) : R s (takeHeartbeat m s) := by
  unfold Machine.takeHeartbeat
  dsimp only
  split
  · exact h.hears s _ (by assumption)
  · exact h.wakes s _
  · exact h.trans (h.wakes s _) (h.removeLapse _)
  · exact h.wakes s _

theorem lapseLink (h : Wide R) (m : Master) (s : State) : R s (lapseLink m s) := by
  unfold Machine.lapseLink
  have a := fun k hk => h.trans (h.lapses s m) (h.raiseTable k none none _ hk)
  dsimp only
  split
  · exact h.trans (h.trans (a _ (by decide)) (h.addLapse _)) (h.returns _)
  · exact a _ (by decide)

end Wide

end Sys2Proof.Machine
end

