-- ==== Sys2Proof/Laws/Sound.lean ====
section
/-! SUPPORT. The two coarse instances of a closed relation: what is sound after as before, and what is
left undisturbed; and the queue lemmas under them. -/

namespace Sys2Proof.Machine

/-! ## Coarse relations -/

/-- A relation closed under any update of one record; an axis may only be updated so that its drive stays
consistent with its state. -/
structure Coarse (R : State → State → Prop) : Prop where
  refl : ∀ s, R s s
  trans : ∀ {s t u}, R s t → R t u → R s u
  exhibit : ∀ s e f, (∀ x, (f x).standing = x.standing) → R s (State.modExhibit s e f)
  line : ∀ s l f, (∀ x, (f x).standing = x.standing) → R s (State.modLine s l f)
  axis : ∀ (s : State) a f, (DriveOk (s.axis a) → DriveOk (f (s.axis a))) →
    (∀ x, (f x).standing = x.standing) → R s (s.modAxis a f)
  frame : ∀ s i f, R s (State.modFrame s i f)
  arbiter : ∀ s f, R s (State.modArbiter s f)
  annunciators : ∀ s f, (∀ x, (f x).patterns = x.patterns) → R s (State.modAnnunciators s f)
  alerts : ∀ s f, R s (State.modAlerts s f)
  append : ∀ q v s, R s (appendTo q v s)
  noted : ∀ s b, R s { s with settledNoted := b }
  lists : ∀ s a b c, R s { s with freeList := a, takenSet := b, retiredList := c }
  channel : ∀ s c f, (∀ x, (f x).standing = x.standing) → R s (State.modChannel s c f)
  scanner : ∀ s f, (∀ x, (f x).standing = x.standing) → R s (State.modScanner s f)
  tenure : ∀ s e t, R s (State.setTenure s e t)
  link : ∀ s m f, R s (State.modLink s m f)
  idle : ∀ s t, R s { s with serviceIdle := t }

namespace Coarse

variable {R : State → State → Prop}

theorem releaseAxis (h : Coarse R) (a : AxisId) (s : State) : R s (releaseAxis a s) := by
  unfold Machine.releaseAxis
  split
  · exact h.arbiter s _
  · exact h.arbiter s _
  all_goals exact h.refl s

theorem startDrive (h : Coarse R) (a : AxisId) (s : State) : R s (startDrive a s) := by
  unfold Machine.startDrive
  split
  · exact h.axis s a _ (fun _ => by simp [DriveOk, Axis.driveOn, AxisState.driving]) (by exact fun _ => rfl)
  · exact h.refl s

theorem markFaulted (h : Coarse R) (a : AxisId) (c : FaultCause) (s : State) : R s (markFaulted a c s) :=
  h.trans (h.releaseAxis a s)
    (h.axis _ _ _ (fun _ => by simp [DriveOk, Axis.quit, AxisState.driving]) (by exact fun _ => rfl))

/-- A coarse relation asks nothing of the exhibits, the lists and the tenures. -/
theorem free (h : Coarse R) : WideFree R where
  refl := h.refl
  trans := h.trans
  exhibit s e f hf := h.exhibit s e f fun x => (hf x).1
  line := h.line
  calm s a f hf := h.axis s a f hf.drive hf.standing
  leaves s a f hf := h.trans (h.releaseAxis a s)
    (h.axis _ _ _ (fun _ => by simp [DriveOk, hf.off]) fun x => (hf.off x).2.2)
  joins s a f hf := h.trans (h.trans (h.releaseAxis a s)
    (h.axis _ _ _ (by simpa using hf.drive) hf.standing)) (h.arbiter _ _)
  granted s a _ _ _ _ := h.trans (h.arbiter s _) (h.startDrive a _)
  spilled s a _ _ _ := h.trans (h.arbiter s _) (h.arbiter _ _)
  faulted s a _ c _ := h.trans (h.trans (h.arbiter s _) (h.arbiter _ _)) (h.markFaulted a c _)
  arbiter s f _ := h.arbiter s f
  frame := h.frame
  annunciators := h.annunciators
  replace s _ _ _ _ := h.alerts s _
  remove s _ := h.alerts s _
  readmit s _ _ _ _ := h.trans (h.alerts s _) (h.alerts _ _)
  joins_list s _ _ := h.alerts s _
  evict s t r _ := h.trans (t := alertRemoved r 1 (removeRecord r.number s))
    (h.trans (t := removeRecord r.number s) (h.alerts s _)
      (h.append .deskQ (alertEvent .alertRemoved r 1) (removeRecord r.number s))) (h.alerts _ _)
  append := h.append
  noted := h.noted
  exhibitAny := h.exhibit
  lists := h.lists
  channel := h.channel
  scanner := h.scanner
  tenure := h.tenure
  idle := h.idle

/-- A coarse relation is closed under every move of the floor. -/
theorem wide (h : Coarse R) : Wide R := h.free.wide (h.free.linked h.link)

end Coarse

/-! ## Event queues -/

/-- The list without its oldest button event is one shorter. -/
theorem dropOldestButton_length : ∀ {l rest : List Event}, dropOldestButton l = some rest →
    rest.length + 1 = l.length
  | [], rest, h => by simp [dropOldestButton] at h
  | v :: l, rest, h => by
    unfold dropOldestButton at h
    split at h
    · cases h; rfl
    · cases hr : dropOldestButton l with
      | none => simp [hr] at h
      | some r =>
        simp only [hr, Option.map_some, Option.some.injEq] at h
        subst h
        simpa using dropOldestButton_length hr

/-- The next sequence number is never 0. -/
theorem nextSequence_ne (n : BitVec 32) : nextSequence n ≠ 0 := by
  unfold nextSequence
  split
  · decide
  · assumption

/-- Placing an event keeps the capacity. -/
theorem placeEvent_length {c : Nat} {v : Event} {q : EventQueue} (hc : 0 < c) (h : q.events.length ≤ c) :
    (placeEvent c v q).events.length ≤ c := by
  unfold placeEvent
  split
  · simp; omega
  · split
    · rename_i rest hr
      have := dropOldestButton_length hr
      simp; omega
    · split
      · exact h
      · simp; omega

/-- Placing an event leaves the next sequence number. -/
@[simp] theorem placeEvent_nextSeq (c : Nat) (v : Event) (q : EventQueue) :
    (placeEvent c v q).nextSeq = q.nextSeq := by
  unfold placeEvent
  split
  · rfl
  · split
    · rfl
    · split <;> rfl

/-- An offered event keeps a queue good. -/
theorem offerEvent_ok {c : Nat} {v : Event} {q : EventQueue} (hc : 0 < c) (h : QueueOk c q) :
    QueueOk c (offerEvent c v q) :=
  ⟨placeEvent_length hc h.1, by unfold offerEvent; rw [placeEvent_nextSeq]; exact nextSequence_ne _⟩

/-- A read-out keeps a queue good. -/
theorem readOut_ok {c n : Nat} {q : EventQueue} (h : QueueOk c q) : QueueOk c (readOut n q).2 := by
  unfold readOut
  split
  · exact h
  · exact ⟨by simp; have := h.1; omega, h.2⟩

/-- An emptied queue is good. -/
theorem emptied_ok {c : Nat} {q : EventQueue} (h : QueueOk c q) : QueueOk c q.emptied :=
  ⟨by simp [EventQueue.emptied], h.2⟩

/-- Every queue has room for an event. -/
theorem capacity_pos (q : QueueName) : 0 < q.capacity := by cases q <;> decide

/-! ## Sound steps -/

/-- A step that keeps the drives consistent, keeps the queues within their capacities, and leaves the
waiting commands and the reset line. -/
structure Sound (s t : State) : Prop where
  drives : DrivesOk s → DrivesOk t
  queues : QueuesOk s → QueuesOk t
  pending : t.pending = s.pending
  inReset : t.inReset = s.inReset

namespace Sound

theorem refl (s : State) : Sound s s := ⟨id, id, rfl, rfl⟩

theorem trans {s t u : State} (a : Sound s t) (b : Sound t u) : Sound s u :=
  ⟨b.drives ∘ a.drives, b.queues ∘ a.queues, b.pending.trans a.pending, b.inReset.trans a.inReset⟩

/-- The last of two steps first: its states are known when the first is looked at. -/
theorem after {s t u : State} (b : Sound t u) (a : Sound s t) : Sound s u := trans a b

/-- A step that touches neither the axes nor the queues. -/
theorem aside {s t : State} (ha : t.axes = s.axes) (h1 : t.showQueue = s.showQueue)
    (h2 : t.deskQueue = s.deskQueue) (h3 : t.serviceQueue = s.serviceQueue) (hp : t.pending = s.pending)
    (hr : t.inReset = s.inReset) : Sound s t :=
  ⟨fun h a => by simpa [State.axis, ha] using h a,
    fun h q => by cases q <;> simpa [State.queue, h1, h2, h3] using h _, hp, hr⟩

/-- A step that changes the queues alone. -/
theorem ofQueues {s t : State} (ha : t.axes = s.axes) (hp : t.pending = s.pending)
    (hr : t.inReset = s.inReset) (hq : QueuesOk s → QueuesOk t) : Sound s t :=
  ⟨fun h a => by simpa [State.axis, ha] using h a, hq, hp, hr⟩

/-- A step that changes the axes alone. -/
theorem ofAxes {s t : State} (ha : ∀ a, DriveOk (s.axis a) → DriveOk (t.axis a))
    (h1 : t.showQueue = s.showQueue) (h2 : t.deskQueue = s.deskQueue)
    (h3 : t.serviceQueue = s.serviceQueue) (hp : t.pending = s.pending) (hr : t.inReset = s.inReset) :
    Sound s t :=
  ⟨fun h a => ha a (h a), fun h q => by cases q <;> simpa [State.queue, h1, h2, h3] using h _, hp, hr⟩

/-- An update of one queue that keeps it good. -/
theorem queue (s : State) (q : QueueName) (f : EventQueue → EventQueue)
    (hf : QueueOk q.capacity (s.queue q) → QueueOk q.capacity (f (s.queue q))) :
    Sound s (s.modQueue q f) :=
  ofQueues (by simp) (by simp) (by simp) fun h k => by
    by_cases e : k = q
    · subst e; rw [modQueue_queue_same]; exact hf (h _)
    · rw [modQueue_queue_other _ _ _ _ e]; exact h k

/-- An update of one axis. -/
theorem axis (s : State) (a : AxisId) (f : Axis → Axis)
    (hf : DriveOk (s.axis a) → DriveOk (f (s.axis a))) : Sound s (s.modAxis a f) :=
  ofAxes (fun b h => by
    by_cases e : b = a
    · subst e; rw [modAxis_axis_same]; exact hf h
    · rw [modAxis_axis_other _ _ _ _ e]; exact h) rfl rfl rfl rfl rfl

/-- Sound steps are closed under the updates of single records. -/
theorem coarse : Coarse Sound where
  refl := refl
  trans := trans
  exhibit _ _ _ _ := aside rfl rfl rfl rfl rfl rfl
  line _ _ _ _ := aside rfl rfl rfl rfl rfl rfl
  axis s a f hd _ := axis s a f hd
  frame _ _ _ := aside rfl rfl rfl rfl rfl rfl
  arbiter _ _ := aside rfl rfl rfl rfl rfl rfl
  annunciators _ _ _ := aside rfl rfl rfl rfl rfl rfl
  alerts _ _ := aside rfl rfl rfl rfl rfl rfl
  append q v s := queue s q _ fun h => offerEvent_ok (capacity_pos q) h
  noted _ _ := aside rfl rfl rfl rfl rfl rfl
  lists _ _ _ _ := aside rfl rfl rfl rfl rfl rfl
  channel _ _ _ _ := aside rfl rfl rfl rfl rfl rfl
  scanner _ _ _ := aside rfl rfl rfl rfl rfl rfl
  tenure _ _ _ := aside rfl rfl rfl rfl rfl rfl
  link s m f := aside (by simp) (by simp) (by simp) (by simp) (by simp) (by simp)
  idle _ _ := aside rfl rfl rfl rfl rfl rfl

/-- Sound steps are closed under every move of the floor. -/
theorem free : WideFree Sound := coarse.free

/-- Sound steps are closed under the moves of the floor. -/
theorem wide : Wide Sound := coarse.wide

end Sound

/-! ## Undisturbed -/

namespace Undisturbed

theorem refl (s : State) : Undisturbed s s := by constructor <;> first | rfl | exact fun _ => rfl

theorem trans {s t u : State} (a : Undisturbed s t) (b : Undisturbed t u) : Undisturbed s u where
  exhibits e := (b.exhibits e).trans (a.exhibits e)
  lines l := (b.lines l).trans (a.lines l)
  channels c := (b.channels c).trans (a.channels c)
  axes x := (b.axes x).trans (a.axes x)
  scanner := b.scanner.trans a.scanner
  patterns := b.patterns.trans a.patterns
  timing := b.timing.trans a.timing
  mode := b.mode.trans a.mode
  clock := b.clock.trans a.clock
  inReset := b.inReset.trans a.inReset
  notes := b.notes.trans a.notes
  showSpi := b.showSpi.trans a.showSpi
  deskSpi := b.deskSpi.trans a.deskSpi
  uart := b.uart.trans a.uart
  pending := b.pending.trans a.pending

/-- An entry of a table updated without change of what stands in it. -/
theorem entry {α β : Type} {n : Nat} (v : Vector α n) (i j : Fin n) (f : α → α) (g : α → β)
    (h : ∀ x, g (f x) = g x) : g ((modTable v i f).get j) = g (v.get j) := by
  rw [get_modTable]
  split
  · rename_i e; subst e; exact h _
  · rfl

/-- What stands is closed under the updates of single records. -/
theorem coarse : Coarse Undisturbed where
  refl := refl
  trans := trans
  exhibit s e f h := { refl s with exhibits := fun j => entry s.exhibits e j f Exhibit.standing h }
  line s e f h := { refl s with lines := fun j => entry s.lines e j f Line.standing h }
  axis s e f _ h := { refl s with axes := fun j => entry s.axes e j f Axis.standing h }
  frame s _ _ := { refl s with }
  arbiter s _ := { refl s with }
  annunciators s f h := { refl s with patterns := h s.annunciators }
  alerts s _ := { refl s with }
  append q v s := by cases q <;> exact { refl s with }
  noted s _ := { refl s with }
  lists s _ _ _ := { refl s with }
  channel s e f h := { refl s with channels := fun j => entry s.channels e j f Channel.standing h }
  scanner s f h := { refl s with scanner := h s.scanner }
  tenure s _ _ := { refl s with }
  link s m f := by cases m <;> exact { refl s with }
  idle s _ := { refl s with }

/-- What stands is closed under every move of the floor. -/
theorem free : WideFree Undisturbed := coarse.free

/-- What stands is closed under the moves of the floor. -/
theorem wide : Wide Undisturbed := coarse.wide

end Undisturbed

end Sys2Proof.Machine
end

