-- ==== Sys2Proof/Laws/Commands.lean ====
section
/-! SUPPORT. What the commands can do, said once: any relation on states that is closed under a few moves
holds between the state before and after every command's body. The soundness of the commands is its instance. -/

namespace Sys2Proof.Machine

/-! ## The moves of the commands -/

/-- An update of an exhibit that leaves its state, its frames and its permit. -/
def Exhibit.Configures (f : Exhibit → Exhibit) : Prop :=
  ∀ x, (f x).state = x.state ∧ (f x).active = x.active ∧ (f x).queue = x.queue ∧ (f x).permit = x.permit

/-- A relation closed under the moves of the floor and of the commands. -/
structure Acts (R : State → State → Prop) : Prop extends Wide R where
  mode : ∀ (s : State) m, m ≠ .setup → R s { s with mode := m }
  rebuilt : ∀ s, R s (reconfigureHub s)
  rewarmed : ∀ s, R s (warmScanner (stampExhibits (warmBlocks s)))
  committed : ∀ s : State, s.mode = .setup →
    R s (warmArbiter (warmChannels (warmLines (warmExhibits (deriveFields s)))))
  configures : ∀ s e f, Exhibit.Configures f → R s (State.modExhibit s e f)
  lineAny : ∀ s l f, R s (State.modLine s l f)
  channelAny : ∀ s c f, R s (State.modChannel s c f)
  scannerAny : ∀ s f, R s (State.modScanner s f)
  annunciatorsAny : ∀ s f, R s (State.modAnnunciators s f)
  axisSet : ∀ (s : State) a p x, s.mode = .setup → configuredAxis p (s.axis a) = some x →
    R s (s.modAxis a fun _ => x)
  timed : ∀ (s : State) x, s.mode = .setup → R s { s with timing := x }
  queue : ∀ (s : State) (q : QueueName) f,
    (QueueOk q.capacity (s.queue q) → QueueOk q.capacity (f (s.queue q))) → R s (s.modQueue q f)
  spi : ∀ s m f, R s (State.modSpi s m f)
  uart : ∀ s f, R s (State.modUart s f)
  note : ∀ s i n, R s (State.setNote s i n)
  permits : ∀ s e b, R s (setPermit e b s)
  takesUp : ∀ (s : State) f rest, s.freeList = f :: rest →
    R s { s with freeList := rest, takenSet := insertTaken f s.takenSet }
  drops : ∀ (s : State) f, f ∈ s.takenSet → R s (dropFrame f s)
  collects : ∀ (s : State) r rest, s.retiredList = r :: rest →
    R s (freeFrame r.frame { s with retiredList := rest })
  posts : ∀ s e f, postFault s e f = none → R s (postFrame e f s)

variable {R : State → State → Prop}

/-- The last of two steps first: its states are known when the first is looked at. -/
theorem Acts.after (h : Acts R) {s t u : State} (b : R t u) (a : R s t) : R s u := h.trans a b

/-- A loop that keeps a property of the state, with a move that needs it. -/
theorem Base.eachKeeping (h : Base R) {n : Nat} (P : State → Prop) (f : Fin n → State → State)
    (hp : ∀ a s, P s → P (f a s)) (hf : ∀ a s, P s → R s (f a s)) (s : State) (hs : P s) :
    R s (forEach f s) := by
  unfold forEach
  generalize List.finRange n = l
  induction l generalizing s with
  | nil => exact h.refl s
  | cons a l ih => exact h.trans (hf a s hs) (ih _ (hp a s hs))

/-! ## Operations outside the floor -/

/-- A change of the gallery mode alone. -/
theorem setMode_acts (h : Acts R) (m : GalleryMode) (s : State) (hm : m ≠ .setup := by decide) : R s (setMode m s) :=
  h.after (t := { s with mode := m }) (h.emit _ _ _) (h.mode s m hm)

/-- The exhibits are opened outside SETUP. -/
theorem openFlagged_acts (h : Acts R) (s : State) (hm : s.mode ≠ .setup) : R s (openFlagged s) := by
  refine h.eachKeeping (fun t => t.mode ≠ .setup) _ (fun e t ht => ?_) (fun e t ht => ?_) s hm
  · split
    · rename_i hc
      simp only [Bool.and_eq_true, decide_eq_true_eq] at hc
      rw [(Undisturbed.wide.openExhibit e t hc.1 ht).mode]
      exact ht
    · exact ht
  · split
    · rename_i hc
      simp only [Bool.and_eq_true, decide_eq_true_eq] at hc
      exact h.openExhibit e t hc.1 ht
    · exact h.refl t

theorem takeWaiting_acts (h : Acts R) (s : State) : R s (takeWaiting s) := by
  refine h.each _ (fun e t => ?_) s
  split
  · rename_i hc
    simp only [Bool.and_eq_true, decide_eq_true_eq] at hc
    exact h.takes t e (.inl hc.1)
  · exact h.refl t

theorem openGallery_acts (h : Acts R) (s : State) : R s (openGallery s) := by
  have a := h.after (h.reviewRegime _) (h.after (h.evaluateLines _) (setMode_acts h .opened s))
  have hm : (reviewRegime (evaluateLines (setMode .opened s))).mode ≠ .setup := by
    rw [(Undisturbed.wide.reviewRegime _).mode, (Undisturbed.wide.evaluateLines _).mode, setMode, emit_mode]
    exact nofun
  unfold openGallery
  dsimp only
  split
  · exact h.after (openFlagged_acts h _ hm) a
  · exact h.after (takeWaiting_acts h _) a
  all_goals exact a

theorem cancelWaiting_acts (h : Acts R) (s : State) : R s (cancelWaiting s) := by
  refine h.each _ (fun e t => ?_) s
  split
  · exact h.retires t e _ _
  · exact h.refl t

theorem evaluateOtherLines_acts (h : Acts R) (s : State) : R s (evaluateOtherLines s) := by
  refine h.each _ (fun l t => ?_) s
  split
  · split
    · exact h.refl t
    · exact h.evaluateLine l t
  · exact h.evaluateLine l t

theorem closeExhibits_acts (h : Acts R) (s : State) : R s (closeExhibits s) := by
  refine h.each _ (fun e t => ?_) s
  split
  · rename_i hc
    exact h.closeExhibit e t fun hx => by rw [hx] at hc; cases hc
  · exact h.refl t

theorem afterHoursAtClose_acts (h : Acts R) (s : State) : R s (afterHoursAtClose s) := by
  refine h.each _ (fun e t => ?_) s
  split
  · exact h.afterHours e t
  · exact h.refl t

theorem closeGallery_acts (h : Acts R) (s : State) : R s (closeGallery s) :=
  h.after (afterHoursAtClose_acts h _) (h.after (h.reviewRegime _) (h.after (closeExhibits_acts h _) (h.after (evaluateOtherLines_acts h _) (setMode_acts h .closed s))))

theorem renewLost_acts (h : Acts R) (m : Master) (s : State) : R s (renewLost m s) := by
  unfold renewLost
  split
  · exact h.raiseTable (lostAlert m) none none s (by cases m <;> decide)
  · exact h.refl s

theorem restartHub_acts (h : Acts R) (s : State) : R s (restartHub s) :=
  h.after (renewLost_acts h _ _) <| h.after (renewLost_acts h _ _) <|
  h.after (h.raiseTable .restarted none none _) <| h.after (h.evaluateLines _) <|
  h.after (setMode_acts h _ _) (h.rewarmed s)

theorem commitHub_acts (h : Acts R) (s : State) (hm : s.mode = .setup) : R s (commitHub s) := by
  have a := h.committed s hm
  unfold commitHub
  exact h.after (h.reviewRegime _) <| h.after (h.evaluateLines _) <| h.after (setMode_acts h _ _) a

/-- A command that is carried out is sound when its effect is. -/
theorem accept_acts {b : List Byte} {s t : State} (a : R s t) : R s (accept b t).1 := a

theorem quietGallery_acts (h : Acts R) (s : State) : R s (quietGallery s) :=
  h.after (cancelWaiting_acts h _) <| h.after (h.reviewRegime _) <|
  h.after (h.evaluateLines _) <| h.after (setMode_acts h _ _) (h.noted s false)

/-! ## Gallery and exhibit commands -/

/-- A command that names an exhibit is sound when its effect on each exhibit is. -/
theorem onExhibit_acts (h : Acts R) {p : List Byte} {f : ExhibitId → State → State × Reply} {s : State}
    (hf : ∀ e, R s (f e s).1) : R s (onExhibit p f s).1 := by
  unfold onExhibit
  split
  · exact hf _
  · exact h.refl s

theorem acceptExhibit_acts (h : Acts R) {e : ExhibitId} {s t : State} (a : R s t) :
    R s (acceptExhibit e t).1 := h.after (h.conclude t) a

theorem galleryOpenBody_acts (h : Acts R) (port : Port) (p : List Byte) (s : State) :
    R s (galleryOpenBody port p s).1 :=
  accept_acts (h.after (h.conclude _) (openGallery_acts h s))

theorem galleryQuietBody_acts (h : Acts R) (port : Port) (p : List Byte) (s : State) :
    R s (galleryQuietBody port p s).1 :=
  accept_acts (h.after (h.conclude _) (quietGallery_acts h s))

theorem galleryCloseBody_acts (h : Acts R) (port : Port) (p : List Byte) (s : State) :
    R s (galleryCloseBody port p s).1 := by
  unfold galleryCloseBody
  split
  · exact accept_acts (h.after (h.conclude _) (closeGallery_acts h s))
  · exact h.refl s

theorem restartBody_acts (h : Acts R) (port : Port) (p : List Byte) (s : State) : R s (restartBody port p s).1 :=
  accept_acts (restartHub_acts h s)

theorem reconfigureBody_acts (h : Acts R) (port : Port) (p : List Byte) (s : State) :
    R s (reconfigureBody port p s).1 := by
  unfold reconfigureBody
  split
  · exact h.refl s
  · exact accept_acts (h.rebuilt s)

theorem exhibitOpenBody_acts (h : Acts R) (port : Port) (p : List Byte) (s : State) (hm : s.mode ≠ .setup) :
    R s (exhibitOpenBody port p s).1 := onExhibit_acts h fun e => by
  split
  · exact acceptExhibit_acts h (h.openExhibit e s (by assumption) hm)
  · exact h.refl s

theorem exhibitCloseBody_acts (h : Acts R) (port : Port) (p : List Byte) (s : State) :
    R s (exhibitCloseBody port p s).1 := onExhibit_acts h fun e => by
  split
  · exact h.refl s
  · exact h.refl s
  all_goals exact accept_acts (h.after (h.conclude _) (h.closeExhibit e s (by simp_all)))

theorem exhibitHoldBody_acts (h : Acts R) (port : Port) (p : List Byte) (s : State) :
    R s (exhibitHoldBody port p s).1 := onExhibit_acts h fun e => by
  split
  · exact h.refl s
  · exact acceptExhibit_acts h (h.addHold _ e s)

theorem exhibitReleaseBody_acts (h : Acts R) (port : Port) (p : List Byte) (s : State) :
    R s (exhibitReleaseBody port p s).1 := onExhibit_acts h fun e => by
  split
  · exact acceptExhibit_acts h (h.removeHold _ e s)
  · exact h.refl s

/-- The axes cleared keep out of DISABLED and out of the arbiter. -/
theorem clearAxes_acts (h : Acts R) : ∀ (l : List AxisId) (s : State),
    (∀ a ∈ l, (s.axis a).state = .faulted ∨ (s.axis a).state = .idle) → R s (forList l clearAxis s)
  | [], s, _ => h.refl s
  | a :: l, s, hl => by
    refine h.trans (h.axisRest a _ s (by exact fun _ => ⟨rfl, rfl, rfl⟩) ?_ ?_) (clearAxes_acts h l _ ?_)
    · rcases hl a List.mem_cons_self with hx | hx <;> simp [hx, AxisState.claims]
    · rcases hl a List.mem_cons_self with hx | hx <;> simp [hx]
    · intro b hb
      by_cases e : b = a
      · subst e; exact .inr (by simp)
      · rw [modAxis_axis_other _ _ _ _ e]; exact hl b (List.mem_cons_of_mem _ hb)

@[simp] theorem clearAxis_exhibit (a : AxisId) (s : State) (e : ExhibitId) :
    (clearAxis a s).exhibit e = s.exhibit e := rfl

@[simp] theorem clearAxis_mode (a : AxisId) (s : State) : (clearAxis a s).mode = s.mode := rfl

/-- Clearing axes leaves the exhibits and the mode. -/
theorem clearAxes_leaves (l : List AxisId) (s : State) :
    (∀ e, (forList l clearAxis s).exhibit e = s.exhibit e) ∧ (forList l clearAxis s).mode = s.mode := by
  unfold forList
  induction l generalizing s with
  | nil => exact ⟨fun _ => rfl, rfl⟩
  | cons a l ih => exact ⟨fun e => (ih _).1 e, (ih _).2⟩

/-- A FAULTED exhibit returns to use outside SETUP. -/
theorem clearFault_acts (h : Acts R) (e : ExhibitId) (s : State) (hs : (s.exhibit e).state = .faulted)
    (hm : s.mode ≠ .setup) : R s (clearFault e s) := by
  obtain ⟨he, hmode⟩ := clearAxes_leaves (faultedAxes s e) s
  have hf : ((claimLapse e (forList (faultedAxes s e) clearAxis s)).exhibit e).state = .faulted := by
    simp [claimLapse, he, hs]
  have hm' : (claimLapse e (forList (faultedAxes s e) clearAxis s)).mode ≠ .setup := by
    rw [claimLapse, modExhibit_mode, hmode]; exact hm
  have a : R s (claimLapse e (forList (faultedAxes s e) clearAxis s)) :=
    h.after (h.exhibit _ e _ (by exact fun _ => ⟨rfl, rfl, rfl, rfl⟩))
      (clearAxes_acts h (faultedAxes s e) s fun a ha => .inl (by simpa [faultedAxes] using (List.mem_filter.mp ha).2))
  refine h.after ?_ a
  unfold clearFault returnToUse
  split
  · exact h.turns _ e .ready (.inr ⟨.inr hf, hm'⟩)
  · exact h.turns _ e .held (.inr (.inr ⟨.inr hf, hm'⟩))

theorem faultClearBody_acts (h : Acts R) (port : Port) (p : List Byte) (s : State) (hm : s.mode ≠ .setup) :
    R s (faultClearBody port p s).1 := onExhibit_acts h fun e => by
  split
  · split
    · exact h.refl s
    · exact acceptExhibit_acts h (clearFault_acts h e s (by assumption) hm)
  · exact h.refl s

theorem exhibitStatusBody_acts (h : Acts R) (port : Port) (p : List Byte) (s : State) :
    R s (exhibitStatusBody port p s).1 := onExhibit_acts h fun _ => h.refl s

/-! ## Lines -/

theorem onLine_acts (h : Acts R) {p : List Byte} {f : LineId → State → State × Reply} {s : State}
    (hf : ∀ l, R s (f l s).1) : R s (onLine p f s).1 := by
  unfold onLine
  split
  · exact hf _
  · exact h.refl s

theorem setEnabled_acts (h : Acts R) (b : Bool) (port : Port) (p : List Byte) (s : State) :
    R s (setEnabled b port p s).1 := onLine_acts h fun l => by
  split
  · exact h.after (t := s.modLine l fun x => { x with enabled := b }) (h.evaluateLine l _) (h.lineAny s l _)
  · exact h.refl s

theorem lineEnableBody_acts (h : Acts R) (port : Port) (p : List Byte) (s : State) : R s (lineEnableBody port p s).1 :=
  setEnabled_acts h true port p s

theorem lineDisableBody_acts (h : Acts R) (port : Port) (p : List Byte) (s : State) :
    R s (lineDisableBody port p s).1 := setEnabled_acts h false port p s

theorem lineStatusBody_acts (h : Acts R) (port : Port) (p : List Byte) (s : State) : R s (lineStatusBody port p s).1 :=
  onLine_acts h fun _ => h.refl s

/-! ## Scanner -/

theorem scanListBody_acts (h : Acts R) (port : Port) (p : List Byte) (s : State) : R s (scanListBody port p s).1 := by
  unfold scanListBody
  split
  · exact h.refl s
  · split
    · exact h.refl s
    · split
      · exact h.refl s
      · exact accept_acts (h.scannerAny s _)

theorem scanOnceBody_acts (h : Acts R) (port : Port) (p : List Byte) (s : State) : R s (scanOnceBody port p s).1 := by
  unfold scanOnceBody
  split
  · exact accept_acts (h.scannerAny s _)
  · exact h.refl s

theorem setLimits_acts (h : Acts R) (c : ChannelId) (a b : Nat) (s : State) : R s (setLimits c a b s) := by
  unfold setLimits
  dsimp only
  split
  · exact h.channelAny s c _
  · exact h.after (h.handWindow c _) (h.channelAny s c _)

theorem scanLimitsBody_acts (h : Acts R) (port : Port) (p : List Byte) (s : State) :
    R s (scanLimitsBody port p s).1 := by
  unfold scanLimitsBody
  split
  · exact h.refl s
  · split
    · exact h.refl s
    · split
      · exact h.refl s
      · split
        · exact accept_acts (h.after (h.conclude _) (setLimits_acts h _ _ _ s))
        · exact h.refl s

theorem senseReadBody_acts (h : Acts R) (port : Port) (p : List Byte) (s : State) :
    R s (senseReadBody port p s).1 := by
  unfold senseReadBody
  split
  · exact h.refl s
  · split <;> exact h.refl s

/-! ## Axes -/

theorem onAxis_acts (h : Acts R) {p : List Byte} {f : AxisId → State → State × Reply} {s : State}
    (hf : ∀ a, R s (f a s).1) : R s (onAxis p f s).1 := by
  unfold onAxis
  split
  · exact hf _
  · exact h.refl s

/-- An axis that has claimed, drives or settles with a move joins the start queue again. -/
theorem requeueAxis_acts (h : Acts R) (a : AxisId) (s : State)
    (hs : (s.axis a).state = .accelerating ∨ (s.axis a).state = .moving ∨ (s.axis a).state = .settling) :
    R s (requeueAxis a s) :=
  h.joins s a _
    { standing := by exact fun _ => rfl
      drive := fun _ => by simp [DriveOk, Axis.quit, AxisState.driving]
      state := rfl
      old := by rcases hs with hs | hs | hs <;> simp [hs]
      move := fun _ => .inr ⟨by rcases hs with hs | hs | hs <;> simp [hs, AxisState.busy], rfl⟩ }

theorem redirectAxis_acts (h : Acts R) (a : AxisId) (m : Move) (s : State)
    (hs : (s.axis a).state = .accelerating ∨ (s.axis a).state = .moving) : R s (redirectAxis a m s) := by
  unfold redirectAxis
  split
  · split
    · exact h.calm s a _
        { standing := by exact fun _ => rfl
          drive := fun _ => by rcases hs with hs | hs <;> simp [DriveOk, Axis.driveOn, hs, AxisState.driving]
          claims := .inl rfl
          move := fun hb => .inr ⟨hb, rfl⟩
          wakes := fun hx => .inl hx }
    · exact requeueAxis_acts h a s (by rcases hs with hs | hs <;> simp [hs])
  · exact h.refl s

theorem replaceMove_acts (h : Acts R) (a : AxisId) (m : Move) (s : State) : R s (replaceMove a m s) := by
  have b : R s (s.modAxis a fun x => { x with move := some m, corrections := 0 }) :=
    h.calm s a _
      { standing := by exact fun _ => rfl
        drive := fun hx => hx
        claims := .inl rfl
        move := fun _ => .inl rfl
        wakes := fun hx => .inl hx }
  unfold replaceMove
  dsimp only
  split
  · exact h.after (redirectAxis_acts h a m _ (by simp_all)) b
  · exact h.after (redirectAxis_acts h a m _ (by simp_all)) b
  · exact h.after (requeueAxis_acts h a _ (by simp_all)) b
  all_goals exact b

theorem jogFromFault_acts (h : Acts R) (a : AxisId) (m : Move) (s : State) (hf : (s.axis a).state = .faulted) :
    R s (jogFromFault a m s) :=
  h.after (h.startRequest a m _) (h.calm s a _
    { standing := by exact fun _ => rfl
      drive := fun hx => by simpa [DriveOk, hf, AxisState.driving] using hx
      claims := .inr (by simp [hf, AxisState.claims])
      move := fun hb => by simp [AxisState.busy] at hb
      wakes := fun hx => by rw [hf] at hx; cases hx })

theorem jogAxis_acts (h : Acts R) (a : AxisId) (m : Move) (s : State) : R s (jogAxis a m s) := by
  unfold jogAxis
  split
  · exact h.startRequest a m s
  · exact jogFromFault_acts h a m s (by assumption)
  all_goals first | exact replaceMove_acts h a m s | exact h.refl s

theorem jogBody_acts (h : Acts R) (port : Port) (p : List Byte) (s : State) : R s (jogBody port p s).1 :=
  onAxis_acts h fun a => by
    split
    · exact h.refl s
    · split
      · exact h.refl s
      · split
        · exact accept_acts (h.after (h.conclude _) (jogAxis_acts h a _ s))
        · exact h.refl s

theorem axisStatusBody_acts (h : Acts R) (port : Port) (p : List Byte) (s : State) : R s (axisStatusBody port p s).1 :=
  onAxis_acts h fun _ => h.refl s

theorem budgetStatusBody_acts (h : Acts R) (port : Port) (p : List Byte) (s : State) :
    R s (budgetStatusBody port p s).1 := h.refl s

/-! ## Cues -/

theorem onFrame_acts (h : Acts R) {p : List Byte} {i : Nat} {g : FrameId → State → State × Reply} {s : State}
    (hf : ∀ f, R s (g f s).1) : R s (onFrame p i g s).1 := by
  unfold onFrame
  split
  · exact hf _
  · exact h.refl s

theorem frameTakeBody_acts (h : Acts R) (port : Port) (p : List Byte) (s : State) :
    R s (frameTakeBody port p s).1 := by
  unfold frameTakeBody
  split
  · exact h.refl s
  · exact accept_acts (h.takesUp s _ _ (by assumption))

theorem frameWriteBody_acts (h : Acts R) (port : Port) (p : List Byte) (s : State) :
    R s (frameWriteBody port p s).1 := onFrame_acts h fun f => by
  split
  · exact h.refl s
  · split
    · exact h.refl s
    · split
      · exact h.refl s
      · exact accept_acts (h.frame s f _)

theorem frameDropBody_acts (h : Acts R) (port : Port) (p : List Byte) (s : State) :
    R s (frameDropBody port p s).1 := onFrame_acts h fun f => by
  split
  · exact accept_acts (h.drops s f (by assumption))
  · exact h.refl s

theorem cuePostBody_acts (h : Acts R) (port : Port) (p : List Byte) (s : State) :
    R s (cuePostBody port p s).1 := onExhibit_acts h fun e => onFrame_acts h fun f => by
  split
  · exact h.refl s
  · exact accept_acts (h.after (h.conclude _) (h.posts s e f (by assumption)))

theorem cueCancelBody_acts (h : Acts R) (port : Port) (p : List Byte) (s : State) :
    R s (cueCancelBody port p s).1 := onExhibit_acts h fun e => by
  split
  · exact h.refl s
  · exact acceptExhibit_acts h (h.retires s e _ _)

theorem cueFlushBody_acts (h : Acts R) (port : Port) (p : List Byte) (s : State) :
    R s (cueFlushBody port p s).1 := onExhibit_acts h fun e => by
  split
  · exact h.refl s
  · exact accept_acts (h.after (h.conclude _) (h.flushes s e))

theorem cueResultBody_acts (h : Acts R) (port : Port) (p : List Byte) (s : State) :
    R s (cueResultBody port p s).1 := by
  unfold cueResultBody
  split
  · exact h.refl s
  · exact accept_acts (h.collects s _ _ (by assumption))

theorem cueStatusBody_acts (h : Acts R) (port : Port) (p : List Byte) (s : State) : R s (cueStatusBody port p s).1 :=
  onExhibit_acts h fun _ => h.refl s

/-! ## Links, service and event read-out -/

theorem onMaster_acts (h : Acts R) {port : Port} {f : Master → State → State × Reply} {s : State}
    (hf : ∀ m, R s (f m s).1) : R s (onMaster port f s).1 := by
  unfold onMaster
  split
  · exact hf _
  · exact h.refl s

theorem heartbeatBody_acts (h : Acts R) (port : Port) (p : List Byte) (s : State) : R s (heartbeatBody port p s).1 :=
  onMaster_acts h fun m => h.after (h.conclude _) (h.takeHeartbeat m s)

theorem eventReadBody_acts (h : Acts R) (port : Port) (p : List Byte) (s : State) : R s (eventReadBody port p s).1 := by
  unfold eventReadBody
  split
  · exact h.refl s
  · exact accept_acts (h.queue s _ _ fun hq => readOut_ok hq)

theorem servicePermitBody_acts (h : Acts R) (port : Port) (p : List Byte) (s : State) :
    R s (servicePermitBody port p s).1 := onExhibit_acts h fun e => by
  split
  · exact h.refl s
  · exact accept_acts (h.after (h.conclude _) (h.permits s e _))

theorem serviceRevokeBody_acts (h : Acts R) (port : Port) (p : List Byte) (s : State) :
    R s (serviceRevokeBody port p s).1 := onExhibit_acts h fun e => by
  split
  · exact acceptExhibit_acts h (h.endsTenure s e)
  · exact h.refl s

theorem exhibitTakeBody_acts (h : Acts R) (port : Port) (p : List Byte) (s : State)
    (ht : ∀ e, (s.exhibit e).permit = true → (s.exhibit e).state.takesTenure = true → R s (beginTenure e s)) :
    R s (exhibitTakeBody port p s).1 := onExhibit_acts h fun e => by
  split
  · exact h.refl s
  · rename_i hp
    split
    · exact acceptExhibit_acts h (ht e (by simpa using hp) (by assumption))
    · exact h.refl s

theorem exhibitGiveBody_acts (h : Acts R) (port : Port) (p : List Byte) (s : State) :
    R s (exhibitGiveBody port p s).1 := onExhibit_acts h fun e => by
  split
  · exact acceptExhibit_acts h (h.endsTenure s e)
  · exact h.refl s

theorem linkStatusBody_acts (h : Acts R) (port : Port) (p : List Byte) (s : State) :
    R s (linkStatusBody port p s).1 := h.refl s

/-! ## Alerts and annunciators -/

theorem alertAckBody_acts (h : Acts R) (port : Port) (p : List Byte) (s : State) :
    R s (alertAckBody port p s).1 := by
  unfold alertAckBody
  split
  · exact h.refl s
  · rename_i r hr
    split
    · exact h.refl s
    · exact accept_acts (h.trans (h.trans (h.replace s r _ (List.mem_of_find?_eq_some hr)
        (by exact ⟨rfl, rfl, rfl, rfl, rfl, fun _ => ⟨Nat.zero_le _, fun _ => rfl⟩⟩)) (h.alertChanged _ _))
        (h.reevaluateTone _))

theorem alertClearBody_acts (h : Acts R) (port : Port) (p : List Byte) (s : State) :
    R s (alertClearBody port p s).1 := by
  unfold alertClearBody
  split
  · exact h.refl s
  · split
    · exact h.refl s
    · exact accept_acts (h.after (h.reevaluateTone _) (h.after (h.alertRemoved _ _ _) (h.remove s _)))

theorem alertRaiseBody_acts (h : Acts R) (port : Port) (p : List Byte) (s : State) :
    R s (alertRaiseBody port p s).1 := by
  unfold alertRaiseBody
  split
  · exact h.refl s
  · split
    · exact h.refl s
    · exact h.raiseAlert (reportTrigger _ _ _) s (by intro hx; cases hx)

theorem alertListBody_acts (h : Acts R) (port : Port) (p : List Byte) (s : State) : R s (alertListBody port p s).1 := by
  unfold alertListBody
  split <;> exact h.refl s

theorem chimeBody_acts (h : Acts R) (port : Port) (p : List Byte) (s : State) : R s (chimeBody port p s).1 := by
  unfold chimeBody
  split
  · exact h.refl s
  · split
    · exact h.refl s
    · split
      · exact h.refl s
      · exact accept_acts (h.annunciatorsAny s _)

theorem silenceBody_acts (h : Acts R) (port : Port) (p : List Byte) (s : State) :
    R s (silenceBody port p s).1 := h.after (h.reevaluateTone _) (h.annunciatorsAny s _)

theorem lampTestBody_acts (h : Acts R) (port : Port) (p : List Byte) (s : State) :
    R s (lampTestBody port p s).1 := accept_acts (h.annunciatorsAny s _)

/-! ## Configuration -/

theorem configExhibitBody_acts (h : Acts R) (port : Port) (p : List Byte) (s : State) :
    R s (configExhibitBody port p s).1 := onExhibit_acts h fun e => by
  split
  · exact accept_acts (h.configures s e _ (by exact fun _ => ⟨rfl, rfl, rfl, rfl⟩))
  · exact h.refl s

theorem configLineBody_acts (h : Acts R) (port : Port) (p : List Byte) (s : State) :
    R s (configLineBody port p s).1 := onLine_acts h fun l => by
  split
  · exact accept_acts (h.lineAny s l _)
  · exact h.refl s

theorem configAxisBody_acts (h : Acts R) (port : Port) (p : List Byte) (s : State) (hm : s.mode = .setup) :
    R s (configAxisBody port p s).1 := onAxis_acts h fun a => by
  split
  · exact accept_acts (h.axisSet s a p _ hm (by assumption))
  · exact h.refl s

theorem configChannelBody_acts (h : Acts R) (port : Port) (p : List Byte) (s : State) :
    R s (configChannelBody port p s).1 := by
  unfold configChannelBody
  split
  · exact h.refl s
  · split
    · exact accept_acts (h.channelAny s _ _)
    · exact h.refl s

theorem configScanBody_acts (h : Acts R) (port : Port) (p : List Byte) (s : State) :
    R s (configScanBody port p s).1 := by
  unfold configScanBody
  split
  · exact h.refl s
  · split
    · exact h.refl s
    · split
      · exact h.refl s
      · exact accept_acts (h.scannerAny s _)

theorem reviewLevels_acts (h : Acts R) (s : State) : R s (reviewLevels s) := by
  refine h.list _ (fun r t => ?_) _ s
  split
  · exact h.climbElapsed _ t
  · exact h.refl t

theorem setTiming_acts (h : Acts R) (x : Timing) (s : State) (hm : s.mode = .setup) : R s (setTiming x s) := by
  unfold setTiming
  split
  · exact h.timed s x hm
  · exact h.after (h.reevaluateTone _) (h.after (reviewLevels_acts h _) (h.timed s x hm))

theorem configTimingBody_acts (h : Acts R) (port : Port) (p : List Byte) (s : State) (hm : s.mode = .setup) :
    R s (configTimingBody port p s).1 := by
  unfold configTimingBody
  split
  · exact accept_acts (setTiming_acts h _ s hm)
  · exact h.refl s

theorem configToneBody_acts (h : Acts R) (port : Port) (p : List Byte) (s : State) :
    R s (configToneBody port p s).1 := by
  unfold configToneBody
  split
  · exact h.refl s
  · split
    · exact accept_acts (h.annunciatorsAny s _)
    · exact h.refl s

theorem configCommitBody_acts (h : Acts R) (port : Port) (p : List Byte) (s : State) (hm : s.mode = .setup) :
    R s (configCommitBody port p s).1 := by
  unfold configCommitBody
  split
  · exact h.refl s
  · exact accept_acts (commitHub_acts h s hm)

/-! ## The port engine -/

theorem attentionMaskBody_acts (h : Acts R) (port : Port) (p : List Byte) (s : State) :
    R s (attentionMaskBody port p s).1 := onMaster_acts h fun m => by
  split
  · exact accept_acts (h.spi s m _)
  · exact h.refl s

theorem attentionReadBody_acts (h : Acts R) (port : Port) (p : List Byte) (s : State) :
    R s (attentionReadBody port p s).1 := onMaster_acts h fun m => accept_acts (h.spi s m _)

theorem fillSlot_acts (h : Acts R) (i : SlotId) (c : List Byte) (s : State) : R s (fillSlot i c s) :=
  h.after (h.spi _ _ _) (h.note s i _)

theorem emptySlot_acts (h : Acts R) (i : SlotId) (s : State) : R s (emptySlot i s) :=
  h.after (h.spi _ _ _) (h.note s i _)

theorem noteWriteBody_acts (h : Acts R) (port : Port) (p : List Byte) (s : State) : R s (noteWriteBody port p s).1 := by
  unfold noteWriteBody
  split
  · exact h.refl s
  · split
    · exact h.refl s
    · split
      · exact h.refl s
      · exact accept_acts (fillSlot_acts h _ _ s)

theorem noteReadBody_acts (h : Acts R) (port : Port) (p : List Byte) (s : State) : R s (noteReadBody port p s).1 := by
  unfold noteReadBody
  split
  · exact h.refl s
  · split
    · exact h.refl s
    · split
      · exact h.refl s
      · exact accept_acts (emptySlot_acts h _ s)

/-- The body of every command of the table, in a mode that takes the command; what begins a tenure is asked
for apart. -/
theorem body_acts (h : Acts R) (c : Command) (port : Port) (p : List Byte) (s : State) (hm : s.mode ∈ c.modes)
    (ht : c = .exhibitTake → ∀ e, (s.exhibit e).permit = true → (s.exhibit e).state.takesTenure = true →
      R s (beginTenure e s)) : R s (c.body port p s).1 := by
  have works : s.mode ∈ workingModes → s.mode ≠ .setup := fun hx he => by rw [he] at hx; exact absurd hx (by decide)
  cases c
  · exact heartbeatBody_acts h port p s
  · exact eventReadBody_acts h port p s
  · exact attentionReadBody_acts h port p s
  · exact attentionMaskBody_acts h port p s
  · exact noteWriteBody_acts h port p s
  · exact noteReadBody_acts h port p s
  · exact galleryOpenBody_acts h port p s
  · exact galleryQuietBody_acts h port p s
  · exact galleryCloseBody_acts h port p s
  · exact restartBody_acts h port p s
  · exact exhibitOpenBody_acts h port p s (by rw [List.mem_singleton.mp hm]; decide)
  · exact exhibitCloseBody_acts h port p s
  · exact exhibitHoldBody_acts h port p s
  · exact exhibitReleaseBody_acts h port p s
  · exact faultClearBody_acts h port p s (works hm)
  · exact exhibitStatusBody_acts h port p s
  · exact lineEnableBody_acts h port p s
  · exact lineDisableBody_acts h port p s
  · exact lineStatusBody_acts h port p s
  · exact scanListBody_acts h port p s
  · exact scanOnceBody_acts h port p s
  · exact scanLimitsBody_acts h port p s
  · exact senseReadBody_acts h port p s
  · exact jogBody_acts h port p s
  · exact axisStatusBody_acts h port p s
  · exact budgetStatusBody_acts h port p s
  · exact frameTakeBody_acts h port p s
  · exact frameWriteBody_acts h port p s
  · exact frameDropBody_acts h port p s
  · exact cuePostBody_acts h port p s
  · exact cueCancelBody_acts h port p s
  · exact cueFlushBody_acts h port p s
  · exact cueResultBody_acts h port p s
  · exact cueStatusBody_acts h port p s
  · exact servicePermitBody_acts h port p s
  · exact serviceRevokeBody_acts h port p s
  · exact exhibitTakeBody_acts h port p s (ht rfl)
  · exact exhibitGiveBody_acts h port p s
  · exact linkStatusBody_acts h port p s
  · exact alertAckBody_acts h port p s
  · exact alertClearBody_acts h port p s
  · exact alertRaiseBody_acts h port p s
  · exact alertListBody_acts h port p s
  · exact chimeBody_acts h port p s
  · exact silenceBody_acts h port p s
  · exact lampTestBody_acts h port p s
  · exact configExhibitBody_acts h port p s
  · exact configLineBody_acts h port p s
  · exact configAxisBody_acts h port p s (List.mem_singleton.mp hm)
  · exact configChannelBody_acts h port p s
  · exact configScanBody_acts h port p s
  · exact configTimingBody_acts h port p s (List.mem_singleton.mp hm)
  · exact configToneBody_acts h port p s
  · exact configCommitBody_acts h port p s (List.mem_singleton.mp hm)
  · exact reconfigureBody_acts h port p s

/-- The examination and execution of a command; what begins a tenure is asked for apart. -/
theorem perform_acts (h : Acts R) (port : Port) (code : Byte) (p : List Byte) (s : State)
    (ht : ∀ e, Command.ofCode code = some .exhibitTake → port ∈ Command.exhibitTake.ports →
      s.mode ∈ Command.exhibitTake.modes → (s.exhibit e).permit = true →
      (s.exhibit e).state.takesTenure = true → R s (beginTenure e s)) :
    R s (perform port code p s).1 := by
  unfold perform
  split
  · exact h.refl s
  · rename_i c hc
    split
    · exact h.refl s
    · rename_i hp
      split
      · exact h.refl s
      · rename_i hm
        split
        · exact body_acts h _ port p s (Decidable.not_not.mp hm) fun hx e => by
            subst hx
            exact ht e hc (Decidable.not_not.mp hp) (Decidable.not_not.mp hm)
        · exact h.refl s

/-! ## The commands are sound -/

/-- CONFIG-AXIS leaves an axis's state and drive. -/
theorem configuredAxis_keeps {p : List Byte} {x y : Axis} (h : configuredAxis p x = some y) :
    y.state = x.state ∧ y.drive = x.drive := by
  simp only [configuredAxis, bind, Option.bind_eq_some_iff, pure, Option.some.injEq] at h
  obtain ⟨_, _, _, _, _, _, _, _, _, _, _, _, _, _, _, _, _, _, _, _, _, _, rfl⟩ := h
  exact ⟨rfl, rfl⟩

/-- The axes at their warm-restart values do not drive. -/
theorem warmAxes_sound (s : State) : Sound s (warmAxes s) :=
  Sound.ofAxes (fun a _ => by simp [warmAxes, State.axis, DriveOk, Axis.warm, AxisState.driving])
    rfl rfl rfl rfl rfl

theorem warmQueues_sound (s : State) : Sound s (warmQueues s) :=
  Sound.ofQueues rfl rfl rfl fun h q => by cases q <;> exact emptied_ok (h _)

theorem unsettle_sound (s : State) : Sound s (unsettle s) := by apply Sound.aside <;> simp only [unsettle]
theorem warmExhibits_sound (s : State) : Sound s (warmExhibits s) := by apply Sound.aside <;> simp only [warmExhibits]
theorem warmLines_sound (s : State) : Sound s (warmLines s) := by apply Sound.aside <;> simp only [warmLines]
theorem warmChannels_sound (s : State) : Sound s (warmChannels s) := by apply Sound.aside <;> simp only [warmChannels]
theorem warmArbiter_sound (s : State) : Sound s (warmArbiter s) := by apply Sound.aside <;> simp only [warmArbiter]
theorem warmCues_sound (s : State) : Sound s (warmCues s) := by apply Sound.aside <;> simp only [warmCues]
theorem warmAlerts_sound (s : State) : Sound s (warmAlerts s) := by apply Sound.aside <;> simp [warmAlerts]
theorem warmAnnunciators_sound (s : State) : Sound s (warmAnnunciators s) := by apply Sound.aside <;> simp [warmAnnunciators]
theorem warmTenures_sound (s : State) : Sound s (warmTenures s) := by apply Sound.aside <;> simp only [warmTenures]
theorem warmPorts_sound (s : State) : Sound s (warmPorts s) := by apply Sound.aside <;> simp only [warmPorts]
theorem warmScanner_sound (s : State) : Sound s (warmScanner s) := by apply Sound.aside <;> simp [warmScanner]
theorem stampExhibits_sound (s : State) : Sound s (stampExhibits s) := by apply Sound.aside <;> simp only [stampExhibits]

theorem warmBlocks_sound (s : State) : Sound s (warmBlocks s) :=
  Sound.after (warmPorts_sound _) <| Sound.after (warmTenures_sound _) <|
  Sound.after (warmAnnunciators_sound _) <| Sound.after (warmAlerts_sound _) <|
  Sound.after (warmQueues_sound _) <| Sound.after (warmCues_sound _) <|
  Sound.after (warmArbiter_sound _) <| Sound.after (warmAxes_sound _) <|
  Sound.after (warmChannels_sound _) <| Sound.after (warmLines_sound _) <|
  Sound.after (warmExhibits_sound _) (unsettle_sound s)

/-- A change of the gallery mode alone. -/
theorem setMode_sound (m : GalleryMode) (s : State) : Sound s (setMode m s) :=
  Sound.after (t := { s with mode := m }) (Sound.free.emit _ _ _) (Sound.aside rfl rfl rfl rfl rfl rfl)

theorem reconfigureHub_sound (s : State) : Sound s (reconfigureHub s) :=
  Sound.after (setMode_sound _ _) (Sound.after (Sound.wide.scanner _ _ Floor.toOff_standing) (warmBlocks_sound s))

theorem deriveFields_sound (s : State) : Sound s (deriveFields s) :=
  Sound.ofAxes (fun a h => by simpa [deriveFields, State.axis, get_as_index, DriveOk] using h)
    (by simp only [deriveFields]) (by simp only [deriveFields]) (by simp only [deriveFields])
    (by simp only [deriveFields]) (by simp only [deriveFields])

theorem setPermit_sound (e : ExhibitId) (b : Bool) (s : State) : Sound s (setPermit e b s) := by
  have a : Sound s (s.modExhibit e fun x => { x with permit := b }) := Sound.aside rfl rfl rfl rfl rfl rfl
  unfold setPermit
  dsimp only
  split
  · exact Sound.after (Sound.free.endTenure e _) a
  · exact a

theorem postFrame_sound (e : ExhibitId) (f : FrameId) (s : State) : Sound s (postFrame e f s) := by
  unfold postFrame
  dsimp only
  split
  · exact Sound.after (Sound.free.takeFrame e _) (Sound.aside rfl rfl rfl rfl rfl rfl)
  · exact Sound.aside rfl rfl rfl rfl rfl rfl

/-- The moves of the commands are sound. -/
theorem Sound.acts : Acts Sound where
  toWide := Sound.wide
  mode _ _ _ := Sound.aside rfl rfl rfl rfl rfl rfl
  rebuilt := reconfigureHub_sound
  rewarmed s := Sound.after (warmScanner_sound _) (Sound.after (stampExhibits_sound _) (warmBlocks_sound s))
  committed s _ := Sound.after (warmArbiter_sound _) <| Sound.after (warmChannels_sound _) <|
    Sound.after (warmLines_sound _) <| Sound.after (warmExhibits_sound _) (deriveFields_sound s)
  configures _ _ _ _ := Sound.aside rfl rfl rfl rfl rfl rfl
  lineAny _ _ _ := Sound.aside rfl rfl rfl rfl rfl rfl
  channelAny _ _ _ := Sound.aside rfl rfl rfl rfl rfl rfl
  scannerAny _ _ := Sound.aside rfl rfl rfl rfl rfl rfl
  annunciatorsAny _ _ := Sound.aside rfl rfl rfl rfl rfl rfl
  axisSet s a _ _ _ hx := Sound.axis s a _ fun h => by
    obtain ⟨h1, h2⟩ := configuredAxis_keeps hx
    simpa [DriveOk, h1, h2] using h
  timed _ _ _ := Sound.aside rfl rfl rfl rfl rfl rfl
  queue := Sound.queue
  spi _ _ _ := Sound.aside (by simp) (by simp) (by simp) (by simp) (by simp) (by simp)
  uart _ _ := Sound.aside rfl rfl rfl rfl rfl rfl
  note _ _ _ := Sound.aside rfl rfl rfl rfl rfl rfl
  permits s e b := setPermit_sound e b s
  takesUp _ _ _ _ := Sound.aside rfl rfl rfl rfl rfl rfl
  drops _ f _ := Sound.after (Sound.free.freeFrame f _) (Sound.aside rfl rfl rfl rfl rfl rfl)
  collects _ _ _ _ := Sound.after (Sound.free.freeFrame _ _) (Sound.aside rfl rfl rfl rfl rfl rfl)
  posts s e f _ := postFrame_sound e f s

/-- The modes in which tenure is taken are other than SETUP. -/
theorem mode_of_take {s : State} (h : s.mode ∈ Command.exhibitTake.modes) : s.mode ≠ .setup := fun he => by
  rw [he] at h; exact absurd h (by decide)

/-- The examination and execution of a command is sound. -/
theorem perform_sound (port : Port) (code : Byte) (p : List Byte) (s : State) :
    Sound s (perform port code p s).1 :=
  perform_acts Sound.acts port code p s fun e _ _ hm _ _ => Sound.free.beginTenure e s (mode_of_take hm)

end Sys2Proof.Machine
end

