-- ==== Sys2Proof/Laws/Ports.lean ====
section
/-! SUPPORT. The path of a command frame through a port, said once: a frame that carries a command of the
table is answered with the status and payload of its examination, on the state its examination leaves. -/

namespace Sys2Proof.Machine

/-! ## Frames -/

/-- The frame of a command runs the frame path. -/
theorem exec_frameOf (c : Command) (port : Port) (tag : Byte) (p : List Byte) (s : State) :
    exec (frameOf c port tag p) s = runCommand c port tag p s := by cases c <;> rfl

/-- The table's codes name their commands. -/
theorem ofCode_code (c : Command) : Command.ofCode c.code = some c := by cases c <;> rfl

/-- No command's code is FFH. -/
theorem code_ne (c : Command) : c.code ≠ 0xFF := by cases c <;> decide

/-- The payload of a command frame. -/
theorem framePayload_commandFrame (code tag : Byte) (p : List Byte) :
    framePayload (commandFrame code tag p) = p := by
  simp [framePayload, commandFrame, closeFrame, num2]

/-- The tag of a command frame. -/
theorem frameTag_commandFrame (code tag : Byte) (p : List Byte) :
    frameTag (commandFrame code tag p) = tag := rfl

/-- The first byte of a command frame. -/
theorem head_commandFrame (code tag : Byte) (p : List Byte) :
    (commandFrame code tag p).getD 0 0 = code := rfl

/-- The bytes of a command frame. -/
theorem length_commandFrame (code tag : Byte) (p : List Byte) :
    (commandFrame code tag p).length = frameBytes p.length := by
  simp [commandFrame, closeFrame, num2, frameBytes]; omega

/-- The length field of a command frame. -/
theorem lengthField_commandFrame (code tag : Byte) {p : List Byte} (h : p.length ≤ 200) :
    lengthField (commandFrame code tag p) = p.length := by
  simp [lengthField, commandFrame, closeFrame, num2]
  omega

/-- A command frame with a payload that fits passes the examination of R198. -/
theorem frameFault_commandFrame (code tag : Byte) {p : List Byte} (h : p.length ≤ 200) :
    frameFault (commandFrame code tag p) = none := by
  have hl := lengthField_commandFrame code tag h
  have hn := length_commandFrame code tag p
  unfold frameFault
  rw [hl, hn]
  have hc : (commandFrame code tag p).getLastD 0 = crc (commandFrame code tag p).dropLast := by
    unfold commandFrame closeFrame
    rw [List.dropLast_concat, List.getLastD_concat]
  simp only [frameBytes, hc]
  rw [if_neg (by omega), if_neg (by simp)]

/-! ## Pins -/

/-- The pins do not follow the waiting commands. -/
theorem pinsOf_pending (s : State) (l : List Instr) : pinsOf { s with pending := l } = pinsOf s := rfl

/-- The pins do not follow themselves. -/
theorem pinsOf_drivePins (s : State) : pinsOf (drivePins s) = pinsOf s := rfl

/-- After every event the pins follow. -/
theorem pinsFollow_drivePins (s : State) : PinsFollow (drivePins s) := rfl

/-! ## The path of a frame -/

/-- A frame at an SPI port that carries a command of the table. -/
theorem spi_answered (m : Master) (c : Command) (tag : Byte) {p : List Byte} (h : p.length ≤ 200)
    (s : State) :
    drivePins (arriveFrame m.port c.code tag p s)
      = heldAfter m (frameBytes p.length) ((perform m.port c.code p s).2.toResponse tag)
          (perform m.port c.code p s).1 := by
  have hm : masterOf m.port = some m := by cases m <;> rfl
  have hx : commandFrame c.code tag p = c.code :: (commandFrame c.code tag p).tail := rfl
  unfold arriveFrame
  simp only [hm]
  have : spiTransaction m (commandFrame c.code tag p) s
      = (takeSpiFrame m (commandFrame c.code tag p) s).modSpi m fun x =>
          { x with dataOut := List.replicate (commandFrame c.code tag p).length 0 } := by
    conv => lhs; rw [hx]
    unfold spiTransaction
    simp only [if_neg (code_ne c)]
    rw [← hx]
  rw [this, length_commandFrame]
  unfold takeSpiFrame
  rw [frameFault_commandFrame _ _ h, framePayload_commandFrame, frameTag_commandFrame, head_commandFrame]
  rfl

/-- A receiver at rest is idle already. -/
theorem receiverIdle_rest {s : State} (h : serviceAtRest s) : receiverIdle s = s := by
  obtain ⟨h1, h2, -⟩ := h
  cases s with
  | mk => rename_i u _ _ _; cases u; simp_all [receiverIdle, State.modUart]

/-- A frame at a service port at rest that carries a command of the table. -/
theorem service_answered (c : Command) (tag : Byte) {p : List Byte} (h : p.length ≤ 200) {s : State}
    (hs : serviceAtRest s) :
    drivePins (arriveFrame .servicePort c.code tag p s)
      = sentAfter ((perform .servicePort c.code p s).2.toResponse tag)
          (perform .servicePort c.code p s).1 := by
  obtain ⟨h1, h2, h3, h4, h5⟩ := id hs
  have hf : receiverFree s ∧ p.length ≤ 200 := ⟨by simp [receiverFree, h1, h3], h⟩
  unfold arriveFrame
  simp only [masterOf, if_pos hf]
  unfold completeFrame
  rw [if_pos (by simp [h4]), receiverIdle_rest hs]
  unfold takeServiceFrame
  rw [frameFault_commandFrame _ _ h, framePayload_commandFrame, frameTag_commandFrame, head_commandFrame]
  rfl

/-- A command frame at a port that is ready is answered by its examination (R195, R196, R199). -/
theorem answers_perform (c : Command) {port : Port} {p : List Byte} {s : State} (hr : Ready port s)
    (h : p.length ≤ 200) :
    Answers c port p s (perform port c.code p s).2.status (perform port c.code p s).2.payload
      (perform port c.code p s).1 := by
  intro tag
  rw [exec_frameOf]
  unfold runCommand occur
  rw [if_neg (by simp [hr.1])]
  cases port with
  | showPort => exact congrArg _ (spi_answered .showMaster c tag h s)
  | deskPort => exact congrArg _ (spi_answered .deskMaster c tag h s)
  | servicePort => exact congrArg _ (service_answered c tag h (hr.2 rfl))

/-- The examination of an admitted command with a payload of its length is its body. -/
theorem perform_admitted {c : Command} {port : Port} {p : List Byte} {s : State} (h : Admitted c port s)
    (hl : c.lengthOk p = true) : perform port c.code p s = c.body port p s := by
  unfold perform
  rw [ofCode_code]
  simp [h.2.1, h.2.2, hl]

/-- An admitted command with a payload of its length is answered by its body. -/
theorem answers_body {c : Command} {port : Port} {p : List Byte} {s t : State} {st : Status}
    {reply : List Byte} (h : Admitted c port s) (hp : p.length ≤ 200) (hl : c.lengthOk p = true)
    (hb : c.body port p s = (t, ⟨st, reply⟩)) : Answers c port p s st reply t := by
  have a := answers_perform c h.1 hp
  rw [perform_admitted h hl, hb] at a
  exact a

end Sys2Proof.Machine
end

