-- ==== Sys2Proof/Laws/Steps.lean ====
section
/-! SUPPORT. What a step can do, said once: any relation on states that is closed under the moves of the
commands and a few of its own holds between the state before and after every event of the table. -/

namespace Sys2Proof.Machine

/-- A relation closed under the moves of the commands, the clock, the resets and the pins. A tenure begins only
at the service port, with the restart of the idle timer after it, so the two are asked for as one. -/
structure Steps (R : State → State → Prop) : Prop extends Acts R where
  serves : ∀ code p s, R s (restartIdle (perform .servicePort code p s).1)
  pins : ∀ (s : State) x, R s { s with pins := x }
  ticks : ∀ s, R s (clockTick s)
  resets : ∀ s, R s (fullResetHub s)
  released : ∀ s : State, R s { s with inReset := false }
  accelerated : ∀ s a, (s.axis a).state = .accelerating →
    R s ((returnUnits a s).modAxis a fun x => { x with state := .moving })

variable {R : State → State → Prop}

/-! ## Ports -/

/-- A command at an SPI port begins no tenure. -/
theorem performSpi_steps (h : Steps R) (m : Master) (code : Byte) (p : List Byte) (s : State) :
    R s (perform m.port code p s).1 :=
  perform_acts h.toActs _ _ _ _ fun _ _ hp _ _ _ => by cases m <;> exact absurd hp (by decide)

theorem takeSpiFrame_steps (h : Steps R) (m : Master) (bytes : List Byte) (s : State) :
    R s (takeSpiFrame m bytes s) := by
  unfold takeSpiFrame
  split
  · exact h.spi s m _
  · unfold takeSpiCommand holdResponse
    exact h.trans (performSpi_steps h m _ _ s) (h.spi _ m _)

theorem collect_steps (h : Steps R) (m : Master) (n : Nat) (s : State) : R s (collect m n s) := by
  unfold collect
  split
  · exact h.refl s
  · exact h.spi s m _

theorem spiTransaction_steps (h : Steps R) (m : Master) (bytes : List Byte) (s : State) :
    R s (spiTransaction m bytes s) := by
  unfold spiTransaction
  split
  · exact h.refl s
  · split
    · exact collect_steps h m _ s
    · exact h.trans (takeSpiFrame_steps h m _ s) (h.spi _ m _)

theorem takeServiceFrame_steps (h : Steps R) (bytes : List Byte) (s : State) : R s (takeServiceFrame bytes s) := by
  unfold takeServiceFrame
  split
  · exact h.uart s _
  · unfold takeServiceCommand sendService
    exact h.trans (h.serves _ _ s) (h.uart _ _)

theorem completeFrame_steps (h : Steps R) (bytes : List Byte) (s : State) : R s (completeFrame bytes s) := by
  unfold completeFrame
  split
  · exact h.trans (h.uart s _) (takeServiceFrame_steps h bytes _)
  · exact h.trans (h.uart s _) (h.uart _ _)

theorem extendFrame_steps (h : Steps R) (bytes : List Byte) (s : State) : R s (extendFrame bytes s) := by
  unfold extendFrame
  split
  · exact h.trans (h.uart s _) (h.uart _ _)
  · split
    · exact completeFrame_steps h bytes s
    · exact h.uart s _

theorem receiveByte_steps (h : Steps R) (b : Byte) (s : State) : R s (receiveByte b s) := by
  unfold receiveByte
  split
  · exact h.uart s _
  · split
    · exact extendFrame_steps h _ s
    · exact extendFrame_steps h _ s
    · exact h.uart s _

theorem receiveBytes_steps (h : Steps R) (bytes : List Byte) (s : State) : R s (receiveBytes bytes s) :=
  h.list _ (fun b t => receiveByte_steps h b t) bytes s

theorem responseSent_steps (h : Steps R) (s : State) : R s (responseSent s) := by
  unfold responseSent
  split
  · exact h.refl s
  · exact h.uart s _
  · exact h.trans (h.uart s _) (takeServiceFrame_steps h _ _)
  · exact h.uart s _

theorem gapTimeout_steps (h : Steps R) (s : State) : R s (gapTimeout s) := by
  unfold gapTimeout
  split
  · exact h.trans (h.uart s _) (h.uart _ _)
  · exact h.refl s

theorem discardEnd_steps (h : Steps R) (s : State) : R s (discardEnd s) := by
  unfold discardEnd
  split
  · exact h.uart s _
  · exact h.refl s

theorem stopBitFault_steps (h : Steps R) (s : State) : R s (stopBitFault s) := by
  unfold stopBitFault
  split
  · exact h.uart s _
  · split
    · exact h.trans (h.uart s _) (h.uart _ _)
    · split
      · exact h.trans (h.uart s _) (h.uart _ _)
      · exact h.uart s _
    · exact h.uart s _

theorem lengthTooLarge_steps (h : Steps R) (b : Byte) (s : State) : R s (lengthTooLarge b s) := by
  unfold lengthTooLarge
  split
  · split
    · exact receiveByte_steps h b s
    · exact h.refl s
  · exact h.refl s

theorem arriveFrame_steps (h : Steps R) (port : Port) (code tag : Byte) (p : List Byte) (s : State) :
    R s (arriveFrame port code tag p s) := by
  unfold arriveFrame
  split
  · exact spiTransaction_steps h _ _ s
  · split
    · exact completeFrame_steps h _ s
    · exact receiveBytes_steps h _ s

theorem arriveBytes_steps (h : Steps R) (port : Port) (bytes : List Byte) (s : State) :
    R s (arriveBytes port bytes s) := by
  unfold arriveBytes
  split
  · exact spiTransaction_steps h _ _ s
  · exact receiveBytes_steps h _ s

/-! ## Floor events and timers -/

theorem completeRun_steps (h : Steps R) (st : LineState) (l : LineId) (level : Level) (s : State) :
    R s (completeRun st l level s) := by
  unfold completeRun
  split
  · exact h.trans (h.sampleLine l level s) (h.conclude _)
  · exact h.refl s

theorem conversionDone_steps (h : Steps R) (v : BitVec 12) (s : State) : R s (conversionDone v s) := by
  unfold conversionDone
  split
  · exact h.trans (h.trans (h.recordResult _ _ s) (h.scannerAny _ _)) (h.conclude _)
  · exact h.refl s

theorem warmUpExpires_steps (h : Steps R) (s : State) : R s (warmUpExpires s) := by
  unfold warmUpExpires
  split
  · exact h.scannerAny s _
  · exact h.refl s

theorem paceExpires_steps (h : Steps R) (s : State) : R s (paceExpires s) := by
  unfold paceExpires
  dsimp only
  split
  · split
    · exact h.trans (h.scannerAny s _) (h.scannerAny _ _)
    · exact h.trans (h.scannerAny s _) (h.emit _ _ _)
    all_goals exact h.scannerAny s _
  · exact h.refl s

theorem closedPaceExpires_steps (h : Steps R) (s : State) : R s (closedPaceExpires s) := by
  unfold closedPaceExpires
  dsimp only
  split
  · split
    · exact h.trans (h.scannerAny s _) (h.scannerAny _ _)
    · exact h.scannerAny s _
  · exact h.refl s

theorem accelerationEnds_steps (h : Steps R) (a : AxisId) (s : State) : R s (accelerationEnds a s) := by
  unfold accelerationEnds
  split
  · rename_i hc
    exact h.trans (h.accelerated s a hc.1) (h.conclude _)
  · exact h.refl s

theorem feedbackExpires_steps (h : Steps R) (a : AxisId) (s : State) : R s (feedbackExpires a s) := by
  unfold feedbackExpires
  split
  · exact h.trans (h.faultAxis a _ s) (h.conclude _)
  · exact h.refl s

theorem travelExpires_steps (h : Steps R) (a : AxisId) (s : State) : R s (travelExpires a s) := by
  unfold travelExpires
  split
  · exact h.trans (h.faultAxis a _ s) (h.conclude _)
  · exact h.refl s

theorem settleExpires_steps (h : Steps R) (a : AxisId) (s : State) : R s (settleExpires a s) := by
  unfold settleExpires
  split
  · rename_i hc
    exact h.trans (h.judgeSettled a s hc.1) (h.conclude _)
  · exact h.refl s

theorem sagHoldExpires_steps (h : Steps R) (s : State) : R s (sagHoldExpires s) := by
  unfold sagHoldExpires
  split
  · refine h.trans (h.trans (h.arbiter s _ (by exact fun _ => ⟨rfl, rfl⟩)) (h.each _ (fun e t => ?_) _))
      (h.conclude _)
    split
    · exact h.refl t
    · exact h.addHold _ e t
  · exact h.refl s

theorem guardReleaseExpires_steps (h : Steps R) (e : ExhibitId) (s : State) : R s (guardReleaseExpires e s) := by
  unfold guardReleaseExpires
  split
  · exact h.trans (h.guardReleased e s) (h.conclude _)
  · exact h.refl s

theorem guardLongExpires_steps (h : Steps R) (e : ExhibitId) (s : State) : R s (guardLongExpires e s) := by
  unfold guardLongExpires
  have a := h.exhibit s e (fun x => { x with guardLong := none }) (by exact fun _ => ⟨rfl, rfl, rfl, rfl⟩)
  dsimp only
  split
  · split
    · exact h.trans a (h.raiseTable .guardLong _ _ _)
    · exact a
  · exact h.refl s

theorem dwellExpires_steps (h : Steps R) (e : ExhibitId) (i : StepId) (s : State) : R s (dwellExpires e i s) := by
  unfold dwellExpires
  split
  · exact h.trans (h.trans (h.markDone _ _ s) (h.afterDone _ _ _)) (h.conclude _)
  · exact h.refl s

theorem pauseExpires_steps (h : Steps R) (e : ExhibitId) (i : StepId) (s : State) : R s (pauseExpires e i s) := by
  unfold pauseExpires
  split
  · exact h.trans (h.trans (h.markDone _ _ s) (h.afterDone _ _ _)) (h.conclude _)
  · exact h.refl s

theorem pressExpires_steps (h : Steps R) (e : ExhibitId) (i : StepId) (s : State) : R s (pressExpires e i s) := by
  unfold pressExpires
  split
  · exact h.trans (h.retires s e _ _) (h.conclude _)
  · exact h.refl s

theorem heartbeatExpires_steps (h : Steps R) (m : Master) (s : State) : R s (heartbeatExpires m s) := by
  unfold heartbeatExpires
  split
  · exact h.trans (h.lapseLink m s) (h.conclude _)
  · exact h.refl s

theorem serviceIdleExpires_steps (h : Steps R) (s : State) : R s (serviceIdleExpires s) := by
  unfold serviceIdleExpires
  split
  · exact h.trans (h.endsTenures s) (h.conclude _)
  · exact h.refl s

theorem reachNextLevel_steps (h : Steps R) (n : BitVec 16) (s : State) : R s (reachNextLevel n s) := by
  unfold reachNextLevel
  split
  · exact h.trans (h.climb _ _ _ s) (h.reevaluateTone _)
  · exact h.refl s

theorem noteEnds_steps (h : Steps R) (s : State) : R s (noteEnds s) := by
  unfold noteEnds
  split
  · exact h.refl s
  · split
    · exact h.playAlert _ s
    · exact h.refl s
  · split
    · split
      · exact h.toneSilent s
      · exact h.annunciatorsAny s _
    · exact h.refl s

theorem silenceExpires_steps (h : Steps R) (s : State) : R s (silenceExpires s) := by
  unfold silenceExpires
  split
  · exact h.trans (h.endSilence s) (h.reevaluateTone _)
  · exact h.refl s

theorem lampTestExpires_steps (h : Steps R) (s : State) : R s (lampTestExpires s) := by
  unfold lampTestExpires
  split
  · exact h.annunciatorsAny s _
  · exact h.refl s

/-! ## Outcomes -/

/-- Every answer of an outcome that is a next state is in the relation. -/
def Reaches (R : State → State → Prop) (s : State) (r : Result) : Prop := ∀ t, r = .next t → R s t

theorem occur_steps (h : Steps R) {f : State → State} {s : State} (hf : R s (f s)) : Reaches R s (occur f s) := by
  intro t ht
  cases ht
  split
  · exact h.refl s
  · exact h.trans hf (h.pins _ _)

theorem runCommand_steps (h : Steps R) (c : Command) (port : Port) (tag : Byte) (p : List Byte) (s : State) :
    Reaches R s (runCommand c port tag p s) := occur_steps h (arriveFrame_steps h port _ tag p s)

theorem fullReset_steps (h : Steps R) (s : State) : Reaches R s (execFullReset s) := by
  intro t ht; cases ht; exact h.resets s

theorem resetRelease_steps (h : Steps R) (s : State) : Reaches R s (execResetRelease s) := by
  intro t ht
  cases ht
  unfold releaseReset
  split
  · exact h.trans (h.released s) (h.pins _ _)
  · exact h.refl s

theorem lineSample_steps (h : Steps R) (l : LineId) (v : Level) (s : State) :
    Reaches R s (execLineSample l v s) := by
  unfold execLineSample
  split
  · intro t ht; cases ht; exact h.lineAny s l _
  · exact occur_steps h (h.trans (h.sampleLine l v s) (h.conclude _))

theorem lineStuck_steps (h : Steps R) (l : LineId) (v : Level) (s : State) : Reaches R s (execLineStuck l v s) := by
  unfold execLineStuck
  refine occur_steps h ?_
  split
  · exact h.trans (h.sampleLine l v s) (h.conclude _)
  · exact h.refl s

set_option maxHeartbeats 1600000 in
/-- Every command and every event of the table is a move of the relation. -/
theorem exec_steps (h : Steps R) (i : Instr) (s : State) : Reaches R s (exec i s) := by
  cases i
  · exact runCommand_steps h _ _ _ _ s
  · exact runCommand_steps h _ _ _ _ s
  · exact runCommand_steps h _ _ _ _ s
  · exact runCommand_steps h _ _ _ _ s
  · exact runCommand_steps h _ _ _ _ s
  · exact runCommand_steps h _ _ _ _ s
  · exact runCommand_steps h _ _ _ _ s
  · exact runCommand_steps h _ _ _ _ s
  · exact runCommand_steps h _ _ _ _ s
  · exact runCommand_steps h _ _ _ _ s
  · exact runCommand_steps h _ _ _ _ s
  · exact runCommand_steps h _ _ _ _ s
  · exact runCommand_steps h _ _ _ _ s
  · exact runCommand_steps h _ _ _ _ s
  · exact runCommand_steps h _ _ _ _ s
  · exact runCommand_steps h _ _ _ _ s
  · exact runCommand_steps h _ _ _ _ s
  · exact runCommand_steps h _ _ _ _ s
  · exact runCommand_steps h _ _ _ _ s
  · exact runCommand_steps h _ _ _ _ s
  · exact runCommand_steps h _ _ _ _ s
  · exact runCommand_steps h _ _ _ _ s
  · exact runCommand_steps h _ _ _ _ s
  · exact runCommand_steps h _ _ _ _ s
  · exact runCommand_steps h _ _ _ _ s
  · exact runCommand_steps h _ _ _ _ s
  · exact runCommand_steps h _ _ _ _ s
  · exact runCommand_steps h _ _ _ _ s
  · exact runCommand_steps h _ _ _ _ s
  · exact runCommand_steps h _ _ _ _ s
  · exact runCommand_steps h _ _ _ _ s
  · exact runCommand_steps h _ _ _ _ s
  · exact runCommand_steps h _ _ _ _ s
  · exact runCommand_steps h _ _ _ _ s
  · exact runCommand_steps h _ _ _ _ s
  · exact runCommand_steps h _ _ _ _ s
  · exact runCommand_steps h _ _ _ _ s
  · exact runCommand_steps h _ _ _ _ s
  · exact runCommand_steps h _ _ _ _ s
  · exact runCommand_steps h _ _ _ _ s
  · exact runCommand_steps h _ _ _ _ s
  · exact runCommand_steps h _ _ _ _ s
  · exact runCommand_steps h _ _ _ _ s
  · exact runCommand_steps h _ _ _ _ s
  · exact runCommand_steps h _ _ _ _ s
  · exact runCommand_steps h _ _ _ _ s
  · exact runCommand_steps h _ _ _ _ s
  · exact runCommand_steps h _ _ _ _ s
  · exact runCommand_steps h _ _ _ _ s
  · exact runCommand_steps h _ _ _ _ s
  · exact runCommand_steps h _ _ _ _ s
  · exact runCommand_steps h _ _ _ _ s
  · exact runCommand_steps h _ _ _ _ s
  · exact runCommand_steps h _ _ _ _ s
  · exact runCommand_steps h _ _ _ _ s
  · exact occur_steps h (arriveFrame_steps h _ _ _ _ s)
  · exact occur_steps h (arriveBytes_steps h _ _ s)
  · exact occur_steps h (collect_steps h _ _ s)
  · exact occur_steps h (lengthTooLarge_steps h _ s)
  · exact occur_steps h (gapTimeout_steps h s)
  · exact occur_steps h (stopBitFault_steps h s)
  · exact occur_steps h (discardEnd_steps h s)
  · exact occur_steps h (responseSent_steps h s)
  · exact fullReset_steps h s
  · exact resetRelease_steps h s
  · exact lineSample_steps h _ _ s
  · exact occur_steps h (completeRun_steps h _ _ _ s)
  · exact occur_steps h (completeRun_steps h _ _ _ s)
  · exact occur_steps h (completeRun_steps h _ _ _ s)
  · exact lineStuck_steps h _ _ s
  · exact occur_steps h (completeRun_steps h _ _ _ s)
  · exact occur_steps h (conversionDone_steps h _ s)
  · exact occur_steps h (warmUpExpires_steps h s)
  · exact occur_steps h (paceExpires_steps h s)
  · exact occur_steps h (closedPaceExpires_steps h s)
  · exact occur_steps h (accelerationEnds_steps h _ s)
  · exact occur_steps h (feedbackExpires_steps h _ s)
  · exact occur_steps h (travelExpires_steps h _ s)
  · exact occur_steps h (settleExpires_steps h _ s)
  · exact occur_steps h (guardReleaseExpires_steps h _ s)
  · exact occur_steps h (guardLongExpires_steps h _ s)
  · exact occur_steps h (dwellExpires_steps h _ _ s)
  · exact occur_steps h (pauseExpires_steps h _ _ s)
  · exact occur_steps h (pressExpires_steps h _ _ s)
  · exact occur_steps h (heartbeatExpires_steps h _ s)
  · exact occur_steps h (serviceIdleExpires_steps h s)
  · exact occur_steps h (sagHoldExpires_steps h s)
  · exact occur_steps h (reachNextLevel_steps h _ s)
  · exact occur_steps h (noteEnds_steps h s)
  · exact occur_steps h (silenceExpires_steps h s)
  · exact occur_steps h (lampTestExpires_steps h s)
  · exact occur_steps h (receiveByte_steps h _ s)
  · exact occur_steps h (h.ticks s)

end Sys2Proof.Machine
end

