-- ==== Sys2Proof/Laws/Arbiter.lean ====
section
/-! SUPPORT. The start arbiter's agreement with the axes is kept by every operation of the floor and by every
command: one lemma for a change of a single axis, and the moves as its cases. -/

namespace Sys2Proof.Machine

/-- A step that keeps a property of the state. -/
def Kept (P : State → Prop) (s t : State) : Prop := P s → P t

/-! ## The units in use -/

/-- The units an axis has in use (R104). -/
def loadOf (x : Axis) : Nat := if x.state = .accelerating then x.startCost else 0

/-- A filtered sum is a sum with zeros. -/
theorem sum_filter_map {α : Type} (l : List α) (p : α → Bool) (f : α → Nat) :
    ((l.filter p).map f).sum = (l.map fun a => if p a then f a else 0).sum := by
  induction l with
  | nil => rfl
  | cons a l ih => cases h : p a <;> simp [h, ih]

/-- The start costs of the axes in ACCELERATING, as one sum over the axes. -/
theorem charged_eq (s : State) :
    (((List.finRange 12).filter fun a => (s.axis a).state = .accelerating).map
      fun a => (s.axis a).startCost).sum = ∑ a, loadOf (s.axis a) := by
  rw [sum_filter_map, Fin.sum_univ_def]
  simp [loadOf]

/-- Sums that differ in one place. -/
theorem sum_change {n : Nat} {f g : Fin n → Nat} {a : Fin n} (h : ∀ b, b ≠ a → g b = f b) :
    ∑ b, g b + f a = ∑ b, f b + g a := by
  rw [← Finset.add_sum_erase _ f (Finset.mem_univ a), ← Finset.add_sum_erase _ g (Finset.mem_univ a)]
  have : ∑ b ∈ Finset.univ.erase a, g b = ∑ b ∈ Finset.univ.erase a, f b :=
    Finset.sum_congr rfl fun b hb => h b (Finset.ne_of_mem_erase hb)
  omega

/-! ## Changes of the state -/

/-- A step that leaves what the arbiter's agreement looks at. -/
theorem ArbiterOk.aside {s t : State} (hs : ArbiterOk s)
    (ha : ∀ a, (t.axis a).state = (s.axis a).state ∧ (t.axis a).startCost = (s.axis a).startCost ∧
      (t.axis a).move = (s.axis a).move)
    (hq : t.arbiter.startQueue = s.arbiter.startQueue) (hu : t.arbiter.unitsInUse = s.arbiter.unitsInUse)
    (hb : t.timing = s.timing) (hm : t.mode = .setup → s.mode = .setup) : ArbiterOk t where
  once := hq ▸ hs.once
  queued a := by rw [hq, (ha a).1]; exact hs.queued a
  charged := by simp only [hu, fun a => (ha a).1, fun a => (ha a).2.1]; exact hs.charged
  within := by rw [hu, hb]; exact hs.within
  moves a h := by rw [(ha a).2.2]; exact hs.moves a (by rw [← (ha a).1]; exact h)
  setup h a := by rw [(ha a).1]; exact hs.setup (hm h) a

/-- A step that changes one axis and the arbiter with it. -/
theorem ArbiterOk.change {s t : State} (hs : ArbiterOk s) (a : AxisId)
    (ho : ∀ b, b ≠ a → t.axis b = s.axis b) (hc : (t.axis a).startCost = (s.axis a).startCost)
    (hn : t.arbiter.startQueue.Nodup)
    (hq : ∀ b, b ≠ a → (b ∈ t.arbiter.startQueue ↔ b ∈ s.arbiter.startQueue))
    (hqa : a ∈ t.arbiter.startQueue ↔ (t.axis a).state = .waitingStart)
    (hu : t.arbiter.unitsInUse + loadOf (s.axis a) = s.arbiter.unitsInUse + loadOf (t.axis a))
    (hw : t.arbiter.unitsInUse ≤ t.timing.startBudget)
    (hmv : (t.axis a).state.busy = true → (t.axis a).move.isSome = true)
    (hst : t.mode = .setup → s.mode = .setup ∧ (t.axis a).state = .disabled) : ArbiterOk t where
  once := hn
  queued b := by
    by_cases e : b = a
    · subst e; exact hqa
    · rw [hq b e, ho b e]; exact hs.queued b
  charged := by
    have h1 := hs.charged
    rw [charged_eq] at h1 ⊢
    have h2 : ∑ b, loadOf (t.axis b) + loadOf (s.axis a) = ∑ b, loadOf (s.axis b) + loadOf (t.axis a) :=
      sum_change (f := fun b => loadOf (s.axis b)) (g := fun b => loadOf (t.axis b))
        fun b e => by simp only [ho b e]
    omega
  within := hw
  moves b h := by
    by_cases e : b = a
    · subst e; exact hmv h
    · rw [ho b e] at h ⊢; exact hs.moves b h
  setup h b := by
    by_cases e : b = a
    · subst e; exact (hst h).2
    · rw [ho b e]; exact hs.setup (hst h).1 b

/-- The start cost is a standing field. -/
theorem startCost_of_standing {x y : Axis} (h : y.standing = x.standing) : y.startCost = x.startCost := by
  simp only [Axis.standing, Prod.mk.injEq] at h
  exact h.2.2.2.2.2.2.2.2.1

/-- A busy axis has its move after an update that keeps it. -/
theorem ArbiterOk.keepsMove {s : State} (hs : ArbiterOk s) {a : AxisId} {y : Axis}
    (h : KeepsMove (s.axis a) y) (hb : y.state.busy = true) : y.move.isSome = true := by
  rcases h hb with h | ⟨h1, h2⟩
  · exact h
  · rw [h2]; exact hs.moves a h1

/-! ## The moves -/

theorem ArbiterOk.calm {s : State} {a : AxisId} {f : Axis → Axis} (hf : Calm s a f) (hs : ArbiterOk s) :
    ArbiterOk (s.modAxis a f) := by
  have hc := startCost_of_standing (hf.standing (s.axis a))
  refine hs.change a (fun b e => modAxis_axis_other _ _ _ _ e) (by simpa using hc) hs.once (fun _ _ => .rfl)
    ?_ ?_ hs.within (by simpa using hs.keepsMove hf.move) fun hm => ⟨hm, ?_⟩
  · rw [modAxis_arbiter, modAxis_axis_same, hs.queued a]
    rcases hf.claims with h | ⟨h1, h2⟩
    · rw [h]
    · constructor <;> intro h
      · rw [h] at h1; cases h1
      · rw [h] at h2; cases h2
  · rw [modAxis_arbiter, modAxis_axis_same]
    have : loadOf (s.axis a) = loadOf (f (s.axis a)) := by
      unfold loadOf
      rcases hf.claims with h | ⟨h1, h2⟩
      · rw [h, hc]
      · rw [if_neg (fun h => by rw [h] at h1; cases h1), if_neg (fun h => by rw [h] at h2; cases h2)]
    rw [this]
  · rw [modAxis_axis_same]
    rcases hf.wakes (hs.setup hm a) with h | h
    · exact h
    · exact absurd hm h

/-- The units in use cover those of one axis. -/
theorem ArbiterOk.load_le {s : State} (hs : ArbiterOk s) (a : AxisId) :
    loadOf (s.axis a) ≤ s.arbiter.unitsInUse := by
  rw [hs.charged, charged_eq]
  exact Finset.single_le_sum (f := fun b => loadOf (s.axis b)) (fun _ _ => Nat.zero_le _) (Finset.mem_univ a)

/-- What an axis leaves at the arbiter when it is released. -/
theorem ArbiterOk.release {s : State} (hs : ArbiterOk s) (a : AxisId) :
    (releaseAxis a s).arbiter.startQueue.Nodup ∧
    (∀ b, b ∈ (releaseAxis a s).arbiter.startQueue ↔ b ≠ a ∧ b ∈ s.arbiter.startQueue) ∧
    (releaseAxis a s).arbiter.unitsInUse + loadOf (s.axis a) = s.arbiter.unitsInUse ∧
    (releaseAxis a s).timing = s.timing := by
  have hl := hs.load_le a
  have hq := hs.queued a
  unfold releaseAxis
  split
  · rename_i hst
    refine ⟨hs.once.filter _, fun b => ?_, ?_, rfl⟩
    · simp [leaveQueue, and_comm]
    · simp [leaveQueue, loadOf, hst]
  · rename_i hst
    refine ⟨hs.once, fun b => ?_, ?_, rfl⟩
    · simp only [returnUnits, modArbiter_arbiter]
      exact ⟨fun h => ⟨fun e => by subst e; rw [hst] at hq; exact absurd (hq.1 h) (by decide), h⟩, fun h => h.2⟩
    · simp only [loadOf, hst, if_true] at hl ⊢
      simp only [returnUnits, modArbiter_arbiter]
      omega
  all_goals
    rename_i hst
    refine ⟨hs.once, fun b => ?_, by simp [loadOf, hst], rfl⟩
    exact ⟨fun h => ⟨fun e => by subst e; rw [hst] at hq; exact absurd (hq.1 h) (by decide), h⟩, fun h => h.2⟩

theorem ArbiterOk.leaves {s : State} {a : AxisId} {f : Axis → Axis} (hf : Leaves s a f) (hs : ArbiterOk s) :
    ArbiterOk ((releaseAxis a s).modAxis a f) := by
  obtain ⟨h1, h2, h3, h4⟩ := hs.release a
  have hn : ∀ n, n.claims = true → (f (s.axis a)).state ≠ n := fun n hn e => by
    have := hf.claims; rw [e, hn] at this; cases this
  refine hs.change a (fun b e => by rw [modAxis_axis_other _ _ _ _ e, releaseAxis_axis])
    (by simpa using startCost_of_standing (hf.off (s.axis a)).2.2) h1
    (fun b e => by simpa [e] using h2 b) ?_ ?_ ?_ (by simpa using hs.keepsMove hf.move) fun hm => ?_
  · simp only [modAxis_arbiter, modAxis_axis_same, releaseAxis_axis, h2]
    simp [hn .waitingStart rfl]
  · simp only [modAxis_arbiter, modAxis_axis_same, releaseAxis_axis]
    rw [h3]
    simp [loadOf, hn .accelerating rfl]
  · simp only [modAxis_arbiter, modAxis_timing]
    rw [h4]
    have := hs.within
    omega
  · rw [modAxis_mode, releaseAxis_mode] at hm
    exact ⟨hm, by simpa using hf.wakes (hs.setup hm a)⟩

theorem ArbiterOk.joins {s : State} {a : AxisId} {f : Axis → Axis} (hf : Joins s a f) (hs : ArbiterOk s) :
    ArbiterOk (joinQueue a ((releaseAxis a s).modAxis a f)) := by
  obtain ⟨h1, h2, h3, h4⟩ := hs.release a
  have ha : (joinQueue a ((releaseAxis a s).modAxis a f)).axis a = f (s.axis a) := by simp [joinQueue]
  refine hs.change a (fun b e => ?_) (by rw [ha]; exact startCost_of_standing (hf.standing (s.axis a))) ?_
    (fun b e => ?_) ?_ ?_ ?_ (by rw [ha]; exact hs.keepsMove hf.move) fun hm => ?_
  · simp [joinQueue, modAxis_axis_other _ _ _ _ e]
  · simp only [joinQueue, modArbiter_arbiter, modAxis_arbiter]
    exact List.Nodup.append h1 (List.nodup_singleton a) (by
      intro b hb hb'
      rw [List.mem_singleton] at hb'
      exact ((h2 b).1 hb).1 hb')
  · simp only [joinQueue, modArbiter_arbiter, modAxis_arbiter, List.mem_append, List.mem_singleton, h2]
    simp [e]
  · rw [ha]
    simp [joinQueue, hf.state]
  · rw [ha]
    simp only [joinQueue, modArbiter_arbiter, modAxis_arbiter]
    rw [h3]
    simp [loadOf, hf.state]
  · simp only [joinQueue, modArbiter_arbiter, modAxis_arbiter, modArbiter_timing, modAxis_timing]
    rw [h4]
    have := hs.within
    omega
  · simp only [joinQueue, modArbiter_mode, modAxis_mode, releaseAxis_mode] at hm
    exact absurd (hs.setup hm a) hf.old.2

/-- The head of the start queue is WAITING_START, with a move, and is no other place of the queue. -/
theorem ArbiterOk.head {s : State} (hs : ArbiterOk s) {a : AxisId} {rest : List AxisId}
    (hq : s.arbiter.startQueue = a :: rest) :
    (s.axis a).state = .waitingStart ∧ (s.axis a).move.isSome = true ∧ a ∉ rest ∧ rest.Nodup ∧ s.mode ≠ .setup := by
  have h1 : (s.axis a).state = .waitingStart := (hs.queued a).1 (by rw [hq]; exact List.mem_cons_self)
  have h2 := hs.once
  rw [hq, List.nodup_cons] at h2
  exact ⟨h1, hs.moves a (by rw [h1]; rfl), h2.1, h2.2, fun hm => by
    have := hs.setup hm a; rw [h1] at this; cases this⟩

theorem ArbiterOk.granted {s : State} {a : AxisId} {rest : List AxisId}
    (hq : s.arbiter.startQueue = a :: rest) (hc : (s.axis a).startCost ≤ freeUnits s)
    (hf : feedbackStale s a = false) (hs : ArbiterOk s) : ArbiterOk (startDrive a (chargeGrant a s)) := by
  obtain ⟨hw, hm, hr, hn, hset⟩ := hs.head hq
  obtain ⟨m, hm⟩ := Option.isSome_iff_exists.1 hm
  obtain ⟨p, hp⟩ : ∃ p, positionSampleOf s a = some p := by
    cases h : positionSampleOf s a with
    | none => simp [feedbackStale, h] at hf
    | some p => exact ⟨p, rfl⟩
  have hp' : positionSampleOf (chargeGrant a s) a = some p := hp
  have hm' : ((chargeGrant a s).axis a).move = some m := hm
  have he : startDrive a (chargeGrant a s) = (chargeGrant a s).modAxis a fun x =>
      { x.driveOn (directionTo m.target p.value) m.speed with
        state := .accelerating, travel := some x.travelLimit } := by
    unfold startDrive; rw [hm', hp']
  rw [he]
  refine hs.change a (fun b e => ?_) (by simp [chargeGrant, Axis.driveOn]) ?_ (fun b e => ?_) ?_ ?_ ?_ ?_ fun h => ?_
  · rw [modAxis_axis_other _ _ _ _ e]; rfl
  · simpa [chargeGrant, hq] using hn
  · simp [chargeGrant, hq, e]
  · simpa [chargeGrant, hq] using hr
  · simp [chargeGrant, loadOf, hw, Axis.driveOn]
  · have := hs.within
    simp only [chargeGrant, modAxis_arbiter, modArbiter_arbiter, modAxis_timing, modArbiter_timing]
    unfold freeUnits at hc
    omega
  · intro _
    simp [chargeGrant, Axis.driveOn, hm]
  · exact absurd h hset

theorem ArbiterOk.faulted {s : State} {a : AxisId} {rest : List AxisId} (c : FaultCause)
    (hq : s.arbiter.startQueue = a :: rest) (hs : ArbiterOk s) :
    ArbiterOk (markFaulted a c (returnUnits a (chargeGrant a s))) := by
  obtain ⟨hw, -, hr, hn, hset⟩ := hs.head hq
  have hw' : ((returnUnits a (chargeGrant a s)).axis a).state = .waitingStart := hw
  have he : releaseAxis a (returnUnits a (chargeGrant a s)) = leaveQueue a (returnUnits a (chargeGrant a s)) := by
    unfold releaseAxis; rw [hw']
  unfold markFaulted
  rw [he]
  refine hs.change a (fun b e => ?_) (by simp [chargeGrant, returnUnits, leaveQueue, Axis.quit]) ?_ (fun b e => ?_) ?_ ?_ ?_ ?_ fun h => ?_
  · rw [modAxis_axis_other _ _ _ _ e]; rfl
  · simpa [chargeGrant, returnUnits, leaveQueue, hq] using hn.filter _
  · simp [chargeGrant, returnUnits, leaveQueue, hq, e]
  · simp [chargeGrant, returnUnits, leaveQueue, hq]
  · simp [chargeGrant, returnUnits, leaveQueue, loadOf, hw]
  · simpa [chargeGrant, returnUnits, leaveQueue] using hs.within
  · intro h; simp [AxisState.busy] at h
  · exact absurd h hset

/-! ## The instance -/

/-- A step that leaves the axes, the arbiter's queue and units, the timing record and the mode. -/
theorem Kept.arbiter {s t : State} (ha : t.axes = s.axes) (hq : t.arbiter.startQueue = s.arbiter.startQueue)
    (hu : t.arbiter.unitsInUse = s.arbiter.unitsInUse) (hb : t.timing = s.timing) (hm : t.mode = s.mode) :
    Kept ArbiterOk s t := fun hs =>
  hs.aside (fun a => by simp [State.axis, ha]) hq hu hb fun h => hm ▸ h

/-- Axes DISABLED, with nothing queued and nothing in use. -/
theorem ArbiterOk.ofDisabled {t : State} (ha : ∀ a, (t.axis a).state = .disabled)
    (hq : t.arbiter.startQueue = []) (hu : t.arbiter.unitsInUse = 0) : ArbiterOk t where
  once := hq ▸ List.nodup_nil
  queued a := by simp [hq, ha]
  charged := by simp [hu, ha]
  within := by simp [hu]
  moves a h := by rw [ha] at h; cases h
  setup _ := ha

/-- CONFIG-AXIS leaves an axis's state, drive and move. -/
theorem configuredAxis_state {p : List Byte} {x y : Axis} (h : configuredAxis p x = some y) :
    y.state = x.state := (configuredAxis_keeps h).1

/-- The agreement is kept by every move of the floor. -/
theorem ArbiterOk.free : WideFree (Kept ArbiterOk) where
  refl _ h := h
  trans a b h := b (a h)
  exhibit _ _ _ _ := Kept.arbiter rfl rfl rfl rfl rfl
  line _ _ _ _ := Kept.arbiter rfl rfl rfl rfl rfl
  calm _ _ _ hf hs := hs.calm hf
  leaves _ _ _ hf hs := hs.leaves hf
  joins _ _ _ hf hs := hs.joins hf
  granted _ _ _ hq hc hf hs := hs.granted hq hc hf
  spilled _ _ _ hq hd hs := by
    have := (hs.head hq).1
    rcases hd with h | h <;> rw [h] at this <;> cases this
  faulted _ _ _ c hq hs := hs.faulted c hq
  arbiter s f hf := Kept.arbiter rfl (hf _).1 (hf _).2 rfl rfl
  frame _ _ _ := Kept.arbiter rfl rfl rfl rfl rfl
  annunciators _ _ _ := Kept.arbiter rfl rfl rfl rfl rfl
  replace _ _ _ _ _ := Kept.arbiter rfl rfl rfl rfl rfl
  remove _ _ := Kept.arbiter rfl rfl rfl rfl rfl
  readmit _ _ _ _ _ := Kept.arbiter rfl rfl rfl rfl rfl
  joins_list _ _ _ := Kept.arbiter rfl rfl rfl rfl rfl
  evict _ _ _ _ := Kept.arbiter rfl rfl rfl rfl rfl
  append q _ _ := by cases q <;> exact Kept.arbiter rfl rfl rfl rfl rfl
  noted _ _ := Kept.arbiter rfl rfl rfl rfl rfl
  exhibitAny _ _ _ _ := Kept.arbiter rfl rfl rfl rfl rfl
  lists _ _ _ _ := Kept.arbiter rfl rfl rfl rfl rfl
  channel _ _ _ _ := Kept.arbiter rfl rfl rfl rfl rfl
  scanner _ _ _ := Kept.arbiter rfl rfl rfl rfl rfl
  tenure _ _ _ := Kept.arbiter rfl rfl rfl rfl rfl
  idle _ _ := Kept.arbiter rfl rfl rfl rfl rfl

/-- At the warm-restart values every axis is DISABLED, and the arbiter is idle. -/
theorem warmBlocks_arbiter (s : State) :
    (∀ a, ((warmBlocks s).axis a).state = .disabled) ∧ (warmBlocks s).arbiter = {} := by
  refine ⟨fun a => ?_, rfl⟩
  simp [warmBlocks, warmPorts, warmTenures, warmAnnunciators, warmAlerts, warmQueues, warmCues, warmArbiter,
    warmAxes, State.axis, State.modAnnunciators, State.modAlerts, Axis.warm]

/-- RECONFIGURE leaves the agreement. -/
theorem ArbiterOk.rebuilt (s : State) : ArbiterOk (reconfigureHub s) := by
  obtain ⟨h1, h2⟩ := warmBlocks_arbiter s
  unfold reconfigureHub setMode
  generalize warmBlocks s = t at h1 h2 ⊢
  exact ArbiterOk.free.emit _ _ _ (ArbiterOk.ofDisabled h1 (congrArg Arbiter.startQueue h2) (congrArg Arbiter.unitsInUse h2))

/-- A warm restart leaves the agreement. -/
theorem ArbiterOk.rewarmed (s : State) : ArbiterOk (warmScanner (stampExhibits (warmBlocks s))) := by
  obtain ⟨h1, h2⟩ := warmBlocks_arbiter s
  generalize warmBlocks s = t at h1 h2 ⊢
  have ha : (warmScanner (stampExhibits t)).axes = t.axes := by simp [warmScanner, stampExhibits]
  have hb : (warmScanner (stampExhibits t)).arbiter = t.arbiter := by simp [warmScanner, stampExhibits]
  exact ArbiterOk.ofDisabled (fun a => by rw [State.axis, ha]; exact h1 a) (by rw [hb, h2]) (by rw [hb, h2])

/-- The commit leaves the agreement. -/
theorem ArbiterOk.committed {s : State} (hm : s.mode = .setup) (hs : ArbiterOk s) :
    ArbiterOk (warmArbiter (warmChannels (warmLines (warmExhibits (deriveFields s))))) :=
  ArbiterOk.ofDisabled (fun a => by
    have := hs.setup hm a
    simpa [warmArbiter, warmChannels, warmLines, warmExhibits, deriveFields, State.axis, get_as_index] using this)
    (by simp only [warmArbiter]) (by simp only [warmArbiter])

/-- In SETUP nothing is queued and nothing is in use. -/
theorem ArbiterOk.idle {s : State} (hm : s.mode = .setup) (hs : ArbiterOk s) :
    s.arbiter.startQueue = [] ∧ s.arbiter.unitsInUse = 0 := by
  refine ⟨List.eq_nil_iff_forall_not_mem.2 fun b hb => ?_, by rw [hs.charged]; simp [hs.setup hm]⟩
  have := (hs.queued b).1 hb
  rw [hs.setup hm b] at this; cases this

/-- The agreement is kept by every command. -/
theorem ArbiterOk.acts : Acts (Kept ArbiterOk) where
  toWide := ArbiterOk.free.wide (ArbiterOk.free.linked fun _ m _ => by
    cases m <;> exact Kept.arbiter rfl rfl rfl rfl rfl)
  mode _ _ hm hs := hs.aside (fun _ => ⟨rfl, rfl, rfl⟩) rfl rfl rfl fun h => absurd h hm
  rebuilt s _ := ArbiterOk.rebuilt s
  rewarmed s _ := ArbiterOk.rewarmed s
  committed _ hm hs := hs.committed hm
  configures _ _ _ _ := Kept.arbiter rfl rfl rfl rfl rfl
  lineAny _ _ _ := Kept.arbiter rfl rfl rfl rfl rfl
  channelAny _ _ _ := Kept.arbiter rfl rfl rfl rfl rfl
  scannerAny _ _ := Kept.arbiter rfl rfl rfl rfl rfl
  annunciatorsAny _ _ := Kept.arbiter rfl rfl rfl rfl rfl
  axisSet s a p x hm hx hs := by
    refine ArbiterOk.ofDisabled (fun b => ?_) (hs.idle hm).1 (hs.idle hm).2
    by_cases e : b = a
    · subst e; rw [modAxis_axis_same, configuredAxis_state hx]; exact hs.setup hm b
    · rw [modAxis_axis_other _ _ _ _ e]; exact hs.setup hm b
  timed s x hm hs := ArbiterOk.ofDisabled (hs.setup hm) (hs.idle hm).1 (hs.idle hm).2
  queue _ q _ _ := by cases q <;> exact Kept.arbiter rfl rfl rfl rfl rfl
  spi _ m _ := by cases m <;> exact Kept.arbiter rfl rfl rfl rfl rfl
  uart _ _ := Kept.arbiter rfl rfl rfl rfl rfl
  note _ _ _ := Kept.arbiter rfl rfl rfl rfl rfl
  permits s e b := by
    have a : Kept ArbiterOk s (s.modExhibit e fun x => { x with permit := b }) := Kept.arbiter rfl rfl rfl rfl rfl
    unfold setPermit
    dsimp only
    split
    · exact ArbiterOk.free.trans a (ArbiterOk.free.endTenure e _)
    · exact a
  takesUp _ _ _ _ := Kept.arbiter rfl rfl rfl rfl rfl
  drops _ f _ := Kept.arbiter rfl rfl rfl rfl rfl
  collects _ _ _ _ := Kept.arbiter rfl rfl rfl rfl rfl
  posts s e f _ := by
    unfold postFrame
    dsimp only
    split
    · intro hs
      refine ArbiterOk.free.takeFrame e _ ?_
      exact hs.aside (fun _ => ⟨rfl, rfl, rfl⟩) rfl rfl rfl fun h => h
    · exact Kept.arbiter rfl rfl rfl rfl rfl

/-! ## Events -/

/-- One millisecond leaves the agreement. -/
theorem ArbiterOk.tick {s : State} (hs : ArbiterOk s) : ArbiterOk (clockTick s) :=
  hs.aside (fun a => by simp [clockTick, State.axis, Axis.tick]) rfl rfl rfl fun h => h

/-- At full reset every axis is DISABLED and the arbiter is idle. -/
theorem ArbiterOk.reset (s : State) : ArbiterOk (fullResetHub s) :=
  .ofDisabled (fun a => by simp [fullResetHub, State.reset, State.axis, get_as_index]) rfl rfl

/-- The end of an acceleration leaves the agreement (R84, R108). -/
theorem ArbiterOk.accelerated {s : State} {a : AxisId} (ha : (s.axis a).state = .accelerating)
    (hs : ArbiterOk s) : ArbiterOk ((returnUnits a s).modAxis a fun x => { x with state := .moving }) := by
  have hl := hs.load_le a
  have hw := hs.within
  simp only [loadOf, ha, if_true] at hl
  refine hs.change a (fun b e => ?_) (by simp [returnUnits]) hs.once (fun _ _ => .rfl) ?_ ?_ ?_ ?_ fun h => ?_
  · rw [modAxis_axis_other _ _ _ _ e]; rfl
  · have := hs.queued a
    simp only [returnUnits, modAxis_arbiter, modArbiter_arbiter, modAxis_axis_same]
    rw [this, ha]; simp
  · simp only [returnUnits, modAxis_arbiter, modArbiter_arbiter, modAxis_axis_same, loadOf, ha]
    simp; omega
  · simp only [returnUnits, modAxis_arbiter, modArbiter_arbiter, modAxis_timing, modArbiter_timing]; omega
  · intro _
    have := hs.moves a (by rw [ha]; rfl)
    simpa [returnUnits] using this
  · have := hs.setup h a
    rw [ha] at this; cases this

/-- The agreement is kept by every event. -/
theorem ArbiterOk.steps : Steps (Kept ArbiterOk) where
  toActs := ArbiterOk.acts
  serves _ _ _ := ArbiterOk.free.trans
    (perform_acts ArbiterOk.acts _ _ _ _ fun e _ _ hm _ _ => ArbiterOk.free.beginTenure e _ (mode_of_take hm))
    (ArbiterOk.free.idle _ _)
  pins _ _ := Kept.arbiter rfl rfl rfl rfl rfl
  ticks _ hs := hs.tick
  resets s _ := ArbiterOk.reset s
  released _ := Kept.arbiter rfl rfl rfl rfl rfl
  accelerated _ _ ha hs := hs.accelerated ha

end Sys2Proof.Machine
end

