-- ==== Sys2Proof/Laws/Alerts.lean ====
section
/-! SUPPORT. The order of the alert list is kept by every operation of the floor, every command and every
event. -/

namespace Sys2Proof.Machine

/-! ## Lists of records -/

/-- The key of a record (R161). -/
def AlertRecord.key (r : AlertRecord) : AlertKind × Option ExhibitId × Option Nat × Option Byte :=
  (r.kind, r.exhibit, r.subject, r.showCode)

/-- What AlertsOk says of the records alone. -/
structure RecordsOk (l : List AlertRecord) : Prop where
  numbers : (l.map AlertRecord.number).Nodup
  keys : (l.map AlertRecord.key).Nodup
  ordinary : (l.filter fun r => r.kind ≠ .listFull).length ≤ 23
  reserved : ∀ r ∈ l, r.kind = .listFull → r.exhibit = none ∧ r.subject = none ∧ r.showCode = none
  levels : ∀ r ∈ l, r.level ≤ 3 ∧ (r.state = .acked → r.level = 0)

namespace RecordsOk

theorem perm {l k : List AlertRecord} (h : RecordsOk l) (p : l.Perm k) : RecordsOk k where
  numbers := (p.map _).nodup_iff.1 h.numbers
  keys := (p.map _).nodup_iff.1 h.keys
  ordinary := by rw [← (p.filter _).length_eq]; exact h.ordinary
  reserved r hr := h.reserved r (p.mem_iff.2 hr)
  levels r hr := h.levels r (p.mem_iff.2 hr)

theorem sublist {l k : List AlertRecord} (h : RecordsOk l) (p : k.Sublist l) : RecordsOk k where
  numbers := h.numbers.sublist (p.map _)
  keys := h.keys.sublist (p.map _)
  ordinary := (p.filter _).length_le.trans h.ordinary
  reserved r hr := h.reserved r (p.subset hr)
  levels r hr := h.levels r (p.subset hr)

/-- A record gives way to one with its number and key. -/
theorem swap {l k : List AlertRecord} {r r' : AlertRecord} (h : RecordsOk (l ++ r :: k)) (hr : SameRecord r r') :
    RecordsOk (l ++ r' :: k) := by
  obtain ⟨h1, h2, h3, h4, h5, h6⟩ := hr
  have hk : r'.key = r.key := by simp [AlertRecord.key, h2, h3, h4, h5]
  have old := h.levels r (by simp)
  constructor
  · simpa [h1] using h.numbers
  · simpa [hk] using h.keys
  · simpa [List.filter_cons, h2, apply_ite List.length] using h.ordinary
  · intro x hx
    rw [List.mem_append, List.mem_cons] at hx
    rcases hx with hx | rfl | hx
    · exact h.reserved x (by simp [hx])
    · rw [h2, h3, h4, h5]; exact h.reserved r (by simp)
    · exact h.reserved x (by simp [hx])
  · intro x hx
    rw [List.mem_append, List.mem_cons] at hx
    rcases hx with hx | rfl | hx
    · exact h.levels x (by simp [hx])
    · exact h6 old
    · exact h.levels x (by simp [hx])

/-- A record with a number and a key of its own, and a place, joins. -/
theorem append {l : List AlertRecord} {r : AlertRecord} (h : RecordsOk l) (hn : ∀ x ∈ l, x.number ≠ r.number)
    (hk : ∀ x ∈ l, x.key ≠ r.key)
    (ho : r.kind ≠ .listFull → (l.filter fun x => x.kind ≠ .listFull).length < 23)
    (hr : r.kind = .listFull → r.exhibit = none ∧ r.subject = none ∧ r.showCode = none)
    (hl : r.level ≤ 3 ∧ (r.state = .acked → r.level = 0)) : RecordsOk (l ++ [r]) where
  numbers := by
    rw [List.map_append, List.map_singleton]
    exact h.numbers.append (List.nodup_singleton _) (by simpa [List.disjoint_singleton] using hn)
  keys := by
    rw [List.map_append, List.map_singleton]
    exact h.keys.append (List.nodup_singleton _) (by simpa [List.disjoint_singleton] using hk)
  ordinary := by
    have := h.ordinary
    rw [List.filter_append, List.length_append]
    by_cases e : r.kind = .listFull
    · simpa [e] using this
    · have := ho e; simp only [ne_eq, decide_not] at this ⊢; simp [e]; omega
  reserved x hx := by
    rw [List.mem_append, List.mem_singleton] at hx
    rcases hx with hx | rfl
    · exact h.reserved x hx
    · exact hr
  levels x hx := by
    rw [List.mem_append, List.mem_singleton] at hx
    rcases hx with hx | rfl
    · exact h.levels x hx
    · exact hl

/-- A record stands among records of other numbers. -/
theorem split {l : List AlertRecord} {r : AlertRecord} (h : RecordsOk l) (hr : r ∈ l) :
    ∃ a b, l = a ++ r :: b ∧ (∀ x ∈ a, x.number ≠ r.number) ∧ ∀ x ∈ b, x.number ≠ r.number := by
  obtain ⟨a, b, rfl⟩ := List.append_of_mem hr
  have := h.numbers
  rw [List.map_append, List.map_cons, List.nodup_middle, List.nodup_cons] at this
  have hn := this.1
  rw [List.mem_append, not_or] at hn
  exact ⟨a, b, rfl, fun x hx e => hn.1 (List.mem_map.2 ⟨x, hx, e⟩), fun x hx e => hn.2 (List.mem_map.2 ⟨x, hx, e⟩)⟩

/-- The records without one of them. -/
theorem without {a b : List AlertRecord} {r : AlertRecord} (ha : ∀ x ∈ a, x.number ≠ r.number)
    (hb : ∀ x ∈ b, x.number ≠ r.number) :
    (a ++ r :: b).filter (fun x => decide (x.number ≠ r.number)) = a ++ b := by
  rw [List.filter_append, List.filter_cons_of_neg (by simp), List.filter_eq_self.2 (by simpa using ha),
    List.filter_eq_self.2 (by simpa using hb)]

/-- The records with one of them replaced. -/
theorem replaced {a b : List AlertRecord} {r r' : AlertRecord} (ha : ∀ x ∈ a, x.number ≠ r.number)
    (hb : ∀ x ∈ b, x.number ≠ r.number) :
    (a ++ r :: b).map (fun x => if x.number = r.number then r' else x) = a ++ r' :: b := by
  have id_of : ∀ l : List AlertRecord, (∀ x ∈ l, x.number ≠ r.number) →
      l.map (fun x => if x.number = r.number then r' else x) = l := fun l hl => by
    conv => rhs; rw [← List.map_id l]
    exact List.map_congr_left fun x hx => by simp [hl x hx]
  rw [List.map_append, List.map_cons, id_of a ha, id_of b hb]
  simp

/-- At most 24 records stand in the list. -/
theorem length_le {l : List AlertRecord} (h : RecordsOk l) : l.length ≤ 24 := by
  have h1 : (l.filter fun r => r.kind = .listFull).length ≤ 1 := by
    by_contra hc
    have hk := h.keys.sublist (List.filter_sublist (p := fun r => decide (r.kind = .listFull)) |>.map AlertRecord.key)
    match hm : l.filter fun r => decide (r.kind = .listFull) with
    | [] => simp [hm] at hc
    | [_] => simp [hm] at hc
    | x :: y :: rest =>
      have hx : x ∈ l.filter fun r => decide (r.kind = .listFull) := by rw [hm]; simp
      have hy : y ∈ l.filter fun r => decide (r.kind = .listFull) := by rw [hm]; simp
      rw [List.mem_filter, decide_eq_true_eq] at hx hy
      obtain ⟨x1, x2, x3⟩ := h.reserved x hx.1 hx.2
      obtain ⟨y1, y2, y3⟩ := h.reserved y hy.1 hy.2
      rw [hm] at hk
      simp [AlertRecord.key, hx.2, hy.2, x1, x2, x3, y1, y2, y3] at hk
  have h2 := h.ordinary
  have h3 := List.length_eq_length_filter_add (l := l) fun r => decide (r.kind = .listFull)
  simp only [ne_eq, decide_not] at h2
  omega

end RecordsOk

/-! ## Numbers -/

/-- The number after `n` on the numbers other than 0. -/
theorem bumpNumber_toNat {n : BitVec 16} (h : n ≠ 0) : (bumpNumber n).toNat = n.toNat % 65535 + 1 := by
  have h1 : n.toNat ≠ 0 := fun e => h (BitVec.eq_of_toNat_eq (by simpa using e))
  have h2 := n.isLt
  unfold bumpNumber
  split
  · rename_i e
    have := congrArg BitVec.toNat e
    rw [BitVec.toNat_add] at this
    simp at this
    have h3 : n.toNat = 65535 := by omega
    simp [h3]
  · rename_i e
    have h3 : n.toNat ≠ 65535 := fun h3 => e (BitVec.eq_of_toNat_eq (by rw [BitVec.toNat_add, h3]; rfl))
    rw [BitVec.toNat_add]
    simp
    omega

theorem bumpNumber_ne (n : BitVec 16) : bumpNumber n ≠ 0 := by
  unfold bumpNumber; split <;> simp_all

/-- The `j`-th number after `n`. -/
def bumped (n : BitVec 16) : Nat → BitVec 16
  | 0 => n
  | j + 1 => bumped (bumpNumber n) j

theorem bumped_toNat : ∀ (j : Nat) {n : BitVec 16}, n ≠ 0 → (bumped n j).toNat = (n.toNat - 1 + j) % 65535 + 1
  | 0, n, h => by
    have h1 : n.toNat ≠ 0 := fun e => h (BitVec.eq_of_toNat_eq (by simpa using e))
    have := n.isLt
    simp only [bumped, Nat.add_zero]
    omega
  | j + 1, n, h => by
    rw [bumped, bumped_toNat j (bumpNumber_ne n), bumpNumber_toNat h]
    have h1 : n.toNat ≠ 0 := fun e => h (BitVec.eq_of_toNat_eq (by simpa using e))
    have := n.isLt
    omega

/-- The search ends at a number that no record holds, or every number tried is held. -/
theorem freeNumber_spec (l : List AlertRecord) : ∀ (fuel : Nat) {n : BitVec 16}, n ≠ 0 →
    freeNumber l fuel n ≠ 0 ∧
      ((∀ r ∈ l, r.number ≠ freeNumber l fuel n) ∨ ∀ j < fuel, bumped n j ∈ l.map AlertRecord.number)
  | 0, n, h => ⟨h, .inr fun _ hj => absurd hj (Nat.not_lt_zero _)⟩
  | fuel + 1, n, h => by
    unfold freeNumber
    split
    · rename_i hx
      obtain ⟨h1, h2⟩ := freeNumber_spec l fuel (bumpNumber_ne n)
      refine ⟨h1, h2.imp id fun h2 j hj => ?_⟩
      cases j with
      | zero => simpa [bumped] using hx
      | succ j => exact h2 j (by omega)
    · rename_i hx
      exact ⟨h, .inl (by simpa using hx)⟩

/-- With fewer than 25 records the search ends at a free number. -/
theorem freeNumber_free {l : List AlertRecord} (hl : l.length ≤ 24) {n : BitVec 16} (h : n ≠ 0) :
    ∀ r ∈ l, r.number ≠ freeNumber l 25 n := by
  rcases (freeNumber_spec l 25 h).2 with h2 | h2
  · exact h2
  · exfalso
    have hs : ((List.range 25).map (bumped n)).Nodup := by
      refine (List.nodup_map_iff_inj_on List.nodup_range).2 fun i hi j hj e => ?_
      rw [List.mem_range] at hi hj
      have := congrArg BitVec.toNat e
      rw [bumped_toNat i h, bumped_toNat j h] at this
      omega
    have := (hs.subperm (l₂ := l.map AlertRecord.number) fun x hx => by
      obtain ⟨j, hj, rfl⟩ := List.mem_map.1 hx
      exact h2 j (List.mem_range.1 hj)).length_le
    simp at this
    omega

/-! ## The alert list -/

theorem AlertsOk.records {s : State} (h : AlertsOk s) : RecordsOk s.alerts.records :=
  ⟨h.numbers, h.keys, h.ordinary, h.reserved, h.levels⟩

theorem AlertsOk.of {t : State} (h : RecordsOk t.alerts.records)
    (hn : ∀ r ∈ t.alerts.records, r.number ≠ t.alerts.nextNumber) (hz : t.alerts.nextNumber ≠ 0) : AlertsOk t :=
  ⟨h.numbers, hn, hz, h.keys, h.ordinary, h.reserved, h.levels⟩

/-- A step that leaves the alert list. -/
theorem Kept.alerts {s t : State} (h : t.alerts = s.alerts) : Kept AlertsOk s t := fun hs =>
  .of (h ▸ hs.records) (h ▸ hs.next) (h ▸ hs.nonzero)

theorem AlertsOk.replace {s : State} {r r' : AlertRecord} (hr : r ∈ s.alerts.records) (hh : SameRecord r r')
    (hs : AlertsOk s) : AlertsOk (replaceRecord r.number r' s) := by
  obtain ⟨a, b, hl, ha, hb⟩ := hs.records.split hr
  have he : (replaceRecord r.number r' s).alerts.records = a ++ r' :: b := by
    simp only [replaceRecord, modAlerts_alerts, hl]
    exact RecordsOk.replaced ha hb
  have ho := hs.records
  have hx := hs.next
  rw [hl] at ho hx
  refine .of (he ▸ ho.swap hh) ?_ hs.nonzero
  rw [he]
  intro x hx'
  rw [List.mem_append, List.mem_cons] at hx'
  rcases hx' with h | rfl | h
  · exact hx x (by simp [h])
  · rw [hh.1]; exact hx r (by simp)
  · exact hx x (by simp [h])

theorem AlertsOk.remove {s : State} (n : BitVec 16) (hs : AlertsOk s) : AlertsOk (removeRecord n s) :=
  .of (hs.records.sublist List.filter_sublist)
    (fun r hr => hs.next r (List.filter_sublist.subset hr)) hs.nonzero

theorem AlertsOk.readmit {s : State} {r r' : AlertRecord} (hr : r ∈ s.alerts.records) (hh : SameRecord r r')
    (hs : AlertsOk s) :
    AlertsOk ((removeRecord r.number s).modAlerts fun l => { l with records := l.records ++ [r'] }) := by
  obtain ⟨a, b, hl, ha, hb⟩ := hs.records.split hr
  have he : ((removeRecord r.number s).modAlerts fun l => { l with records := l.records ++ [r'] }).alerts.records
      = a ++ b ++ [r'] := by
    simp only [removeRecord, modAlerts_alerts, hl]
    rw [RecordsOk.without ha hb]
  have ho := hs.records
  have hx := hs.next
  rw [hl] at ho hx
  have hp : (a ++ r' :: b).Perm (a ++ b ++ [r']) :=
    List.perm_middle.trans (List.perm_append_singleton r' (a ++ b)).symm
  refine .of (he ▸ (ho.swap hh).perm hp) ?_ hs.nonzero
  rw [he]
  intro x hx'
  rw [List.mem_append, List.mem_append, List.mem_singleton] at hx'
  rcases hx' with (h | h) | rfl
  · exact hx x (by simp [h])
  · exact hx x (by simp [h])
  · rw [hh.1]; exact hx r (by simp)

/-- A record of another key is not found by a trigger. -/
theorem key_of_matches {t : Trigger} {s : State} (h : s.alerts.records.find? t.matches = none) :
    ∀ x ∈ s.alerts.records, x.key ≠ (t.newRecord s).key := by
  intro x hx e
  have := List.find?_eq_none.1 h x hx
  simp only [AlertRecord.key, Trigger.newRecord, Prod.mk.injEq] at e
  simp [Trigger.matches, e] at this

theorem AlertsOk.joins_list {s : State} {t : Trigger} (ht : Admits t s) (hs : AlertsOk s) :
    AlertsOk (admitRecord t s) := by
  have hr : RecordsOk (s.alerts.records ++ [t.newRecord s]) := by
    refine hs.records.append hs.next (key_of_matches ht.fresh) (fun hk => ?_) (fun hk => ?_)
      ⟨Nat.zero_le _, fun _ => rfl⟩
    · rcases ht.place with h | h
      · exact absurd h.1 hk
      · exact h.2
    · rcases ht.place with h | h
      · exact ⟨h.2.1, h.2.2.1, h.2.2.2⟩
      · exact absurd hk h.1
  exact .of hr (freeNumber_free hr.length_le (bumpNumber_ne _)) (freeNumber_spec _ _ (bumpNumber_ne _)).1

theorem AlertsOk.evict {s : State} {t : Trigger} {r : AlertRecord} (ht : Evicts t s r) (hs : AlertsOk s) :
    AlertsOk (admitRecord t (alertRemoved r 1 (removeRecord r.number s))) := by
  have ho := List.mem_filter.1 ht.ordinary
  obtain ⟨a, b, hl, ha, hb⟩ := hs.records.split ho.1
  have he : (alertRemoved r 1 (removeRecord r.number s)).alerts.records = a ++ b := by
    simp only [alertRemoved, emit_alerts, removeRecord, modAlerts_alerts, hl]
    exact RecordsOk.without ha hb
  have hk : AlertsOk (alertRemoved r 1 (removeRecord r.number s)) :=
    Kept.alerts (emit_alerts _ _ _) (hs.remove r.number)
  refine hk.joins_list ⟨?_, .inr ⟨ht.kind, ?_⟩⟩
  · rw [he, List.find?_eq_none]
    intro x hx
    exact List.find?_eq_none.1 ht.fresh x (by rw [hl]; simp at hx ⊢; tauto)
  · have h1 := hs.ordinary
    have h2 : r.kind ≠ .listFull := by simpa using ho.2
    unfold ordinaryRecords
    rw [he]
    rw [hl] at h1
    simp only [ne_eq, decide_not, List.filter_append, List.length_append] at h1 ⊢
    rw [List.filter_cons_of_pos (by simpa using h2)] at h1
    simp at h1
    omega

/-- The order is kept by every move of the floor. -/
theorem AlertsOk.free : WideFree (Kept AlertsOk) where
  refl _ h := h
  trans a b h := b (a h)
  exhibit _ _ _ _ := Kept.alerts rfl
  line _ _ _ _ := Kept.alerts rfl
  calm _ _ _ _ := Kept.alerts rfl
  leaves _ a _ _ := Kept.alerts (by unfold releaseAxis; split <;> rfl)
  joins _ a _ _ := Kept.alerts (by unfold releaseAxis; split <;> rfl)
  granted _ _ _ _ _ _ := Kept.alerts (by unfold startDrive; split <;> rfl)
  spilled _ _ _ _ _ := Kept.alerts rfl
  faulted _ _ _ _ _ := Kept.alerts (by unfold markFaulted releaseAxis; split <;> rfl)
  arbiter _ _ _ := Kept.alerts rfl
  frame _ _ _ := Kept.alerts rfl
  annunciators _ _ _ := Kept.alerts rfl
  replace _ _ _ hr hh hs := hs.replace hr hh
  remove _ n hs := hs.remove n
  readmit _ _ _ hr hh hs := hs.readmit hr hh
  joins_list _ _ ht hs := hs.joins_list ht
  evict _ _ _ ht hs := hs.evict ht
  append q _ _ := by cases q <;> exact Kept.alerts rfl
  noted _ _ := Kept.alerts rfl
  exhibitAny _ _ _ _ := Kept.alerts rfl
  lists _ _ _ _ := Kept.alerts rfl
  channel _ _ _ _ := Kept.alerts rfl
  scanner _ _ _ := Kept.alerts rfl
  tenure _ _ _ := Kept.alerts rfl
  idle _ _ := Kept.alerts rfl

/-- An empty list is in order. -/
theorem AlertsOk.empty {t : State} (hl : t.alerts.records = []) (hn : t.alerts.nextNumber ≠ 0) : AlertsOk t :=
  .of (hl ▸ ⟨List.nodup_nil, List.nodup_nil, by simp, by simp, by simp⟩) (by simp [hl]) hn

/-- The warm-restart values empty the list and go on with the numbers. -/
theorem warmBlocks_alerts (s : State) : (warmBlocks s).alerts = { s.alerts with records := [] } := by
  simp [warmBlocks, warmPorts, warmTenures, warmAnnunciators, warmAlerts, warmQueues, warmCues, warmArbiter,
    warmAxes, warmChannels, warmLines, warmExhibits, unsettle]

/-- The order is kept by every command. -/
theorem AlertsOk.acts : Acts (Kept AlertsOk) where
  toWide := AlertsOk.free.wide (AlertsOk.free.linked fun _ m _ => by cases m <;> exact Kept.alerts rfl)
  mode _ _ _ := Kept.alerts rfl
  rebuilt s hs := by
    have h := warmBlocks_alerts s
    have hn := hs.nonzero
    unfold reconfigureHub setMode
    generalize warmBlocks s = t at h ⊢
    exact AlertsOk.free.emit _ _ _ (AlertsOk.empty (by simp [h]) (by simpa [h] using hn))
  rewarmed s hs := by
    have h := warmBlocks_alerts s
    have hn := hs.nonzero
    generalize warmBlocks s = t at h ⊢
    exact AlertsOk.empty (by simp [warmScanner, stampExhibits, h])
      (by simpa [warmScanner, stampExhibits, h] using hn)
  committed _ _ := Kept.alerts (by simp [warmArbiter, warmChannels, warmLines, warmExhibits, deriveFields])
  configures _ _ _ _ := Kept.alerts rfl
  lineAny _ _ _ := Kept.alerts rfl
  channelAny _ _ _ := Kept.alerts rfl
  scannerAny _ _ := Kept.alerts rfl
  annunciatorsAny _ _ := Kept.alerts rfl
  axisSet _ _ _ _ _ _ := Kept.alerts rfl
  timed _ _ _ := Kept.alerts rfl
  queue _ q _ _ := by cases q <;> exact Kept.alerts rfl
  spi _ m _ := by cases m <;> exact Kept.alerts rfl
  uart _ _ := Kept.alerts rfl
  note _ _ _ := Kept.alerts rfl
  permits s e b := by
    have a : Kept AlertsOk s (s.modExhibit e fun x => { x with permit := b }) := Kept.alerts rfl
    unfold setPermit
    dsimp only
    split
    · exact AlertsOk.free.trans a (AlertsOk.free.endTenure e _)
    · exact a
  takesUp _ _ _ _ := Kept.alerts rfl
  drops _ _ _ := Kept.alerts rfl
  collects _ _ _ _ := Kept.alerts rfl
  posts s e f _ := by
    unfold postFrame
    dsimp only
    split
    · intro hs
      refine AlertsOk.free.takeFrame e _ ?_
      refine Kept.alerts ?_ hs
      rfl
    · exact Kept.alerts rfl

/-- The order is kept by every event. -/
theorem AlertsOk.steps : Steps (Kept AlertsOk) where
  toActs := AlertsOk.acts
  serves _ _ _ := AlertsOk.free.trans
    (perform_acts AlertsOk.acts _ _ _ _ fun e _ _ hm _ _ => AlertsOk.free.beginTenure e _ (mode_of_take hm))
    (AlertsOk.free.idle _ _)
  pins _ _ := Kept.alerts rfl
  ticks _ := Kept.alerts rfl
  resets _ _ := AlertsOk.empty rfl (by simp [fullResetHub, State.reset])
  released _ := Kept.alerts rfl
  accelerated _ _ _ := Kept.alerts rfl

end Sys2Proof.Machine
end

