-- ==== Sys2Proof/Laws/Exhibits.lean ====
section
/-! SUPPORT. The operations of the floor that leave the states of the exhibits, their frames and their tenures
alone; and how the others change the states. -/

namespace Sys2Proof.Machine

/-! ## What most operations leave -/

/-- What a state says of the exhibits' states, frames, permits and tenures, and of the lists of frames. -/
structure Same (s t : State) : Prop where
  state : ∀ e, (t.exhibit e).state = (s.exhibit e).state
  active : ∀ e, (t.exhibit e).active = (s.exhibit e).active
  queue : ∀ e, (t.exhibit e).queue = (s.exhibit e).queue
  permit : ∀ e, (t.exhibit e).permit = (s.exhibit e).permit
  free : t.freeList = s.freeList
  taken : t.takenSet = s.takenSet
  retired : t.retiredList = s.retiredList
  tenures : t.tenures = s.tenures
  mode : t.mode = s.mode

namespace Same

theorem refl (s : State) : Same s s :=
  ⟨fun _ => rfl, fun _ => rfl, fun _ => rfl, fun _ => rfl, rfl, rfl, rfl, rfl, rfl⟩

theorem trans {s t u : State} (a : Same s t) (b : Same t u) : Same s u where
  state e := (b.state e).trans (a.state e)
  active e := (b.active e).trans (a.active e)
  queue e := (b.queue e).trans (a.queue e)
  permit e := (b.permit e).trans (a.permit e)
  free := b.free.trans a.free
  taken := b.taken.trans a.taken
  retired := b.retired.trans a.retired
  tenures := b.tenures.trans a.tenures
  mode := b.mode.trans a.mode

/-- A step that leaves the exhibits, the lists, the tenures and the mode. -/
theorem aside {s t : State} (he : t.exhibits = s.exhibits) (h1 : t.freeList = s.freeList)
    (h2 : t.takenSet = s.takenSet) (h3 : t.retiredList = s.retiredList) (h4 : t.tenures = s.tenures)
    (h5 : t.mode = s.mode) : Same s t :=
  ⟨fun _ => by simp [State.exhibit, he], fun _ => by simp [State.exhibit, he], fun _ => by simp [State.exhibit, he],
    fun _ => by simp [State.exhibit, he], h1, h2, h3, h4, h5⟩

/-- The permit is a standing field. -/
theorem permit_of_standing {x y : Exhibit} (h : y.standing = x.standing) : y.permit = x.permit := by
  simp only [Exhibit.standing, Prod.mk.injEq] at h
  exact h.2.2.2.2

/-- An update of one exhibit that leaves its state, its frames and its permit. -/
theorem exhibit {s : State} {e : ExhibitId} {f : Exhibit → Exhibit} (hf : Exhibit.Configures f) :
    Same s (s.modExhibit e f) where
  state k := Undisturbed.entry s.exhibits e k f Exhibit.state fun x => (hf x).1
  active k := Undisturbed.entry s.exhibits e k f Exhibit.active fun x => (hf x).2.1
  queue k := Undisturbed.entry s.exhibits e k f Exhibit.queue fun x => (hf x).2.2.1
  permit k := Undisturbed.entry s.exhibits e k f Exhibit.permit fun x => (hf x).2.2.2
  free := rfl
  taken := rfl
  retired := rfl
  tenures := rfl
  mode := rfl

/-- A released axis leaves the exhibits. -/
theorem releaseAxis (a : AxisId) (s : State) : Same s (releaseAxis a s) := by
  unfold Machine.releaseAxis
  split
  · exact aside rfl rfl rfl rfl rfl rfl
  · exact aside rfl rfl rfl rfl rfl rfl
  all_goals exact refl s

/-- An update of one axis leaves the exhibits. -/
theorem axis (s : State) (a : AxisId) (f : Axis → Axis) : Same s (s.modAxis a f) := aside rfl rfl rfl rfl rfl rfl

/-- Most moves leave the exhibits. -/
theorem base : Base Same where
  refl := refl
  trans := trans
  exhibit _ _ _ hf := exhibit fun x => ⟨(hf x).2.1, (hf x).2.2.1, (hf x).2.2.2, permit_of_standing (hf x).1⟩
  line _ _ _ _ := aside rfl rfl rfl rfl rfl rfl
  calm s a f _ := axis s a f
  leaves s a f _ := trans (releaseAxis a s) (axis _ a f)
  joins s a f _ := trans (trans (releaseAxis a s) (axis _ a f)) (aside rfl rfl rfl rfl rfl rfl)
  granted s a _ _ _ _ := by
    unfold startDrive
    split <;> exact aside rfl rfl rfl rfl rfl rfl
  spilled _ _ _ _ _ := aside rfl rfl rfl rfl rfl rfl
  faulted s a _ _ _ := trans (t := returnUnits a (chargeGrant a s)) (aside rfl rfl rfl rfl rfl rfl)
    (trans (releaseAxis a _) (axis _ a _))
  arbiter _ _ _ := aside rfl rfl rfl rfl rfl rfl
  frame _ _ _ := aside rfl rfl rfl rfl rfl rfl
  annunciators _ _ _ := aside rfl rfl rfl rfl rfl rfl
  replace _ _ _ _ _ := aside rfl rfl rfl rfl rfl rfl
  remove _ _ := aside rfl rfl rfl rfl rfl rfl
  readmit _ _ _ _ _ := aside rfl rfl rfl rfl rfl rfl
  joins_list _ _ _ := aside rfl rfl rfl rfl rfl rfl
  evict _ _ _ _ := aside rfl rfl rfl rfl rfl rfl
  append q _ _ := by cases q <;> exact aside rfl rfl rfl rfl rfl rfl
  noted _ _ := aside rfl rfl rfl rfl rfl rfl

end Same

/-! ## How the states change -/

/-- A step that takes no exhibit into SERVICE or out of it, and in SETUP none out of CLOSED. -/
structure Stays (s t : State) : Prop where
  service : ∀ e, (t.exhibit e).state = .service ↔ (s.exhibit e).state = .service
  closed : s.mode = .setup → ∀ e, (s.exhibit e).state = .closed → (t.exhibit e).state = .closed
  permit : ∀ e, (t.exhibit e).permit = (s.exhibit e).permit
  tenures : t.tenures = s.tenures
  mode : t.mode = s.mode

namespace Stays

theorem ofSame {s t : State} (h : Same s t) : Stays s t where
  service e := by rw [h.state e]
  closed _ e he := by rw [h.state e]; exact he
  permit := h.permit
  tenures := h.tenures
  mode := h.mode

theorem trans {s t u : State} (a : Stays s t) (b : Stays t u) : Stays s u where
  service e := (b.service e).trans (a.service e)
  closed hm e he := b.closed (a.mode.trans hm) e (a.closed hm e he)
  permit e := (b.permit e).trans (a.permit e)
  tenures := b.tenures.trans a.tenures
  mode := b.mode.trans a.mode

/-- A change of an exhibit's state, neither into SERVICE nor out of it. -/
theorem changeState {s : State} {e : ExhibitId} {n : ExhibitState} (hs : (s.exhibit e).state ≠ .service)
    (hn : n ≠ .service) (hc : s.mode = .setup → (s.exhibit e).state = .closed → n = .closed) :
    Stays s (changeState e n s) := by
  refine trans ?_ (ofSame (Same.base.emit _ _ _))
  have hx : ∀ k, ((s.modExhibit e fun x => { x with state := n, lastChange := s.clock }).exhibit k).state
      = if k = e then n else (s.exhibit k).state := fun k => by
    by_cases h : k = e
    · subst h; simp
    · rw [modExhibit_exhibit_other _ _ _ _ h, if_neg h]
  constructor
  · intro k
    rw [hx]
    split
    · rename_i h; subst h; exact ⟨fun h => absurd h hn, fun h => absurd h hs⟩
    · exact .rfl
  · intro hm k hk
    rw [hx]
    split
    · rename_i h; subst h; exact hc hm hk
    · exact hk
  · intro k
    exact Undisturbed.entry s.exhibits e k _ Exhibit.permit fun _ => rfl
  · rfl
  · rfl

/-- An update of one exhibit that leaves its state and its permit. -/
theorem exhibit {s : State} {e : ExhibitId} {f : Exhibit → Exhibit}
    (hf : ∀ x, (f x).state = x.state ∧ (f x).permit = x.permit) : Stays s (s.modExhibit e f) where
  service k := by
    have : ((s.modExhibit e f).exhibit k).state = (s.exhibit k).state :=
      Undisturbed.entry s.exhibits e k f Exhibit.state fun x => (hf x).1
    rw [this]
  closed _ k hk := (Undisturbed.entry s.exhibits e k f Exhibit.state fun x => (hf x).1).trans hk
  permit k := Undisturbed.entry s.exhibits e k f Exhibit.permit fun x => (hf x).2
  tenures := rfl
  mode := rfl

/-- The runner takes a frame for an exhibit in use. -/
theorem takeFrame {s : State} {e : ExhibitId}
    (hs : (s.exhibit e).state ≠ .service ∧ (s.exhibit e).state ≠ .closed) : Stays s (takeFrame e s) := by
  unfold Machine.takeFrame
  split
  · exact ofSame (.refl s)
  · rename_i f rest _
    have a : Stays s (s.modExhibit e fun x => { x with active := some f, queue := rest }) :=
      exhibit fun _ => ⟨rfl, rfl⟩
    have b := trans a (ofSame (Same.base.emit [.showQ]
      { kind := .cueStarted, exhibit := some e, subject := some (BitVec.ofNat 8 f.val) } _))
    refine trans (trans b ?_) (ofSame (Same.base.beginGroup f 0 _))
    unfold becomeRunning
    split
    · exact ofSame (.refl _)
    · exact changeState (by simpa using hs.1) (by decide) fun _ hc => absurd (by simpa using hc) hs.2

theorem retireFrame {s : State} (f : FrameId) (e : ExhibitId) (o : CueOutcome) (a : Option AxisId) :
    Stays s (retireFrame f e o a s) := by
  have a : Stays s (s.modExhibit e fun x =>
      { x with active := if x.active = some f then none else x.active, queue := x.queue.filter (· ≠ f) }) :=
    exhibit fun _ => ⟨rfl, rfl⟩
  unfold Machine.retireFrame
  dsimp only
  refine trans ?_ (ofSame (Same.base.emit _ _ _))
  exact ⟨a.service, a.closed, a.permit, rfl, rfl⟩

theorem retireActive {s : State} (e : ExhibitId) (o : CueOutcome) (a : Option AxisId) :
    Stays s (retireActive e o a s) := by
  unfold Machine.retireActive
  split
  · exact ofSame (.refl s)
  · rename_i f _
    refine trans (trans (retireFrame f e o a) (ofSame (Same.base.stopFrameAxes f _))) ?_
    unfold followRetirement
    split
    · rename_i hr
      split
      · exact takeFrame (by rw [hr]; exact ⟨nofun, nofun⟩)
      · exact changeState (by rw [hr]; nofun) (by decide) fun _ hc => by rw [hr] at hc; cases hc
    · exact ofSame (.refl _)

theorem retireQueue {s : State} (e : ExhibitId) : Stays s (retireQueue e s) := by
  unfold Machine.retireQueue forList
  generalize (s.exhibit e).queue = l
  induction l generalizing s with
  | nil => exact ofSame (.refl s)
  | cons f l ih => exact trans (retireFrame f e .cancelled none) ih

/-- The states stay under every move of the floor. -/
theorem floor : Floor Stays where
  toBase := Same.base.widen ofSame trans
  turns s e n h := by
    have hn : n ≠ .service := by rintro rfl; exact h
    have hs : (s.exhibit e).state ≠ .service ∧ ((s.exhibit e).state = .closed → s.mode ≠ .setup) := by
      unfold Turns at h
      cases n <;> simp only at h
      · rcases h with h | h <;> [skip; rcases h with ⟨h | h, hm⟩] <;> simp_all
      · simp [h.1]
      · rcases h with h | h | ⟨h | h, hm⟩ <;> simp_all
    exact changeState hs.1 hn fun hm hc => absurd hm (hs.2 hc)
  takes s e h := takeFrame (by rcases h with h | h <;> simp [h])
  retires s e o a := retireActive e o a
  flushes s e := retireQueue e
  empties s e n o a h := by
    refine trans (trans (changeState ?_ ?_ ?_) (retireActive e o a)) (retireQueue e)
    · rcases h with ⟨-, h⟩ | ⟨-, h | h | h⟩ <;> simp [h]
    · rcases h with ⟨h, -⟩ | ⟨h, -⟩ <;> simp [h]
    · intro _ hc
      rcases h with ⟨h, -⟩ | ⟨-, h⟩
      · exact h
      · rcases h with h | h | h <;> rw [h] at hc <;> cases hc

end Stays

end Sys2Proof.Machine
end

