-- ==== Sys2Proof/Laws/Fields.lean ====
section
/-! SUPPORT. Reading back the fields of a payload (R200), and composing updates of one record. -/

namespace Sys2Proof.Machine

/-! ## Bytes and numbers -/

@[simp] theorem byteAt_cons_zero (b : Byte) (l : List Byte) : byteAt (b :: l) 0 = b.toNat := rfl

@[simp] theorem byteAt_cons_succ (b : Byte) (l : List Byte) (i : Nat) :
    byteAt (b :: l) (i + 1) = byteAt l i := rfl

/-- A word of two bytes. -/
theorem wordAt_eq (p : List Byte) (i : Nat) : wordAt p i = byteAt p i + 256 * byteAt p (i + 1) := rfl

/-- The two bytes of a number read back as the number. -/
theorem word_of_bytes (x : BitVec 16) :
    (BitVec.ofNat 8 x.toNat).toNat + 256 * (BitVec.ofNat 8 (x.toNat / 256)).toNat = x.toNat := by
  simp only [BitVec.toNat_ofNat]
  have := x.isLt
  omega

/-- The byte of an index reads back as the index. -/
theorem byte_of_index {n : Nat} (h : n ≤ 256) (i : Fin n) : (BitVec.ofNat 8 i.val).toNat = i.val := by
  simp only [BitVec.toNat_ofNat]
  have := i.isLt
  omega

/-- An index at the head of a payload reads back. -/
theorem indexAt_head {n : Nat} (h : n ≤ 256) (i : Fin n) (l : List Byte) :
    indexAt n (BitVec.ofNat 8 i.val :: l) 0 = some i := by
  unfold indexAt
  rw [byteAt_cons_zero]
  simp only [byte_of_index h]
  rw [dif_pos i.isLt]

@[simp] theorem exhibitAt_head (e : ExhibitId) (l : List Byte) :
    exhibitAt (num1 e.val ++ l) 0 = some e := indexAt_head (by decide) e l
@[simp] theorem exhibitAt_one (e : ExhibitId) : exhibitAt (num1 e.val) 0 = some e :=
  indexAt_head (by decide) e []
@[simp] theorem lineAt_head (i : LineId) (l : List Byte) : lineAt (num1 i.val ++ l) 0 = some i :=
  indexAt_head (by decide) i l
@[simp] theorem lineAt_one (i : LineId) : lineAt (num1 i.val) 0 = some i := indexAt_head (by decide) i []
@[simp] theorem axisAt_head (a : AxisId) (l : List Byte) : axisAt (num1 a.val ++ l) 0 = some a :=
  indexAt_head (by decide) a l
@[simp] theorem axisAt_one (a : AxisId) : axisAt (num1 a.val) 0 = some a := indexAt_head (by decide) a []
@[simp] theorem channelAt_head (c : ChannelId) (l : List Byte) : channelAt (num1 c.val ++ l) 0 = some c :=
  indexAt_head (by decide) c l
@[simp] theorem frameAt_head (f : FrameId) (l : List Byte) : frameAt (num1 f.val ++ l) 0 = some f :=
  indexAt_head (by decide) f l
@[simp] theorem frameAt_one (f : FrameId) : frameAt (num1 f.val) 0 = some f := indexAt_head (by decide) f []
@[simp] theorem patternAt_head (q : PatternId) (l : List Byte) : patternAt (num1 q.val ++ l) 0 = some q :=
  indexAt_head (by decide) q l

@[simp] theorem length_num1 (n : Nat) : (num1 n).length = 1 := rfl
@[simp] theorem length_num2 (n : Nat) : (num2 n).length = 2 := rfl

/-! ## Composition -/

theorem table_ext {α : Type} {n : Nat} {v w : Vector α n} (h : ∀ i : Fin n, v.get i = w.get i) : v = w := by
  apply Vector.ext
  intro j hj
  simpa [get_as_index] using h ⟨j, hj⟩

theorem modTable_modTable {α : Type} {n : Nat} (v : Vector α n) (i : Fin n) (f g : α → α) :
    modTable (modTable v i f) i g = modTable v i fun x => g (f x) :=
  table_ext fun j => by
    simp only [get_modTable]
    split <;> simp_all

/-- An update that leaves the entry is no update. -/
theorem modTable_same {α : Type} {n : Nat} (v : Vector α n) (i : Fin n) (f : α → α)
    (h : f (v.get i) = v.get i) : modTable v i f = v :=
  table_ext fun j => by
    rw [get_modTable]
    split
    · rename_i e; subst e; exact h
    · rfl

/-- Two updates of an entry that give the same entry are the same. -/
theorem modTable_congr {α : Type} {n : Nat} (v : Vector α n) (i : Fin n) (f g : α → α)
    (h : f (v.get i) = g (v.get i)) : modTable v i f = modTable v i g :=
  table_ext fun j => by
    simp only [get_modTable]
    split
    · rename_i e; subst e; exact h
    · rfl

theorem modExhibit_modExhibit (s : State) (e : ExhibitId) (f g : Exhibit → Exhibit) :
    (s.modExhibit e f).modExhibit e g = s.modExhibit e fun x => g (f x) := by
  simp only [State.modExhibit, modTable_modTable]

theorem modLine_modLine (s : State) (l : LineId) (f g : Line → Line) :
    (s.modLine l f).modLine l g = s.modLine l fun x => g (f x) := by
  simp only [State.modLine, modTable_modTable]

theorem modAxis_modAxis (s : State) (a : AxisId) (f g : Axis → Axis) :
    (s.modAxis a f).modAxis a g = s.modAxis a fun x => g (f x) := by
  simp only [State.modAxis, modTable_modTable]

theorem modChannel_modChannel (s : State) (c : ChannelId) (f g : Channel → Channel) :
    (s.modChannel c f).modChannel c g = s.modChannel c fun x => g (f x) := by
  simp only [State.modChannel, modTable_modTable]

theorem modFrame_modFrame (s : State) (i : FrameId) (f g : CueFrame → CueFrame) :
    (s.modFrame i f).modFrame i g = s.modFrame i fun x => g (f x) := by
  simp only [State.modFrame, modTable_modTable]

theorem modExhibit_congr (s : State) (e : ExhibitId) (f g : Exhibit → Exhibit)
    (h : f (s.exhibit e) = g (s.exhibit e)) : s.modExhibit e f = s.modExhibit e g := by
  simp only [State.modExhibit, modTable_congr _ _ f g h]

theorem modLine_congr (s : State) (l : LineId) (f g : Line → Line) (h : f (s.line l) = g (s.line l)) :
    s.modLine l f = s.modLine l g := by
  simp only [State.modLine, modTable_congr _ _ f g h]

theorem modAxis_congr (s : State) (a : AxisId) (f g : Axis → Axis) (h : f (s.axis a) = g (s.axis a)) :
    s.modAxis a f = s.modAxis a g := by
  simp only [State.modAxis, modTable_congr _ _ f g h]

theorem modChannel_congr (s : State) (c : ChannelId) (f g : Channel → Channel)
    (h : f (s.channel c) = g (s.channel c)) : s.modChannel c f = s.modChannel c g := by
  simp only [State.modChannel, modTable_congr _ _ f g h]

theorem modFrame_congr (s : State) (i : FrameId) (f g : CueFrame → CueFrame)
    (h : f (s.frame i) = g (s.frame i)) : s.modFrame i f = s.modFrame i g := by
  simp only [State.modFrame, modTable_congr _ _ f g h]

/-! ## The conclusion of an event -/

/-- Outside QUIET, with no axis waiting, an event's conclusion changes nothing (R5, R106). -/
theorem conclude_id {s : State} (hq : s.mode ≠ .quiet) (hs : s.arbiter.startQueue = []) :
    conclude s = s := by
  have h : settleTest s = s := by simp [settleTest, hq]
  simp [conclude, h, evaluate, hs, evaluateUpTo]

/-- An event of the floor outside full reset. -/
theorem occur_next {f : State → State} {s : State} (h : s.inReset = false) :
    occur f s = .next (drivePins (f s)) := by
  unfold occur
  rw [if_neg (by simp [h])]

end Sys2Proof.Machine
end

