-- ==== Sys2Proof/Laws/Links.lean ====
section
/-! SUPPORT. The heartbeat timers run while their links are ACTIVE, after every operation of the floor, every
command and every event. -/

namespace Sys2Proof.Machine

/-- A link's timer runs exactly while the link is ACTIVE (R144). -/
def LinkOk (x : LinkRecord) : Prop := x.timer.isSome = true ↔ x.state = .active

/-- A step that leaves both links. -/
theorem Kept.links {s t : State} (h1 : t.showLink = s.showLink) (h2 : t.deskLink = s.deskLink) :
    Kept LinksOk s t := fun hs m => by
  have h := hs m
  cases m <;> simpa [State.link, h1, h2] using h

/-- A step that changes one link. -/
theorem LinksOk.change {s : State} (m : Master) {f : LinkRecord → LinkRecord} (hs : LinksOk s)
    (hf : LinkOk (f (s.link m))) : LinksOk (s.modLink m f) := fun k => by
  have h := hs k
  cases m <;> cases k
  · exact hf
  · exact h
  · exact h
  · exact hf

/-- The links are kept by every move of the floor that leaves them. -/
theorem LinksOk.free : WideFree (Kept LinksOk) where
  refl _ h := h
  trans a b h := b (a h)
  exhibit _ _ _ _ := Kept.links rfl rfl
  line _ _ _ _ := Kept.links rfl rfl
  calm _ _ _ _ := Kept.links rfl rfl
  leaves _ a _ _ := Kept.links (by unfold releaseAxis; split <;> rfl) (by unfold releaseAxis; split <;> rfl)
  joins _ a _ _ := Kept.links (by unfold releaseAxis; split <;> rfl) (by unfold releaseAxis; split <;> rfl)
  granted _ _ _ _ _ _ := Kept.links (by unfold startDrive; split <;> rfl) (by unfold startDrive; split <;> rfl)
  spilled _ _ _ _ _ := Kept.links rfl rfl
  faulted _ _ _ _ _ := Kept.links (by unfold markFaulted releaseAxis; split <;> rfl)
    (by unfold markFaulted releaseAxis; split <;> rfl)
  arbiter _ _ _ := Kept.links rfl rfl
  frame _ _ _ := Kept.links rfl rfl
  annunciators _ _ _ := Kept.links rfl rfl
  replace _ _ _ _ _ := Kept.links rfl rfl
  remove _ _ := Kept.links rfl rfl
  readmit _ _ _ _ _ := Kept.links rfl rfl
  joins_list _ _ _ := Kept.links rfl rfl
  evict _ _ _ _ := Kept.links rfl rfl
  append q _ _ := by cases q <;> exact Kept.links rfl rfl
  noted _ _ := Kept.links rfl rfl
  exhibitAny _ _ _ _ := Kept.links rfl rfl
  lists _ _ _ _ := Kept.links rfl rfl
  channel _ _ _ _ := Kept.links rfl rfl
  scanner _ _ _ := Kept.links rfl rfl
  tenure _ _ _ := Kept.links rfl rfl
  idle _ _ := Kept.links rfl rfl

/-- Two updates of one link. -/
theorem modLink_twice (s : State) (m : Master) (f g : LinkRecord → LinkRecord) :
    (s.modLink m f).modLink m g = s.modLink m fun x => g (f x) := by cases m <;> rfl

/-- The moves of the links keep them good. -/
theorem LinksOk.linked : Linked (Kept LinksOk) where
  hears s m ha hs := hs.change m (by
    have : (s.link m).state = .active := ha
    simp [LinkOk, this])
  wakes s m hs := by
    refine LinksOk.free.emit _ _ _ ?_
    rw [heardLink, modLink_twice]
    exact hs.change m (by simp [LinkOk])
  lapses s m hs := by
    refine LinksOk.free.emit _ _ _ ?_
    rw [modLink_twice]
    exact hs.change m (by simp [LinkOk])

/-- The warm-restart values leave the links. -/
theorem warmBlocks_links (s : State) :
    (warmBlocks s).showLink = s.showLink ∧ (warmBlocks s).deskLink = s.deskLink := by
  constructor <;> simp [warmBlocks, warmPorts, warmTenures, warmAnnunciators, warmAlerts, warmQueues, warmCues,
    warmArbiter, warmAxes, warmChannels, warmLines, warmExhibits, unsettle]

/-- The links are kept by every command. -/
theorem LinksOk.acts : Acts (Kept LinksOk) where
  toWide := LinksOk.free.wide LinksOk.linked
  mode _ _ _ := Kept.links rfl rfl
  rebuilt s hs := by
    obtain ⟨h1, h2⟩ := warmBlocks_links s
    unfold reconfigureHub setMode
    generalize warmBlocks s = t at h1 h2 ⊢
    exact LinksOk.free.emit _ _ _ (Kept.links (by simp [h1]) (by simp [h2]) hs)
  rewarmed s hs := by
    obtain ⟨h1, h2⟩ := warmBlocks_links s
    generalize warmBlocks s = t at h1 h2 ⊢
    exact Kept.links (by simp [warmScanner, stampExhibits, h1]) (by simp [warmScanner, stampExhibits, h2]) hs
  committed _ _ := Kept.links (by simp [warmArbiter, warmChannels, warmLines, warmExhibits, deriveFields])
    (by simp [warmArbiter, warmChannels, warmLines, warmExhibits, deriveFields])
  configures _ _ _ _ := Kept.links rfl rfl
  lineAny _ _ _ := Kept.links rfl rfl
  channelAny _ _ _ := Kept.links rfl rfl
  scannerAny _ _ := Kept.links rfl rfl
  annunciatorsAny _ _ := Kept.links rfl rfl
  axisSet _ _ _ _ _ _ := Kept.links rfl rfl
  timed _ _ _ := Kept.links rfl rfl
  queue _ q _ _ := by cases q <;> exact Kept.links rfl rfl
  spi _ m _ := by cases m <;> exact Kept.links rfl rfl
  uart _ _ := Kept.links rfl rfl
  note _ _ _ := Kept.links rfl rfl
  permits s e b := by
    have a : Kept LinksOk s (s.modExhibit e fun x => { x with permit := b }) := Kept.links rfl rfl
    unfold setPermit
    dsimp only
    split
    · exact LinksOk.free.trans a (LinksOk.free.endTenure e _)
    · exact a
  takesUp _ _ _ _ := Kept.links rfl rfl
  drops _ _ _ := Kept.links rfl rfl
  collects _ _ _ _ := Kept.links rfl rfl
  posts s e f _ := by
    unfold postFrame
    dsimp only
    split
    · intro hs
      refine LinksOk.free.takeFrame e _ ?_
      refine Kept.links ?_ ?_ hs <;> rfl
    · exact Kept.links rfl rfl

/-- A tick keeps a link good. -/
theorem LinkOk.tick {x : LinkRecord} (h : LinkOk x) : LinkOk x.tick := by
  simpa [LinkOk, LinkRecord.tick, tickTimer] using h

/-- The links are kept by every event. -/
theorem LinksOk.steps : Steps (Kept LinksOk) where
  toActs := LinksOk.acts
  serves _ _ _ := LinksOk.free.trans
    (perform_acts LinksOk.acts _ _ _ _ fun e _ _ hm _ _ => LinksOk.free.beginTenure e _ (mode_of_take hm))
    (LinksOk.free.idle _ _)
  pins _ _ := Kept.links rfl rfl
  ticks _ hs m := by
    cases m
    · exact LinkOk.tick (hs .showMaster)
    · exact LinkOk.tick (hs .deskMaster)
  resets _ _ m := by cases m <;> simp [fullResetHub, State.reset, State.link]
  released _ := Kept.links rfl rfl
  accelerated _ _ _ := Kept.links rfl rfl

end Sys2Proof.Machine
end

