-- ==== Sys2Proof/Laws/Loops.lean ====
section
/-! SUPPORT. A loop over the indexes of a table, as a chain of one move for each index. -/

namespace Sys2Proof.Machine

/-- A loop whose body makes a move at each index makes the moves in turn. -/
theorem inTurn_forEach {n : Nat} (f : Fin n → State → State) (move : Fin n → State → State → Prop)
    (h : ∀ i s, move i s (f i s)) (s : State) : InTurn n move s (forEach f s) := by
  refine ⟨fun k => ((List.finRange n).take k).foldl (fun t i => f i t) s, by simp, ?_, ?_⟩
  · show ((List.finRange n).take n).foldl (fun t i => f i t) s = _
    rw [List.take_of_length_le (by simp)]
    rfl
  · intro i
    have hi : i.val < (List.finRange n).length := by simp
    have key : (List.finRange n).take (i.val + 1) = (List.finRange n).take i.val ++ [i] := by
      rw [List.take_add_one, List.getElem?_eq_getElem hi]
      simp
    simp only [key, List.foldl_append, List.foldl_cons, List.foldl_nil]
    exact h _ _

end Sys2Proof.Machine
end

