-- ==== Sys2Proof/Laws/Tenures.lean ====
section
/-! SUPPORT. Tenures stand exactly in SERVICE, on a permit, and the idle timer runs exactly while one is present,
after every operation of the floor, every command and every event. -/

namespace Sys2Proof.Machine

/-- The tenures agree with the exhibits (R152), the idle timer apart. -/
structure ServiceOk (s : State) : Prop where
  service : ∀ e, (s.tenure e).isSome = true ↔ (s.exhibit e).state = .service
  permitted : ∀ e, (s.tenure e).isSome = true → (s.exhibit e).permit = true
  setup : s.mode = .setup → ∀ e, (s.exhibit e).state = .closed

/-- The idle timer runs exactly while a tenure is present (R152). -/
def IdleOk (s : State) : Prop := s.serviceIdle.isSome = true ↔ ∃ e, (s.tenure e).isSome = true

theorem tenuresOk_iff (s : State) : TenuresOk s ↔ ServiceOk s ∧ IdleOk s :=
  ⟨fun h => ⟨⟨h.service, h.permitted, h.setup⟩, h.idle⟩, fun ⟨h, i⟩ => ⟨h.service, h.permitted, i, h.setup⟩⟩

/-! ## Tenures and exhibits -/

namespace ServiceOk

theorem stays {s t : State} (h : Stays s t) (hs : ServiceOk s) : ServiceOk t where
  service e := by
    rw [h.service e, State.tenure, h.tenures]
    exact hs.service e
  permitted e he := by
    rw [State.tenure, h.tenures] at he
    rw [h.permit e]
    exact hs.permitted e he
  setup hm e := h.closed (h.mode ▸ hm) e (hs.setup (h.mode ▸ hm) e)

/-- A step that leaves the exhibits, the tenures and the mode. -/
theorem aside {s t : State} (he : t.exhibits = s.exhibits) (ht : t.tenures = s.tenures) (hm : t.mode = s.mode) :
    Kept ServiceOk s t :=
  stays ⟨fun _ => by simp [State.exhibit, he], fun _ e h => by simpa [State.exhibit, he] using h,
    fun _ => by simp [State.exhibit, he], ht, hm⟩

/-- Every exhibit CLOSED and no tenure. -/
theorem ofClosed {t : State} (he : ∀ e, (t.exhibit e).state = .closed) (ht : ∀ e, t.tenure e = none) :
    ServiceOk t :=
  ⟨fun e => by simp [he, ht], fun e h => by simp [ht] at h, fun _ => he⟩

theorem floor : Floor (Kept ServiceOk) := Stays.floor.widen stays fun a b h => b (a h)

@[simp] theorem setTenure_tenure_same (s : State) (e : ExhibitId) (t : Option Clock) :
    (s.setTenure e t).tenure e = t := get_modTable_same _ _ _

theorem setTenure_tenure_other (s : State) (e : ExhibitId) (t : Option Clock) (k : ExhibitId) (h : k ≠ e) :
    (s.setTenure e t).tenure k = s.tenure k := get_modTable_other _ _ _ _ h

/-- The state and the tenure of an exhibit change together. -/
theorem turn {s : State} (e : ExhibitId) (n : ExhibitState) (v : Option Clock)
    (hs : ∀ k, k ≠ e → ((s.tenure k).isSome = true ↔ (s.exhibit k).state = .service) ∧
      ((s.tenure k).isSome = true → (s.exhibit k).permit = true))
    (hc : s.mode = .setup → ∀ k, k ≠ e → (s.exhibit k).state = .closed) (hn : v.isSome = true ↔ n = .service)
    (hp : v.isSome = true → (s.exhibit e).permit = true) (hm : s.mode = .setup → n = .closed) :
    ServiceOk (changeState e n (s.setTenure e v)) := by
  have hx : ∀ k, (changeState e n (s.setTenure e v)).exhibit k
      = (s.modExhibit e fun x => { x with state := n, lastChange := s.clock }).exhibit k := fun k => emit_exhibit _ _ _ _
  have ht : (changeState e n (s.setTenure e v)).tenures = (s.setTenure e v).tenures :=
    emit_keeps State.tenures (fun q _ _ => by cases q <;> rfl) _ _ _
  refine ⟨fun k => ?_, fun k => ?_, fun h k => ?_⟩
  · rw [hx, State.tenure, ht]
    change ((s.setTenure e v).tenure k).isSome = true ↔ _
    by_cases hk : k = e
    · subst hk; rw [modExhibit_exhibit_same, setTenure_tenure_same]; exact hn
    · rw [modExhibit_exhibit_other _ _ _ _ hk, setTenure_tenure_other _ _ _ _ hk]; exact (hs k hk).1
  · rw [hx, State.tenure, ht]
    change ((s.setTenure e v).tenure k).isSome = true → _
    by_cases hk : k = e
    · subst hk; rw [modExhibit_exhibit_same, setTenure_tenure_same]; exact hp
    · rw [modExhibit_exhibit_other _ _ _ _ hk, setTenure_tenure_other _ _ _ _ hk]; exact (hs k hk).2
  · rw [hx]
    have h' : s.mode = .setup := by simpa using h
    by_cases hk : k = e
    · subst hk; rw [modExhibit_exhibit_same]; exact hm h'
    · rw [modExhibit_exhibit_other _ _ _ _ hk]; exact hc h' k hk

theorem stopIdle {s : State} (hs : ServiceOk s) : ServiceOk (stopIdleTimer s) := by
  unfold stopIdleTimer
  split
  · exact hs
  · exact ⟨hs.service, hs.permitted, hs.setup⟩

theorem reviewed {s : State} (hs : ServiceOk s) : ServiceOk (reviewRegime s) :=
  reviewRegime_by (R := Kept ServiceOk) (fun _ h => h) (fun _ _ _ => aside rfl rfl rfl) s hs

theorem link {s : State} (m : Master) (f : LinkRecord → LinkRecord) (hs : ServiceOk s) :
    ServiceOk (s.modLink m f) := by cases m <;> exact ⟨hs.service, hs.permitted, hs.setup⟩

/-- What ending a tenure does after the change of state. -/
theorem endTenure_of {s : State} (e : ExhibitId)
    (hs : ∀ k, k ≠ e → ((s.tenure k).isSome = true ↔ (s.exhibit k).state = .service) ∧
      ((s.tenure k).isSome = true → (s.exhibit k).permit = true))
    (hc : s.mode = .setup → ∀ k, k ≠ e → (s.exhibit k).state = .closed) : ServiceOk (endTenure e s) := by
  have a := turn e .closed none hs hc (by simp) (by simp) fun _ => rfl
  have b : ServiceOk (closeExhibit e (s.setTenure e none)) :=
    floor.afterEmpty e _ (floor.flushes _ e (floor.retires _ e .cancelled none a))
  exact b.stopIdle.reviewed

theorem endTenure {s : State} (e : ExhibitId) (hs : ServiceOk s) : ServiceOk (endTenure e s) :=
  endTenure_of e (fun k _ => ⟨hs.service k, hs.permitted k⟩) fun hm k _ => hs.setup hm k

theorem endTenures {s : State} (hs : ServiceOk s) : ServiceOk (endTenures s) := by
  have a : ServiceOk (forEach (fun e t => if (t.tenure e).isSome then Machine.endTenure e t else t) s) := by
    refine floor.each (R := Kept ServiceOk) _ (fun e t ht => ?_) s hs
    split
    · exact ht.endTenure e
    · exact ht
  unfold Machine.endTenures
  generalize forEach (fun e t => if (t.tenure e).isSome then Machine.endTenure e t else t) s = u at a ⊢
  exact ⟨a.service, a.permitted, a.setup⟩

/-- A tenure begins on a permit, outside SETUP. -/
theorem beginTenure {s : State} (e : ExhibitId) (hp : (s.exhibit e).permit = true) (hm : s.mode ≠ .setup)
    (hs : ServiceOk s) : ServiceOk (beginTenure e s) := by
  have a := turn e .service (some s.clock) (fun k _ => ⟨hs.service k, hs.permitted k⟩)
    (fun h => absurd h hm) (by simp) (fun _ => hp) fun h => absurd h hm
  have hm' : (changeState e .service (s.setTenure e (some s.clock))).mode ≠ .setup := by
    rw [changeState_mode]; exact hm
  refine reviewed ?_
  unfold enterService
  dsimp only
  by_cases hc : ((s.setTenure e (some s.clock)).exhibit e).state = .closed
  · have b := floor.afterEnter e true _ hm' a
    rw [if_pos rfl] at b
    rw [if_pos hc]
    exact b
  · have b := floor.afterEnter e false _ hm' a
    rw [if_neg (by decide)] at b
    rw [if_neg hc]
    exact b

/-- At the warm-restart values every exhibit is CLOSED and no tenure is present. -/
theorem warmBlocks_closed (s : State) :
    (∀ e, ((warmBlocks s).exhibit e).state = .closed) ∧ ∀ e, (warmBlocks s).tenure e = none := by
  constructor
  · intro e
    simp [warmBlocks, warmPorts, warmTenures, warmAnnunciators, warmAlerts, warmQueues, warmCues, warmArbiter,
      warmAxes, warmChannels, warmLines, warmExhibits, unsettle, State.exhibit, State.modAnnunciators,
      State.modAlerts, Exhibit.warm]
  · intro e
    simp [warmBlocks, warmPorts, warmTenures, State.tenure, get_as_index]

/-- The agreement of tenures and exhibits is kept by every command but the beginning of a tenure. -/
theorem acts : Acts (Kept ServiceOk) where
  toFloor := floor
  toLinked :=
    { hears := fun _ m _ h => h.link m _
      wakes := fun _ m h => floor.emit _ _ _ ((h.link m _).link m _)
      lapses := fun _ m h => floor.emit _ _ _ ((h.link m _).link m _) }
  channel _ _ _ _ := aside rfl rfl rfl
  scanner _ _ _ := aside rfl rfl rfl
  returns s h := by
    have a := floor.list (R := Kept ServiceOk) (fun f t => freeFrame f t) (fun _ _ => aside rfl rfl rfl)
      s.takenSet s h
    exact ⟨a.service, a.permitted, a.setup⟩
  endsTenure _ e h := h.endTenure e
  endsTenures _ h := h.endTenures
  mode _ _ hm h := ⟨h.service, h.permitted, fun he => absurd he hm⟩
  rebuilt s _ := by
    obtain ⟨h1, h2⟩ := warmBlocks_closed s
    unfold reconfigureHub setMode
    generalize warmBlocks s = t at h1 h2 ⊢
    exact floor.emit _ _ _ (ofClosed h1 h2)
  rewarmed s _ := by
    obtain ⟨h1, h2⟩ := warmBlocks_closed s
    generalize warmBlocks s = t at h1 h2 ⊢
    refine ofClosed (fun e => ?_) fun e => ?_
    · simpa [warmScanner, stampExhibits, State.exhibit] using h1 e
    · simpa [warmScanner, stampExhibits, State.tenure] using h2 e
  committed s hm h := by
    refine ofClosed (fun e => ?_) fun e => ?_
    · simp [warmArbiter, warmChannels, warmLines, warmExhibits, State.exhibit, Exhibit.warm]
    · have h1 := h.service e
      rw [h.setup hm e] at h1
      have h2 : s.tenure e = none := by simpa using h1
      simpa [warmArbiter, warmChannels, warmLines, warmExhibits, deriveFields, State.tenure] using h2
  configures s e f hf := stays (Stays.ofSame (Same.exhibit hf))
  lineAny _ _ _ := aside rfl rfl rfl
  channelAny _ _ _ := aside rfl rfl rfl
  scannerAny _ _ := aside rfl rfl rfl
  annunciatorsAny _ _ := aside rfl rfl rfl
  axisSet _ _ _ _ _ _ := aside rfl rfl rfl
  timed _ _ _ := aside rfl rfl rfl
  queue _ q _ _ := by cases q <;> exact aside rfl rfl rfl
  spi _ m _ := by cases m <;> exact aside rfl rfl rfl
  uart _ _ := aside rfl rfl rfl
  note _ _ _ := aside rfl rfl rfl
  permits s e b h := by
    have hx : ∀ k, k ≠ e → (s.modExhibit e fun x => { x with permit := b }).exhibit k = s.exhibit k :=
      fun k hk => modExhibit_exhibit_other _ _ _ _ hk
    unfold setPermit
    dsimp only
    split
    · refine endTenure_of e (fun k hk => ?_) fun hm k hk => ?_
      · rw [hx k hk]; exact ⟨h.service k, h.permitted k⟩
      · rw [hx k hk]; exact h.setup hm k
    · rename_i hb
      have hst : ∀ k, ((s.modExhibit e fun x => { x with permit := b }).exhibit k).state = (s.exhibit k).state :=
        fun k => Undisturbed.entry s.exhibits e k _ Exhibit.state fun _ => rfl
      refine ⟨fun k => ?_, fun k hk => ?_, fun hm k => (hst k).trans (h.setup hm k)⟩
      · rw [hst k]; exact h.service k
      · by_cases he : k = e
        · subst he
          have h1 : (s.exhibit k).state = .service := (h.service k).1 hk
          rw [modExhibit_exhibit_same]
          simpa [inService, h1] using hb
        · rw [hx k he]; exact h.permitted k hk
  takesUp _ _ _ _ := aside rfl rfl rfl
  drops _ _ _ := aside rfl rfl rfl
  collects _ _ _ _ := aside rfl rfl rfl
  posts s e f _ := by
    refine stays ?_
    unfold postFrame
    dsimp only
    have a : Stays s (s.modExhibit e fun x => { x with queue := x.queue ++ [f] }) := Stays.exhibit fun _ => ⟨rfl, rfl⟩
    split
    · rename_i hc
      simp only [Bool.and_eq_true, decide_eq_true_eq] at hc
      refine Stays.trans ?_ (Stays.takeFrame ⟨by rw [hc.1]; nofun, by rw [hc.1]; nofun⟩)
      exact ⟨a.service, a.closed, a.permit, rfl, rfl⟩
    · exact ⟨a.service, a.closed, a.permit, rfl, rfl⟩

/-- The agreement of tenures and exhibits is kept by every event. -/
theorem steps : Steps (Kept ServiceOk) where
  toActs := acts
  serves code p s h := by
    have a := perform_acts acts .servicePort code p s (fun e _ _ hm hp _ h => h.beginTenure e hp (mode_of_take hm)) h
    exact ⟨a.service, a.permitted, a.setup⟩
  pins _ _ := aside rfl rfl rfl
  ticks s h := stays (s := s) (t := clockTick s) ⟨fun e => by simp [clockTick, State.exhibit, Exhibit.tick],
    fun _ e he => by simpa [clockTick, State.exhibit, Exhibit.tick] using he,
    fun e => by simp [clockTick, State.exhibit, Exhibit.tick], rfl, rfl⟩ h
  resets s _ := ofClosed (fun e => by simp [fullResetHub, State.reset, State.exhibit, get_as_index])
    fun e => by simp [fullResetHub, State.reset, State.tenure, get_as_index]
  released _ := aside rfl rfl rfl
  accelerated _ _ _ := aside rfl rfl rfl

end ServiceOk

/-! ## The idle timer -/

/-- A step that leaves the tenures and the idle timer. -/
def SameIdle (s t : State) : Prop := t.tenures = s.tenures ∧ t.serviceIdle = s.serviceIdle

namespace SameIdle

/-- Most moves leave the tenures and the idle timer. -/
theorem free : Free SameIdle where
  refl _ := ⟨rfl, rfl⟩
  trans a b := ⟨b.1.trans a.1, b.2.trans a.2⟩
  exhibit _ _ _ _ := ⟨rfl, rfl⟩
  line _ _ _ _ := ⟨rfl, rfl⟩
  calm _ _ _ _ := ⟨rfl, rfl⟩
  leaves _ a _ _ := by constructor <;> · unfold releaseAxis; split <;> rfl
  joins _ a _ _ := by constructor <;> · unfold releaseAxis; split <;> rfl
  granted _ _ _ _ _ _ := by constructor <;> · unfold startDrive; split <;> rfl
  spilled _ _ _ _ _ := ⟨rfl, rfl⟩
  faulted _ _ _ _ _ := by constructor <;> · unfold markFaulted releaseAxis; split <;> rfl
  arbiter _ _ _ := ⟨rfl, rfl⟩
  frame _ _ _ := ⟨rfl, rfl⟩
  annunciators _ _ _ := ⟨rfl, rfl⟩
  replace _ _ _ _ _ := ⟨rfl, rfl⟩
  remove _ _ := ⟨rfl, rfl⟩
  readmit _ _ _ _ _ := ⟨rfl, rfl⟩
  joins_list _ _ _ := ⟨rfl, rfl⟩
  evict _ _ _ _ := ⟨rfl, rfl⟩
  append q _ _ := by cases q <;> exact ⟨rfl, rfl⟩
  noted _ _ := ⟨rfl, rfl⟩
  exhibitAny _ _ _ _ := ⟨rfl, rfl⟩
  lists _ _ _ _ := ⟨rfl, rfl⟩

theorem reviewed (s : State) : SameIdle s (reviewRegime s) :=
  reviewRegime_by (fun _ => ⟨rfl, rfl⟩) (fun _ _ _ => ⟨rfl, rfl⟩) s

end SameIdle

namespace IdleOk

theorem same {s t : State} (h : SameIdle s t) (hs : IdleOk s) : IdleOk t := by
  simpa only [IdleOk, State.tenure, h.1, h.2] using hs

/-- No tenure and no timer. -/
theorem ofNone {t : State} (hi : t.serviceIdle = none) (ht : ∀ e, t.tenure e = none) : IdleOk t := by
  simp [IdleOk, hi, ht]

theorem anyTenure_iff (s : State) : anyTenure s = true ↔ ∃ e, (s.tenure e).isSome = true := by
  simp [anyTenure]

/-- The timer restarted after a frame follows the tenures (R156). -/
theorem restarted (s : State) : IdleOk (restartIdle s) := by
  have h : (∃ e, ((restartIdle s).tenure e).isSome = true) ↔ ∃ e, (s.tenure e).isSome = true := .rfl
  unfold IdleOk
  rw [h, ← anyTenure_iff]
  unfold restartIdle
  cases anyTenure s <;> simp

/-- What a stop of the timer leaves once a tenure has gone (R155). -/
theorem stopped {s : State} (hs : (∃ e, (s.tenure e).isSome = true) → s.serviceIdle.isSome = true) :
    IdleOk (stopIdleTimer s) := by
  unfold stopIdleTimer
  split
  · rename_i h
    exact ⟨fun _ => (anyTenure_iff s).1 h, hs⟩
  · rename_i hn
    exact ⟨fun h => by simp at h, fun he => absurd ((anyTenure_iff s).2 he) hn⟩

@[simp] theorem stopIdleTimer_tenures (s : State) : (stopIdleTimer s).tenures = s.tenures := by
  unfold stopIdleTimer; split <;> rfl

/-- Ending a tenure ends that one alone. -/
theorem endTenure_tenures (e : ExhibitId) (s : State) :
    (endTenure e s).tenures = (s.setTenure e none).tenures := by
  unfold Machine.endTenure
  rw [(SameIdle.reviewed _).1, stopIdleTimer_tenures, (SameIdle.free.closeExhibit e _).1]

theorem endTenure_tenure (e k : ExhibitId) (s : State) :
    (endTenure e s).tenure k = if k = e then none else s.tenure k := by
  rw [State.tenure, endTenure_tenures]
  change (s.setTenure e none).tenure k = _
  split
  · rename_i h; subst h; exact ServiceOk.setTenure_tenure_same _ _ _
  · rename_i h; exact ServiceOk.setTenure_tenure_other _ _ _ _ h

theorem endTenure {s : State} (e : ExhibitId) (hs : IdleOk s) : IdleOk (endTenure e s) := by
  unfold Machine.endTenure
  have h := SameIdle.free.closeExhibit e (s.setTenure e none)
  generalize closeExhibit e (s.setTenure e none) = u at h ⊢
  refine same (SameIdle.reviewed _) (stopped ?_)
  rintro ⟨k, hk⟩
  rw [h.2]
  rw [State.tenure, h.1] at hk
  refine hs.2 ⟨k, ?_⟩
  by_cases he : k = e
  · subst he
    have := ServiceOk.setTenure_tenure_same s k none
    rw [State.tenure] at this
    rw [this] at hk
    cases hk
  · have := ServiceOk.setTenure_tenure_other s e none k he
    rw [State.tenure] at this
    rwa [this] at hk

/-- After every tenure in a list of exhibits has been ended, those are absent. -/
theorem endAll (l : List ExhibitId) (s : State) (k : ExhibitId) :
    ((l.foldl (fun t e => if (t.tenure e).isSome then Machine.endTenure e t else t) s).tenure k)
      = if k ∈ l then none else s.tenure k := by
  induction l generalizing s with
  | nil => simp
  | cons e l ih =>
    rw [List.foldl_cons, ih]
    by_cases hk : k ∈ l
    · simp [hk]
    · rw [if_neg hk]
      by_cases he : k = e
      · subst he
        rw [if_pos List.mem_cons_self]
        split
        · simp [endTenure_tenure]
        · simpa using (by assumption : ¬ (s.tenure k).isSome = true)
      · have hm : k ∉ e :: l := by simp [he, hk]
        rw [if_neg hm]
        split
        · simp [endTenure_tenure, he]
        · rfl

theorem endTenures (s : State) : IdleOk (endTenures s) := by
  have h := endAll (List.finRange 16) s
  unfold Machine.endTenures forEach
  generalize (List.finRange 16).foldl
    (fun t e => if (t.tenure e).isSome then Machine.endTenure e t else t) s = u at h ⊢
  refine ofNone rfl fun k => ?_
  have hk := h k
  rw [if_pos (List.mem_finRange k)] at hk
  exact hk

/-- The idle timer's agreement is kept by every command but the beginning of a tenure. -/
theorem acts : Acts (Kept IdleOk) where
  toFloor := SameIdle.free.floor.widen same fun a b h => b (a h)
  toLinked :=
    { hears := fun _ m _ => by cases m <;> exact same ⟨rfl, rfl⟩
      wakes := fun _ m => by
        refine same (SameIdle.free.trans ?_ (SameIdle.free.emit _ _ _))
        cases m <;> exact ⟨rfl, rfl⟩
      lapses := fun _ m => by
        refine same (SameIdle.free.trans ?_ (SameIdle.free.emit _ _ _))
        cases m <;> exact ⟨rfl, rfl⟩ }
  channel _ _ _ _ := same ⟨rfl, rfl⟩
  scanner _ _ _ := same ⟨rfl, rfl⟩
  returns s := same (SameIdle.free.trans (SameIdle.free.list (fun f t => freeFrame f t)
    (fun _ _ => ⟨rfl, rfl⟩) s.takenSet s) ⟨rfl, rfl⟩)
  endsTenure _ e h := h.endTenure e
  endsTenures s _ := endTenures s
  mode _ _ _ := same ⟨rfl, rfl⟩
  rebuilt s _ := by
    have h1 := (ServiceOk.warmBlocks_closed s).2
    have h2 : (warmBlocks s).serviceIdle = none := by simp [warmBlocks, warmPorts, warmTenures]
    unfold reconfigureHub setMode
    generalize warmBlocks s = t at h1 h2 ⊢
    exact same (SameIdle.free.emit _ _ _) (ofNone h2 h1)
  rewarmed s _ := by
    have h1 := (ServiceOk.warmBlocks_closed s).2
    have h2 : (warmBlocks s).serviceIdle = none := by simp [warmBlocks, warmPorts, warmTenures]
    generalize warmBlocks s = t at h1 h2 ⊢
    refine ofNone ?_ fun e => ?_
    · simpa [warmScanner, stampExhibits] using h2
    · simpa [warmScanner, stampExhibits, State.tenure] using h1 e
  committed s _ := same ⟨by simp [warmArbiter, warmChannels, warmLines, warmExhibits, deriveFields],
    by simp [warmArbiter, warmChannels, warmLines, warmExhibits, deriveFields]⟩
  configures _ _ _ _ := same ⟨rfl, rfl⟩
  lineAny _ _ _ := same ⟨rfl, rfl⟩
  channelAny _ _ _ := same ⟨rfl, rfl⟩
  scannerAny _ _ := same ⟨rfl, rfl⟩
  annunciatorsAny _ _ := same ⟨rfl, rfl⟩
  axisSet _ _ _ _ _ _ := same ⟨rfl, rfl⟩
  timed _ _ _ := same ⟨rfl, rfl⟩
  queue _ q _ _ := by cases q <;> exact same ⟨rfl, rfl⟩
  spi _ m _ := by cases m <;> exact same ⟨rfl, rfl⟩
  uart _ _ := same ⟨rfl, rfl⟩
  note _ _ _ := same ⟨rfl, rfl⟩
  permits s e b h := by
    have a : IdleOk (s.modExhibit e fun x => { x with permit := b }) := same ⟨rfl, rfl⟩ h
    unfold setPermit
    dsimp only
    split
    · exact a.endTenure e
    · exact a
  takesUp _ _ _ _ := same ⟨rfl, rfl⟩
  drops _ _ _ := same ⟨rfl, rfl⟩
  collects _ _ _ _ := same ⟨rfl, rfl⟩
  posts s e f _ := by
    refine same ?_
    unfold postFrame
    dsimp only
    split
    · refine SameIdle.free.trans ?_ (SameIdle.free.takeFrame e _)
      exact ⟨rfl, rfl⟩
    · exact ⟨rfl, rfl⟩

/-- The idle timer's agreement is kept by every event. -/
theorem steps : Steps (Kept IdleOk) where
  toActs := acts
  serves _ _ _ _ := restarted _
  pins _ _ := same ⟨rfl, rfl⟩
  ticks s h := by simpa [IdleOk, clockTick, tickTimer, State.tenure] using h
  resets s _ := ofNone rfl fun e => by simp [fullResetHub, State.reset, State.tenure, get_as_index]
  released _ := same ⟨rfl, rfl⟩
  accelerated _ _ _ := same ⟨rfl, rfl⟩

end IdleOk

end Sys2Proof.Machine
end

