-- ==== Sys2Proof/Laws/Places.lean ====
section
/-! SUPPORT. Each cue frame stands in exactly one place, and the places of an exhibit follow its state, after every
operation of the floor, every command and every event. -/

namespace Sys2Proof.Machine

/-! ## Counting places -/

/-- An exhibit's state, active frame and cue queue. -/
abbrev Slot := ExhibitState × Option FrameId × List FrameId

/-- The slot of an exhibit. -/
def slot (s : State) (e : ExhibitId) : Slot := ((s.exhibit e).state, (s.exhibit e).active, (s.exhibit e).queue)

/-- The frames a slot holds. -/
def Slot.frames (x : Slot) : List FrameId := x.2.1.toList ++ x.2.2

/-- The places outside the exhibits in which a frame stands. -/
def listed (s : State) (f : FrameId) : Nat :=
  s.freeList.count f + s.takenSet.count f + (s.retiredList.map RetiredRecord.frame).count f

/-- Each frame stands in exactly one place (R118). -/
def Once (s : State) : Prop := ∀ f, listed s f + ∑ e, (slot s e).frames.count f = 1

theorem once_iff (s : State) : Once s ↔ ∀ f, (framePlaces s).count f = 1 := by
  refine forall_congr' fun f => ?_
  have : ((List.finRange 16).flatMap fun e => (s.exhibit e).active.toList ++ (s.exhibit e).queue).count f
      = ∑ e, (slot s e).frames.count f := by
    rw [List.count_flatMap, Fin.sum_univ_def]
    rfl
  simp only [framePlaces, List.count_append, this, listed]

/-- A slot follows its state (R118, R121). -/
structure SlotOk (x : Slot) : Prop where
  running : x.1 = .running → x.2.1.isSome = true
  active : x.2.1.isSome = true → x.1 = .running ∨ x.1 = .held
  queue : x.2.2 ≠ [] → x.1 = .ready ∨ x.1 = .running ∨ x.1 = .held
  capacity : x.2.2.length ≤ 4

/-- In SETUP every exhibit is CLOSED (R2, R209). -/
def SetupOk (s : State) : Prop := s.mode = .setup → ∀ e, (slot s e).1 = .closed

theorem placesOk_iff (s : State) : PlacesOk s ↔ Once s ∧ (∀ e, SlotOk (slot s e)) ∧ SetupOk s :=
  ⟨fun h => ⟨(once_iff s).2 h.places,
    fun e => ⟨h.running e, h.active e, h.queue e, h.capacity e⟩, h.setup⟩,
   fun ⟨h1, h2, h3⟩ => ⟨(once_iff s).1 h1, fun e => (h2 e).running, fun e => (h2 e).active, fun e => (h2 e).queue,
    fun e => (h2 e).capacity, h3⟩⟩

/-! ## Changes of one slot and of the lists -/

/-- A step that leaves the slots of all exhibits but one, and the mode. -/
structure Moves (e : ExhibitId) (s t : State) : Prop where
  others : ∀ k, k ≠ e → slot t k = slot s k
  mode : t.mode = s.mode

/-- A step that leaves the slots, the lists and the mode. -/
structure Still (s t : State) : Prop where
  slots : ∀ k, slot t k = slot s k
  free : t.freeList = s.freeList
  taken : t.takenSet = s.takenSet
  retired : t.retiredList = s.retiredList
  mode : t.mode = s.mode

theorem Still.ofSame {s t : State} (h : Same s t) : Still s t :=
  ⟨fun k => by simp [slot, h.state, h.active, h.queue], h.free, h.taken, h.retired, h.mode⟩

theorem Still.listed {s t : State} (h : Still s t) (f : FrameId) : Machine.listed t f = Machine.listed s f := by
  simp [Machine.listed, h.free, h.taken, h.retired]

theorem Once.still {s t : State} (h : Still s t) (hs : Once s) : Once t := fun f => by
  simp only [h.slots, h.listed]; exact hs f

/-- One slot and the lists change so that each frame stands where it stood, or moves. -/
theorem Once.move {s t : State} {e : ExhibitId} (hm : ∀ k, k ≠ e → slot t k = slot s k)
    (hc : ∀ f, listed t f + (slot t e).frames.count f = listed s f + (slot s e).frames.count f) (hs : Once s) :
    Once t := fun f => by
  have h1 := hs f
  have h2 : ∑ k, (slot t k).frames.count f + (slot s e).frames.count f
      = ∑ k, (slot s k).frames.count f + (slot t e).frames.count f :=
    sum_change (f := fun k => (slot s k).frames.count f) (g := fun k => (slot t k).frames.count f)
      fun k hk => by simp only [hm k hk]
  have h3 := hc f
  omega

/-- A frame stands in a slot at most once, and then in no list. -/
theorem Once.slot_le {s : State} (hs : Once s) (e : ExhibitId) (f : FrameId) :
    listed s f + (slot s e).frames.count f ≤ 1 := by
  have h1 := hs f
  have h2 : (slot s e).frames.count f ≤ ∑ k, (slot s k).frames.count f :=
    Finset.single_le_sum (f := fun k => (slot s k).frames.count f) (fun _ _ => Nat.zero_le _) (Finset.mem_univ e)
  omega

/-- A slot's frames are all different. -/
theorem Once.frames_nodup {s : State} (hs : Once s) (e : ExhibitId) : (slot s e).frames.Nodup :=
  List.nodup_iff_count_le_one.2 fun f => by have := hs.slot_le e f; omega

/-! ## The effects of the cue runner on a slot -/

/-- An update of one exhibit's record, on the slots. -/
theorem slot_modExhibit (s : State) (e k : ExhibitId) (f : Exhibit → Exhibit) :
    slot (s.modExhibit e f) k
      = if k = e then ((f (s.exhibit e)).state, (f (s.exhibit e)).active, (f (s.exhibit e)).queue) else slot s k := by
  unfold slot
  split
  · rename_i h; subst h; rw [modExhibit_exhibit_same]
  · rename_i h; rw [modExhibit_exhibit_other _ _ _ _ h]

/-- A change of state, on the slots. -/
theorem slot_changeState (e k : ExhibitId) (n : ExhibitState) (s : State) :
    slot (changeState e n s) k = if k = e then (n, (slot s e).2) else slot s k := by
  have h := (Still.ofSame (Same.base.emit (exhibitQueues (s.exhibit e).state n)
    { kind := .exhibitState, exhibit := some e, value := some (BitVec.ofNat 16 n.code) }
    (s.modExhibit e fun x => { x with state := n, lastChange := s.clock }))).slots k
  unfold changeState
  rw [h, slot_modExhibit]
  rfl

theorem lists_changeState (e : ExhibitId) (n : ExhibitState) (s : State) (f : FrameId) :
    listed (changeState e n s) f = listed s f :=
  (Still.ofSame (Same.base.emit _ _ _)).listed f

theorem once_changeState {s : State} (e : ExhibitId) (n : ExhibitState) (hs : Once s) : Once (changeState e n s) :=
  hs.move (e := e) (fun k hk => by rw [slot_changeState, if_neg hk]) fun f => by
    rw [lists_changeState, slot_changeState, if_pos rfl]
    rfl

/-- The runner takes the head of a queue, on the slots. -/
theorem slot_takeFrame {s : State} {e : ExhibitId} {f : FrameId} {rest : List FrameId}
    (hq : (s.exhibit e).queue = f :: rest) (k : ExhibitId) :
    slot (takeFrame e s) k = if k = e then (.running, some f, rest) else slot s k := by
  unfold takeFrame
  rw [hq]
  dsimp only
  rw [(Still.ofSame (Same.base.beginGroup f 0 _)).slots k]
  have h1 : ∀ j, slot (emit [.showQ]
      { kind := .cueStarted, exhibit := some e, subject := some (BitVec.ofNat 8 f.val) }
      (s.modExhibit e fun x => { x with active := some f, queue := rest })) j
      = if j = e then ((s.exhibit e).state, some f, rest) else slot s j := fun j => by
    rw [(Still.ofSame (Same.base.emit _ _ _)).slots j, slot_modExhibit]
  unfold becomeRunning
  split
  · rename_i hr
    rw [h1]
    split
    · simp only [emit_exhibit, modExhibit_exhibit_same] at hr
      rw [hr]
    · rfl
  · rw [slot_changeState, h1, h1]
    split <;> simp

theorem lists_takeFrame (e : ExhibitId) (s : State) (f : FrameId) : listed (takeFrame e s) f = listed s f := by
  unfold takeFrame
  split
  · rfl
  · rename_i g rest _
    rw [(Still.ofSame (Same.base.beginGroup g 0 _)).listed]
    unfold becomeRunning
    split
    · exact (Still.ofSame (Same.base.emit _ _ _)).listed f
    · rw [lists_changeState]
      exact (Still.ofSame (Same.base.emit _ _ _)).listed f

/-- The runner takes a frame for an exhibit with none active: each frame stands where it stood. -/
theorem once_takeFrame {s : State} {e : ExhibitId} (ha : (s.exhibit e).active = none) (hs : Once s) :
    Once (takeFrame e s) := by
  cases hq : (s.exhibit e).queue with
  | nil => unfold takeFrame; rw [hq]; exact hs
  | cons f rest =>
    refine hs.move (e := e) (fun k hk => by rw [slot_takeFrame hq, if_neg hk]) fun g => ?_
    rw [lists_takeFrame, slot_takeFrame hq, if_pos rfl]
    simp [Slot.frames, slot, ha, hq]

/-- A frame is retired from an exhibit, on the slots. -/
theorem slot_retireFrame (f : FrameId) (e k : ExhibitId) (o : CueOutcome) (a : Option AxisId) (s : State) :
    slot (retireFrame f e o a s) k
      = if k = e then ((s.exhibit e).state, if (s.exhibit e).active = some f then none else (s.exhibit e).active,
          (s.exhibit e).queue.filter (· ≠ f)) else slot s k := by
  unfold retireFrame
  dsimp only
  rw [(Still.ofSame (Same.base.emit _ _ _)).slots k]
  exact slot_modExhibit s e k _

theorem lists_retireFrame (f : FrameId) (e : ExhibitId) (o : CueOutcome) (a : Option AxisId) (s : State)
    (g : FrameId) : listed (retireFrame f e o a s) g = listed s g + if g = f then 1 else 0 := by
  unfold retireFrame
  dsimp only
  rw [(Still.ofSame (Same.base.emit _ _ _)).listed g]
  have hr : ∀ r : RetiredRecord, ((s.retiredList ++ [r]).map RetiredRecord.frame).count g
      = (s.retiredList.map RetiredRecord.frame).count g + if g = r.frame then 1 else 0 := fun r => by
    rw [List.map_append, List.count_append]
    by_cases h : g = r.frame
    · subst h; simp
    · simp [h, Ne.symm h]
  change s.freeList.count g + s.takenSet.count g + ((s.retiredList ++ [_]).map RetiredRecord.frame).count g = _
  rw [hr]
  unfold listed
  dsimp only
  omega

theorem mode_retireFrame (f : FrameId) (e : ExhibitId) (o : CueOutcome) (a : Option AxisId) (s : State) :
    (retireFrame f e o a s).mode = s.mode := (Stays.retireFrame f e o a).mode

/-- A frame that stands in a slot moves from there to the retired list. -/
theorem once_retireFrame {s : State} {f : FrameId} {e : ExhibitId} (o : CueOutcome) (a : Option AxisId)
    (hf : f ∈ (slot s e).frames) (hs : Once s) : Once (retireFrame f e o a s) := by
  refine hs.move (e := e) (fun k hk => by rw [slot_retireFrame, if_neg hk]) fun g => ?_
  rw [lists_retireFrame, slot_retireFrame, if_pos rfl]
  have h1 := List.count_pos_iff.2 hf
  have h2 := hs.slot_le e f
  simp only [Slot.frames, slot, List.count_append] at h1 h2 ⊢
  by_cases hg : g = f
  · subst hg
    have h3 : ((s.exhibit e).queue.filter (· ≠ g)).count g = 0 := List.count_eq_zero.2 (by simp)
    have h4 : (if (s.exhibit e).active = some g then none else (s.exhibit e).active).toList.count g = 0 := by
      split
      · rfl
      · rename_i hn
        refine List.count_eq_zero.2 fun hx => hn ?_
        simpa using hx
    rw [if_pos rfl]
    omega
  · have h3 : ((s.exhibit e).queue.filter (· ≠ f)).count g = (s.exhibit e).queue.count g :=
      List.count_filter (by simpa using hg)
    have h4 : (if (s.exhibit e).active = some f then none else (s.exhibit e).active).toList.count g
        = (s.exhibit e).active.toList.count g := by
      split
      · rename_i ha
        rw [ha]
        simp [Ne.symm hg]
      · rfl
    rw [if_neg hg]
    omega

/-- The active frame of an exhibit is retired, on the slots. -/
theorem retireActive_spec {s : State} (e : ExhibitId) (o : CueOutcome) (a : Option AxisId) (hs : Once s) :
    Once (retireActive e o a s) ∧ Moves e s (retireActive e o a s) ∧
    ((s.exhibit e).active = none → retireActive e o a s = s) ∧
    ((s.exhibit e).state ≠ .running →
      slot (retireActive e o a s) e = ((s.exhibit e).state, none, (s.exhibit e).queue)) ∧
    (SlotOk (slot s e) → SlotOk (slot (retireActive e o a s) e)) := by
  cases ha : (s.exhibit e).active with
  | none =>
    have he : retireActive e o a s = s := by unfold retireActive; rw [ha]
    rw [he]
    exact ⟨hs, ⟨fun _ _ => rfl, rfl⟩, fun _ => rfl, fun _ => by simp [slot, ha], id⟩
  | some f =>
    have hf : f ∈ (slot s e).frames := by simp [Slot.frames, slot, ha]
    have hn : f ∉ (s.exhibit e).queue := by
      have := hs.frames_nodup e
      simp only [Slot.frames, slot, ha, Option.toList_some, List.singleton_append, List.nodup_cons] at this
      exact this.1
    have hq : (s.exhibit e).queue.filter (· ≠ f) = (s.exhibit e).queue :=
      List.filter_eq_self.2 fun x hx => by
        have : x ≠ f := fun h => hn (h ▸ hx)
        simpa using this
    have h1 := once_retireFrame o a hf hs
    have hst := Still.ofSame (Same.base.stopFrameAxes f (retireFrame f e o a s))
    have h2 := h1.still hst
    have hsl : ∀ k, slot (stopFrameAxes f (retireFrame f e o a s)) k
        = if k = e then ((s.exhibit e).state, none, (s.exhibit e).queue) else slot s k := fun k => by
      rw [hst.slots, slot_retireFrame, hq, ha]
      simp
    have hmode : (stopFrameAxes f (retireFrame f e o a s)).mode = s.mode :=
      hst.mode.trans (mode_retireFrame f e o a s)
    have he : retireActive e o a s = followRetirement e (stopFrameAxes f (retireFrame f e o a s)) := by
      unfold retireActive; rw [ha]
    rw [he]
    generalize stopFrameAxes f (retireFrame f e o a s) = u at h2 hsl hmode ⊢
    have hse : slot u e = ((s.exhibit e).state, none, (s.exhibit e).queue) := by rw [hsl, if_pos rfl]
    have hue : (u.exhibit e).state = (s.exhibit e).state ∧ (u.exhibit e).active = none ∧
        (u.exhibit e).queue = (s.exhibit e).queue := by
      simp only [slot, Prod.mk.injEq] at hse
      exact hse
    have ho : ∀ k, k ≠ e → slot u k = slot s k := fun k hk => by rw [hsl, if_neg hk]
    unfold followRetirement
    split
    · rename_i hr
      split
      · rename_i hc
        have hne : (u.exhibit e).queue ≠ [] := fun h => by simp [canTake, h] at hc
        obtain ⟨g, rest, hg⟩ := List.exists_cons_of_ne_nil hne
        refine ⟨once_takeFrame hue.2.1 h2, ⟨fun k hk => by rw [slot_takeFrame hg, if_neg hk, ho k hk], ?_⟩, nofun,
          fun h => absurd (hue.1.symm.trans hr) h, fun hk => ?_⟩
        · rw [(Stays.takeFrame (by rw [hr]; exact ⟨nofun, nofun⟩)).mode, hmode]
        · rw [slot_takeFrame hg, if_pos rfl]
          have := hk.capacity
          rw [hue.2.2] at hg
          simp only [slot, hg, List.length_cons] at this
          exact ⟨fun _ => rfl, fun _ => .inl rfl, fun _ => .inr (.inl rfl), Nat.le_of_succ_le this⟩
      · refine ⟨once_changeState e _ h2, ⟨fun k hk => by rw [slot_changeState, if_neg hk, ho k hk], ?_⟩, nofun,
          fun h => absurd (hue.1.symm.trans hr) h, fun hk => ?_⟩
        · rw [changeState_mode, hmode]
        · rw [slot_changeState, if_pos rfl, hse]
          exact ⟨nofun, nofun, fun _ => .inl rfl, hk.capacity⟩
    · rename_i hr
      refine ⟨h2, ⟨ho, hmode⟩, nofun, fun _ => hse, fun hk => ?_⟩
      rw [hse]
      exact ⟨fun h => absurd (hue.1.trans h) hr, nofun, hk.queue, hk.capacity⟩

/-- The cue queue of an exhibit is retired, on the slots. -/
theorem retireQueue_spec {s : State} (e : ExhibitId) (hs : Once s) :
    Once (retireQueue e s) ∧ Moves e s (retireQueue e s) ∧
    slot (retireQueue e s) e = ((s.exhibit e).state, (s.exhibit e).active, []) := by
  unfold retireQueue forList
  generalize hl : (s.exhibit e).queue = l
  induction l generalizing s with
  | nil => exact ⟨hs, ⟨fun _ _ => rfl, rfl⟩, by simp [slot, hl]⟩
  | cons f l ih =>
    have hf : f ∈ (slot s e).frames := by simp [Slot.frames, slot, hl]
    have hn := hs.frames_nodup e
    simp only [Slot.frames, slot, hl] at hn
    rw [List.nodup_append] at hn
    obtain ⟨-, h2, h3⟩ := hn
    have hfl : f ∉ l := (List.nodup_cons.1 h2).1
    have ha : (s.exhibit e).active ≠ some f := fun h => h3 f (by simp [h]) f List.mem_cons_self rfl
    have hsl := slot_retireFrame f e e .cancelled none s
    rw [if_pos rfl, if_neg ha, hl, List.filter_cons_of_neg (by simp),
      List.filter_eq_self.2 fun x hx => by
        have : x ≠ f := fun h => hfl (h ▸ hx)
        simpa using this] at hsl
    simp only [slot, Prod.mk.injEq] at hsl
    obtain ⟨i1, i2, i3⟩ := ih (once_retireFrame .cancelled none hf hs) hsl.2.2
    refine ⟨i1, ⟨fun k hk => ?_, i2.mode.trans (mode_retireFrame _ _ _ _ _)⟩, ?_⟩
    · rw [List.foldl_cons, i2.others k hk, slot_retireFrame, if_neg hk]
    · rw [List.foldl_cons, i3, hsl.1, hsl.2.1]

/-- An exhibit is emptied of frames in a state that does not run. -/
theorem emptied_spec {s : State} (e : ExhibitId) {n : ExhibitState} (o : CueOutcome) (a : Option AxisId)
    (hn : n ≠ .running) (hs : Once s) :
    Once (retireQueue e (retireActive e o a (changeState e n s))) ∧
    Moves e s (retireQueue e (retireActive e o a (changeState e n s))) ∧
    slot (retireQueue e (retireActive e o a (changeState e n s))) e = (n, none, []) := by
  have h0 := once_changeState e n hs
  have hst : ((changeState e n s).exhibit e).state = n := by
    have := slot_changeState e e n s
    rw [if_pos rfl] at this
    exact congrArg Prod.fst this
  obtain ⟨h1, h2, -, h3, -⟩ := retireActive_spec e o a h0
  have h3 := h3 (by rw [hst]; exact hn)
  rw [hst] at h3
  obtain ⟨h4, h5, h6⟩ := retireQueue_spec e h1
  simp only [slot, Prod.mk.injEq] at h3
  refine ⟨h4, ⟨fun k hk => ?_, ?_⟩, ?_⟩
  · rw [h5.others k hk, h2.others k hk, slot_changeState, if_neg hk]
  · rw [h5.mode, h2.mode, changeState_mode]
  · rw [h6, h3.1, h3.2.1]

/-! ## The places -/

namespace PlacesOk

theorem once {s : State} (h : PlacesOk s) : Once s := ((placesOk_iff s).1 h).1
theorem slots {s : State} (h : PlacesOk s) (e : ExhibitId) : SlotOk (slot s e) := ((placesOk_iff s).1 h).2.1 e
theorem setupOk {s : State} (h : PlacesOk s) : SetupOk s := ((placesOk_iff s).1 h).2.2

theorem still {s t : State} (h : Still s t) (hs : PlacesOk s) : PlacesOk t :=
  (placesOk_iff t).2 ⟨hs.once.still h, fun e => h.slots e ▸ hs.slots e,
    fun hm e => by rw [h.slots e]; exact hs.setupOk (h.mode ▸ hm) e⟩

/-- One slot moves. -/
theorem moves {s t : State} {e : ExhibitId} (h : Moves e s t) (h1 : Once t) (h2 : SlotOk (slot t e))
    (h3 : s.mode = .setup → (slot t e).1 = .closed) (hs : PlacesOk s) : PlacesOk t := by
  refine (placesOk_iff t).2 ⟨h1, fun k => ?_, fun hm k => ?_⟩
  · by_cases hk : k = e
    · subst hk; exact h2
    · rw [h.others k hk]; exact hs.slots k
  · rw [h.mode] at hm
    by_cases hk : k = e
    · subst hk; exact h3 hm
    · rw [h.others k hk]; exact hs.setupOk hm k

/-- A step that leaves the exhibits, the lists and the mode. -/
theorem aside {s t : State} (he : t.exhibits = s.exhibits) (h1 : t.freeList = s.freeList)
    (h2 : t.takenSet = s.takenSet) (h3 : t.retiredList = s.retiredList) (h5 : t.mode = s.mode) :
    Kept PlacesOk s t :=
  still ⟨fun k => by simp [slot, State.exhibit, he], h1, h2, h3, h5⟩

/-- The same, from a state that is good. -/
theorem beside {s t : State} (hs : PlacesOk s) (he : t.exhibits = s.exhibits) (h1 : t.freeList = s.freeList)
    (h2 : t.takenSet = s.takenSet) (h3 : t.retiredList = s.retiredList) (h5 : t.mode = s.mode) : PlacesOk t :=
  aside he h1 h2 h3 h5 hs

/-- An empty slot follows any state that does not run. -/
theorem emptySlot {n : ExhibitState} (hn : n ≠ .running) : SlotOk (n, none, []) :=
  ⟨fun h => absurd h hn, nofun, fun h => absurd rfl h, Nat.zero_le 4⟩

/-- An exhibit emptied of frames. -/
theorem emptied {s : State} (e : ExhibitId) {n : ExhibitState} (o : CueOutcome) (a : Option AxisId)
    (hn : n ≠ .running) (hc : s.mode = .setup → n = .closed) (hs : PlacesOk s) :
    PlacesOk (retireQueue e (retireActive e o a (changeState e n s))) := by
  obtain ⟨h1, h2, h3⟩ := emptied_spec e o a hn hs.once
  exact hs.moves h2 h1 (h3 ▸ emptySlot hn) fun hm => by rw [h3]; exact hc hm

theorem floor : Floor (Kept PlacesOk) where
  toBase := Same.base.widen (fun h => still (.ofSame h)) fun a b h => b (a h)
  turns s e n ht hs := by
    have hx := hs.slots e
    have hsl := slot_changeState e e n s
    rw [if_pos rfl] at hsl
    refine hs.moves (e := e) ⟨fun k hk => by rw [slot_changeState, if_neg hk], changeState_mode e n s⟩
      (once_changeState e n hs.once) ?_ fun hm => ?_
    · rw [hsl]
      have hemp : (s.exhibit e).state = .closed ∨ (s.exhibit e).state = .faulted →
          (s.exhibit e).active = none ∧ (s.exhibit e).queue = [] := fun h => by
        constructor
        · by_contra hc
          have := hx.active (Option.isSome_iff_ne_none.2 hc)
          rcases h with h | h <;> simp [slot, h] at this
        · by_contra hc
          have := hx.queue hc
          rcases h with h | h <;> simp [slot, h] at this
      cases n with
      | ready =>
        have ha : (s.exhibit e).active = none := by
          rcases ht with ht | ht
          · exact ht.2
          · exact (hemp ht.1).1
        exact ⟨nofun, fun h => (by simp [slot, ha] at h), fun _ => .inl rfl, hx.capacity⟩
      | held => exact ⟨nofun, fun _ => .inr rfl, fun _ => .inr (.inr rfl), hx.capacity⟩
      | running => exact ⟨fun _ => ht.2, fun _ => .inl rfl, fun _ => .inr (.inl rfl), hx.capacity⟩
      | closed => exact ht.elim
      | faulted => exact ht.elim
      | service => exact ht.elim
    · have hc := hs.setupOk hm e
      have := (Stays.floor.turns s e n ht).closed hm e hc
      exact this
  takes s e ht hs := by
    cases hq : (s.exhibit e).queue with
    | nil => unfold takeFrame; rw [hq]; exact hs
    | cons f rest =>
      have hx := hs.slots e
      have ha : (s.exhibit e).active = none := by
        rcases ht with ht | ht
        · by_contra hc
          have := hx.active (Option.isSome_iff_ne_none.2 hc)
          simp only [slot, ht] at this
          rcases this with h | h <;> cases h
        · exact ht.2
      have hne : (s.exhibit e).state ≠ .service ∧ (s.exhibit e).state ≠ .closed := by
        rcases ht with ht | ht <;> simp [ht]
      refine hs.moves (e := e) ⟨fun k hk => by rw [slot_takeFrame hq, if_neg hk], (Stays.takeFrame hne).mode⟩
        (once_takeFrame ha hs.once) ?_ fun hm => absurd (hs.setupOk hm e) hne.2
      rw [slot_takeFrame hq, if_pos rfl]
      have := hx.capacity
      simp only [slot, hq, List.length_cons] at this
      exact ⟨fun _ => rfl, fun _ => .inl rfl, fun _ => .inr (.inl rfl), Nat.le_of_succ_le this⟩
  retires s e o a hs := by
    obtain ⟨h1, h2, -, -, h4⟩ := retireActive_spec e o a hs.once
    exact hs.moves h2 h1 (h4 (hs.slots e)) fun hm => (Stays.retireActive e o a).closed hm e (hs.setupOk hm e)
  flushes s e hs := by
    obtain ⟨h1, h2, h3⟩ := retireQueue_spec e hs.once
    have hx := hs.slots e
    refine hs.moves h2 h1 ?_ fun hm => by rw [h3]; exact hs.setupOk hm e
    rw [h3]
    exact ⟨hx.running, hx.active, fun h => absurd rfl h, Nat.zero_le 4⟩
  empties s e n o a ht hs := by
    refine hs.emptied e o a ?_ fun hm => ?_
    · rcases ht with ⟨h, -⟩ | ⟨h, -⟩ <;> simp [h]
    · have hc := hs.setupOk hm e
      rcases ht with ⟨h, -⟩ | ⟨-, h⟩
      · exact h
      · simp only [slot] at hc
        rw [hc] at h
        rcases h with h | h | h <;> cases h

/-! ## The moves of the commands -/

/-- Frames change place among the lists. -/
theorem relisted {s t : State} (hs : PlacesOk s) (he : t.exhibits = s.exhibits) (hm : t.mode = s.mode)
    (hl : ∀ f, listed t f = listed s f) : PlacesOk t := by
  have hsl : ∀ e, slot t e = slot s e := fun e => by simp [slot, State.exhibit, he]
  refine (placesOk_iff t).2 ⟨fun f => ?_, fun e => hsl e ▸ hs.slots e, fun h e => ?_⟩
  · simp only [hsl, hl]; exact hs.once f
  · rw [hsl]; exact hs.setupOk (hm ▸ h) e

/-- A taken frame stands in the taken set once. -/
theorem taken_count {s : State} (hs : PlacesOk s) {f : FrameId} (hf : f ∈ s.takenSet) : s.takenSet.count f = 1 := by
  have h1 := List.count_pos_iff.2 hf
  have h2 := hs.once f
  simp only [listed] at h2
  omega

/-- The taken set without a frame. -/
theorem count_without (f g : FrameId) (l : List FrameId) :
    (l.filter (· ≠ f)).count g = if g = f then 0 else l.count g := by
  split
  · rename_i h; subst h; exact List.count_eq_zero.2 (by simp)
  · rename_i h; exact List.count_filter (by simpa using h)

/-- The taken set with a frame that was not in it. -/
theorem count_insertTaken (f g : FrameId) : ∀ l : List FrameId, f ∉ l →
    (insertTaken f l).count g = l.count g + if g = f then 1 else 0
  | [], _ => by
    unfold insertTaken
    by_cases h : g = f
    · subst h; simp
    · simp [h, Ne.symm h]
  | k :: l, hf => by
    have hk : f ≠ k := fun h => hf (h ▸ List.mem_cons_self)
    have hl : f ∉ l := fun h => hf (List.mem_cons_of_mem _ h)
    unfold insertTaken
    split
    · by_cases h : g = f
      · subst h; simp
      · simp [h, Ne.symm h]
    · rw [List.count_cons, count_insertTaken f g l hl, List.count_cons]
      omega

/-- Several frames enter the free list, one after another. -/
theorem freeAll (l : List FrameId) (s : State) :
    (forList l (fun f t => freeFrame f t) s).freeList = s.freeList ++ l ∧
    (forList l (fun f t => freeFrame f t) s).retiredList = s.retiredList ∧
    (forList l (fun f t => freeFrame f t) s).exhibits = s.exhibits ∧
    (forList l (fun f t => freeFrame f t) s).mode = s.mode := by
  unfold forList
  induction l generalizing s with
  | nil => simp
  | cons f l ih =>
    obtain ⟨h1, h2, h3, h4⟩ := ih (freeFrame f s)
    exact ⟨by rw [List.foldl_cons, h1]; simp [freeFrame], h2, h3, h4⟩

theorem returns {s : State} (hs : PlacesOk s) : PlacesOk (returnTaken s) := by
  obtain ⟨h1, h2, h3, h4⟩ := freeAll s.takenSet s
  refine hs.relisted h3 h4 fun f => ?_
  simp only [listed, returnTaken]
  rw [h1, h2, List.count_append]
  simp

theorem takesUp {s : State} {f : FrameId} {rest : List FrameId} (hf : s.freeList = f :: rest) (hs : PlacesOk s) :
    PlacesOk { s with freeList := rest, takenSet := insertTaken f s.takenSet } := by
  refine hs.relisted rfl rfl fun g => ?_
  have hn : f ∉ s.takenSet := fun h => by
    have h1 := List.count_pos_iff.2 h
    have h2 := hs.once f
    simp only [listed, hf, List.count_cons_self] at h2
    omega
  simp only [listed, hf, List.count_cons]
  rw [count_insertTaken f g _ hn]
  by_cases h : g = f
  · subst h; simp; omega
  · simp [h, Ne.symm h]

theorem drops {s : State} {f : FrameId} (hf : f ∈ s.takenSet) (hs : PlacesOk s) : PlacesOk (dropFrame f s) := by
  refine hs.relisted rfl rfl fun g => ?_
  have h1 := hs.taken_count hf
  change (s.freeList ++ [f]).count g + (s.takenSet.filter (· ≠ f)).count g
    + (s.retiredList.map RetiredRecord.frame).count g
    = s.freeList.count g + s.takenSet.count g + (s.retiredList.map RetiredRecord.frame).count g
  rw [List.count_append, count_without]
  by_cases h : g = f
  · subst h; simp [h1]
  · simp [h, Ne.symm h]

theorem collects {s : State} {r : RetiredRecord} {rest : List RetiredRecord} (hr : s.retiredList = r :: rest)
    (hs : PlacesOk s) : PlacesOk (freeFrame r.frame { s with retiredList := rest }) := by
  refine hs.relisted rfl rfl fun g => ?_
  simp only [listed, hr, List.map_cons, List.count_cons]
  change (s.freeList ++ [r.frame]).count g + s.takenSet.count g + (rest.map RetiredRecord.frame).count g = _
  rw [List.count_append]
  by_cases h : g = r.frame
  · subst h; simp; omega
  · simp [Ne.symm h]

/-- What CUE-POST's checks say of the slot and the frame (R125). -/
theorem of_postFault {s : State} {e : ExhibitId} {f : FrameId} (h : postFault s e f = none) :
    f ∈ s.takenSet ∧ (s.exhibit e).state.takesPosts = true ∧ (s.exhibit e).queue.length < 4 := by
  unfold postFault at h
  split at h
  · cases h
  · split at h
    · cases h
    · rename_i hf
      split at h
      · cases h
      · rename_i ht
        split at h
        · cases h
        · split at h
          · rename_i hq
            exact ⟨Decidable.not_not.mp hf, by simpa using ht, hq⟩
          · cases h

theorem posts {s : State} {e : ExhibitId} {f : FrameId} (h : postFault s e f = none) (hs : PlacesOk s) :
    PlacesOk (postFrame e f s) := by
  obtain ⟨hf, ht, hq⟩ := of_postFault h
  have hx := hs.slots e
  have h1 := hs.taken_count hf
  unfold postFrame
  dsimp only
  generalize hu : (({ s with takenSet := s.takenSet.filter (· ≠ f) }).modFrame f fun x =>
    { x with exhibit := some e, run := x.steps.map fun _ => {} }).modExhibit e
      (fun x => { x with queue := x.queue ++ [f] }) = u
  have hsl : ∀ k, slot u k = if k = e then ((s.exhibit e).state, (s.exhibit e).active, (s.exhibit e).queue ++ [f])
      else slot s k := fun k => by subst hu; exact slot_modExhibit s e k _
  have hse : slot u e = ((s.exhibit e).state, (s.exhibit e).active, (s.exhibit e).queue ++ [f]) := by
    rw [hsl, if_pos rfl]
  have hl : ∀ g, listed u g = s.freeList.count g + (s.takenSet.filter (· ≠ f)).count g
      + (s.retiredList.map RetiredRecord.frame).count g := fun g => by subst hu; rfl
  have hm : u.mode = s.mode := by subst hu; rfl
  have hst : (s.exhibit e).state = .ready ∨ (s.exhibit e).state = .running ∨ (s.exhibit e).state = .held := by
    revert ht
    cases (s.exhibit e).state <;> simp [ExhibitState.takesPosts]
  have a : PlacesOk u := by
    refine hs.moves (e := e) ⟨fun k hk => by rw [hsl, if_neg hk], hm⟩ (hs.once.move (e := e)
      (fun k hk => by rw [hsl, if_neg hk]) fun g => ?_) ?_ fun hm => ?_
    · rw [hl, hse, count_without]
      simp only [Slot.frames, slot, listed, List.count_append]
      by_cases hg : g = f
      · subst hg; simp [h1]; omega
      · simp [hg, Ne.symm hg]
    · rw [hse]
      refine ⟨hx.running, hx.active, fun _ => hst, ?_⟩
      simp only [List.length_append, List.length_singleton]
      omega
    · have := hs.setupOk hm e
      simp only [slot] at this
      rw [this] at hst
      rcases hst with h | h | h <;> cases h
  split
  · rename_i hc
    simp only [Bool.and_eq_true, decide_eq_true_eq] at hc
    exact floor.takes u e (.inl hc.1) a
  · exact a

/-- No frame in any exhibit, and every frame free. -/
theorem ofEmpty {t : State} (he : ∀ e, slot t e = (.closed, none, [])) (h1 : t.freeList = List.finRange 48)
    (h2 : t.takenSet = []) (h3 : t.retiredList = []) : PlacesOk t := by
  refine (placesOk_iff t).2 ⟨fun f => ?_, fun e => he e ▸ emptySlot (by decide), fun _ e => by rw [he]⟩
  simp only [he, listed, h1, h2, h3, Slot.frames]
  simp [List.count_eq_one_of_mem (List.nodup_finRange 48) (List.mem_finRange f)]

/-- The exhibits' records with no frames, in SETUP. -/
theorem ofSetup {s t : State} (he : ∀ e, slot t e = (.closed, none, [])) (h1 : t.freeList = s.freeList)
    (h2 : t.takenSet = s.takenSet) (h3 : t.retiredList = s.retiredList) (hm : s.mode = .setup) (hs : PlacesOk s) :
    PlacesOk t := by
  have hsl : ∀ e, slot t e = slot s e := fun e => by
    rw [he]
    have hx := hs.slots e
    have hc := hs.setupOk hm e
    have ha : (s.exhibit e).active = none := by
      by_contra h
      have := hx.active (Option.isSome_iff_ne_none.2 h)
      rw [hc] at this
      rcases this with h | h <;> cases h
    have hq : (s.exhibit e).queue = [] := by
      by_contra h
      have := hx.queue h
      rw [hc] at this
      rcases this with h | h | h <;> cases h
    simp only [slot] at hc ⊢
    rw [hc, ha, hq]
  refine (placesOk_iff t).2 ⟨fun f => ?_, fun e => hsl e ▸ hs.slots e, fun _ e => by rw [he]⟩
  simp only [hsl, listed, h1, h2, h3]
  exact hs.once f

theorem warmBlocks_slots (s : State) : (∀ e, slot (warmBlocks s) e = (.closed, none, [])) ∧
    (warmBlocks s).freeList = List.finRange 48 ∧ (warmBlocks s).takenSet = [] ∧
    (warmBlocks s).retiredList = [] := by
  refine ⟨fun e => ?_, ?_, ?_, ?_⟩ <;> simp [slot, warmBlocks, warmPorts, warmTenures, warmAnnunciators, warmAlerts,
    warmQueues, warmCues, warmArbiter, warmAxes, warmChannels, warmLines, warmExhibits, unsettle, State.exhibit,
    State.modAnnunciators, State.modAlerts, Exhibit.warm]

/-- Ending a tenure empties its exhibit. -/
theorem endTenure {s : State} (e : ExhibitId) (hs : PlacesOk s) : PlacesOk (endTenure e s) := by
  have a : PlacesOk (s.setTenure e none) := hs.beside rfl rfl rfl rfl rfl
  have b := floor.afterEmpty e _ (a.emptied e .cancelled none (n := .closed) (by decide) fun _ => rfl)
  unfold Machine.endTenure
  change PlacesOk (closeExhibit e (s.setTenure e none)) at b
  generalize closeExhibit e (s.setTenure e none) = u at b ⊢
  refine reviewRegime_by (R := Kept PlacesOk) (fun _ h => h) (fun _ _ _ => aside rfl rfl rfl rfl rfl) _ ?_
  unfold stopIdleTimer
  split
  · exact b
  · exact b.beside rfl rfl rfl rfl rfl

theorem endTenures {s : State} (hs : PlacesOk s) : PlacesOk (endTenures s) := by
  have a : PlacesOk (forEach (fun e t => if (t.tenure e).isSome then Machine.endTenure e t else t) s) := by
    refine floor.each (R := Kept PlacesOk) _ (fun e t ht => ?_) s hs
    split
    · exact ht.endTenure e
    · exact ht
  unfold Machine.endTenures
  generalize forEach (fun e t => if (t.tenure e).isSome then Machine.endTenure e t else t) s = u at a ⊢
  exact a.beside rfl rfl rfl rfl rfl

/-- A tenure begins from CLOSED or FAULTED, outside SETUP. -/
theorem beginTenure {s : State} (e : ExhibitId) (ht : (s.exhibit e).state.takesTenure = true)
    (hm : s.mode ≠ .setup) (hs : PlacesOk s) : PlacesOk (beginTenure e s) := by
  have a0 : PlacesOk (s.setTenure e (some s.clock)) := hs.beside rfl rfl rfl rfl rfl
  have hx := a0.slots e
  have hsl := slot_changeState e e .service (s.setTenure e (some s.clock))
  rw [if_pos rfl] at hsl
  have hst : (s.exhibit e).state = .closed ∨ (s.exhibit e).state = .faulted := by
    revert ht
    cases (s.exhibit e).state <;> simp [ExhibitState.takesTenure]
  have hemp : slot (changeState e .service (s.setTenure e (some s.clock))) e = (.service, none, []) := by
    have ha : ((s.setTenure e (some s.clock)).exhibit e).active = none := by
      by_contra h
      have := hx.active (Option.isSome_iff_ne_none.2 h)
      change (s.exhibit e).state = _ ∨ (s.exhibit e).state = _ at this
      rcases hst with h | h <;> rw [h] at this <;> simp at this
    have hq : ((s.setTenure e (some s.clock)).exhibit e).queue = [] := by
      by_contra h
      have := hx.queue h
      change (s.exhibit e).state = _ ∨ (s.exhibit e).state = _ ∨ (s.exhibit e).state = _ at this
      rcases hst with h | h <;> rw [h] at this <;> simp at this
    rw [hsl]
    simp only [slot, ha, hq]
  have a : PlacesOk (changeState e .service (s.setTenure e (some s.clock))) :=
    a0.moves (e := e) ⟨fun k hk => by rw [slot_changeState, if_neg hk], changeState_mode _ _ _⟩
      (once_changeState e _ a0.once) (by rw [hemp]; exact emptySlot (by decide)) fun h => absurd h hm
  have hm' : (changeState e .service (s.setTenure e (some s.clock))).mode ≠ .setup := by
    rw [changeState_mode]; exact hm
  refine reviewRegime_by (R := Kept PlacesOk) (fun _ h => h) (fun _ _ _ => aside rfl rfl rfl rfl rfl) _ ?_
  unfold enterService
  dsimp only
  by_cases hc : ((s.setTenure e (some s.clock)).exhibit e).state = .closed
  · have b := floor.afterEnter e true _ hm' a
    rw [if_pos rfl] at b
    rw [if_pos hc]
    exact b
  · have b := floor.afterEnter e false _ hm' a
    rw [if_neg (by decide)] at b
    rw [if_neg hc]
    exact b

theorem link {s : State} (m : Master) (f : LinkRecord → LinkRecord) (hs : PlacesOk s) :
    PlacesOk (s.modLink m f) := by cases m <;> exact hs.beside rfl rfl rfl rfl rfl

/-- The places are kept by every command. -/
theorem acts : Acts (Kept PlacesOk) where
  toFloor := floor
  toLinked :=
    { hears := fun _ m _ h => h.link m _
      wakes := fun _ m h => floor.emit _ _ _ ((h.link m _).link m _)
      lapses := fun _ m h => floor.emit _ _ _ ((h.link m _).link m _) }
  channel _ _ _ _ := aside rfl rfl rfl rfl rfl
  scanner _ _ _ := aside rfl rfl rfl rfl rfl
  returns _ h := h.returns
  endsTenure _ e h := h.endTenure e
  endsTenures _ h := h.endTenures
  mode _ _ hm h := (placesOk_iff _).2 ⟨h.once, h.slots, fun he => absurd he hm⟩
  rebuilt s _ := by
    obtain ⟨h1, h2, h3, h4⟩ := warmBlocks_slots s
    unfold reconfigureHub setMode
    generalize warmBlocks s = t at h1 h2 h3 h4 ⊢
    exact floor.emit _ _ _ (ofEmpty h1 h2 h3 h4)
  rewarmed s _ := by
    obtain ⟨h1, h2, h3, h4⟩ := warmBlocks_slots s
    generalize warmBlocks s = t at h1 h2 h3 h4 ⊢
    refine ofEmpty (fun e => ?_) ?_ ?_ ?_
    · have := h1 e
      simpa [warmScanner, stampExhibits, slot, State.exhibit] using this
    all_goals simpa [warmScanner, stampExhibits] using by assumption
  committed s hm h := by
    refine h.ofSetup (fun e => ?_) ?_ ?_ ?_ hm
    · simp [slot, warmArbiter, warmChannels, warmLines, warmExhibits, State.exhibit, Exhibit.warm]
    all_goals simp [warmArbiter, warmChannels, warmLines, warmExhibits, deriveFields]
  configures s e f hf := still (.ofSame (Same.exhibit hf))
  lineAny _ _ _ := aside rfl rfl rfl rfl rfl
  channelAny _ _ _ := aside rfl rfl rfl rfl rfl
  scannerAny _ _ := aside rfl rfl rfl rfl rfl
  annunciatorsAny _ _ := aside rfl rfl rfl rfl rfl
  axisSet _ _ _ _ _ _ := aside rfl rfl rfl rfl rfl
  timed _ _ _ := aside rfl rfl rfl rfl rfl
  queue _ q _ _ := by cases q <;> exact aside rfl rfl rfl rfl rfl
  spi _ m _ := by cases m <;> exact aside rfl rfl rfl rfl rfl
  uart _ _ := aside rfl rfl rfl rfl rfl
  note _ _ _ := aside rfl rfl rfl rfl rfl
  permits s e b h := by
    have a : PlacesOk (s.modExhibit e fun x => { x with permit := b }) :=
      still (s := s) ⟨fun k => by rw [slot_modExhibit]; split <;> simp_all [slot], rfl, rfl, rfl, rfl⟩ h
    unfold setPermit
    dsimp only
    split
    · exact a.endTenure e
    · exact a
  takesUp _ _ _ hf h := h.takesUp hf
  drops _ _ hf h := h.drops hf
  collects _ _ _ hr h := h.collects hr
  posts _ _ _ hp h := h.posts hp

/-- The places are kept by every event. -/
theorem steps : Steps (Kept PlacesOk) where
  toActs := acts
  serves code p s h := by
    have a := perform_acts acts .servicePort code p s (fun e _ _ hm _ ht h => h.beginTenure e ht (mode_of_take hm)) h
    exact a.beside rfl rfl rfl rfl rfl
  pins _ _ := aside rfl rfl rfl rfl rfl
  ticks s h := still (s := s) (t := clockTick s)
    ⟨fun k => by simp [clockTick, slot, State.exhibit, Exhibit.tick], rfl, rfl, rfl, rfl⟩ h
  resets s _ := ofEmpty (fun e => by simp [fullResetHub, State.reset, slot, State.exhibit, get_as_index]) rfl rfl rfl
  released _ := aside rfl rfl rfl rfl rfl
  accelerated _ _ _ := aside rfl rfl rfl rfl rfl

end PlacesOk

end Sys2Proof.Machine
end

