-- ==== Sys2Proof/WellFormed.lean ====
section
/-! DEFINITION. What the operands of a command must satisfy for the command to be the row it stands for. -/

namespace Sys2Proof

open Machine

/-- A payload fits its length field (R197). -/
def payloadFits (p : List Byte) : Bool := p.length ≤ 200

/-- A code that no command has, and that does not begin a collect transaction (R195, R196, R199). -/
def codeUnknown (port : Port) (code : Byte) : Bool :=
  (Command.ofCode code).isNone && (port = .servicePort || code ≠ 0xFF)

/-- Bytes that arrive at a port as one frame which fails the tests of R198: at an SPI port the bytes of a
command transaction, at the service port a frame whose byte count its length field has fixed. -/
def frameFails (port : Port) (bytes : List Byte) : Bool :=
  match port with
  | .showPort | .deskPort => !bytes.isEmpty && bytes.head? ≠ some 0xFF && (frameFault bytes).isSome
  | .servicePort => frameFault bytes = some .badCheck

/-- The bytes of a collect transaction count its first byte (R195). -/
def collects (clocked : Nat) : Bool := 1 ≤ clocked

/-- Whether the operands of a command are those its row admits. -/
def Instr.wellFormed : Instr → Bool
  | .unknownCommand port code _ p => codeUnknown port code && payloadFits p
  | .frameCheckFailure port bytes => frameFails port bytes
  | .collectTransaction _ clocked => collects clocked
  | .heartbeat _ _ p | .eventRead _ _ p | .attentionRead _ _ p | .attentionMask _ _ p
  | .noteWrite _ _ p | .noteRead _ _ p | .galleryOpen _ _ p | .galleryQuiet _ _ p
  | .galleryClose _ _ p | .restart _ _ p | .exhibitOpen _ _ p | .exhibitClose _ _ p
  | .exhibitHold _ _ p | .exhibitRelease _ _ p | .faultClear _ _ p | .exhibitStatus _ _ p
  | .lineEnable _ _ p | .lineDisable _ _ p | .lineStatus _ _ p | .scanList _ _ p
  | .scanOnce _ _ p | .scanLimits _ _ p | .senseRead _ _ p | .jog _ _ p | .axisStatus _ _ p
  | .budgetStatus _ _ p | .frameTake _ _ p | .frameWrite _ _ p | .frameDrop _ _ p
  | .cuePost _ _ p | .cueCancel _ _ p | .cueFlush _ _ p | .cueResult _ _ p | .cueStatus _ _ p
  | .servicePermit _ _ p | .serviceRevoke _ _ p | .exhibitTake _ _ p | .exhibitGive _ _ p
  | .linkStatus _ _ p | .alertAck _ _ p | .alertClear _ _ p | .alertRaise _ _ p
  | .alertList _ _ p | .chime _ _ p | .silence _ _ p | .lampTest _ _ p | .configExhibit _ _ p
  | .configLine _ _ p | .configAxis _ _ p | .configChannel _ _ p | .configScan _ _ p
  | .configTiming _ _ p | .configTone _ _ p | .configCommit _ _ p
  | .reconfigure _ _ p => payloadFits p
  | .uartLengthFieldTooLarge _ | .uartGapTimeout | .uartStopBitFault | .uartDiscardEnd
  | .uartResponseSent | .uartByteReceived _ | .fullReset | .resetRelease | .lineSample _ _
  | .waitReleaseCleared _ | .pressTaken _ | .releaseTaken _ | .lineStuck _ _ | .stuckRelease _
  | .conversionComplete _ | .warmUpExpiry | .paceTimerExpiry | .closedPaceExpiry
  | .accelerationTimerExpiry _ | .feedbackTimeout _ | .travelTimerExpiry _ | .settleTimerExpiry _
  | .guardReleaseExpiry _ | .guardLongExpiry _ | .dwellExpiry _ _ | .pauseExpiry _ _
  | .pressTimeout _ _ | .heartbeatTimerExpiry _ | .serviceIdleExpiry | .sagHoldExpiry
  | .alertLevelReached _ | .toneNoteEnd | .silenceTimerExpiry | .lampTestExpiry
  | .galleryClockTick => true

end Sys2Proof
end

