-- ==== Sys2Proof/Tests/Slice0.lean ====
section
/-! SUPPORT. Tests of the model: ill-formed commands, single commands on small states, and for each
statement with hypotheses states and operands that meet them, clause by clause and at the ends of ranges. -/

namespace Sys2Proof.Tests

open Machine

set_option Elab.async false

/-! ## Ill-formed commands are refused -/

theorem test_wellFormed_longPayload :
    Instr.wellFormed (.heartbeat .showPort 0 (List.replicate 201 0)) = false := by decide +kernel

theorem test_wellFormed_fullPayload :
    Instr.wellFormed (.heartbeat .showPort 0 (List.replicate 200 0)) = true := by decide +kernel

theorem test_wellFormed_knownCode : Instr.wellFormed (.unknownCommand .showPort 0x01 0 []) = false := by
  decide +kernel

theorem test_wellFormed_collectCode : Instr.wellFormed (.unknownCommand .deskPort 0xFF 0 []) = false := by
  decide +kernel

theorem test_wellFormed_unknownLong :
    Instr.wellFormed (.unknownCommand .servicePort 0x77 0 (List.replicate 201 0)) = false := by decide +kernel

theorem test_wellFormed_wholeFrame :
    Instr.wellFormed (.frameCheckFailure .showPort [0x01, 0x00, 0x00, 0x00, 0x16]) = false := by
  decide +kernel

theorem test_wellFormed_noBytes : Instr.wellFormed (.frameCheckFailure .showPort []) = false := by
  decide +kernel

theorem test_wellFormed_collectByte :
    Instr.wellFormed (.frameCheckFailure .deskPort [0xFF, 0x00]) = false := by decide +kernel

theorem test_wellFormed_serviceLength :
    Instr.wellFormed (.frameCheckFailure .servicePort [0x01, 0x00]) = false := by decide +kernel

theorem test_wellFormed_serviceCheck :
    Instr.wellFormed (.frameCheckFailure .servicePort [0x01, 0x00, 0x00, 0x00, 0x17]) = true := by
  decide +kernel

theorem test_wellFormed_collectNothing : Instr.wellFormed (.collectTransaction .showMaster 0) = false := by
  decide +kernel

theorem test_decodeTableWord (n w : Nat) : decodeTableWord n w = none := rfl

/-! ## Small states -/

/-- The state after reset in a gallery mode. -/
def gallery (m : GalleryMode) : State := { State.reset with mode := m }

/-- A gallery in a mode with one exhibit as given. -/
def one (m : GalleryMode) (e : ExhibitId) (x : Exhibit) : State := (gallery m).modExhibit e fun _ => x

/-- What a result holds for the show port. -/
def showReply : Result → Option Response
  | .next t => t.showSpi.held
  | .fault _ => none
  | .refused _ => none

/-- What a result holds for the desk port. -/
def deskReply : Result → Option Response
  | .next t => t.deskSpi.held
  | .fault _ => none
  | .refused _ => none

/-- A reading of the state after a result. -/
def reading {α : Type} (f : State → α) : Result → Option α
  | .next t => some (f t)
  | .fault _ => none
  | .refused _ => none

/-! ## Single commands -/

/-- The story of one exchange: a HEARTBEAT at the show port after reset. -/
theorem test_heartbeat :
    showReply (exec (.heartbeat .showPort 0x2A []) State.reset)
      = some ⟨0x2A, .ok, [0, 0xD0, 0x07, 0, 0, 0, 0]⟩ := by decide +kernel

theorem test_eventRead_empty :
    showReply (exec (.eventRead .showPort 1 [8]) State.reset) = some ⟨1, .ok, [0, 0, 0]⟩ := by decide +kernel

theorem test_wrongMode :
    deskReply (exec (.galleryOpen .deskPort 3 []) State.reset) = some ⟨3, .wrongMode, []⟩ := by decide +kernel

theorem test_frameWrite :
    let s := { gallery .opened with freeList := [], takenSet := [7] }
    let p : List Byte := [7, 2, 1, 6, 11, 8, 0xFF, 0x0F, 0x60, 0xEA, 3, 5, 63, 0, 0, 0, 1, 0]
    reading (fun t => (t.frame 7).steps) (exec (.frameWrite .showPort 0 p) s)
      = some [⟨false, .move 11 4095 (some 8) (some 60000)⟩, ⟨true, .waitPress 63 (some 1)⟩] := by
  decide +kernel

theorem test_configLine :
    let p : List Byte := [63, 1, 15, 1, 1, 1, 100, 0x88, 0x13, 120]
    reading (fun t => t.line 63) (exec (.configLine .servicePort 0 p) State.reset)
      = some { exhibit := some 15, role := some .help, activeLevel := .high, debounce := 100
               repeatGuard := 5000, stuckTime := 120 } := by decide +kernel

theorem test_noteWrite :
    reading (fun t => (t.note 3, t.deskSpi.edges.noteIn, t.showSpi.held))
        (exec (.noteWrite .showPort 9 [3, 0xAA]) State.reset)
      = some (some ⟨[0xAA], 0⟩, true, some ⟨9, .ok, [3, 0, 0, 0, 0]⟩) := by decide +kernel

theorem test_collect :
    reading (fun t => (t.showSpi.dataOut, t.showSpi.held)) (exec (.collectTransaction .showMaster 7) State.reset)
      = some ([0x00, 0x11, 0x00, 0x00, 0xC9, 0xFF], none) := by decide +kernel

theorem test_tick_lastMoment :
    reading (fun t => (t.clock, t.annunciators.flash))
        (exec .galleryClockTick { State.reset with
          clock := 0xFFFFFFFF, annunciators := { State.reset.annunciators with flash := 999 } })
      = some (0, 0) := by decide +kernel

/-! ## Hypotheses that are met -/

theorem witness_StepRunsFrontCommand : State.reset.pending = [] ∧ step State.reset = .next State.reset :=
  ⟨rfl, rfl⟩

theorem witness_PinsFollowKept : PinsFollow State.reset ∧ step State.reset = .next State.reset :=
  ⟨by unfold PinsFollow; decide +kernel, rfl⟩

theorem witness_DrivesOkKept : DrivesOk State.reset ∧ step State.reset = .next State.reset :=
  ⟨by unfold DrivesOk DriveOk; decide +kernel, rfl⟩

theorem witness_QueuesOkKept : QueuesOk State.reset ∧ step State.reset = .next State.reset :=
  ⟨fun q => by cases q <;> (unfold QueueOk; decide +kernel), rfl⟩

theorem witness_CollectTransactionSendsTheResponse : State.reset.inReset = false ∧ 1 ≤ 1 := by decide

theorem witness_CommandChecksInOrder :
    (∀ port : Port, Ready port State.reset) ∧ (List.replicate 200 (0 : Byte)).length ≤ 200 ∧
    .servicePort ∉ Command.heartbeat.ports ∧
    (.deskPort ∈ Command.galleryOpen.ports ∧ GalleryMode.setup ∉ Command.galleryOpen.modes) ∧
    (.showPort ∈ Command.heartbeat.ports ∧ GalleryMode.setup ∈ Command.heartbeat.modes ∧
      Command.heartbeat.lengthOk [0] = false) ∧
    Command.ofCode 0x77 = none ∧ (0x77 : Byte) ≠ 0xFF ∧ Command.ofCode 0xFF = none :=
  ⟨fun port => by cases port <;> decide +kernel, by decide +kernel⟩

theorem witness_BadFrameIsAnswered :
    State.reset.inReset = false ∧ (0 : Byte) ≠ 0xFF ∧ [(0 : Byte)].length < 5 ∧
    200 < lengthField [0, 0, 201, 0, 0] ∧ [(0 : Byte), 0, 1, 0, 0].length ≠ 5 + lengthField [0, 0, 1, 0, 0] ∧
    ([0x01, 0, 0, 0, 0x17].getLast? ≠ some (crc [0x01, 0, 0, 0]) ∧ lengthField [0x01, 0, 0, 0, 0x17] = 0) ∧
    Ready .servicePort State.reset := by decide +kernel

theorem witness_ServicePortAssemblesFrames :
    Ready .servicePort State.reset ∧ PinsFollow State.reset ∧ (List.replicate 200 (0 : Byte)).length ≤ 200 :=
  ⟨by decide +kernel, by unfold PinsFollow; decide +kernel, by decide +kernel⟩

theorem witness_ReceiverTakesAndDiscardsBytes :
    let s := State.reset
    (s.inReset = false ∧ s.uart.waitingFrame = none ∧ s.uart.rx = .idle) ∧
    (lengthField ([1, 0, 200] ++ [0]) ≤ 200 ∧ [(1 : Byte), 0].length < 3 ∧
      [(1 : Byte), 0, 1, 0].length + 1 < 5 + lengthField ([1, 0, 1, 0] ++ [7])) ∧
    (s.modUart fun u => { u with rx := .inFrame [1, 0, 1, 0] }).uart.waitingFrame = none ∧
    (s.modUart fun u => { u with waitingFrame := some [] }).uart.waitingFrame.isSome ∧
    (s.modUart fun u => { u with rx := .discarding, quiet := some 0 }).uart.quiet = some 0 := by decide +kernel

theorem witness_BrokenFrameIsAnswered :
    let s := State.reset.modUart fun u => { u with rx := .inFrame [1, 0, 201], quiet := some 0 }
    s.inReset = false ∧ s.uart.waitingFrame = none ∧ s.uart.rx = .inFrame [1, 0, 201] ∧
    200 < lengthField ([1, 0, 201] ++ [0]) ∧ s.uart.quiet = some 0 := by decide +kernel

theorem witness_ResponseSentThenTheNext :
    let s := State.reset.modUart fun u => { u with sending := some noResponse }
    let frame := commandFrame Command.linkStatus.code 4 []
    s.uart.sending = some noResponse ∧ s.uart.waiting = [] ∧ s.uart.waitingFrame = none ∧
    (s.modUart fun u => { u with waiting := [noResponse] }).uart.waiting = noResponse :: [] ∧
    (s.modUart fun u => { u with waitingFrame := some frame }).uart.waitingFrame = some frame ∧
    (perform .servicePort Command.linkStatus.code []
      (s.modUart fun u => { u with sending := none, waitingFrame := none })).2.status = .ok := by
  decide +kernel

theorem witness_FullResetHoldsThePart :
    ({ State.reset with inReset := true } : State).inReset = true ∧ State.reset.inReset = false ∧
    (.heartbeat .showPort 0 [] : Instr) ≠ .fullReset ∧ (.heartbeat .showPort 0 [] : Instr) ≠ .resetRelease := by
  decide +kernel

theorem witness_AttentionFollowsItsCauses :
    (∀ m : Master, Admitted .attentionMask m.port State.reset ∧ Admitted .attentionRead m.port State.reset) ∧
    (0x1B : Byte).toNat ≤ 0x1F ∧ (0x1B : Byte).getLsbD 2 = false ∧ (0x1D : Byte).getLsbD 1 = false ∧
    (0x04 : Byte).getLsbD 2 = true ∧ (0x02 : Byte).getLsbD 1 = true ∧ 0x1F < (0x20 : Byte).toNat :=
  ⟨fun m => by cases m <;> decide +kernel, by decide +kernel⟩

theorem witness_NotesAreWrittenAndRead :
    (∀ m : Master, Admitted .noteWrite m.port State.reset ∧ Admitted .noteRead m.port State.reset) ∧
    7 < (8 : Byte).toNat ∧ (3 : SlotId).val = (3 : Byte).toNat ∧ (4 : SlotId).val = (4 : Byte).toNat ∧
    State.reset.note 3 = none ∧ ((State.reset.setNote 3 (some ⟨[0xAA], 0⟩)).note 3).isSome ∧
    ¬ (1 ≤ (List.replicate 17 (0 : Byte)).length ∧ (List.replicate 17 (0 : Byte)).length ≤ 16) ∧
    (List.replicate 16 (0 : Byte)).length ≤ 16 :=
  ⟨fun m => by cases m <;> decide +kernel, by decide +kernel⟩

theorem witness_NumbersAboveRangeAreNoSuch :
    (Admitted .exhibitOpen .deskPort (gallery .opened) ∧ Command.exhibitOpen.lengthOk [16] = true) ∧
    (Admitted .cuePost .showPort (gallery .opened) ∧ Command.cuePost.lengthOk [16, 0] = true) ∧
    (Admitted .lineEnable .showPort (gallery .closed) ∧ Command.lineEnable.lengthOk [64] = true) ∧
    (Admitted .configLine .showPort State.reset ∧
      Command.configLine.lengthOk (64 :: List.replicate 9 0) = true) ∧
    (Admitted .scanLimits .showPort (gallery .closed) ∧
      Command.scanLimits.lengthOk [32, 0, 0, 0, 0] = true) ∧
    (Admitted .jog .servicePort (gallery .closed) ∧ Command.jog.lengthOk [12, 0, 0, 0, 0] = true) ∧
    (Admitted .frameDrop .showPort (gallery .closed) ∧ Command.frameDrop.lengthOk [48] = true) ∧
    (Admitted .chime .deskPort (gallery .closed) ∧ Command.chime.lengthOk [4, 0, 0] = true) := by
  and_intros <;> decide +kernel

theorem witness_GalleryOpensAndGoesQuiet :
    Admitted .galleryOpen .deskPort (gallery .closed) ∧ Admitted .galleryOpen .deskPort (gallery .quiet) ∧
    Admitted .galleryQuiet .deskPort (gallery .opened) := by decide +kernel

theorem witness_GalleryCloses :
    let busy := one .quiet 15 { state := .running, active := some 0 }
    Admitted .galleryClose .deskPort (gallery .quiet) ∧ Admitted .galleryClose .deskPort busy ∧
    settled (gallery .quiet) = true ∧ settled busy = false := by decide +kernel

theorem witness_RestartIsAWarmRestart : Admitted .restart .deskPort (gallery .opened) := by decide +kernel

theorem witness_ExhibitOpens :
    Admitted .exhibitOpen .deskPort (gallery .opened) ∧ (gallery .opened).arbiter.startQueue = [] ∧
    ((gallery .opened).exhibit 15).state = .closed ∧
    Admitted .exhibitOpen .deskPort (one .opened 15 { state := .ready }) ∧
    ((one .opened 15 { state := .ready }).exhibit 15).state ≠ .closed := by decide +kernel

theorem witness_ExhibitCloses :
    let s := one .opened 15 { state := .running, active := some 0, queue := [1], axes := [0] }
    Admitted .exhibitClose .deskPort s ∧ (s.exhibit 15).state ≠ .closed ∧ (s.exhibit 15).state ≠ .service ∧
    ((s.exhibit 15).active.toList ++ (s.exhibit 15).queue).Nodup ∧ (s.exhibit 0).state = .closed ∧
    ((s.modAxis 0 fun x => { x with state := .waitingStart }).axis 0).state = .waitingStart := by
  decide +kernel

theorem witness_AttendantHoldAndRelease :
    let s := one .opened 15 { state := .held, holds := { attendant := true } }
    Admitted .exhibitHold .deskPort s ∧ Admitted .exhibitRelease .deskPort s ∧
    (s.exhibit 0).state = .closed ∧ (s.exhibit 0).holds.attendant = false ∧
    (s.exhibit 15).state ≠ .closed ∧ (s.exhibit 15).holds.attendant = true := by decide +kernel

theorem witness_HoldReaction :
    let s := (one .opened 15 { state := .running, axes := [0, 11] }).modAxis 11 fun x => { x with
      state := .waitingStart }
    (s.exhibit 15).holds.has .guard = false ∧ (s.exhibit 15).holds = {} ∧ (s.axis 11).state.working = true ∧
    (s.axis 0).state.working = false ∧ (s.exhibit 0).state = .closed ∧
    ((one .opened 1 { state := .held, holds := { lapse := true } }).exhibit 1).holds ≠ {} ∧
    ((one .closed 1 { state := .service }).exhibit 1).state = .service := by decide +kernel

theorem witness_FaultClearReturnsToUse :
    let s := (one .opened 15 { state := .faulted, axes := [0, 11] }).modAxis 11 fun x => { x with
      state := .faulted, fault := some .moveTimeout }
    let t := s.modAxis 11 fun x => { x with fault := some .overtravel }
    Admitted .faultClear .deskPort s ∧ (s.exhibit 15).state = .faulted ∧ (s.exhibit 0).state ≠ .faulted ∧
    s.arbiter.startQueue = [] ∧ s.mode ≠ .quiet ∧
    (∀ a ∈ (s.exhibit 15).axes, (s.axis a).state = .faulted → faultTestPasses s a = true) ∧
    ((t.exhibit 15).axes.find? fun b => (t.axis b).state = .faulted ∧ faultTestPasses t b = false)
      = some 11 := by decide +kernel

theorem witness_ExhibitAndLineStatusReadRecords :
    (∀ port : Port, Ready port State.reset) ∧ 15 < (16 : Byte).toNat ∧ 63 < (64 : Byte).toNat :=
  ⟨fun port => by cases port <;> decide +kernel, by decide +kernel⟩

theorem witness_HoldTimersExpire :
    let s := one .opened 15 { state := .held, holds := { guard := true }, guardRelease := some 0
                              guardLong := some 0 }
    let t := State.reset.modArbiter fun x => { x with sag := .sagPending, sagTimer := some 0 }
    s.inReset = false ∧ (s.exhibit 15).guardRelease = some 0 ∧ (s.exhibit 0).guardRelease ≠ some 0 ∧
    ((s.exhibit 15).guardLong = some 0 ∧ (s.exhibit 15).holds.guard = true) ∧
    (s.exhibit 0).guardLong ≠ some 0 ∧
    ((one .opened 3 { guardLong := some 0 }).exhibit 3).holds.guard = false ∧
    (t.arbiter.sag = .sagPending ∧ t.arbiter.sagTimer = some 0) ∧
    ¬ (s.arbiter.sag = .sagPending ∧ s.arbiter.sagTimer = some 0) := by decide +kernel

/-- A line in a state, 19 samples into a run of 20 and one millisecond before its stuck time. -/
def lineAtEdge (st : LineState) (run held : Nat) : Line :=
  { exhibit := some 15, role := some .action, state := st, debounceTimer := run, stuckTimer := some held }

theorem witness_LineSampleTransitions :
    Level.low = ({} : Line).activeLevel ∧ Level.high ≠ ({} : Line).activeLevel ∧
    (lineAtEdge .pressPending 18 0).debounceTimer + 1 < (lineAtEdge .pressPending 18 0).debounce ∧
    (lineAtEdge .releasePending 18 29998).stuckTimer.getD 0 + 1
      < 1000 * (lineAtEdge .releasePending 18 29998).stuckTime ∧
    ((State.reset.modLine 63 fun _ => lineAtEdge .releasePending 18 29998).line 63).state
      = .releasePending := by decide +kernel

theorem witness_PressIsTakenAndPlaced :
    let x := lineAtEdge .pressPending 19 0
    let s := (one .opened 15 { state := .running, active := some 47 }).modLine 63 fun _ => x
    let step : CueFrame := { exhibit := some 15, steps := [⟨false, .waitPress 63 none⟩], currentGroup := some 0
                             run := [⟨.active, none, .notRunning⟩] }
    let waiting := s.modFrame 47 fun _ => step
    (s.line 63).state = .pressPending ∧ (s.line 63).debounce ≤ (s.line 63).debounceTimer + 1 ∧
    (s.line 63).lastAccepted = none ∧ x.repeatGuard ≤ elapsed 0 300 ∧ ¬ x.repeatGuard ≤ elapsed 0 299 ∧
    ((s.exhibit 15).active.bind fun f => (waitingStep (s.frame f) 63).map fun i => (f, i)) = none ∧
    ((waiting.exhibit 15).active.bind fun f => (waitingStep (waiting.frame f) 63).map fun i => (f, i))
      = some (47, 0) ∧
    s.mode ≠ .quiet ∧ (gallery .quiet).mode = .quiet := by decide +kernel

theorem witness_LineIsReleasedOrBecomesStuck :
    (lineAtEdge .stuck 19 0).debounce ≤ (lineAtEdge .stuck 19 0).debounceTimer + 1 ∧
    1000 * (lineAtEdge .releasePending 18 29999).stuckTime
      ≤ (lineAtEdge .releasePending 18 29999).stuckTimer.getD 0 + 1 ∧
    (lineAtEdge .releasePending 18 29999).debounceTimer + 1 < (lineAtEdge .releasePending 18 29999).debounce ∧
    ((State.reset.modLine 63 fun _ => lineAtEdge .stuck 19 0).line 63).state = .stuck := by decide +kernel

theorem witness_LivenessOfALine :
    let live := (one .opened 15 { state := .ready }).modLine 63 fun _ => lineAtEdge .released 0 0
    let gone := (one .opened 15 { state := .closed }).modLine 63 fun _ => { lineAtEdge .pressed 0 5 with
      accepted := true, destination := some .serviceQueue }
    (lineLive live 63 = true ∧ (live.line 63).state ≠ .inert) ∧
    (lineLive gone 63 = false ∧ (gone.line 63).state ≠ .inert ∧ (gone.line 63).accepted = true) ∧
    (lineLive live 0 = false ∧ (live.line 0).state = .inert ∧ (live.line 0).accepted = false) ∧
    lineLive (live.modLine 63 fun x => { x with state := .inert }) 63 = true := by decide +kernel

theorem witness_LineEnableAndDisable :
    let s := (one .closed 15 { state := .service }).modLine 63 fun _ => lineAtEdge .released 0 0
    Admitted .lineEnable .showPort s ∧ Admitted .lineDisable .servicePort s ∧ Admitted .lineEnable .deskPort s ∧
    ((s.line 63).exhibit = some 15 ∧ (s.exhibit 15).state = .service) ∧ (s.line 0).exhibit = none := by
  decide +kernel

theorem witness_ConversionCompletes :
    let s := { gallery .opened with scanner := { regime := .day, state := .converting, passPosition := some 0
                                                 inFlight := some 31, scanList := [⟨31, true⟩] } }
    (s.inReset = false ∧ s.scanner.state = .converting ∧ s.scanner.passPosition = some 0 ∧
      s.scanner.inFlight = some 31) ∧
    s.scanner.regime = .day ∧ s.scanner.scanList[0 + 1]? = none ∧ s.scanner.scanList[0]? = some ⟨31, true⟩ ∧
    s.scanner.dayMode = .continuous := by decide +kernel

theorem witness_ScannerTimersExpire :
    let x : Scanner := { regime := .day, state := .warming, warmUp := some 0, pace := some 0
                         closedPaceTimer := some 0, scanList := [⟨31, true⟩] }
    (x.state = .warming ∧ x.warmUp = some 0 ∧ x.regime = .day ∧ x.dayMode = .continuous) ∧
    (({ x with state := .waiting } : Scanner).pace = some 0 ∧
      ({ x with state := .dozing } : Scanner).closedPaceTimer = some 0) ∧
    (∃ e ∈ x.scanList, e.keepWhenClosed = true) ∧ ¬ ∃ e ∈ ([⟨31, false⟩] : List ScanEntry), e.keepWhenClosed = true := by
  decide +kernel

theorem witness_RegimeFollowsTheGallery :
    let s := one .closed 15 { state := .service }
    regimeOf s = .day ∧ regimeOf (gallery .closed) = .closedScan ∧ regimeOf State.reset = .off ∧
    s.scanner.regime ≠ regimeOf s ∧ s.scanner.state = .off := by decide +kernel

theorem witness_ScanListAndScanOnce :
    let s := (gallery .opened).modChannel 31 fun x => { x with role := .general }
    let t := { s with scanner := { dayMode := .single, regime := .day, state := .waiting } }
    let unused (e : ScanEntry) : Bool := (s.channel e.channel).role = .none
    (Admitted .scanList .showPort s ∧ ([⟨31, true⟩] : List ScanEntry).findIdx? unused = none ∧
      (List.replicate 40 (⟨31, true⟩ : ScanEntry)).length ≤ 40 ∧
      ([⟨31, true⟩, ⟨0, false⟩] : List ScanEntry).findIdx? unused = some 1) ∧
    31 < (32 : Byte).toNat ∧ 1 < (2 : Byte).toNat ∧ 40 < (41 : Byte).toNat ∧
    (List.replicate 82 (0 : Byte)).length = 2 * (41 : Byte).toNat ∧
    (Admitted .scanOnce .showPort t ∧ t.scanner.regime = .day ∧ t.scanner.dayMode = .single) ∧
    ¬ (s.scanner.regime = .day ∧ s.scanner.dayMode = .single) := by decide +kernel

theorem witness_ScanLimitsResetTheWindow :
    let s := (one .closed 15 { state := .service }).modChannel 31 fun x => { x with
      role := .presence, binding := some (.exhibit 15) }
    Admitted .scanLimits .showPort s ∧
    ((s.channel 31).role = .presence ∧ (s.channel 31).binding = some (.exhibit 15)) ∧
    ((s.channel 0).role ≠ .presence ∧ (s.channel 0).role ≠ .position ∧ (s.channel 0).role ≠ .current) ∧
    (s.channel 0).window = .unknown ∧
    ((s.modChannel 0 fun x => { x with window := .inside }).channel 0).window ≠ .unknown ∧
    ((4095 : BitVec 16).toNat ≤ 4095 ∧ ¬ (4096 : BitVec 16).toNat ≤ 4095) := by decide +kernel

theorem witness_SenseReadReadsChannels :
    Ready .servicePort State.reset ∧ 31 < (32 : Byte).toNat ∧ 8 < (9 : Byte).toNat ∧
    ((31 : Byte).toNat + (1 : Byte).toNat ≤ 32 ∧ 32 < (31 : Byte).toNat + (2 : Byte).toNat) := by decide +kernel

/-- An axis of a SERVICE exhibit with a fresh sample of 100. -/
def jogged (x : Axis) : State :=
  ((one .closed 15 { state := .service, axes := [11] }).modAxis 11 fun _ => x).modChannel 31 fun y => { y with
    role := .position, binding := some (.axis 11), latest := some ⟨100, 0⟩ }

/-- The configuration of that axis. -/
def joggedAxis (st : AxisState) : Axis :=
  { configured := true, exhibit := some 15, positionChannel := some 31, state := st }

theorem witness_JogMovesAnAxisInService :
    let s := jogged (joggedAxis .idle)
    let moving := jogged { joggedAxis .moving with drive := .on .forward 4 }
    Admitted .jog .servicePort s ∧
    ((s.axis 11).configured = true ∧ (s.axis 11).exhibit = some 15 ∧ (s.exhibit 15).state = .service) ∧
    (s.axis 0).configured = false ∧ (s.exhibit 15).holds = {} ∧
    ((s.axis 11).targetMin ≤ (0 : BitVec 16).toNat ∧ (4095 : BitVec 16).toNat ≤ (s.axis 11).targetMax ∧
      (s.axis 11).targetMax < (4096 : BitVec 16).toNat) ∧
    ((1 : Byte).toNat = 1 ∧ (8 : Byte).toNat = 8) ∧
    (moving.axis 11).drive = .on .forward 4 ∧ positionSampleOf moving 11 = some ⟨100, 0⟩ ∧
    (jogged { joggedAxis .faulted with fault := some .overtravel }).axis 11
      = { joggedAxis .faulted with fault := some .overtravel } := by decide +kernel

theorem witness_AxisTimersExpire :
    let x := { joggedAxis .accelerating with travel := some 0, feedbackTimeout := 50 }
    let s := { (jogged x).modArbiter fun y => { y with accel := modTable y.accel 11 fun _ => some 0 } with
      clock := 51 }
    (s.inReset = false ∧ (s.axis 11).state = .accelerating ∧ s.arbiter.accel.get 11 = some 0) ∧
    (s.axis 11).travel = some 0 ∧ positionSampleOf s 11 = some ⟨100, 0⟩ ∧
    (s.axis 11).feedbackTimeout < elapsed 0 s.clock ∧ ¬ (s.axis 11).feedbackTimeout < elapsed 0 50 ∧
    (s.axis 0).state = .disabled := by decide +kernel

theorem witness_SettledAxisIsJudged :
    let m (target : Nat) : Move := ⟨target, 4, .cueStep 47 5⟩
    let s := jogged { joggedAxis .settling with settle := some 0, move := some (m 116) }
    ((s.axis 11).state = .settling ∧ (s.axis 11).settle = some 0 ∧ (s.axis 11).move = some (m 116) ∧
      positionSampleOf s 11 = some ⟨100, 0⟩) ∧
    (116 ≤ 100 + (s.axis 11).tolerance ∧ ¬ 117 ≤ 100 + (s.axis 11).tolerance) ∧
    (s.axis 11).corrections ≠ 3 := by decide +kernel

theorem witness_AxisFaultStopsItsExhibit :
    let s := ((one .opened 15 { state := .running, active := some 0, axes := [0, 11] }).modAxis 11 fun _ =>
      joggedAxis .waitingStart).modAxis 0 fun x => { x with state := .moving }
    ((s.axis 11).state ≠ .disabled ∧ (s.axis 11).state ≠ .faulted ∧ (s.axis 11).state = .waitingStart) ∧
    (s.axis 11).exhibit = some 15 ∧ (s.exhibit 15).state = .running ∧
    (0 ∈ (s.exhibit 15).axes ∧ (s.axis 0).state.busy = true) ∧ (s.axis 5).state = .disabled := by decide +kernel

theorem witness_ArbiterGrantsTheHead :
    let x := { joggedAxis .waitingStart with move := some ⟨116, 4, .jog⟩, feedbackTimeout := 50 }
    let s := (jogged x).modArbiter fun y => { y with startQueue := [11], unitsInUse := 4 }
    let supply := s.modChannel 0 fun y => { y with role := .supply }
    (s.arbiter.startQueue = [11] ∧ frozen s = false ∧ (s.axis 11).startCost ≤ s.timing.startBudget - 4) ∧
    ((s.axis 11).move = some ⟨116, 4, .jog⟩ ∧ positionSampleOf s 11 = some ⟨100, 0⟩ ∧ elapsed 0 50 ≤ 50) ∧
    ¬ (s.axis 11).startCost ≤ s.timing.startBudget - 5 ∧ frozen supply = true ∧
    (∀ d, (supply.channel d).role = .supply ↔ d = 0) ∧ (∀ c, (s.channel c).role ≠ .supply) ∧
    (gallery .opened).arbiter.startQueue = [] := by decide +kernel

theorem witness_StatusCommandsReadRecords :
    let s := one .opened 15 { state := .running, active := some 47 }
    (∀ port : Port, Ready port s) ∧ (s.exhibit 15).active = some 47 ∧ (s.exhibit 0).active = none ∧
    ((jogged (joggedAxis .idle)).axis 11).positionChannel = some 31 ∧ (s.axis 0).positionChannel = none ∧
    (∃ e, ((s.setTenure 3 (some 0)).tenure e).isSome) ∧ (¬ ∃ e, (s.tenure e).isSome) ∧
    Admitted .alertList .servicePort s ∧ 23 < (24 : Byte).toNat ∧ (23 : Byte).toNat ≤ 23 :=
  ⟨fun port => by cases port <;> decide +kernel, by decide +kernel⟩

theorem witness_FramesAreTakenWrittenAndDropped :
    let s := { gallery .opened with freeList := [47], takenSet := [0] }
    Admitted .frameTake .showPort s ∧ Admitted .frameWrite .showPort s ∧ Admitted .frameDrop .showPort s ∧
    s.freeList = [47] ∧ ({ s with freeList := [] } : State).freeList = [] ∧ (0 : FrameId) ∈ s.takenSet ∧
    (1 : FrameId) ∉ s.takenSet := by decide +kernel

theorem witness_FramesAreWrittenAtTheBounds :
    (List.replicate 56 (0 : Byte)).length = 8 * (7 : Byte).toNat ∧
    6 < (7 : Byte).toNat ∧ 3 < (4 : Byte).toNat ∧ 7 < (8 : Byte).toNat := by decide +kernel

theorem witness_CuePostQueuesAFrame :
    let s := (({ one .opened 15 { state := .ready } with freeList := [], takenSet := [0, 1] } : State).modFrame 0
      fun x => { x with steps := [⟨false, .pause 1⟩] }).modFrame 1 fun x => { x with
        steps := [⟨false, .pause 1⟩, ⟨false, .waitPress 63 none⟩] }
    Admitted .cuePost .showPort s ∧
    ((s.exhibit 15).state = .ready ∧ (0 : FrameId) ∈ s.takenSet ∧ s.mode = .opened ∧
      firstBadStep s 15 (s.frame 0).steps = none ∧ (s.exhibit 15).queue = []) ∧
    firstBadStep s 15 (s.frame 1).steps = some 1 ∧ (s.frame 2).steps = [] ∧ (2 : FrameId) ∉ s.takenSet ∧
    ((one .opened 15 { state := .held, queue := [2, 3, 4, 5] }).exhibit 15).queue.length = 4 ∧
    ((one .opened 15 { state := .held, queue := [2, 3, 4] }).exhibit 15).queue.length < 4 := by decide +kernel

theorem witness_CuesEndAndAreCollected :
    let s := one .opened 15 { state := .running, active := some 47 }
    let t := { s with retiredList := [⟨47, 15, .done, 6, 0, none⟩] }
    (Admitted .cueCancel .showPort s ∧ (s.exhibit 15).state ≠ .service ∧ (s.exhibit 15).active = some 47 ∧
      (s.exhibit 15).queue = []) ∧
    (s.exhibit 0).active = none ∧ Admitted .cueFlush .showPort s ∧
    ((one .closed 3 { state := .service }).exhibit 3).state = .service ∧
    (Admitted .cueResult .showPort t ∧ t.retiredList ≠ [] ∧ s.retiredList = []) := by decide +kernel

theorem witness_StepTimersExpire :
    let steps : List CueStep := [⟨false, .pause 1⟩, ⟨false, .waitPress 63 (some 1)⟩]
    let s := (one .opened 15 { state := .running, active := some 47 }).modFrame 47 fun _ =>
      { exhibit := some 15, steps := steps, currentGroup := some 0
        run := [⟨.done, none, .running 0⟩, ⟨.active, none, .running 1⟩] }
    (s.inReset = false ∧ (s.exhibit 15).active = some 47 ∧ (s.frame 47).steps[0]? = some ⟨false, .pause 1⟩ ∧
      (s.frame 47).run[0]? = some ⟨.done, none, .running 0⟩) ∧
    (s.frame 47).run[1]? = some ⟨.active, none, .running 1⟩ ∧ (s.frame 47).currentGroup = some 0 ∧
    groupSteps steps 0 = [0] ∧ groupEnd steps 0 = 1 ∧ groupEnd steps 1 = 2 ∧ groupSteps steps 1 = [1] ∧
    groupWaits steps 1 = true ∧ groupWaits steps 0 = false := by decide +kernel

theorem witness_LinksLapseAndResume :
    let s := (gallery .opened).modLink .showMaster fun x => { x with state := .active, timer := some 0 }
    (∀ m : Master, Admitted .heartbeat m.port s) ∧ (s.link .showMaster).state = .active ∧
    (s.link .showMaster).timer = some 0 ∧ (s.link .deskMaster).state = .neverSeen ∧
    ((s.modLink .deskMaster fun x => { x with state := .lapsed }).link .deskMaster).state = .lapsed :=
  ⟨fun m => by cases m <;> decide +kernel, by decide +kernel⟩

theorem witness_TenuresBeginAndEnd :
    let s := { one .closed 15 { state := .service, permit := true } with serviceIdle := some 0 }
    let t := s.setTenure 15 (some 0)
    (Admitted .servicePermit .deskPort s ∧ Admitted .serviceRevoke .deskPort s ∧
      Admitted .exhibitGive .servicePort s ∧ Admitted .exhibitTake .servicePort s) ∧
    (s.exhibit 15).state = .service ∧ (s.exhibit 0).permit = false ∧ (s.exhibit 0).state = .closed ∧
    (one .closed 0 { permit := true }).exhibit 0 = { permit := true } ∧ 1 < (2 : Byte).toNat ∧
    (s.inReset = false ∧ s.serviceIdle = some 0) ∧ State.reset.serviceIdle ≠ some 0 ∧
    (t.tenure 15 ≠ none ∧ t.tenure 0 = none) := by
  dsimp only
  and_intros <;> decide +kernel

theorem witness_EventQueuesReadAndOverflow :
    let press : Event := { kind := .buttonPress }
    let s := { State.reset with serviceQueue := { events := press :: List.replicate 15 { kind := .axisArrived } } }
    let t := { State.reset with serviceQueue := { events := List.replicate 16 { kind := .axisArrived } } }
    (∀ port : Port, Ready port s) ∧ 8 < (9 : Byte).toNat ∧
    ((s.queue .serviceQ).events.take (8 : Byte).toNat ≠ [] ∧ (s.queue .showQ).events.take 8 = []) ∧
    (s.queue .showQ).events.length < QueueName.showQ.capacity ∧
    (QueueName.serviceQ.capacity ≤ (s.queue .serviceQ).events.length ∧ press.isButton = true) ∧
    (∀ u ∈ (t.queue .serviceQ).events, ¬ (u.kind = .buttonPress ∨ u.kind = .buttonRelease)) ∧
    QueueName.serviceQ.capacity ≤ (t.queue .serviceQ).events.length :=
  ⟨fun port => by cases port <;> decide +kernel, by decide +kernel⟩

/-- A list with one record. -/
def listed (r : AlertRecord) : State := (gallery .opened).modAlerts fun _ => { records := [r], nextNumber := 2 }

/-- An OPEN record of an axis fault. -/
def faultRecord : AlertRecord := ⟨1, .axisFault, .urgent, some 15, some 11, none, .opened, 0, 1, 0, none⟩

theorem witness_AlertsAreAckedClearedAndRaised :
    let s := listed faultRecord
    let bound := s.modAxis 11 fun x => { x with state := .faulted }
    Admitted .alertAck .deskPort s ∧ Admitted .alertClear .deskPort s ∧
    s.alerts.records.find? (fun r => r.number = 1) = some faultRecord ∧
    s.alerts.records.find? (fun r => r.number = 0) = none ∧ faultRecord.state = .opened ∧
    ({ faultRecord with state := .acked } : AlertRecord).state = .acked ∧
    conditionPresent bound faultRecord = true ∧ conditionPresent s faultRecord = false ∧
    (Admitted .alertRaise .showPort s ∧ 2 < (3 : Byte).toNat ∧ Severity.urgent.code = (2 : Byte).toNat ∧
      1 < (2 : Byte).toNat ∧ 15 < (16 : Byte).toNat ∧
      (some (15 : ExhibitId)).map Fin.val = some (15 : Byte).toNat) := by decide +kernel

theorem witness_AlertLevelsAreReached :
    let s := { listed { faultRecord with level := 1 } with clock := 15000 }
    let r := { faultRecord with level := 1 }
    (s.inReset = false ∧ s.alerts.records.find? (fun y => y.number = 1) = some r) ∧
    (r.state = .opened ∧ levelTime s.timing r.severity 2 = some 15000 ∧ 15000 ≤ elapsed r.raised s.clock) ∧
    ¬ 15000 ≤ elapsed r.raised 14999 := by decide +kernel

theorem witness_AnnunciatorsSound :
    let s := listed { faultRecord with level := 2 }
    let n : Machine.Note := ⟨3, 2, 600, 0, .decay, 600⟩
    (Admitted .chime .showPort s ∧ Admitted .silence .deskPort s ∧ Admitted .lampTest .deskPort s) ∧
    (s.annunciators.silence = none ∧ ∃ r ∈ s.alerts.records, r.state = .opened ∧ 2 ≤ r.level) ∧
    (¬ ∃ r ∈ State.reset.alerts.records, r.state = .opened ∧ 2 ≤ r.level) ∧
    ((s.annunciators.patterns.get 2).repeats ≠ 0 ∧ (s.annunciators.patterns.get 0).repeats = 0) ∧
    ((15 : Byte).toNat ≤ 15 ∧ ¬ (16 : Byte).toNat ≤ 15) ∧ n.onTime + n.offTime ≤ n.elapsed ∧
    ({ n with elapsed := 599 } : Machine.Note).elapsed < n.onTime + n.offTime ∧ s.annunciators.tone = .silent := by
  decide +kernel

theorem witness_ConfigurationIsWritten :
    (∀ c ∈ [Command.configExhibit, .configLine, .configAxis, .configChannel, .configScan, .configTiming,
      .configTone], Admitted c .showPort State.reset ∧ Admitted c .servicePort State.reset) ∧
    ((100 : Byte).toNat ≤ 100 ∧ ¬ (101 : Byte).toNat ≤ 100) ∧ (60000 : BitVec 16).toNat ≤ 60000 ∧
    31 < (32 : Byte).toNat := by decide +kernel

theorem witness_CommitAndReconfigure :
    let bad := State.reset.modAxis 11 fun x => { x with configured := true }
    Admitted .configCommit .showPort State.reset ∧ commitFault State.reset = none ∧
    (Admitted .configCommit .servicePort bad ∧ commitFault bad = some (3, 11)) ∧
    (Admitted .reconfigure .deskPort (gallery .closed) ∧
      ¬ ∃ e, ((gallery .closed).exhibit e).state = .service) ∧
    ∃ e, ((one .closed 15 { state := .service }).exhibit e).state = .service := by decide +kernel

theorem witness_ClockTickAdvancesTimers : State.reset.inReset = false := rfl

/-! ## Witnesses of the further clauses -/

/-- A gallery in a mode with a clock tick waiting, an axis in the start queue and its exhibit RUNNING. -/
def busy : State :=
  let s := (one .opened 15 { state := .running, active := some 47, axes := [11] }).modAxis 11 fun x => { x with
    state := .waitingStart, move := some ⟨2000, 4, .jog⟩ }
  { s with
    arbiter := { startQueue := [11] }, freeList := (List.finRange 48).filter (· ≠ 47)
    pending := [.galleryClockTick] }

theorem witness_DrivesOkKept_arbiter : ArbiterOk busy :=
  ⟨by decide +kernel, by decide +kernel, by decide +kernel, by decide +kernel, by decide +kernel,
    by decide +kernel⟩

theorem witness_QueuesOkKept_places : PlacesOk busy :=
  ⟨by decide +kernel, by decide +kernel, by decide +kernel, by decide +kernel, by decide +kernel,
    by decide +kernel⟩

theorem witness_QueuesOkKept_alerts : AlertsOk { listed faultRecord with pending := [.galleryClockTick] } :=
  ⟨by decide +kernel, by decide +kernel, by decide +kernel, by decide +kernel, by decide +kernel,
    by decide +kernel, by decide +kernel⟩

theorem witness_LinksLapseAndResume_timers :
    LinksOk { gallery .opened with showLink := { state := .active, timer := some 1 } } := by
  intro m
  cases m <;> decide

theorem witness_TenuresBeginAndEnd_tenures :
    TenuresOk { (one .closed 15 { state := .service, permit := true }).setTenure 15 (some 7) with
      serviceIdle := some 1 } :=
  ⟨by decide +kernel, by decide +kernel, by decide +kernel, by decide +kernel⟩

theorem witness_PinsFollowKept_pins :
    let s := drivePins { gallery .opened with inReset := true }
    let n : Machine.Note := ⟨3, 2, 600, 0, .decay, 600⟩
    let t := drivePins ((gallery .opened).modAnnunciators fun x => { x with tone := .chime n 1 })
    (s.pins = pinsOf s ∧ s.inReset = true) ∧
    (t.pins = pinsOf t ∧ t.inReset = false ∧ t.annunciators.flash ≤ 999 ∧ t.annunciators.tone = .chime n 1 ∧
      n.offTime = 0 ∧ n.envelope = .decay ∧ t.pins.toneOut = .tone 800 600 2400) := by decide +kernel

theorem witness_ReceiverTakesAndDiscardsBytes_waits :
    let bytes : List Byte := [0x44, 0x00, 0x00, 0x00]
    let s := (gallery .opened).modUart fun u => { u with rx := .inFrame bytes, sending := some noResponse }
    s.inReset = false ∧ s.uart.waitingFrame = none ∧ s.uart.rx = .inFrame bytes ∧ s.uart.sending ≠ none ∧
      4 ≤ bytes.length ∧ bytes.length + 1 = 5 + lengthField (bytes ++ [0x00]) := by decide +kernel

theorem witness_GalleryOpensAndGoesQuiet_notice :
    let s := gallery .quiet
    (s.mode = .quiet ∧ s.settledNoted = false ∧ settled s = true) ∧ settled busy = false := by decide +kernel

theorem witness_HoldReaction_released :
    let held (x : Exhibit) : State := one .opened 15 { x with state := .held, holds := { lapse := true } }
    let last (s : State) : Prop := (s.exhibit 15).holds.has .lapse = true ∧ (s.exhibit 15).holds.put .lapse false = {}
    (last (held { active := some 47 }) ∧ last (held { queue := [47] }) ∧ last (held {})) ∧
    ((one .opened 15 { state := .running, active := some 47 }).exhibit 15).holds = {} ∧
    ((gallery .opened).modAxis 11 fun x => { x with state := .held, exhibit := some 15 }).axis 11
      = { state := .held, exhibit := some 15 } := by decide +kernel

theorem witness_ConversionCompletes_owners :
    let s (w : Window) (r : ChannelRole) (b : Option Binding) : State :=
      (gallery .closed).modChannel 31 fun x => { x with role := r, binding := b, window := w }
    let settling := (gallery .opened).modAxis 11 fun x => { x with
      state := .settling, move := some ⟨2000, 4, .jog⟩, corrections := 3 }
    let driving := (gallery .opened).modAxis 11 fun x => { x with
      state := .accelerating, move := some ⟨2000, 4, .jog⟩, drive := .on .forward 4 }
    (((s .below .position (some (.axis 11))).axis 11).suppress = false ∧
      ((s .above .current (some (.axis 0))).channel 31).window = .above ∧
      ((s .inside .presence (some (.exhibit 15))).exhibit 15).state ≠ .service ∧
      (s .below .supply none).arbiter.sag = .normal ∧ ((s .unknown .general none).channel 31).role = .general) ∧
    ((settling.axis 11).corrections = 3 ∧ ¬ 2033 ≤ 2000 + 2 * (settling.axis 11).tolerance) ∧
    ((driving.axis 11).drive = .on .forward 4 ∧ 2000 ≤ 1984 + (driving.axis 11).tolerance) := by decide +kernel

theorem witness_AlertsAreAckedClearedAndRaised_triggers :
    let help : Trigger := { kind := .helpCall, severity := .attention, exhibit := some 15 }
    let fault : Trigger := tableTrigger .axisFault (some 15) (some 11)
    let acked := listed { faultRecord with state := .acked, acked := some 0 }
    let many (st : AlertState) := (gallery .opened).modAlerts fun _ => {
      records := (List.range 23).map fun n => { faultRecord with
        number := BitVec.ofNat 16 (n + 1), subject := some n, state := st }
      nextNumber := 24 }
    let ordinary (s : State) := (s.alerts.records.filter fun r => r.kind ≠ .listFull).length
    ((listed faultRecord).alerts.records.find? fault.matches = some faultRecord ∧
      (acked.alerts.records.find? fault.matches).isSome ∧
      (listed faultRecord).alerts.records.find? help.matches = none ∧ ordinary (listed faultRecord) < 23) ∧
    ((many .acked).alerts.records.find? help.matches = none ∧ ordinary (many .acked) = 23 ∧
      (evictionChoice (many .acked)).isSome ∧ evictionChoice (many .opened) = none) := by decide +kernel

theorem witness_AlertLevelsAreReached_climb :
    let s := { listed faultRecord with clock := 60000 }
    s.alerts.records.find? (fun r => r.number = 1) = some faultRecord ∧
      ((climbElapsed 1 s).alerts.records.map fun r => r.level) = [3] := by decide +kernel

theorem witness_StepTimersExpire_groups :
    let steps : List CueStep :=
      [⟨false, .move 11 2000 none (some 1)⟩, ⟨true, .waitPress 63 none⟩, ⟨false, .pause 1⟩]
    let x : CueFrame := { exhibit := some 15, steps := steps, currentGroup := some 0
                          run := [⟨.active, some .travelling, .notRunning⟩, ⟨.active, none, .notRunning⟩, {}] }
    let s := (gallery .opened).modFrame 47 fun _ => x
    (groupSteps steps 0 = [0, 1] ∧ groupEnd steps 0 = 2 ∧ groupWaits steps 0 = true ∧
      groupWaits steps 2 = false) ∧
    ((s.frame 47).exhibit = some 15 ∧ (s.frame 47).run[0]? = some ⟨.active, some .travelling, .notRunning⟩) ∧
    waitingStep x 63 = some 1 ∧ waitingStep x 0 = none := by decide +kernel

theorem witness_CuePostQueuesAFrame_steps :
    let s := (one .opened 15 { state := .ready, queue := [47], axes := [11] }).modFrame 47 fun _ => {
      exhibit := some 15
      steps := [⟨false, .move 11 2000 none none⟩, ⟨true, .move 11 2000 none none⟩] }
    (s.exhibit 15).queue = [47] ∧ (s.exhibit 15).state ≠ .running ∧
      stepIsBad s 15 (s.frame 47).steps 0 ⟨false, .move 11 2000 none none⟩ = false ∧
      stepIsBad s 15 (s.frame 47).steps 1 ⟨true, .move 11 2000 none none⟩ = true := by decide +kernel

theorem witness_TenuresBeginAndEnd_entry :
    let s := (one .closed 15 { state := .closed, axes := [11], holds := { guard := true } }).modLine 63
      fun x => { x with exhibit := some 15, role := some .action }
    (s.exhibit 15).state = .closed ∧ (∀ a ∈ (s.exhibit 15).axes, (s.axis a).state.working = false) ∧
      s.mode ≠ .setup ∧ (s.line 63).enabled = true ∧ (s.line 63).state = .inert := by decide +kernel

theorem witness_ConfigurationIsWritten_refusals :
    let s := gallery .setup
    (Admitted .configLine .servicePort s ∧ Admitted .configAxis .showPort s ∧
      Admitted .configChannel .servicePort s ∧ Admitted .configScan .showPort s) ∧
    (({} : Timing).urgentTimes ≠ ⟨0, 0, 0⟩ ∧ (List.replicate 15 (0 : Byte)).length = 15 ∧
      (List.replicate 5 (0 : Byte)).length = 5 ∧ (List.replicate 82 (0 : Byte)).length = 2 * 41) := by
  decide +kernel

theorem witness_CommitAndReconfigure_checks :
    let s := (gallery .setup).modAxis 11 fun x => { x with configured := true }
    let t := (gallery .setup).modLine 63 fun x => { x with exhibit := some 15 }
    commitFault s = some (3, 11) ∧ commitFault t = some (2, 63) ∧ commitFault (gallery .setup) = none ∧
      (gallery .setup).scanner.regime = .off ∧ (gallery .setup).scanner.state = .off := by decide +kernel

theorem witness_FullResetHoldsThePart_lines :
    let s := (gallery .opened).modLine 63 fun x => { x with input := .low, debounce := 100, state := .pressed }
    reading (fun t => ((t.line 63).input, (t.line 63).latest, (t.line 63).debounce, (t.line 63).state, t.mode))
        (exec .fullReset s) = some (.low, true, 20, .inert, .setup) ∧
      reading (fun t => t.inReset) (exec .resetRelease { s with inReset := true }) = some false := by
  decide +kernel

theorem witness_RegimeFollowsTheGallery_actions :
    let entries : List ScanEntry := [⟨0, false⟩, ⟨31, true⟩]
    let scans (s : State) (x : Scanner) : Option Nat × Option ChannelId :=
      let t := reviewRegime { s with scanner := x }
      (t.scanner.passPosition, t.scanner.inFlight)
    let night : Scanner := { regime := .closedScan, state := .converting, scanList := entries }
    let day : Scanner := { regime := .day, state := .converting, scanList := entries }
    regimeOf (gallery .opened) = .day ∧ regimeOf (gallery .closed) = .closedScan ∧
    (scans (gallery .opened) night = (some 0, some 0) ∧
      scans (gallery .opened) { night with dayMode := .paced } = (some 0, some 0) ∧
      scans (gallery .opened) { night with dayMode := .single } = (none, none) ∧
      scans (gallery .closed) day = (some 1, some 31) ∧
      scans (gallery .closed) { day with state := .waiting } = (some 1, some 31) ∧
      scans (gallery .closed) { day with scanList := [⟨0, false⟩] } = (none, none)) := by decide +kernel

theorem witness_ScannerTimersExpire_closed :
    let x : Scanner := { regime := .closedScan, state := .warming, warmUp := some 0, scanList := [⟨31, true⟩] }
    let s := (gallery .closed).modChannel 31 fun y => { y with role := .general }
    let t := { s with scanner := { x with state := .converting } }
    (x.state = .warming ∧ x.warmUp = some 0 ∧ x.regime = .closedScan) ∧
    (Admitted .scanList .showPort t ∧ t.scanner.state = .converting ∧ t.scanner.regime = .closedScan) := by
  decide +kernel

theorem witness_StatusCommandsReadRecords_times :
    let r (level : Nat) : AlertRecord := { faultRecord with level := level }
    let s := { listed faultRecord with clock := 14999 }
    (faultRecord.severity = .urgent ∧ faultRecord.state = .opened) ∧
    ((r 0).level = 0 ∧ timeToNext s (r 0) = 0) ∧ timeToNext s (r 1) = 1 ∧ timeToNext s (r 2) = 45001 ∧
    timeToNext s (r 3) = 0 ∧ timeToNext s { r 1 with severity := .attention } = 105001 ∧
    timeToNext s { r 1 with state := .acked } = 0 := by decide +kernel

theorem witness_CuesEndAndAreCollected_retirement :
    let s (m : GalleryMode) (st : ExhibitState) : State :=
      (one m 15 { state := st, active := some 47, queue := [46] }).modAxis 11 fun x => { x with
        state := .waitingStart, move := some ⟨2000, 4, .cueStep 47 5⟩ }
    let u := { s .quiet .running with arbiter := { startQueue := [11] } }
    let t := retireActive 15 .pressTimeout none u
    (((s .opened .running).exhibit 15).state = .running ∧ (s .opened .running).mode = .opened ∧
      ([46] : List FrameId).filter (· ≠ 47) ≠ []) ∧
    ((s .quiet .running).mode ≠ .opened ∧ ((s .opened .held).exhibit 15).state ≠ .running) ∧
    ((t.exhibit 15).state = .ready ∧ (t.axis 11).state = .idle ∧ t.arbiter.startQueue = [] ∧
      t.showQueue.events.map (fun v => (v.kind, v.subject, v.value))
        = [(.cueRetired, some 47, some 3), (.exhibitState, none, some 1)]) := by decide +kernel

theorem witness_TenuresBeginAndEnd_release :
    let s := (one .closed 15 { state := .service, axes := [11] }).modLine 63 fun x => { x with
      exhibit := some 15, role := some .action, state := .pressed, accepted := true
      destination := some .serviceQueue }
    let t := { s.setTenure 15 (some 0) with serviceIdle := some 1 }
    PlacesOk t ∧ (t.exhibit 15).state = .service ∧ (∀ d, d ≠ 15 → t.tenure d = none) ∧
      (t.setTenure 0 (some 0)).tenure 0 ≠ none ∧
      (endTenure 15 t).serviceQueue.events.map (fun v => (v.kind, v.subject))
        = [(.exhibitState, none), (.buttonRelease, some 63)] :=
  ⟨⟨by decide +kernel, by decide +kernel, by decide +kernel, by decide +kernel, by decide +kernel,
    by decide +kernel⟩, by decide +kernel⟩

theorem witness_AlertsAreAckedClearedAndRaised_conditions :
    let record (k : AlertKind) (subject : Option Nat) : AlertRecord :=
      { faultRecord with kind := k, subject := subject }
    let s := (((one .closed 15 { presence := some 31, holds := { guard := true } }).modLine 63 fun x => { x with
      state := .stuck }).modChannel 31 fun x => { x with window := .inside }).modChannel 0 fun x => { x with
        role := .supply, window := .below }
    let t := { s with showLink := { state := .lapsed }, deskLink := { state := .lapsed } }
    conditionPresent t (record .buttonStuck (some 63)) = true ∧
    conditionPresent t (record .axisFault (some 11)) = false ∧
    conditionPresent t (record .guardLong none) = true ∧ conditionPresent t (record .afterHours none) = true ∧
    conditionPresent t (record .supplySag none) = true ∧ conditionPresent t (record .showLinkLost none) = true ∧
    conditionPresent t (record .deskLinkLost none) = true ∧
    conditionPresent t (record .listFull none) = false := by decide +kernel

theorem witness_AlertLevelsAreReached_events :
    let s := { listed { faultRecord with level := 1 } with clock := 15000 }
    let t := { s with timing := { urgentTimes := ⟨0, 15, 15⟩ } }
    reading (fun u => u.deskQueue.events.map fun v => v.kind) (exec (.alertLevelReached 1) s)
        = some [.alertChanged] ∧
      reading (fun u => u.deskQueue.events.map fun v => v.kind) (exec (.alertLevelReached 1) t)
        = some [.alertChanged, .alertChanged] := by decide +kernel

theorem test_configScan_dayModeFirst :
    showReply (exec (.configScan .showPort 5 [3, 1, 32, 0]) State.reset) = some ⟨5, .badValue, []⟩ := by
  decide +kernel

theorem witness_HoldReaction_held :
    let s (st : ExhibitState) : State := (one .opened 15 { state := st, axes := [11] }).modAxis 11 fun x => { x with
      exhibit := some 15, state := .moving, move := some ⟨2000, 4, .cueStep 47 5⟩, drive := .on .forward 4 }
    let told (st : ExhibitState) (q : QueueName) := ((addHold .guard 15 (s st)).queue q).events.map fun v =>
      (v.kind, v.subject, v.step)
    (((s .running).exhibit 15).holds = {} ∧ ((s .running).exhibit 15).holds.has .guard = false ∧
      ((s .running).axis 11).state = .moving ∧ ((gallery .opened).axis 11).state = .disabled) ∧
    told .running .showQ = [(.exhibitState, none, none), (.axisHeld, some 11, some 5)] ∧
    told .held .showQ = [(.axisHeld, some 11, some 5)] ∧
    told .service .serviceQ = [(.axisHeld, some 11, some 5)] := by decide +kernel

theorem witness_AxisFaultStopsItsExhibit_order :
    let s (st : ExhibitState) : State := (one .opened 15 { state := st, active := some 47, queue := [46]
                                                           axes := [11] }).modAxis 11 fun x => { x with
      exhibit := some 15, state := .accelerating, move := some ⟨2000, 4, .cueStep 47 5⟩ }
    let t := faultAxis 11 .noSettle (s .held)
    (((s .held).axis 11).exhibit = some 15 ∧ ((s .service).exhibit 15).state = .service ∧
      ((s .faulted).exhibit 15).state = .faulted ∧ ((s .closed).exhibit 15).state = .closed ∧
      ((gallery .opened).axis 11).exhibit = none) ∧
    t.showQueue.events.map (fun v => (v.kind, v.subject, v.value, v.step))
      = [(.axisFault, some 11, some 5, some 5), (.exhibitState, none, some 4, none),
          (.cueRetired, some 47, some 2, none), (.cueRetired, some 46, some 1, none)] ∧
    t.deskQueue.events.map (fun v => v.kind)
      = [.axisFault, .alertRaised, .alertChanged, .exhibitState] ∧
    t.retiredList.map (fun r => (r.frame, r.outcome, r.faultAxis))
      = [(47, .faulted, some 11), (46, .cancelled, none)] := by decide +kernel

theorem witness_ArbiterGrantsTheHead_stale :
    let s := (gallery .opened).modArbiter fun y => { y with startQueue := [11, 0], unitsInUse := 4 }
    s.arbiter.startQueue = 11 :: [0] ∧ frozen s = false ∧ positionSampleOf s 11 = none ∧
      (s.axis 11).startCost ≤ s.timing.startBudget - s.arbiter.unitsInUse := by decide +kernel

theorem witness_ScanListAndScanOnce_firstBad :
    showReply (exec (.scanList .showPort 5 [4, 0, 0, 31, 2, 32, 0, 99, 7]) (gallery .opened))
        = some ⟨5, .badValue, [1]⟩ ∧
      showReply (exec (.configScan .showPort 5 [0, 4, 0, 0, 31, 2, 32, 0, 99, 7]) State.reset)
        = some ⟨5, .badValue, [1]⟩ := by decide +kernel

end Sys2Proof.Tests
end

section
/-! PROOFS. The state at reset and the clock tick (O3, O60). -/

namespace Sys2Proof.Machine

/-- Settles O3: every table of `State.reset` is filled with one record, the others are read off. -/
theorem resetState : Obligations.ResetState := by
  have entry : ∀ {α : Type} {n : Nat} (x : α) (i : Fin n), (Vector.replicate n x).get i = x := by
    intro α n x i; simp [get_as_index]
  unfold Obligations.ResetState
  refine ⟨rfl, rfl, rfl, rfl, rfl, fun e => entry _ e, fun l => entry _ l, fun q => by cases q <;> rfl,
    fun c => entry _ c, rfl, rfl, fun a => entry _ a, rfl, rfl, rfl, rfl, fun a => entry _ a, fun f => entry _ f,
    rfl, rfl, rfl, fun m => by cases m <;> rfl, fun e => entry _ e, rfl, rfl, rfl, rfl, rfl, rfl, rfl, rfl,
    fun m => by cases m <;> exact ⟨rfl, rfl⟩, rfl, fun i => entry _ i⟩

/-- Settles O60: the tick is a map over every table and every timer, and `less`, `step` and `note` are the maps. -/
theorem clockTickAdvancesTimers : Obligations.ClockTickAdvancesTimers := by
  intro s hs less step note
  have hless : less = tickTimer := by funext t; cases t <;> rfl
  have hstep : step = StepRun.tick := by
    funext r; unfold step StepRun.tick; cases r.timer <;> rfl
  refine ⟨clockTick s, occur_next hs, rfl, rfl, ?_⟩
  rw [hless, hstep]
  refine ⟨fun e => get_mapTable _ _ _, fun a => get_mapTable _ _ _, fun a => get_mapTable _ _ _, rfl, rfl,
    fun f => get_mapTable _ _ _, ?_, fun m => by cases m <;> rfl, rfl, rfl, rfl⟩
  show s.annunciators.tick = _
  unfold Annunciators.tick ToneArbiter.tick
  cases s.annunciators.tone <;> rfl
end Sys2Proof.Machine
end

section
/-! PROOFS. Numbers out of range, and the status records of exhibits and lines (O19, O28). -/

namespace Sys2Proof.Machine

/-! ## Numbers above their ranges -/

/-- A first byte out of range names no index. -/
theorem indexAt_above {n : Nat} {b : Byte} (rest : List Byte) (h : n ≤ b.toNat) : indexAt n (b :: rest) 0 = none := by
  unfold indexAt
  rw [byteAt_cons_zero, dif_neg (by omega)]

/-- The commands that name an exhibit refuse a number that is none. -/
theorem body_of_noExhibit {c : Command} {port : Port} {p : List Byte} {s : State}
    (hc : c ∈ [.exhibitOpen, .exhibitClose, .exhibitHold, .exhibitRelease, .faultClear, .exhibitStatus, .cuePost,
        .cueCancel, .cueFlush, .cueStatus, .servicePermit, .serviceRevoke, .exhibitTake, .exhibitGive,
        .configExhibit]) (h : exhibitAt p 0 = none) : c.body port p s = refuse .noSuch s := by
  fin_cases hc <;>
    simp only [Command.body, exhibitOpenBody, exhibitCloseBody, exhibitHoldBody, exhibitReleaseBody, faultClearBody,
      exhibitStatusBody, cuePostBody, cueCancelBody, cueFlushBody, cueStatusBody, servicePermitBody,
      serviceRevokeBody, exhibitTakeBody, exhibitGiveBody, configExhibitBody, onExhibit, h]

/-- The commands that name a line refuse a number that is none. -/
theorem body_of_noLine {c : Command} {port : Port} {p : List Byte} {s : State}
    (hc : c ∈ [.lineEnable, .lineDisable, .lineStatus, .configLine]) (h : lineAt p 0 = none) :
    c.body port p s = refuse .noSuch s := by
  fin_cases hc <;>
    simp only [Command.body, lineEnableBody, lineDisableBody, setEnabled, lineStatusBody, configLineBody, onLine, h]

/-- The commands that name a channel refuse a number above 31. -/
theorem body_of_noChannel {c : Command} {port : Port} {p : List Byte} {s : State}
    (hc : c ∈ [.scanLimits, .senseRead, .configChannel]) (h : channelAt p 0 = none) (hb : 31 < byteAt p 0) :
    c.body port p s = refuse .noSuch s := by
  fin_cases hc <;> simp only [Command.body, scanLimitsBody, senseReadBody, configChannelBody, h, if_pos hb]

/-- The commands that name an axis refuse a number that is none. -/
theorem body_of_noAxis {c : Command} {port : Port} {p : List Byte} {s : State}
    (hc : c ∈ [.jog, .axisStatus, .configAxis]) (h : axisAt p 0 = none) : c.body port p s = refuse .noSuch s := by
  fin_cases hc <;> simp only [Command.body, jogBody, axisStatusBody, configAxisBody, onAxis, h]

/-- The commands that name a frame first refuse a number that is none. -/
theorem body_of_noFrame {c : Command} {port : Port} {p : List Byte} {s : State}
    (hc : c ∈ [.frameWrite, .frameDrop]) (h : frameAt p 0 = none) : c.body port p s = refuse .noSuch s := by
  fin_cases hc <;> simp only [Command.body, frameWriteBody, frameDropBody, onFrame, h]

/-- The commands that name a tone pattern refuse a number that is none. -/
theorem body_of_noPattern {c : Command} {port : Port} {p : List Byte} {s : State}
    (hc : c ∈ [.chime, .configTone]) (h : patternAt p 0 = none) : c.body port p s = refuse .noSuch s := by
  fin_cases hc <;> simp only [Command.body, chimeBody, configToneBody, h]

/-- A CUE-POST whose frame is out of range is refused NO_SUCH whatever its exhibit (R125). -/
theorem cuePostBody_above {b f : Byte} (h : 47 < f.toNat) (port : Port) (s : State) :
    cuePostBody port [b, f] s = refuse .noSuch s := by
  have hf : frameAt [b, f] 1 = none := by
    unfold frameAt indexAt
    rw [byteAt_cons_succ, byteAt_cons_zero, dif_neg (by omega)]
  unfold cuePostBody onExhibit onFrame
  rw [hf]
  split <;> rfl

/-- Settles O19: each command of a list reads its number first, and the frame of CUE-POST before its checks. -/
theorem numbersAboveRangeAreNoSuch : Obligations.NumbersAboveRangeAreNoSuch := by
  intro c port b rest s had hlen hok
  have answer : c.body port (b :: rest) s = refuse .noSuch s → Answers c port (b :: rest) s .noSuch [] s :=
    fun h => answers_body had (by rw [List.length_cons]; omega) hok h
  exact ⟨fun hc hb => answer (body_of_noExhibit hc (indexAt_above rest hb)),
    fun hc hb => answer (body_of_noLine hc (indexAt_above rest hb)),
    fun hc hb => answer (body_of_noChannel hc (indexAt_above rest hb) hb),
    fun hc hb => answer (body_of_noAxis hc (indexAt_above rest hb)),
    fun hc hb => answer (body_of_noFrame hc (indexAt_above rest hb)),
    fun hc hb => answer (body_of_noPattern hc (indexAt_above rest hb)),
    fun f hc hr hb => answer (by subst hc hr; exact cuePostBody_above hb port s)⟩

/-! ## Status records -/

theorem indexList_eq {n : Nat} (l : List (Fin n)) :
    indexList l = BitVec.ofNat 8 l.length :: l.map fun i => BitVec.ofNat 8 i.val := by
  unfold indexList listBytes
  rw [List.length_map]
  refine congrArg (BitVec.ofNat 8 l.length :: ·) ?_
  induction l with
  | nil => rfl
  | cons i l ih => exact congrArg (BitVec.ofNat 8 i.val :: ·) ih

/-- EXHIBIT-STATUS answers its record. -/
theorem exhibitStatus_answers {port : Port} {s : State} (h : Admitted .exhibitStatus port s) (e : ExhibitId) :
    Answers .exhibitStatus port (num1 e.val) s .ok (exhibitReport s e) s :=
  answers_body h (by simp) rfl (by simp only [Command.body, exhibitStatusBody, onExhibit, exhibitAt_one, accept])

/-- LINE-STATUS answers its record. -/
theorem lineStatus_answers {port : Port} {s : State} (h : Admitted .lineStatus port s) (l : LineId) :
    Answers .lineStatus port (num1 l.val) s .ok (lineReport s l) s :=
  answers_body h (by simp) rfl (by simp only [Command.body, lineStatusBody, onLine, lineAt_one, accept])

/-- Settles O28: both commands read their number and answer the record of that index, which is laid out as R200
gives. -/
theorem exhibitAndLineStatusReadRecords : Obligations.ExhibitAndLineStatusReadRecords := by
  have hmode : ∀ s : State, s.mode ∈ everyMode := fun s => by cases s.mode <;> decide
  have hport : ∀ port : Port, port ∈ everyPort := fun port => by cases port <;> decide
  refine ⟨fun port b s hr => ⟨fun hb => ?_, fun hb => ?_⟩, fun port e s hr => ?_, fun port l s hr => ?_⟩
  · exact answers_body ⟨hr, hport port, hmode s⟩ (by simp) rfl
      (body_of_noExhibit (by decide) (indexAt_above [] hb))
  · exact answers_body ⟨hr, hport port, hmode s⟩ (by simp) rfl (body_of_noLine (by decide) (indexAt_above [] hb))
  · intro x optional
    have hopt : ∀ {n : Nat} (i : Option (Fin n)), optional (i.map Fin.val) = optIndex i := fun i => by
      cases i <;> rfl
    have hrep := exhibitStatus_answers ⟨hr, hport port, hmode s⟩ e
    simp only [exhibitReport, indexList_eq, BusyPolicy.code, ← hopt] at hrep
    exact hrep
  · intro x optional
    have hopt : ∀ {n : Nat} (i : Option (Fin n)), optional (i.map Fin.val) = optIndex i := fun i => by
      cases i <;> rfl
    have hrole : ∀ r : Option LineRole, optional (r.map LineRole.code) = optBytes 1 (fun r => num1 r.code) r :=
      fun r => by cases r <;> rfl
    have hdest : ∀ d : Option PressDestination,
        optional (d.map PressDestination.code) = optBytes 1 (fun d => num1 d.code) d := fun d => by cases d <;> rfl
    have hlast : ∀ c : Option Clock,
        optBytes 4 clockBytes c = match c with | none => [0, 0, 0, 0, 0] | some c => 1 :: clockBytes c :=
      fun c => by cases c <;> rfl
    have hrep := lineStatus_answers ⟨hr, hport port, hmode s⟩ l
    simp only [lineReport, ← hopt, ← hrole, ← hdest, hlast] at hrep
    exact hrep
end Sys2Proof.Machine
end

section
/-! SUPPORT. What an operation of the floor leaves, and what the loops over axes do: one lemma for every operation
that takes an axis out of the start arbiter. -/

namespace Sys2Proof.Machine

/-! ## What an operation leaves: the state with the fields it may touch blanked

Two states that agree under such a view agree in every field the view shows; `congrArg` reads one off. -/

/-- The state without its event queues. -/
def State.sansQueues (s : State) : State := { s with showQueue := {}, deskQueue := {}, serviceQueue := {} }

/-- The state without its axes, the start arbiter and the event queues. -/
def State.sansAxes (s : State) : State := { s.sansQueues with axes := Vector.replicate 12 {}, arbiter := {} }

/-- The state without its lines and the event queues. -/
def State.sansLines (s : State) : State := { s.sansQueues with lines := Vector.replicate 64 {} }

/-- The state without its exhibits and the event queues. -/
def State.sansExhibits (s : State) : State := { s.sansQueues with exhibits := Vector.replicate 16 {} }

/-- The state without its alerts, the annunciators and the event queues. -/
def State.sansAlerts (s : State) : State := { s.sansQueues with alerts := {}, annunciators := {} }

/-- The state without what cues move: the exhibits, the frames, the retired list, the axes, the arbiter and the
event queues. -/
def State.sansCues (s : State) : State :=
  { s.sansAxes with
    exhibits := Vector.replicate 16 {}, frames := Vector.replicate 48 {}, retiredList := [] }

/-- What every pass through a loop's body leaves, the loop leaves. -/
theorem forList_keeps {α β : Type} (g : State → β) {f : α → State → State} (h : ∀ a s, g (f a s) = g s) :
    ∀ (l : List α) (s : State), g (forList l f s) = g s
  | [], _ => rfl
  | a :: l, s => (forList_keeps g h l (f a s)).trans (h a s)

theorem forEach_keeps {n : Nat} {β : Type} (g : State → β) {f : Fin n → State → State}
    (h : ∀ a s, g (f a s) = g s) (s : State) : g (forEach f s) = g s := forList_keeps g h _ s

@[simp] theorem forList_nil {α : Type} (f : α → State → State) (s : State) : forList [] f s = s := rfl

@[simp] theorem forList_cons {α : Type} (a : α) (l : List α) (f : α → State → State) (s : State) :
    forList (a :: l) f s = forList l f (f a s) := rfl

@[simp] theorem emit_sansQueues (qs : List QueueName) (v : Event) (s : State) :
    (emit qs v s).sansQueues = s.sansQueues := emit_keeps _ (fun q _ _ => by cases q <;> rfl) qs v s

/-- An event that is appended is seen in the queues alone. -/
theorem emit_view {β : Type} {g : State → β} (hg : ∀ s, g s = g s.sansQueues) (qs : List QueueName) (v : Event)
    (s : State) : g (emit qs v s) = g s := by
  rw [hg, emit_sansQueues, ← hg]

@[simp] theorem emit_sansAxes (qs : List QueueName) (v : Event) (s : State) :
    (emit qs v s).sansAxes = s.sansAxes := emit_view (g := State.sansAxes) (fun _ => rfl) qs v s

@[simp] theorem emit_sansLines (qs : List QueueName) (v : Event) (s : State) :
    (emit qs v s).sansLines = s.sansLines := emit_view (g := State.sansLines) (fun _ => rfl) qs v s

@[simp] theorem emit_sansExhibits (qs : List QueueName) (v : Event) (s : State) :
    (emit qs v s).sansExhibits = s.sansExhibits := emit_view (g := State.sansExhibits) (fun _ => rfl) qs v s

@[simp] theorem emit_sansAlerts (qs : List QueueName) (v : Event) (s : State) :
    (emit qs v s).sansAlerts = s.sansAlerts := emit_view (g := State.sansAlerts) (fun _ => rfl) qs v s

@[simp] theorem emit_sansCues (qs : List QueueName) (v : Event) (s : State) :
    (emit qs v s).sansCues = s.sansCues := emit_view (g := State.sansCues) (fun _ => rfl) qs v s

/-! ## Axes -/

@[simp] theorem releaseAxis_sansAxes (a : AxisId) (s : State) : (releaseAxis a s).sansAxes = s.sansAxes := by
  unfold releaseAxis; split <;> rfl

/-- What a stop makes of an axis (R92). -/
def Axis.stopped (x : Axis) : Axis := { x.quit with state := .idle, move := none, corrections := 0 }

/-- What a hold makes of an axis (R95). -/
def Axis.onHold (x : Axis) : Axis := { x.quit with state := .held }

/-- What the closing of its exhibit makes of an axis (R98). -/
def Axis.shut (x : Axis) : Axis :=
  { x.quit with state := .disabled, move := none, fault := none, corrections := 0, suppress := false }

/-- Whether an axis has a pending move of frame `f`. -/
def Axis.movedBy (f : FrameId) (x : Axis) : Bool :=
  match x.move with
  | some ⟨_, _, .cueStep g _⟩ => g = f
  | _ => false

/-- An operation on one axis: where `p` holds of it, it becomes `g` of itself, and no other axis changes. -/
structure AxisWise (op : AxisId → State → State) (p : Axis → Bool) (g : Axis → Axis) : Prop where
  axis : ∀ a b s, (op a s).axis b = if b = a ∧ p (s.axis b) = true then g (s.axis b) else s.axis b
  again : ∀ x, g (g x) = g x

/-- What a loop makes of an axis. -/
theorem AxisWise.list_axis {op : AxisId → State → State} {p : Axis → Bool} {g : Axis → Axis} (h : AxisWise op p g)
    (l : List AxisId) (s : State) (b : AxisId) :
    (forList l op s).axis b = if b ∈ l ∧ p (s.axis b) = true then g (s.axis b) else s.axis b := by
  induction l generalizing s with
  | nil => simp
  | cons a l ih =>
    rw [forList_cons, ih, h.axis]
    by_cases hb : b = a ∧ p (s.axis b) = true
    · rw [if_pos hb, h.again, ite_self, if_pos ⟨List.mem_cons.2 (.inl hb.1), hb.2⟩]
    · rw [if_neg hb]
      refine if_congr ⟨fun h => ⟨List.mem_cons_of_mem _ h.1, h.2⟩, fun h => ⟨?_, h.2⟩⟩ rfl rfl
      exact (List.mem_cons.1 h.1).resolve_left fun he => hb ⟨he, h.2⟩

/-- An operation that takes an axis out of the start arbiter: where `p` holds of it, the axis is released and
becomes `g` of itself, and nothing else but the event queues changes. -/
structure Withdraws (op : AxisId → State → State) (p : Axis → Bool) (g : Axis → Axis) : Prop
    extends AxisWise op p g where
  arbiter : ∀ a s, (op a s).arbiter = if p (s.axis a) = true then (releaseAxis a s).arbiter else s.arbiter
  rest : ∀ a s, (op a s).sansAxes = s.sansAxes
  claims : ∀ x, (g x).state.claims = false
  standing : ∀ x, (g x).standing = x.standing

/-- The record of one axis after an update of one. -/
theorem axis_modAxis (s : State) (a b : AxisId) (f : Axis → Axis) :
    (s.modAxis a f).axis b = if b = a then f (s.axis a) else s.axis b := get_modTable _ _ _ _

/-- An axis that is released and updated where `p` holds of it, with at most an event more. -/
theorem Withdraws.of {op : AxisId → State → State} {p : Axis → Bool} {g : Axis → Axis}
    (acts : ∀ a s, p (s.axis a) = true → (op a s).sansQueues = ((releaseAxis a s).modAxis a g).sansQueues)
    (idles : ∀ a s, p (s.axis a) = false → op a s = s) (again : ∀ x, g (g x) = g x)
    (claims : ∀ x, (g x).state.claims = false) (standing : ∀ x, (g x).standing = x.standing) :
    Withdraws op p g where
  axis a b s := by
    cases hp : p (s.axis a) with
    | true =>
      have h : (op a s).axis b = ((releaseAxis a s).modAxis a g).axis b := (congrArg (State.axis · b) (acts a s hp) :)
      rw [h, axis_modAxis, releaseAxis_axis, releaseAxis_axis]
      by_cases hb : b = a
      · subst hb; rw [if_pos rfl, if_pos ⟨rfl, hp⟩]
      · rw [if_neg hb, if_neg fun h => hb h.1]
    | false =>
      rw [idles a s hp, if_neg]
      rintro ⟨rfl, h⟩
      rw [hp] at h
      cases h
  arbiter a s := by
    cases hp : p (s.axis a) with
    | true => exact (congrArg State.arbiter (acts a s hp) :)
    | false => rw [idles a s hp]; rfl
  rest a s := by
    cases hp : p (s.axis a) with
    | true => exact (congrArg State.sansAxes (acts a s hp) :).trans (releaseAxis_sansAxes a s)
    | false => rw [idles a s hp]
  again := again
  claims := claims
  standing := standing

theorem stopAxis_withdraws : Withdraws stopAxis (fun x => x.state.busy) Axis.stopped :=
  .of (fun a s h => by unfold stopAxis; rw [if_pos h]; rfl)
    (fun a s h => by unfold stopAxis; rw [if_neg (by simp [h])]) (fun _ => rfl) (fun _ => rfl) fun _ => rfl

theorem holdAxis_withdraws : Withdraws holdAxis (fun x => x.state.working) Axis.onHold :=
  .of (fun a s h => by unfold holdAxis; rw [if_pos h]; exact emit_sansQueues _ _ _)
    (fun a s h => by unfold holdAxis; rw [if_neg (by simp [h])]) (fun _ => rfl) (fun _ => rfl) fun _ => rfl

theorem disableAxis_withdraws : Withdraws disableAxis (fun _ => true) Axis.shut :=
  .of (fun _ _ _ => rfl) (fun _ _ h => by cases h) (fun _ => rfl) (fun _ => rfl) fun _ => rfl

/-- The body of the loop that stops the axes of a frame (R97). -/
theorem stopMoved_withdraws (f : FrameId) :
    Withdraws (fun a t => if moveOfFrame t f a then stopAxis a t else t)
      (fun x => x.movedBy f && x.state.busy) Axis.stopped :=
  .of (fun a s h => by
      obtain ⟨hm, hb⟩ := Bool.and_eq_true_iff.1 h
      have hm : moveOfFrame s f a = true := hm
      rw [if_pos hm]
      unfold stopAxis; rw [if_pos hb]; rfl)
    (fun a s h => by
      split
      · rename_i hm
        have hm : (s.axis a).movedBy f = true := hm
        rw [hm, Bool.true_and] at h
        unfold stopAxis; rw [if_neg (by simp [h])]
      · rfl) (fun _ => rfl) (fun _ => rfl) fun _ => rfl

namespace Withdraws

variable {op : AxisId → State → State} {p : Axis → Bool} {g : Axis → Axis}

theorem list_rest (h : Withdraws op p g) (l : List AxisId) (s : State) : (forList l op s).sansAxes = s.sansAxes :=
  forList_keeps _ h.rest l s

/-- The start queue after one axis is withdrawn. -/
theorem startQueue (h : Withdraws op p g) (a : AxisId) (s : State) :
    (op a s).arbiter.startQueue = s.arbiter.startQueue.filter fun b =>
      !(b = a && p (s.axis b) && (s.axis b).state = .waitingStart) := by
  have none_out : (p (s.axis a) && (s.axis a).state = .waitingStart) = false →
      s.arbiter.startQueue = s.arbiter.startQueue.filter fun b =>
        !(b = a && p (s.axis b) && (s.axis b).state = .waitingStart) := fun hn =>
    (List.filter_eq_self.2 fun b _ => by
      by_cases hb : b = a
      · subst hb; rw [Bool.and_assoc, hn]; simp
      · simp [hb]).symm
  rw [h.arbiter]
  split
  · rename_i hp
    by_cases hw : (s.axis a).state = .waitingStart
    · unfold releaseAxis
      rw [hw]
      refine List.filter_congr fun b _ => ?_
      by_cases hb : b = a
      · subst hb; simp [hp, hw]
      · simp [hb]
    · refine Eq.trans ?_ (none_out (by simp [hw]))
      unfold releaseAxis
      split
      · rename_i hx; exact absurd hx hw
      all_goals rfl
  · rename_i hp
    exact none_out (by simp [hp])

/-- The units of an axis that is withdrawn. -/
def unitsOf (p : Axis → Bool) (x : Axis) : Nat := if p x ∧ x.state = .accelerating then x.startCost else 0

theorem unitsOf_again (h : Withdraws op p g) (x : Axis) : unitsOf p (g x) = 0 :=
  if_neg fun hx => by have := h.claims x; rw [hx.2] at this; cases this

/-- The units in use after one axis is withdrawn. -/
theorem unitsInUse (h : Withdraws op p g) (a : AxisId) (s : State) :
    (op a s).arbiter.unitsInUse = s.arbiter.unitsInUse - unitsOf p (s.axis a) := by
  rw [h.arbiter]
  unfold unitsOf
  by_cases hp : p (s.axis a) = true
  · rw [if_pos hp]
    by_cases hx : (s.axis a).state = .accelerating
    · unfold releaseAxis; rw [hx, if_pos ⟨hp, rfl⟩]; rfl
    · rw [if_neg fun h => hx h.2]
      unfold releaseAxis
      split
      · rfl
      · rename_i hy; exact absurd hy hx
      all_goals rfl
  · rw [if_neg hp, if_neg fun h => hp h.1]; rfl

/-- The acceleration timers after one axis is withdrawn. -/
theorem accel (h : Withdraws op p g) (a b : AxisId) (s : State) :
    (op a s).arbiter.accel.get b
      = if b = a ∧ p (s.axis b) ∧ (s.axis b).state = .accelerating then none else s.arbiter.accel.get b := by
  rw [h.arbiter]
  by_cases hp : p (s.axis a) = true ∧ (s.axis a).state = .accelerating
  · have hr : releaseAxis a s = returnUnits a s := by unfold releaseAxis; rw [hp.2]
    rw [if_pos hp.1, hr]
    refine (get_modTable _ _ _ _).trans (if_congr ?_ rfl rfl)
    exact ⟨fun he => by subst he; exact ⟨rfl, hp⟩, And.left⟩
  · rw [if_neg (c := b = a ∧ _) (by rintro ⟨rfl, hb⟩; exact hp hb)]
    split
    · rename_i hpa
      unfold releaseAxis
      split
      · rfl
      · rename_i hx; exact absurd ⟨hpa, hx⟩ hp
      all_goals rfl
    · rfl

/-- The sag is not the axes' concern. -/
theorem sag (h : Withdraws op p g) (a : AxisId) (s : State) :
    (op a s).arbiter.sag = s.arbiter.sag ∧ (op a s).arbiter.sagTimer = s.arbiter.sagTimer := by
  rw [h.arbiter]
  split
  · unfold releaseAxis; split <;> exact ⟨rfl, rfl⟩
  · exact ⟨rfl, rfl⟩

theorem list_sag (h : Withdraws op p g) (l : List AxisId) (s : State) :
    (forList l op s).arbiter.sag = s.arbiter.sag ∧ (forList l op s).arbiter.sagTimer = s.arbiter.sagTimer :=
  ⟨forList_keeps (fun t => t.arbiter.sag) (fun a t => (h.sag a t).1) l s,
    forList_keeps (fun t => t.arbiter.sagTimer) (fun a t => (h.sag a t).2) l s⟩

/-- What is withdrawn is not withdrawn again: the axes a longer loop takes out are those its first pass takes and
those the rest takes from the state before. -/
theorem claims_iff (h : Withdraws op p g) {a b : AxisId} {s : State} {st : AxisState} (hst : st.claims = true) :
    p ((op a s).axis b) = true ∧ ((op a s).axis b).state = st ↔
      ¬ (b = a ∧ p (s.axis b) = true) ∧ p (s.axis b) = true ∧ (s.axis b).state = st := by
  rw [h.axis]
  split
  · rename_i hb
    refine ⟨fun hx => ?_, fun hx => absurd hb hx.1⟩
    have := h.claims (s.axis b)
    rw [hx.2, hst] at this
    cases this
  · rename_i hb
    exact ⟨fun hx => ⟨hb, hx⟩, And.right⟩

/-- The axes a loop takes out of the start queue. -/
theorem list_startQueue (h : Withdraws op p g) (l : List AxisId) (s : State) :
    (forList l op s).arbiter.startQueue = s.arbiter.startQueue.filter fun b =>
      !(b ∈ l && p (s.axis b) && (s.axis b).state = .waitingStart) := by
  induction l generalizing s with
  | nil => simp
  | cons a l ih =>
    rw [forList_cons, ih, h.startQueue, List.filter_filter]
    refine List.filter_congr fun b _ => ?_
    have hc := h.claims_iff (a := a) (b := b) (s := s) (st := .waitingStart) rfl
    rw [Bool.eq_iff_iff]
    simp only [Bool.and_eq_true, Bool.not_eq_true', ← Bool.not_eq_true, decide_eq_true_eq, List.mem_cons,
      and_assoc, hc]
    tauto

/-- The units a loop returns. -/
theorem list_unitsInUse (h : Withdraws op p g) (l : List AxisId) (s : State) :
    (forList l op s).arbiter.unitsInUse
      = s.arbiter.unitsInUse - ∑ b : Fin 12, if b ∈ l then unitsOf p (s.axis b) else 0 := by
  induction l generalizing s with
  | nil => simp
  | cons a l ih =>
    rw [forList_cons, ih, h.unitsInUse, Nat.sub_sub]
    refine congrArg (s.arbiter.unitsInUse - ·) ?_
    have hs := sum_change (a := a) (f := fun b => if b ∈ l then unitsOf p ((op a s).axis b) else 0)
      (g := fun b => if b ∈ a :: l then unitsOf p (s.axis b) else 0) fun b hb => by
        simp [hb, h.axis]
    have h0 : (if a ∈ l then unitsOf p ((op a s).axis a) else 0) = 0 := by
      rw [h.axis]
      split
      · split
        · exact h.unitsOf_again _
        · rename_i hp
          exact if_neg fun hx => hp ⟨rfl, hx.1⟩
      · rfl
    beta_reduce at hs
    rw [h0, if_pos List.mem_cons_self] at hs
    omega

/-- The acceleration timers a loop cancels. -/
theorem list_accel (h : Withdraws op p g) (l : List AxisId) (s : State) (b : AxisId) :
    (forList l op s).arbiter.accel.get b
      = if b ∈ l ∧ p (s.axis b) ∧ (s.axis b).state = .accelerating then none else s.arbiter.accel.get b := by
  induction l generalizing s with
  | nil => simp
  | cons a l ih =>
    have hc := h.claims_iff (a := a) (b := b) (s := s) (st := .accelerating) rfl
    rw [forList_cons, ih, h.accel]
    simp only [hc, List.mem_cons]
    by_cases hb : b = a ∧ p (s.axis b) = true ∧ (s.axis b).state = .accelerating
    · rw [if_pos hb, ite_self, if_pos ⟨.inl hb.1, hb.2⟩]
    · rw [if_neg hb]
      refine if_congr ?_ rfl rfl
      tauto

/-- An axis that waits is no longer in the start queue after a loop over it. -/
theorem not_mem_startQueue (h : Withdraws op p g) {l : List AxisId} {s : State} {b : AxisId} (hb : b ∈ l)
    (hp : p (s.axis b) = true) (hw : (s.axis b).state = .waitingStart) :
    b ∉ (forList l op s).arbiter.startQueue := by
  rw [h.list_startQueue]
  simp [hb, hp, hw]

/-- A loop adds nothing to the start queue. -/
theorem startQueue_subset (h : Withdraws op p g) (l : List AxisId) (s : State) :
    (forList l op s).arbiter.startQueue ⊆ s.arbiter.startQueue := by
  rw [h.list_startQueue]
  exact fun b hb => (List.mem_filter.1 hb).1

end Withdraws
end Sys2Proof.Machine
end

section
/-! SUPPORT. The effects of the shared operations on the records: an exhibit's change of state, the alert list, the
evaluation of lines. -/

namespace Sys2Proof.Machine

/-- A DISABLED axis as its exhibit comes into use (R81). -/
def Axis.enabled (x : Axis) : Axis :=
  { x with state := .idle, move := none, drive := .off, corrections := 0, fault := none }

theorem enableAxis_axisWise : AxisWise enableAxis (fun x => x.state = .disabled) Axis.enabled where
  axis a b s := by
    unfold enableAxis
    split
    · rename_i h
      rw [axis_modAxis]
      by_cases hb : b = a
      · subst hb; simp [h, Axis.enabled]
      · simp [hb]
    · rename_i h
      rw [if_neg]
      rintro ⟨rfl, hx⟩
      exact h (by simpa using hx)
  again _ := rfl

/-- Enabling axes changes the axes alone. -/
theorem forList_enableAxis_eq (l : List AxisId) (s : State) :
    forList l enableAxis s = { s with axes := (forList l enableAxis s).axes } := by
  induction l generalizing s with
  | nil => rfl
  | cons a l ih =>
    rw [forList_cons, ih]
    unfold enableAxis
    split <;> rfl

/-! ## Exhibits -/

/-- The record of one exhibit after an update of one. -/
theorem exhibit_modExhibit (s : State) (e k : ExhibitId) (f : Exhibit → Exhibit) :
    (s.modExhibit e f).exhibit k = if k = e then f (s.exhibit e) else s.exhibit k := get_modTable _ _ _ _

@[simp] theorem changeState_sansExhibits (e : ExhibitId) (n : ExhibitState) (s : State) :
    (changeState e n s).sansExhibits = s.sansExhibits := emit_sansExhibits _ _ _

@[simp] theorem changeState_clock (e : ExhibitId) (n : ExhibitState) (s : State) :
    (changeState e n s).clock = s.clock := (congrArg State.clock (changeState_sansExhibits e n s) :)

@[simp] theorem changeState_axes (e : ExhibitId) (n : ExhibitState) (s : State) :
    (changeState e n s).axes = s.axes := (congrArg State.axes (changeState_sansExhibits e n s) :)

@[simp] theorem changeState_axis (e : ExhibitId) (n : ExhibitState) (s : State) (a : AxisId) :
    (changeState e n s).axis a = s.axis a := (congrArg (State.axis · a) (changeState_sansExhibits e n s) :)

@[simp] theorem changeState_frames (e : ExhibitId) (n : ExhibitState) (s : State) :
    (changeState e n s).frames = s.frames := (congrArg State.frames (changeState_sansExhibits e n s) :)

@[simp] theorem changeState_arbiter (e : ExhibitId) (n : ExhibitState) (s : State) :
    (changeState e n s).arbiter = s.arbiter := (congrArg State.arbiter (changeState_sansExhibits e n s) :)

theorem changeState_exhibit (e k : ExhibitId) (n : ExhibitState) (s : State) :
    (changeState e n s).exhibit k
      = if k = e then { s.exhibit e with state := n, lastChange := s.clock } else s.exhibit k := by
  unfold changeState
  rw [emit_exhibit, exhibit_modExhibit]

@[simp] theorem changeState_exhibit_same (e : ExhibitId) (n : ExhibitState) (s : State) :
    (changeState e n s).exhibit e = { s.exhibit e with state := n, lastChange := s.clock } := by
  rw [changeState_exhibit, if_pos rfl]

theorem changeState_exhibit_other (e : ExhibitId) (n : ExhibitState) (s : State) {k : ExhibitId} (h : k ≠ e) :
    (changeState e n s).exhibit k = s.exhibit k := by
  rw [changeState_exhibit, if_neg h]

/-- A set is empty exactly when it is the empty set. -/
theorem HoldSet.isEmpty_iff (h : HoldSet) : h.isEmpty = true ↔ h = {} := by
  obtain ⟨g, a, l, s⟩ := h
  cases g <;> cases a <;> cases l <;> cases s <;> simp [HoldSet.isEmpty]

/-- The suspension of step timers changes the frames alone (R133). -/
theorem suspendTimers_eq (e : ExhibitId) (s : State) :
    suspendTimers e s = { s with frames := (suspendTimers e s).frames } := by
  unfold suspendTimers; split <;> rfl

/-! ## Alerts -/

/-- An update of the annunciators is not seen without them. -/
theorem endSilence_sansAlerts (s : State) : (endSilence s).sansAlerts = s.sansAlerts := rfl

theorem alertChanged_sansAlerts (r : AlertRecord) (s : State) : (alertChanged r s).sansAlerts = s.sansAlerts :=
  emit_sansAlerts _ _ _

theorem reachLevel_sansAlerts (r : AlertRecord) (s : State) : (reachLevel r s).sansAlerts = s.sansAlerts := by
  unfold reachLevel
  dsimp only
  split
  · exact (endSilence_sansAlerts _).trans (alertChanged_sansAlerts _ _)
  · exact alertChanged_sansAlerts _ _

theorem climb_sansAlerts (fuel : Nat) (n : BitVec 16) (limit : Nat) (s : State) :
    (climb fuel n limit s).sansAlerts = s.sansAlerts := by
  induction fuel generalizing s with
  | zero => rfl
  | succ fuel ih =>
    unfold climb
    split
    · rfl
    · split
      · exact (ih _).trans (reachLevel_sansAlerts _ s)
      · rfl

theorem climbElapsed_sansAlerts (n : BitVec 16) (s : State) : (climbElapsed n s).sansAlerts = s.sansAlerts := by
  unfold climbElapsed
  split
  · rfl
  · exact climb_sansAlerts _ _ _ s

theorem countOn_sansAlerts (t : Trigger) (r : AlertRecord) (s : State) :
    (countOn t r s).sansAlerts = s.sansAlerts := by
  unfold countOn
  dsimp only
  split
  · exact alertChanged_sansAlerts _ _
  · exact (climbElapsed_sansAlerts _ _).trans (alertChanged_sansAlerts _ _)

theorem reopen_sansAlerts (t : Trigger) (r : AlertRecord) (s : State) : (reopen t r s).sansAlerts = s.sansAlerts :=
  (climbElapsed_sansAlerts _ _).trans (alertChanged_sansAlerts _ _)

theorem createRecord_sansAlerts (t : Trigger) (s : State) : (createRecord t s).sansAlerts = s.sansAlerts :=
  (climbElapsed_sansAlerts _ _).trans (emit_sansAlerts _ _ _)

theorem triggerListFull_sansAlerts (s : State) : (triggerListFull s).sansAlerts = s.sansAlerts := by
  unfold triggerListFull
  dsimp only
  split
  · split
    · exact countOn_sansAlerts _ _ s
    · exact reopen_sansAlerts _ _ s
  · exact createRecord_sansAlerts _ s

theorem storeTrigger_sansAlerts (t : Trigger) (s : State) : (storeTrigger t s).1.sansAlerts = s.sansAlerts := by
  unfold storeTrigger
  split
  · dsimp only
    split
    · exact countOn_sansAlerts _ _ s
    · exact reopen_sansAlerts _ _ s
  · split
    · exact createRecord_sansAlerts _ s
    · split
      · exact (createRecord_sansAlerts _ _).trans (emit_sansAlerts _ _ _)
      · exact triggerListFull_sansAlerts s

theorem reevaluateTone_sansAlerts (s : State) : (reevaluateTone s).sansAlerts = s.sansAlerts := by
  unfold reevaluateTone
  split
  · rfl
  · rfl
  · rfl
  · split <;> rfl
  · rfl
  · exact emit_sansAlerts _ _ s

/-- A trigger touches the alert list, the annunciators and the event queues alone. -/
theorem raiseAlert_sansAlerts (t : Trigger) (s : State) : (raiseAlert t s).sansAlerts = s.sansAlerts :=
  (reevaluateTone_sansAlerts _).trans (storeTrigger_sansAlerts t s)

@[simp] theorem raiseAlert_exhibit (t : Trigger) (s : State) (e : ExhibitId) :
    (raiseAlert t s).exhibit e = s.exhibit e := (congrArg (State.exhibit · e) (raiseAlert_sansAlerts t s) :)

@[simp] theorem raiseAlert_axis (t : Trigger) (s : State) (a : AxisId) :
    (raiseAlert t s).axis a = s.axis a := (congrArg (State.axis · a) (raiseAlert_sansAlerts t s) :)

@[simp] theorem raiseAlert_arbiter (t : Trigger) (s : State) : (raiseAlert t s).arbiter = s.arbiter :=
  (congrArg State.arbiter (raiseAlert_sansAlerts t s) :)

@[simp] theorem raiseAlert_mode (t : Trigger) (s : State) : (raiseAlert t s).mode = s.mode :=
  (congrArg State.mode (raiseAlert_sansAlerts t s) :)

@[simp] theorem raiseAlert_frames (t : Trigger) (s : State) : (raiseAlert t s).frames = s.frames :=
  (congrArg State.frames (raiseAlert_sansAlerts t s) :)

@[simp] theorem raiseAlert_clock (t : Trigger) (s : State) : (raiseAlert t s).clock = s.clock :=
  (congrArg State.clock (raiseAlert_sansAlerts t s) :)

@[simp] theorem raiseAlert_retiredList (t : Trigger) (s : State) : (raiseAlert t s).retiredList = s.retiredList :=
  (congrArg State.retiredList (raiseAlert_sansAlerts t s) :)

/-! ## Lines -/

theorem releasePress_sansLines (l : LineId) (v : Option (BitVec 16)) (s : State) :
    (releasePress l v s).sansLines = s.sansLines := by
  unfold releasePress
  dsimp only
  split
  · exact emit_sansLines _ _ s
  · rfl

theorem becomeInert_sansLines (l : LineId) (s : State) : (becomeInert l s).sansLines = s.sansLines :=
  releasePress_sansLines l _ s

/-- The evaluation of a line touches the lines and the event queues alone. -/
theorem evaluateLine_sansLines (l : LineId) (s : State) : (evaluateLine l s).sansLines = s.sansLines := by
  unfold evaluateLine
  split
  · split <;> rfl
  · split
    · rfl
    · exact becomeInert_sansLines l s

theorem evaluateExhibitLines_sansLines (e : ExhibitId) (s : State) :
    (evaluateExhibitLines e s).sansLines = s.sansLines :=
  forEach_keeps State.sansLines (fun l t => by
    split
    · exact evaluateLine_sansLines l t
    · rfl) s

/-- What a line becomes as it leaves INERT (R27). -/
def Line.awake (x : Line) : Line :=
  { x with
    state := if x.latest then .waitRelease else .released
    accepted := false, destination := none, debounceTimer := 0, stuckTimer := none }

/-- What a line becomes as it turns INERT (R28). -/
def Line.asleep (x : Line) : Line :=
  { x with state := .inert, accepted := false, destination := none, debounceTimer := 0, stuckTimer := none }

/-- What the evaluation of its liveness makes of a line (R26-R28). -/
def Line.evaluated (live : Bool) (x : Line) : Line :=
  if live then (if x.state = .inert then x.awake else x) else if x.state = .inert then x else x.asleep

/-- The record of one line after an update of one. -/
theorem line_modLine (s : State) (l k : LineId) (f : Line → Line) :
    (s.modLine l f).line k = if k = l then f (s.line l) else s.line k := get_modTable _ _ _ _

theorem emit_line (qs : List QueueName) (v : Event) (s : State) (k : LineId) : (emit qs v s).line k = s.line k :=
  (congrArg (State.line · k) (emit_sansQueues qs v s) :)

theorem releasePress_line (l k : LineId) (v : Option (BitVec 16)) (s : State) :
    (releasePress l v s).line k
      = if k = l then { s.line l with accepted := false, destination := none } else s.line k := by
  have h : ∀ t : State, (∀ j, t.line j = s.line j) →
      (t.modLine l fun y => { y with accepted := false, destination := none }).line k
        = if k = l then { s.line l with accepted := false, destination := none } else s.line k := fun t ht => by
    rw [line_modLine, ht, ht]
  unfold releasePress
  dsimp only
  split
  · exact h _ fun j => emit_line _ _ s j
  · exact h s fun _ => rfl

/-- What the evaluation of one line makes of the lines. -/
theorem evaluateLine_line (l k : LineId) (s : State) :
    (evaluateLine l s).line k = if k = l then (s.line l).evaluated (lineLive s l) else s.line k := by
  have same : ∀ x : Line, x = s.line l → s.line k = if k = l then x else s.line k := fun x hx => by
    split
    · rename_i h; subst h; exact hx.symm
    · rfl
  unfold evaluateLine Line.evaluated
  split
  · split
    · exact line_modLine _ _ _ _
    · exact same _ rfl
  · split
    · exact same _ rfl
    · unfold becomeInert
      rw [line_modLine, releasePress_line, releasePress_line, if_pos rfl]
      by_cases hk : k = l
      · rw [if_pos hk, if_pos hk]; rfl
      · rw [if_neg hk, if_neg hk, if_neg hk]

/-- Liveness looks at the line, the exhibits and the mode. -/
theorem lineLive_congr {s t : State} {l : LineId} (hl : t.line l = s.line l) (he : t.exhibits = s.exhibits)
    (hm : t.mode = s.mode) : lineLive t l = lineLive s l := by
  unfold lineLive State.exhibit
  rw [hl, he, hm]

/-- A loop over the lines in which each pass touches its own line, by what the rest of the state says. -/
theorem forEach_line {f : LineId → State → State} (g : State → LineId → Line)
    (hf : ∀ l k s, (f l s).line k = if k = l then g s l else s.line k)
    (hs : ∀ l s, (f l s).sansLines = s.sansLines)
    (hg : ∀ l s t, t.line l = s.line l → t.sansLines = s.sansLines → g t l = g s l) (s : State) (k : LineId) :
    (forEach f s).line k = g s k := by
  have key : ∀ (l : List LineId) (s : State), l.Nodup →
      (forList l f s).line k = if k ∈ l then g s k else s.line k := fun l => by
    induction l with
    | nil => simp
    | cons a l ih =>
      intro s hn
      obtain ⟨ha, hn⟩ := List.nodup_cons.1 hn
      rw [forList_cons, ih _ hn]
      by_cases hk : k = a
      · subst hk
        rw [if_neg ha, if_pos List.mem_cons_self, hf, if_pos rfl]
      · have hline : (f a s).line k = s.line k := by rw [hf, if_neg hk]
        rw [hg k s _ hline (hs a s), hline]
        simp [hk]
  exact (key _ s (List.nodup_finRange 64)).trans (if_pos (List.mem_finRange k))

theorem Line.evaluated_congr {s t : State} {l : LineId} (hl : t.line l = s.line l)
    (h : t.sansLines = s.sansLines) : (t.line l).evaluated (lineLive t l) = (s.line l).evaluated (lineLive s l) := by
  rw [lineLive_congr hl (congrArg State.exhibits h :) (congrArg State.mode h :), hl]

/-- What the evaluation of every line makes of one. -/
theorem evaluateLines_line (s : State) (k : LineId) :
    (evaluateLines s).line k = (s.line k).evaluated (lineLive s k) :=
  forEach_line (fun s l => (s.line l).evaluated (lineLive s l)) evaluateLine_line evaluateLine_sansLines
    (fun _ _ _ hl h => Line.evaluated_congr hl h) s k

/-- What the evaluation of an exhibit's lines makes of one. -/
theorem evaluateExhibitLines_line (e : ExhibitId) (s : State) (k : LineId) :
    (evaluateExhibitLines e s).line k
      = if (s.line k).exhibit = some e then (s.line k).evaluated (lineLive s k) else s.line k := by
  refine forEach_line (fun s l => if (s.line l).exhibit = some e then (s.line l).evaluated (lineLive s l) else s.line l)
    (fun l j t => ?_) (fun l t => ?_) (fun l s t hl h => ?_) s k
  · split
    · exact evaluateLine_line l j t
    · split
      · rename_i h; rw [h]
      · rfl
  · split
    · exact evaluateLine_sansLines l t
    · rfl
  · rw [Line.evaluated_congr hl h, hl]

end Sys2Proof.Machine
end

section
/-! PROOFS. Hold reasons: ATTENDANT and the timers of holds (O25, O29). -/

namespace Sys2Proof.Machine

/-! ## Hold reasons -/

/-- A loop in which each pass touches its own component of the state: what a pass does to it, the loop does. -/
theorem forEach_component {n : Nat} {γ : Type} (comp : State → Fin n → γ) (Q : γ → γ → Prop)
    {f : Fin n → State → State} (other : ∀ i k s, k ≠ i → comp (f i s) k = comp s k)
    (own : ∀ i s, Q (comp s i) (comp (f i s) i)) (s : State) (k : Fin n) :
    Q (comp s k) (comp (forEach f s) k) := by
  have pass_by : ∀ (l : List (Fin n)) (s : State), k ∉ l → comp (forList l f s) k = comp s k := fun l => by
    induction l with
    | nil => exact fun _ _ => rfl
    | cons i l ih =>
      intro s hk
      rw [forList_cons, ih _ fun h => hk (List.mem_cons_of_mem _ h), other]
      exact fun h => hk (List.mem_cons.2 (.inl h))
  have key : ∀ (l : List (Fin n)) (s : State), l.Nodup → k ∈ l → Q (comp s k) (comp (forList l f s) k) := fun l => by
    induction l with
    | nil => exact fun _ _ h => absurd h List.not_mem_nil
    | cons i l ih =>
      intro s hn hk
      obtain ⟨hi, hn⟩ := List.nodup_cons.1 hn
      rw [forList_cons]
      by_cases h : k = i
      · subst h
        rw [pass_by l _ hi]
        exact own k s
      · rw [← other i k s h]
        exact ih _ hn ((List.mem_cons.1 hk).resolve_left h)
  exact key _ s (List.nodup_finRange n) (List.mem_finRange k)

theorem forAxes_hold_sansAxes (e : ExhibitId) (s : State) : (forAxes e holdAxis s).sansAxes = s.sansAxes :=
  holdAxis_withdraws.list_rest _ s

theorem forAxes_hold_exhibit (e k : ExhibitId) (s : State) : (forAxes e holdAxis s).exhibit k = s.exhibit k :=
  (congrArg (State.exhibit · k) (forAxes_hold_sansAxes e s) :)

theorem suspendTimers_exhibit (e k : ExhibitId) (s : State) : (suspendTimers e s).exhibit k = s.exhibit k := by
  rw [suspendTimers_eq]; rfl

/-- What the reaction to a set that becomes nonempty makes of the exhibits (R13). -/
theorem onHeld_exhibit (e k : ExhibitId) (s : State) :
    (onHeld e s).exhibit k
      = if k = e ∧ ((s.exhibit e).state = .ready ∨ (s.exhibit e).state = .running) then
          { s.exhibit e with state := .held, lastChange := s.clock }
        else s.exhibit k := by
  unfold onHeld
  split <;> rename_i h <;> simp only [h, suspendTimers_exhibit, forAxes_hold_exhibit, changeState_exhibit] <;> simp

/-- A reason that is there already changes nothing. -/
theorem addHold_of_has {r : HoldReason} {e : ExhibitId} {s : State} (h : (s.exhibit e).holds.has r = true) :
    addHold r e s = s := by
  unfold addHold; rw [if_pos h]

/-- A reason added to a set that has another changes the set alone. -/
theorem addHold_of_held {r : HoldReason} {e : ExhibitId} {s : State} (h : (s.exhibit e).holds.has r = false)
    (hn : (s.exhibit e).holds ≠ {}) :
    addHold r e s = s.modExhibit e fun x => { x with holds := x.holds.put r true } := by
  unfold addHold
  rw [if_neg (by simp [h])]
  exact if_neg (by rw [HoldSet.isEmpty_iff]; exact hn)

/-- The first reason brings the reaction of R13. -/
theorem addHold_of_empty {r : HoldReason} {e : ExhibitId} {s : State} (hn : (s.exhibit e).holds = {}) :
    addHold r e s = onHeld e (s.modExhibit e fun x => { x with holds := x.holds.put r true }) := by
  unfold addHold
  rw [hn, if_neg (by cases r <;> decide)]
  exact if_pos rfl

theorem addHold_exhibit_other (r : HoldReason) {e k : ExhibitId} (s : State) (h : k ≠ e) :
    (addHold r e s).exhibit k = s.exhibit k := by
  unfold addHold
  split
  · rfl
  · dsimp only
    split
    · rw [onHeld_exhibit, if_neg (fun hk => h hk.1), modExhibit_exhibit_other _ _ _ _ h]
    · exact modExhibit_exhibit_other _ _ _ _ h

theorem HoldSet.put_of_has {h : HoldSet} {r : HoldReason} (hr : h.has r = true) : h.put r true = h := by
  obtain ⟨g, a, l, s⟩ := h
  cases r <;> simp_all [HoldSet.has, HoldSet.put]

/-- A reason that is added is in the set. -/
theorem addHold_holds (r : HoldReason) (e : ExhibitId) (s : State) :
    ((addHold r e s).exhibit e).holds = (s.exhibit e).holds.put r true := by
  unfold addHold
  split
  · rename_i h
    exact (HoldSet.put_of_has h).symm
  · dsimp only
    split
    · rw [onHeld_exhibit]
      split <;> simp
    · simp

/-- The last reason that goes brings the reaction of R12 and R13; another changes the set alone. -/
theorem removeHold_of_has {r : HoldReason} {e : ExhibitId} {s : State} (h : (s.exhibit e).holds.has r = true) :
    removeHold r e s
      = if (s.exhibit e).holds.put r false = {} then
          onReleased e (s.modExhibit e fun x => { x with holds := x.holds.put r false })
        else s.modExhibit e fun x => { x with holds := x.holds.put r false } := by
  unfold removeHold
  rw [if_pos h]
  dsimp only
  rw [modExhibit_exhibit_same]
  exact if_congr (HoldSet.isEmpty_iff _) rfl rfl

/-- A reason that is not there is removed without change. -/
theorem removeHold_of_not_has {r : HoldReason} {e : ExhibitId} {s : State}
    (h : (s.exhibit e).holds.has r = false) : removeHold r e s = s := by
  unfold removeHold; rw [if_neg (by simp [h])]

/-- A hold leaves the sag. -/
theorem onHeld_sag (e : ExhibitId) (s : State) :
    (onHeld e s).arbiter.sag = s.arbiter.sag ∧ (onHeld e s).arbiter.sagTimer = s.arbiter.sagTimer := by
  have suspended : ∀ t : State, (suspendTimers e t).arbiter = t.arbiter := fun t => by rw [suspendTimers_eq]
  have hold := fun t => holdAxis_withdraws.list_sag (t.exhibit e).axes t
  unfold onHeld
  split
  · rw [suspended]
    exact ⟨(hold _).1.trans (by simp), (hold _).2.trans (by simp)⟩
  · rw [suspended]
    exact ⟨(hold _).1.trans (by simp), (hold _).2.trans (by simp)⟩
  · rw [suspended]; exact hold s
  · exact hold s
  all_goals exact ⟨rfl, rfl⟩

theorem addHold_sag (r : HoldReason) (e : ExhibitId) (s : State) :
    (addHold r e s).arbiter.sag = s.arbiter.sag ∧ (addHold r e s).arbiter.sagTimer = s.arbiter.sagTimer := by
  unfold addHold
  split
  · exact ⟨rfl, rfl⟩
  · dsimp only
    split
    · exact onHeld_sag e _
    · exact ⟨rfl, rfl⟩

/-! ## Commands that name an exhibit -/

theorem onExhibit_num1 (e : ExhibitId) (f : ExhibitId → State → State × Reply) (s : State) :
    onExhibit (num1 e.val) f s = f e s := by
  unfold onExhibit; rw [exhibitAt_one]

theorem exhibitHoldBody_num1 (port : Port) (e : ExhibitId) (s : State) :
    exhibitHoldBody port (num1 e.val) s
      = if (s.exhibit e).state = .closed then refuse .wrongState s
        else acceptExhibit e (addHold .attendant e s) := onExhibit_num1 e _ s

theorem exhibitReleaseBody_num1 (port : Port) (e : ExhibitId) (s : State) :
    exhibitReleaseBody port (num1 e.val) s
      = if (s.exhibit e).holds.attendant then acceptExhibit e (removeHold .attendant e s)
        else refuse .wrongState s := onExhibit_num1 e _ s

/-- Settles O25: the body tests the set or the state, adds or removes ATTENDANT, and answers the state after. -/
theorem attendantHoldAndRelease : Obligations.AttendantHoldAndRelease := by
  intro e s
  have floor := Undisturbed.wide.toFloor
  have hold (h : Admitted .exhibitHold .deskPort s) (ho : (s.exhibit e).state ≠ .closed) :
      Answers .exhibitHold .deskPort (num1 e.val) s .ok
        (num1 ((conclude (addHold .attendant e s)).exhibit e).state.code) (conclude (addHold .attendant e s)) :=
    answers_body h (by simp) rfl ((exhibitHoldBody_num1 .deskPort e s).trans (if_neg ho))
  refine ⟨fun h => ⟨fun hc => ?_, fun ho => ⟨hold h ho, ?_⟩, fun ho ha => ?_⟩,
    fun h => ⟨fun ha => ?_, fun ha => ⟨?_, ?_⟩⟩⟩
  · exact answers_body h (by simp) rfl ((exhibitHoldBody_num1 .deskPort e s).trans (if_pos hc))
  · exact floor.trans (floor.addHold _ e s) (floor.conclude _)
  · have := hold h ho
    rwa [addHold_of_has (r := .attendant) ha] at this
  · exact answers_body h (by simp) rfl ((exhibitReleaseBody_num1 .deskPort e s).trans (if_neg (by simp [ha])))
  · exact answers_body h (by simp) rfl ((exhibitReleaseBody_num1 .deskPort e s).trans (if_pos ha))
  · exact floor.trans (floor.removeHold _ e s) (floor.conclude _)

/-! ## Timers of holds -/

theorem exec_guardReleaseExpiry {e : ExhibitId} {s : State} (h : s.inReset = false) :
    exec (.guardReleaseExpiry e) s = .next (drivePins (guardReleaseExpires e s)) := occur_next h

theorem exec_guardLongExpiry {e : ExhibitId} {s : State} (h : s.inReset = false) :
    exec (.guardLongExpiry e) s = .next (drivePins (guardLongExpires e s)) := occur_next h

theorem exec_sagHoldExpiry {s : State} (h : s.inReset = false) :
    exec .sagHoldExpiry s = .next (drivePins (sagHoldExpires s)) := occur_next h

/-- SUPPLY joins the set of every exhibit that is not CLOSED, ascending (R112). -/
def addSupply (s : State) : State :=
  forEach (fun e u => if (u.exhibit e).state = .closed then u else addHold .supply e u) s

theorem addSupply_holds (s : State) (k : ExhibitId) :
    ((addSupply s).exhibit k).holds
      = if (s.exhibit k).state = .closed then (s.exhibit k).holds
        else { (s.exhibit k).holds with supply := true } := by
  refine forEach_component State.exhibit
    (fun x y => y.holds = if x.state = .closed then x.holds else { x.holds with supply := true })
    (fun e k t hk => ?_) (fun e t => ?_) s k
  · split
    · rfl
    · exact addHold_exhibit_other _ t hk
  · split
    · rfl
    · exact addHold_holds .supply e t

/-- The holds of SUPPLY leave the sag. -/
theorem addSupply_sag (s : State) :
    (addSupply s).arbiter.sag = s.arbiter.sag ∧ (addSupply s).arbiter.sagTimer = s.arbiter.sagTimer := by
  unfold addSupply
  constructor
  · refine forEach_keeps (fun t => t.arbiter.sag) (fun e t => ?_) s
    split
    · rfl
    · exact (addHold_sag _ e t).1
  · refine forEach_keeps (fun t => t.arbiter.sagTimer) (fun e t => ?_) s
    split
    · rfl
    · exact (addHold_sag _ e t).2

theorem addSupply_undisturbed (s : State) : Undisturbed s (addSupply s) := by
  unfold addSupply
  refine Undisturbed.wide.each _ (fun e t => ?_) s
  split
  · exact Undisturbed.refl t
  · exact Undisturbed.wide.addHold _ e t

/-- The guard-long timer expires with GUARD present or gone (R22). -/
theorem guardLongExpires_of_zero {e : ExhibitId} {s : State} (h : (s.exhibit e).guardLong = some 0) :
    guardLongExpires e s
      = if (s.exhibit e).holds.guard then
          raiseAlert (tableTrigger .guardLong (some e)) (s.modExhibit e fun x => { x with guardLong := none })
        else s.modExhibit e fun x => { x with guardLong := none } := if_pos h

/-- Settles O29: each expiry is one operation when its timer stands at 0 and nothing otherwise; what the sag hold
does to every set is the loop's effect on each exhibit. -/
theorem holdTimersExpire : Obligations.HoldTimersExpire := by
  have floor := Undisturbed.wide.toFloor
  refine ⟨fun e s hs => ⟨fun h => ⟨?_, ?_⟩, fun h => ?_, fun h hg => ?_, fun h hg => ?_, fun h => ?_⟩,
    fun s hs => ?_⟩
  · rw [exec_guardReleaseExpiry hs, guardReleaseExpires, if_pos h]; rfl
  · exact floor.trans (floor.guardReleased e s) (floor.conclude _)
  · rw [exec_guardReleaseExpiry hs, guardReleaseExpires, if_neg h]
  · have ht := (guardLongExpires_of_zero h).trans (if_pos hg)
    have hu := floor.trans (floor.exhibit s e (fun x => { x with guardLong := none }) fun _ => ⟨rfl, rfl, rfl, rfl⟩)
      (floor.raiseTable .guardLong (some e) none _)
    refine ⟨by rw [exec_guardLongExpiry hs, ht]; rfl, hu, ?_⟩
    rw [raiseAlert_exhibit, modExhibit_exhibit_same]
  · have ht := (guardLongExpires_of_zero h).trans (if_neg (by simp [hg]))
    rw [exec_guardLongExpiry hs, ht]
  · rw [exec_guardLongExpiry hs, guardLongExpires, if_neg h]
  · intro expired t
    have ht : t = addSupply (s.modArbiter fun x => { x with sag := .sagHold, sagTimer := none }) := rfl
    refine ⟨fun h => ⟨?_, ?_, ?_, ?_, ?_⟩, fun h => ?_⟩
    · rw [exec_sagHoldExpiry hs, sagHoldExpires, if_pos h]
    · rw [ht]
      exact floor.trans (Undisturbed.coarse.arbiter s _) (floor.trans (addSupply_undisturbed _) (floor.conclude _))
    · rw [ht, (addSupply_sag _).1]; rfl
    · rw [ht, (addSupply_sag _).2]; rfl
    · intro e
      rw [ht, addSupply_holds, modArbiter_exhibit]
    · rw [exec_sagHoldExpiry hs, sagHoldExpires, if_neg h]
end Sys2Proof.Machine
end

section
/-! SUPPORT. What a hold, a resumption, a change of state and an exhibit's hold-reason set are, as equations. -/

namespace Sys2Proof.Machine

/-! ## Events of holds and resumptions -/

/-- The queue of an exhibit's axis event: the service queue exactly in SERVICE (R48). -/
theorem floorQueue_eq (s : State) (e : Option ExhibitId) :
    floorQueue s e = if ∃ k, e = some k ∧ (s.exhibit k).state = .service then .serviceQ else .showQ := by
  unfold floorQueue inService
  cases e with
  | none => simp
  | some k => by_cases h : (s.exhibit k).state = .service <;> simp [h]

theorem floorQueue_congr {s t : State} (h : t.exhibits = s.exhibits) (e : Option ExhibitId) :
    floorQueue t e = floorQueue s e := by
  unfold floorQueue inService State.exhibit; rw [h]

/-- An event to the floor queue of an exhibit in SERVICE, or of any other. -/
theorem emit_floorQueue {s : State} {e : Option ExhibitId} {v : Event} {t : State} :
    ((∃ k, e = some k ∧ (s.exhibit k).state = .service) → emit [floorQueue s e] v t = appendTo .serviceQ v t) ∧
    ((¬ ∃ k, e = some k ∧ (s.exhibit k).state = .service) → emit [floorQueue s e] v t = appendTo .showQ v t) := by
  rw [floorQueue_eq]
  exact ⟨fun h => by rw [if_pos h]; rfl, fun h => by rw [if_neg h]; rfl⟩

/-- A HELD axis that waits for its start again (R96). -/
def Axis.rejoined (x : Axis) : Axis := { x with state := .waitingStart }

/-- A HELD axis rejoins the start queue, with its event (R96). -/
theorem resumeAxis_of_held {a : AxisId} {s : State} (h : (s.axis a).state = .held) :
    resumeAxis a s = emit [floorQueue s (s.axis a).exhibit] (axisEvent .axisResumed a (s.axis a) none)
      (joinQueue a (s.modAxis a fun x => { x with state := .waitingStart })) := by
  have hx : (joinQueue a (s.modAxis a Axis.rejoined)).axis a = (s.axis a).rejoined := modAxis_axis_same s a _
  unfold resumeAxis
  rw [if_pos h]
  show emit [floorQueue (joinQueue a (s.modAxis a Axis.rejoined))
    ((joinQueue a (s.modAxis a Axis.rejoined)).axis a).exhibit]
    (axisEvent .axisResumed a ((joinQueue a (s.modAxis a Axis.rejoined)).axis a) none) _ = _
  rw [hx]
  rfl

/-- A working axis is released and HELD, with its event (R95). -/
theorem holdAxis_of_working {a : AxisId} {s : State} (h : (s.axis a).state.working = true) :
    holdAxis a s = emit [floorQueue s (s.axis a).exhibit] (axisEvent .axisHeld a (s.axis a) none)
      ((releaseAxis a s).modAxis a Axis.onHold) := by
  have hx : ((releaseAxis a s).modAxis a Axis.onHold).axis a = (s.axis a).onHold := by
    rw [modAxis_axis_same, releaseAxis_axis]
  have he : ((releaseAxis a s).modAxis a Axis.onHold).exhibits = s.exhibits :=
    (congrArg State.exhibits (releaseAxis_sansAxes a s) :)
  unfold holdAxis
  rw [if_pos h]
  show emit [floorQueue ((releaseAxis a s).modAxis a Axis.onHold)
      (((releaseAxis a s).modAxis a Axis.onHold).axis a).exhibit]
    (axisEvent .axisHeld a (((releaseAxis a s).modAxis a Axis.onHold).axis a) none) _ = _
  rw [hx, floorQueue_congr he]
  rfl

theorem working_iff (x : AxisState) :
    x.working = true ↔ x = .waitingStart ∨ x = .accelerating ∨ x = .moving ∨ x = .settling := by
  cases x <;> simp [AxisState.working]

/-- What an axis leaves at the arbiter, by its state (R92, R95). -/
theorem releaseAxis_eq (a : AxisId) (s : State) :
    releaseAxis a s = match (s.axis a).state with
      | .waitingStart => s.modArbiter fun y => { y with startQueue := y.startQueue.filter (· ≠ a) }
      | .accelerating => s.modArbiter fun y => { y with
          unitsInUse := y.unitsInUse - (s.axis a).startCost, accel := modTable y.accel a fun _ => none }
      | _ => s := by
  unfold releaseAxis
  cases (s.axis a).state <;> rfl

/-- The event of a change of state goes to the show and desk queues, and at SERVICE to all three (R9, R48). -/
theorem changeState_eq (e : ExhibitId) (new : ExhibitState) (s : State) :
    changeState e new s =
      let event : Event := { kind := .exhibitState, exhibit := some e, value := some (BitVec.ofNat 16 new.code) }
      let both := appendTo .deskQ event <| appendTo .showQ event <|
        s.modExhibit e fun x => { x with state := new, lastChange := s.clock }
      if (s.exhibit e).state = .service ∨ new = .service then appendTo .serviceQ event both else both := by
  unfold changeState exhibitQueues
  dsimp only
  split <;> rfl

/-! ## The sets -/

theorem HoldSet.put_false_eq (h : HoldSet) (r : HoldReason) :
    h.put r false = {
      guard := h.guard && r ≠ .guard, attendant := h.attendant && r ≠ .attendant
      lapse := h.lapse && r ≠ .lapse, supply := h.supply && r ≠ .supply } := by
  cases r <;> simp [HoldSet.put]

theorem HoldSet.put_true_eq (h : HoldSet) (r : HoldReason) :
    h.put r true = { h with
      guard := r = .guard || h.guard, attendant := r = .attendant || h.attendant
      lapse := r = .lapse || h.lapse, supply := r = .supply || h.supply } := by
  cases r <;> simp [HoldSet.put]

/-! ## The reaction to an empty set -/

/-- Resumptions in the order of an exhibit's list are the loop over its axes. -/
theorem forAxes_eq {e : ExhibitId} {op : AxisId → State → State} {s : State} {l : List AxisId}
    (h : (s.exhibit e).axes = l) : forAxes e op s = l.foldl (fun v a => op a v) s := by
  subst h; rfl

/-- A suspended timer restarts at the full time of its step (R133). -/
theorem StepRun.restart_eq (step : CueStep) (z : StepRun) :
    StepRun.restart step z = match z.timer, step.body with
      | .suspended, .move _ _ _ dwell => { z with timer := .running (dwell.getD 0) }
      | .suspended, .pause d => { z with timer := .running d }
      | .suspended, .waitPress _ timeout => { z with timer := .running (timeout.getD 0) }
      | _, _ => z := by
  obtain ⟨w, b⟩ := step
  obtain ⟨st, ph, t⟩ := z
  cases t <;> cases b <;> rfl

theorem StepRun.suspend_eq (z : StepRun) :
    z.suspend = match z.timer with | .running _ => { z with timer := .suspended } | _ => z := by
  obtain ⟨st, ph, t⟩ := z
  cases t <;> rfl

theorem restartTimers_of_active {e : ExhibitId} {s : State} {f : FrameId} (h : (s.exhibit e).active = some f) :
    restartTimers e s = s.modFrame f fun x => { x with run := x.steps.zipWith StepRun.restart x.run } := by
  unfold restartTimers; rw [h]

theorem suspendTimers_cases (e : ExhibitId) (s : State) :
    suspendTimers e s = match (s.exhibit e).active with
      | none => s
      | some f => s.modFrame f fun x => { x with run := x.run.map StepRun.suspend } := rfl

theorem forAxes_resume_exhibit (e k : ExhibitId) (s : State) : (forAxes e resumeAxis s).exhibit k = s.exhibit k :=
  forList_keeps (State.exhibit · k) (fun a t => by
    unfold resumeAxis
    split
    · exact emit_exhibit _ _ _ _
    · rfl) _ s

/-- The axes list of an exhibit stands through its cues. -/
theorem takeFrame_axesList (e k : ExhibitId) (s : State) : ((takeFrame e s).exhibit k).axes = (s.exhibit k).axes := by
  have := (Undisturbed.free.takeFrame e s).exhibits k
  simp only [Exhibit.standing, Prod.mk.injEq] at this
  exact this.1

end Sys2Proof.Machine
end

section
/-! SUPPORT. The two reactions of R13, by the state of the exhibit, and what they do to axes and step timers. -/

namespace Sys2Proof.Machine

/-! ## The reactions of R13 -/

/-- An event of an axis, as the obligations write it. -/
theorem axisEvent_eq (k : EventKind) (a : AxisId) (x : Axis) (v : Option (BitVec 16)) :
    axisEvent k a x v = {
      kind := k, exhibit := x.exhibit, subject := some (BitVec.ofNat 8 a.val), value := v
      step := match x.move with
        | some ⟨_, _, .cueStep _ i⟩ => some i
        | _ => none } := by
  unfold axisEvent Axis.moveStep
  rcases x.move with _ | ⟨d, w, src⟩
  · rfl
  · cases src <;> rfl

/-- A hold reaction leaves the frames of a SERVICE exhibit, and suspends the step timers of another's active frame. -/
theorem onHeld_of_service {e : ExhibitId} {s : State} (h : (s.exhibit e).state = .service) :
    onHeld e s = forAxes e holdAxis s := by
  unfold onHeld; rw [h]

theorem onHeld_of_held {e : ExhibitId} {s : State} (h : (s.exhibit e).state = .held) :
    onHeld e s = suspendTimers e (forAxes e holdAxis s) := by
  unfold onHeld; rw [h]

theorem onHeld_of_ready {e : ExhibitId} {s : State}
    (h : (s.exhibit e).state = .ready ∨ (s.exhibit e).state = .running) :
    onHeld e s = suspendTimers e (forAxes e holdAxis (changeState e .held s)) := by
  unfold onHeld; rcases h with h | h <;> rw [h]

theorem onHeld_of_closed {e : ExhibitId} {s : State}
    (h : (s.exhibit e).state = .closed ∨ (s.exhibit e).state = .faulted) : onHeld e s = s := by
  unfold onHeld; rcases h with h | h <;> rw [h]

/-- A set that becomes empty, by the exhibit's state. -/
theorem onReleased_of_service {e : ExhibitId} {s : State} (h : (s.exhibit e).state = .service) :
    onReleased e s = forAxes e resumeAxis s := by
  unfold onReleased; rw [h]

theorem onReleased_of_other {e : ExhibitId} {s : State} (h : (s.exhibit e).state ≠ .held)
    (hs : (s.exhibit e).state ≠ .service) : onReleased e s = s := by
  unfold onReleased
  split
  · contradiction
  · contradiction
  all_goals rfl

theorem onReleased_of_active {e : ExhibitId} {s : State} {f : FrameId} (h : (s.exhibit e).state = .held)
    (ha : (s.exhibit e).active = some f) :
    onReleased e s = restartTimers e (forAxes e resumeAxis (changeState e .running s)) := by
  unfold onReleased; rw [h, ha]

theorem onReleased_of_idle {e : ExhibitId} {s : State} (h : (s.exhibit e).state = .held)
    (ha : (s.exhibit e).active = none) :
    onReleased e s = if canTake s e then forAxes e resumeAxis (takeFrame e s)
      else forAxes e resumeAxis (changeState e .ready s) := by
  unfold onReleased; rw [h, ha]

theorem canTake_iff (s : State) (e : ExhibitId) :
    canTake s e = true ↔ s.mode = .opened ∧ (s.exhibit e).queue ≠ [] := by
  unfold canTake
  simp

/-- The set after a reason is removed. -/
theorem removeHold_cleared (r : HoldReason) (e : ExhibitId) (s : State) :
    (s.modExhibit e fun x => { x with holds := x.holds.put r false })
      = s.modExhibit e fun x => { x with holds := (s.exhibit e).holds.put r false } :=
  modExhibit_congr _ _ _ _ rfl

/-- The set after a reason is added. -/
theorem addHold_added (r : HoldReason) (e : ExhibitId) (s : State) :
    (s.modExhibit e fun x => { x with holds := x.holds.put r true })
      = s.modExhibit e fun x => { x with holds := (s.exhibit e).holds.put r true } :=
  modExhibit_congr _ _ _ _ rfl

/-- The resumptions that follow the removal of the last reason (R12, R13, R96, R133). -/
theorem removeHold_last {r : HoldReason} {e : ExhibitId} {s : State} (h : (s.exhibit e).holds.has r = true)
    (hl : (s.exhibit e).holds.put r false = {}) :
    removeHold r e s = onReleased e (s.modExhibit e fun x => { x with holds := (s.exhibit e).holds.put r false }) := by
  rw [removeHold_of_has h, if_pos hl, removeHold_cleared]

/-- The axes of an exhibit after a hold reaction. -/
theorem onHeld_axis {e : ExhibitId} {s : State} (hc : (s.exhibit e).state ≠ .closed)
    (hf : (s.exhibit e).state ≠ .faulted) (a : AxisId) :
    (onHeld e s).axis a
      = if a ∈ (s.exhibit e).axes ∧ (s.axis a).state.working = true then (s.axis a).onHold else s.axis a := by
  have suspended : ∀ t : State, (suspendTimers e t).axis a = t.axis a := fun t => by rw [suspendTimers_eq]; rfl
  have held := fun t : State => holdAxis_withdraws.list_axis (t.exhibit e).axes t a
  unfold onHeld
  split
  · rw [suspended]; exact (held _).trans (by simp)
  · rw [suspended]; exact (held _).trans (by simp)
  · rw [suspended]; exact held s
  · exact held s
  · contradiction
  · contradiction

/-- The start queue after a hold reaction. -/
theorem onHeld_startQueue {e : ExhibitId} {s : State} (hc : (s.exhibit e).state ≠ .closed)
    (hf : (s.exhibit e).state ≠ .faulted) {a : AxisId} (ha : a ∈ (s.exhibit e).axes)
    (hw : (s.axis a).state = .waitingStart) : a ∉ (onHeld e s).arbiter.startQueue := by
  have suspended : ∀ t : State, (suspendTimers e t).arbiter = t.arbiter := fun t => by rw [suspendTimers_eq]
  have out : ∀ t : State, t.axis a = s.axis a → (t.exhibit e).axes = (s.exhibit e).axes →
      a ∉ (forAxes e holdAxis t).arbiter.startQueue := fun t ht hx =>
    holdAxis_withdraws.not_mem_startQueue (hx ▸ ha) (by rw [ht, hw]; rfl) (by rw [ht, hw])
  unfold onHeld
  split
  · rw [suspended]; exact out _ (by simp) (by simp)
  · rw [suspended]; exact out _ (by simp) (by simp)
  · rw [suspended]; exact out s rfl rfl
  · exact out s rfl rfl
  · contradiction
  · contradiction

/-- The step timers of an active frame after a hold reaction (R133). -/
theorem onHeld_frame {e : ExhibitId} {s : State} {f : FrameId} (ha : (s.exhibit e).active = some f)
    (h : (s.exhibit e).state = .ready ∨ (s.exhibit e).state = .running ∨ (s.exhibit e).state = .held) :
    (onHeld e s).frame f = { s.frame f with run := (s.frame f).run.map StepRun.suspend } := by
  have suspended : ∀ t : State, (t.exhibit e).active = some f → t.frames = s.frames →
      (suspendTimers e (forAxes e holdAxis t)).frame f
        = { s.frame f with run := (s.frame f).run.map StepRun.suspend } := fun t ht hfr => by
    have hu : (forAxes e holdAxis t).frame f = s.frame f :=
      (congrArg (State.frame · f) (forAxes_hold_sansAxes e t) :).trans (congrArg (fun v => v.get f) hfr)
    rw [suspendTimers_cases, forAxes_hold_exhibit, ht]
    exact (modFrame_frame_same _ _ _).trans (by rw [hu])
  rcases h with h | h | h
  · rw [onHeld_of_ready (.inl h)]; exact suspended _ (by simp [ha]) (by simp)
  · rw [onHeld_of_ready (.inr h)]; exact suspended _ (by simp [ha]) (by simp)
  · rw [onHeld_of_held h]; exact suspended s ha rfl

theorem StepRun.suspend_funext : StepRun.suspend = fun z => match z.timer with
    | .running _ => { z with timer := .suspended }
    | _ => z := funext StepRun.suspend_eq

theorem StepRun.restart_funext : StepRun.restart = fun step z => match z.timer, step.body with
    | .suspended, .move _ _ _ dwell => { z with timer := .running (dwell.getD 0) }
    | .suspended, .pause d => { z with timer := .running d }
    | .suspended, .waitPress _ timeout => { z with timer := .running (timeout.getD 0) }
    | _, _ => z := funext fun step => funext fun z => StepRun.restart_eq step z

end Sys2Proof.Machine
end

section
/-! PROOFS. The hold reaction (O26). -/

namespace Sys2Proof.Machine

/-! ## O26 -/

/-- What becomes of a HELD exhibit with no active frame (R12, R13). -/
theorem onReleased_takes {e : ExhibitId} {s : State} (h : (s.exhibit e).state = .held)
    (ha : (s.exhibit e).active = none) (ht : s.mode = .opened ∧ (s.exhibit e).queue ≠ []) :
    onReleased e s = forAxes e resumeAxis (takeFrame e s) := by
  rw [onReleased_of_idle h ha, if_pos ((canTake_iff s e).2 ht)]

theorem onReleased_readies {e : ExhibitId} {s : State} (h : (s.exhibit e).state = .held)
    (ha : (s.exhibit e).active = none) (ht : ¬ (s.mode = .opened ∧ (s.exhibit e).queue ≠ [])) :
    onReleased e s = forAxes e resumeAxis (changeState e .ready s) := by
  rw [onReleased_of_idle h ha, if_neg fun hc => ht ((canTake_iff s e).1 hc)]

/-- Settles O26: each operation is read off its equation, and what the loop over the axes does to one off the
withdrawal of an axis. -/
theorem holdReaction : Obligations.HoldReaction := by
  refine ⟨fun e new s => ?_, fun a s => ?_, fun a s => ?_, fun r e s => ?_, fun r e s hr => ?_⟩
  · intro code event both
    exact (changeState_eq e new s).trans (by cases new <;> rfl)
  · intro x step event joined serving
    have hv : axisEvent .axisResumed a (s.axis a) none = event := (axisEvent_eq _ a _ _).trans rfl
    refine ⟨fun h => ?_, fun h hs => ?_, fun h hs => ?_⟩
    · unfold resumeAxis; exact if_neg h
    · rw [resumeAxis_of_held h, hv]; exact emit_floorQueue.1 hs
    · rw [resumeAxis_of_held h, hv]; exact emit_floorQueue.2 hs
  · intro x step event left held working serving
    have hv : axisEvent .axisHeld a (s.axis a) none = event := (axisEvent_eq _ a _ _).trans rfl
    have hh : (releaseAxis a s).modAxis a Axis.onHold = held :=
      congrArg (State.modAxis · a Axis.onHold) ((releaseAxis_eq a s).trans rfl)
    have hw : working ↔ (s.axis a).state.working = true := (working_iff _).symm
    refine ⟨fun h => ?_, fun h hs => ?_, fun h hs => ?_⟩
    · unfold holdAxis; exact if_neg fun hx => h (hw.2 hx)
    · rw [holdAxis_of_working (hw.1 h), hv, hh]; exact emit_floorQueue.1 hs
    · rw [holdAxis_of_working (hw.1 h), hv, hh]; exact emit_floorQueue.2 hs
  · intro x t left cleared resumed
    have hl : x.holds.put r false = left := HoldSet.put_false_eq _ r
    have hc : (s.modExhibit e fun y => { y with holds := x.holds.put r false }) = cleared := by rw [hl]
    have hx : cleared.exhibit e = { x with holds := left } := modExhibit_exhibit_same _ _ _
    have loop : ∀ u : State, (u.exhibit e).axes = x.axes → forAxes e resumeAxis u = resumed u := fun u => forAxes_eq
    refine ⟨removeHold_of_not_has, fun h => ⟨fun hn => ?_, fun he => ?_⟩⟩
    · exact (removeHold_of_has h).trans ((if_neg (hl ▸ hn)).trans ((removeHold_cleared r e s).trans hc))
    · have ht : t = onReleased e cleared := (removeHold_last h (hl.trans he)).trans (by rw [hc])
      rw [ht]
      refine ⟨fun hh hs => ?_, fun hs => ?_, fun f hh ha => ?_, fun hh ha hm hq => ?_, fun hh ha hn => ?_⟩
      · exact onReleased_of_other (by rwa [hx]) (by rwa [hx])
      · exact (onReleased_of_service (by rwa [hx])).trans (loop _ (by rw [hx]))
      · rw [onReleased_of_active (f := f) (by rwa [hx]) (by rwa [hx]),
          restartTimers_of_active (f := f) (by rw [forAxes_resume_exhibit, changeState_exhibit_same, hx]; exact ha),
          loop _ (by rw [changeState_exhibit_same, hx]), StepRun.restart_funext] <;> rfl
      · rw [onReleased_takes (s := cleared) (by rwa [hx]) (by rwa [hx]) ⟨hm, by rwa [hx]⟩]
        exact loop _ (by rw [takeFrame_axesList, hx])
      · rw [onReleased_readies (s := cleared) (by rwa [hx]) (by rwa [hx])
          (by rw [hx]; rintro ⟨hm, hq⟩; exact hn.elim (· hm) hq)]
        exact loop _ (by rw [changeState_exhibit_same, hx])
  · intro t kept
    have hk : (s.exhibit e).holds.put r true = kept := HoldSet.put_true_eq _ r
    have hc : (s.modExhibit e fun y => { y with holds := y.holds.put r true })
        = s.modExhibit e fun y => { y with holds := kept } := (addHold_added r e s).trans (by rw [hk])
    have hx : (s.modExhibit e fun y => { y with holds := kept }).exhibit e = { s.exhibit e with holds := kept } :=
      modExhibit_exhibit_same _ _ _
    have first : (s.exhibit e).holds = {} → t = onHeld e (s.modExhibit e fun y => { y with holds := kept }) :=
      fun he => (addHold_of_empty he).trans (by rw [hc])
    refine ⟨fun hn => (addHold_of_held hr hn).trans hc, ?_, fun he => ⟨fun h => ?_, fun h => ?_, fun h => ?_,
      fun hn hf => ⟨fun a ha hw => ⟨?_, fun hw => ?_⟩, fun a ha => ?_⟩, fun f h ha => ?_, fun d hd => ?_, ?_⟩⟩
    · intro x added held suspended he
      have loop : ∀ u : State, (u.exhibit e).axes = x.axes → forAxes e holdAxis u = held u := fun u => forAxes_eq
      have susp : ∀ u : State, (u.exhibit e).axes = x.axes → (u.exhibit e).active = x.active →
          suspendTimers e (forAxes e holdAxis u) = suspended (held u) := fun u hu hv => by
        rw [← loop u hu, suspendTimers_cases, forAxes_hold_exhibit, hv, StepRun.suspend_funext] <;> rfl
      rw [first he]
      refine ⟨fun h => ?_, fun h => ?_, fun h => ?_⟩
      · rw [onHeld_of_ready (by rwa [hx])]
        exact susp _ (by rw [changeState_exhibit_same, hx]) (by rw [changeState_exhibit_same, hx])
      · rw [onHeld_of_held (by rwa [hx])]
        exact susp _ (by rw [hx]) (by rw [hx])
      · rw [onHeld_of_service (by rwa [hx])]
        exact loop _ (by rw [hx])
    · rw [first he, onHeld_of_closed (by rwa [hx])]
    · rw [first he, onHeld_exhibit, if_pos ⟨rfl, by rwa [hx]⟩, hx]
      rfl
    · rw [first he, onHeld_exhibit,
        if_neg (by rw [hx]; rintro ⟨-, h'⟩; rcases h with h | h <;> simp [h] at h'), hx]
    · rw [first he, onHeld_axis (by rwa [hx]) (by rwa [hx]), if_pos ⟨by rwa [hx], hw⟩]
      rfl
    · rw [first he]
      exact onHeld_startQueue (by rwa [hx]) (by rwa [hx]) (by rwa [hx]) hw
    · rw [first he, onHeld_axis (by rwa [hx]) (by rwa [hx]), hx, if_neg]
      · rfl
      · rintro ⟨h1, h2⟩
        exact ha.elim (· h1) fun h3 => absurd (h3.symm.trans h2) (by decide)
    · rw [first he, onHeld_frame (f := f) (by rwa [hx]) (by rwa [hx]), StepRun.suspend_funext] <;> rfl
    · exact addHold_exhibit_other r s hd
    · exact Undisturbed.wide.toFloor.addHold r e s

end Sys2Proof.Machine
end

section
/-! SUPPORT. The retirement of frames, and what an exhibit that leaves use becomes (R14, R16, R97, R135). -/

namespace Sys2Proof.Machine

/-! ## Reading a field off a view -/

section
variable {s t : State} (h : t.sansAxes = s.sansAxes)
include h

theorem exhibit_of_sansAxes (k : ExhibitId) : t.exhibit k = s.exhibit k := (congrArg (State.exhibit · k) h :)

theorem frame_of_sansAxes (f : FrameId) : t.frame f = s.frame f := (congrArg (State.frame · f) h :)

theorem clock_of_sansAxes : t.clock = s.clock := (congrArg State.clock h :)

theorem retiredList_of_sansAxes : t.retiredList = s.retiredList := (congrArg State.retiredList h :)

theorem sansCues_of_sansAxes : t.sansCues = s.sansCues := (congrArg State.sansCues h :)

end

/-! ## A frame leaves its exhibit -/

/-- The record that a retirement of frame `f` of exhibit `e` forms in state `s` (R135). -/
def retirement (s : State) (e : ExhibitId) (o : CueOutcome) (a : Option AxisId) (f : FrameId) : RetiredRecord :=
  ⟨f, e, o, (s.frame f).stepsCompleted, s.clock, a⟩

/-- A record is read off the frames' completed steps and the clock. -/
theorem retirement_congr {s t : State} (hf : ∀ f, (t.frame f).stepsCompleted = (s.frame f).stepsCompleted)
    (hc : t.clock = s.clock) : retirement t = retirement s := by
  funext e o a f
  unfold retirement
  rw [hf, hc]

/-- An exhibit without frame `f`. -/
def Exhibit.without (f : FrameId) (x : Exhibit) : Exhibit :=
  { x with active := if x.active = some f then none else x.active, queue := x.queue.filter (· ≠ f) }

/-- A frame as its retirement leaves it: no current group, every timer cancelled. -/
def CueFrame.hushed (x : CueFrame) : CueFrame :=
  { x with currentGroup := none, run := x.run.map fun r => { r with timer := .notRunning } }

/-- The cancellation of timers leaves each status. -/
theorem CueFrame.hushed_stepsCompleted (x : CueFrame) : x.hushed.stepsCompleted = x.stepsCompleted := by
  unfold CueFrame.stepsCompleted CueFrame.hushed
  rw [List.filter_map, List.length_map]
  rfl

section
variable (f : FrameId) (e : ExhibitId) (o : CueOutcome) (a : Option AxisId) (s : State)

/-- A retirement without its event. -/
theorem retireFrame_sansQueues :
    (retireFrame f e o a s).sansQueues
      = ({ (s.modFrame f CueFrame.hushed).modExhibit e (Exhibit.without f) with
            retiredList := s.retiredList ++ [retirement s e o a f] } : State).sansQueues :=
  emit_sansQueues _ _ _

theorem retireFrame_sansCues : (retireFrame f e o a s).sansCues = s.sansCues :=
  (congrArg State.sansCues (retireFrame_sansQueues f e o a s) :)

theorem retireFrame_axes : (retireFrame f e o a s).axes = s.axes :=
  (congrArg State.axes (retireFrame_sansQueues f e o a s) :)

theorem retireFrame_arbiter : (retireFrame f e o a s).arbiter = s.arbiter :=
  (congrArg State.arbiter (retireFrame_sansQueues f e o a s) :)

theorem retireFrame_clock : (retireFrame f e o a s).clock = s.clock :=
  (congrArg State.clock (retireFrame_sansQueues f e o a s) :)

theorem retireFrame_retiredList :
    (retireFrame f e o a s).retiredList = s.retiredList ++ [retirement s e o a f] :=
  (congrArg State.retiredList (retireFrame_sansQueues f e o a s) :)

theorem retireFrame_exhibit (k : ExhibitId) :
    (retireFrame f e o a s).exhibit k = if k = e then (s.exhibit e).without f else s.exhibit k :=
  (congrArg (State.exhibit · k) (retireFrame_sansQueues f e o a s) :).trans (exhibit_modExhibit _ e k _)

theorem retireFrame_stepsCompleted (g : FrameId) :
    ((retireFrame f e o a s).frame g).stepsCompleted = (s.frame g).stepsCompleted := by
  have h : (retireFrame f e o a s).frame g = (s.modFrame f CueFrame.hushed).frame g :=
    (congrArg (State.frame · g) (retireFrame_sansQueues f e o a s) :)
  rw [h]
  by_cases hg : g = f
  · subst hg
    rw [modFrame_frame_same, CueFrame.hushed_stepsCompleted]
  · rw [modFrame_frame_other _ _ _ _ hg]

/-- A record of a later retirement is the one the state before would form. -/
theorem retirement_retireFrame : retirement (retireFrame f e o a s) = retirement s :=
  retirement_congr (retireFrame_stepsCompleted f e o a s) (retireFrame_clock f e o a s)

end

/-! ## The frames of an exhibit that leaves use -/

/-- What becomes of the state as the frames of `e` retire: its records, its exhibits, and what else stands. -/
structure Retires (e : ExhibitId) (l : List FrameId) (o : CueOutcome) (a : Option AxisId) (s t : State) : Prop where
  records : t.retiredList = s.retiredList ++ l.map (retirement s e o a)
  later   : retirement t = retirement s
  others  : ∀ k, k ≠ e → t.exhibit k = s.exhibit k
  rest    : t.sansCues = s.sansCues

theorem Retires.refl (e : ExhibitId) (o : CueOutcome) (a : Option AxisId) (s : State) : Retires e [] o a s s :=
  ⟨by simp, rfl, fun _ _ => rfl, rfl⟩

theorem Retires.one (f : FrameId) (e : ExhibitId) (o : CueOutcome) (a : Option AxisId) (s : State) :
    Retires e [f] o a s (retireFrame f e o a s) :=
  ⟨retireFrame_retiredList f e o a s, retirement_retireFrame f e o a s,
    fun k hk => (retireFrame_exhibit f e o a s k).trans (if_neg hk), retireFrame_sansCues f e o a s⟩

theorem Retires.append {e : ExhibitId} {l m : List FrameId} {o : CueOutcome} {a : Option AxisId} {s t u : State}
    (h : Retires e l o a s t) (k : Retires e m o a t u) : Retires e (l ++ m) o a s u where
  records := by rw [k.records, h.records, h.later, List.map_append, List.append_assoc]
  later := k.later.trans h.later
  others d hd := (k.others d hd).trans (h.others d hd)
  rest := k.rest.trans h.rest

/-- Queued frames retire one by one, and each leaves the queue. -/
theorem retireList_retires (e : ExhibitId) (o : CueOutcome) (a : Option AxisId) (l : List FrameId) (s : State) :
    Retires e l o a s (forList l (fun f t => retireFrame f e o a t) s) := by
  induction l generalizing s with
  | nil => exact .refl e o a s
  | cons f l ih => exact (Retires.one f e o a s).append (ih _)

/-- An exhibit with no active frame keeps all but its queue as its queued frames retire. -/
theorem retireList_exhibit {e : ExhibitId} (o : CueOutcome) (a : Option AxisId) (l : List FrameId) {s : State}
    (h : (s.exhibit e).active = none) :
    (forList l (fun f t => retireFrame f e o a t) s).exhibit e
      = { s.exhibit e with queue := (s.exhibit e).queue.filter (· ∉ l) } := by
  induction l generalizing s with
  | nil => simp
  | cons f l ih =>
    have hx : (retireFrame f e o a s).exhibit e = { s.exhibit e with queue := (s.exhibit e).queue.filter (· ≠ f) } := by
      rw [retireFrame_exhibit, if_pos rfl, Exhibit.without, h, if_neg (by simp), ← h]
    rw [forList_cons, ih (by rw [hx]; exact h), hx]
    simp [List.filter_filter, Bool.and_comm]

theorem retireList_axes (e : ExhibitId) (o : CueOutcome) (a : Option AxisId) (l : List FrameId) (s : State) :
    (forList l (fun f t => retireFrame f e o a t) s).axes = s.axes ∧
    (forList l (fun f t => retireFrame f e o a t) s).arbiter = s.arbiter :=
  ⟨forList_keeps State.axes (fun f t => retireFrame_axes f e o a t) l s,
    forList_keeps State.arbiter (fun f t => retireFrame_arbiter f e o a t) l s⟩

/-- The cue queue of an exhibit with no active frame is emptied, its frames CANCELLED in order (R135). -/
theorem retireQueue_retires (e : ExhibitId) (s : State) :
    Retires e (s.exhibit e).queue .cancelled none s (retireQueue e s) := retireList_retires e _ _ _ s

theorem retireQueue_exhibit {e : ExhibitId} {s : State} (h : (s.exhibit e).active = none) :
    (retireQueue e s).exhibit e = { s.exhibit e with queue := [] } := by
  refine (retireList_exhibit _ _ _ h).trans ?_
  rw [List.filter_eq_nil_iff.2 fun f hf => by simpa using hf]

theorem stopFrameAxes_eq (f : FrameId) (s : State) :
    stopFrameAxes f s
      = forList (List.finRange 12) (fun a t => if moveOfFrame t f a then stopAxis a t else t) s := rfl

/-- The axes of a frame are stopped, and nothing else but the arbiter changes (R97). -/
theorem stopFrameAxes_sansAxes (f : FrameId) (s : State) : (stopFrameAxes f s).sansAxes = s.sansAxes := by
  rw [stopFrameAxes_eq]
  exact (stopMoved_withdraws f).list_rest _ s

theorem stopFrameAxes_axis (f : FrameId) (s : State) (b : AxisId) :
    (stopFrameAxes f s).axis b
      = if (s.axis b).movedBy f = true ∧ (s.axis b).state.busy = true then (s.axis b).stopped else s.axis b := by
  rw [stopFrameAxes_eq]
  refine ((stopMoved_withdraws f).list_axis _ s b).trans (if_congr ?_ rfl rfl)
  simp

theorem stopFrameAxes_startQueue (f : FrameId) (s : State) :
    (stopFrameAxes f s).arbiter.startQueue ⊆ s.arbiter.startQueue := fun _ hb =>
  (stopMoved_withdraws f).startQueue_subset _ _ (stopFrameAxes_eq f s ▸ hb)

/-- Without an active frame nothing retires. -/
theorem retireActive_of_none {e : ExhibitId} (o : CueOutcome) (a : Option AxisId) {s : State}
    (h : (s.exhibit e).active = none) : retireActive e o a s = s := by
  unfold retireActive; rw [h]

/-- The active frame of an exhibit that is not RUNNING retires and no other follows (R135). -/
theorem retireActive_of_some {e : ExhibitId} (o : CueOutcome) (a : Option AxisId) {s : State} {f : FrameId}
    (h : (s.exhibit e).active = some f) (hr : (s.exhibit e).state ≠ .running) :
    retireActive e o a s = stopFrameAxes f (retireFrame f e o a s) := by
  have hx : ((stopFrameAxes f (retireFrame f e o a s)).exhibit e).state = (s.exhibit e).state := by
    rw [exhibit_of_sansAxes (stopFrameAxes_sansAxes f _), retireFrame_exhibit, if_pos rfl]
    rfl
  unfold retireActive followRetirement
  rw [h]
  exact if_neg (by rw [hx]; exact hr)

/-- The queued frames of an exhibit, without the active one. -/
def Exhibit.waiting (x : Exhibit) : List FrameId := x.queue.filter fun f => x.active ≠ some f

theorem retireActive_exhibit {e : ExhibitId} (o : CueOutcome) (a : Option AxisId) {s : State}
    (hr : (s.exhibit e).state ≠ .running) :
    (retireActive e o a s).exhibit e = { s.exhibit e with active := none, queue := (s.exhibit e).waiting } := by
  unfold Exhibit.waiting
  cases h : (s.exhibit e).active with
  | none =>
    rw [retireActive_of_none o a h, List.filter_eq_self.2 (by simp)]
    generalize s.exhibit e = x at h
    cases x
    cases h
    rfl
  | some f =>
    rw [retireActive_of_some o a h hr, exhibit_of_sansAxes (stopFrameAxes_sansAxes f _), retireFrame_exhibit,
      if_pos rfl, Exhibit.without, h, if_pos rfl]
    simp [eq_comm]

theorem retireActive_retires {e : ExhibitId} (o : CueOutcome) (a : Option AxisId) {s : State}
    (hr : (s.exhibit e).state ≠ .running) :
    Retires e (s.exhibit e).active.toList o a s (retireActive e o a s) := by
  cases h : (s.exhibit e).active with
  | none => rw [retireActive_of_none o a h]; exact .refl e o a s
  | some f =>
    rw [retireActive_of_some o a h hr]
    have hs := stopFrameAxes_sansAxes f (retireFrame f e o a s)
    obtain ⟨records, later, others, rest⟩ := Retires.one f e o a s
    exact ⟨(retiredList_of_sansAxes hs).trans records,
      (retirement_congr (fun g => by rw [frame_of_sansAxes hs]) (clock_of_sansAxes hs)).trans later,
      fun k hk => (exhibit_of_sansAxes hs k).trans (others k hk), (sansCues_of_sansAxes hs).trans rest⟩

/-- The axes that move for a frame stop as it leaves the active slot (R97). -/
theorem retireActive_axis {e : ExhibitId} (o : CueOutcome) (a : Option AxisId) {s : State}
    (hr : (s.exhibit e).state ≠ .running) (b : AxisId) :
    (retireActive e o a s).axis b
      = if (∃ f, (s.exhibit e).active = some f ∧ (s.axis b).movedBy f = true) ∧ (s.axis b).state.busy = true then
          (s.axis b).stopped else s.axis b := by
  cases h : (s.exhibit e).active with
  | none => rw [retireActive_of_none o a h, if_neg (by simp)]
  | some f =>
    have hf : (retireFrame f e o a s).axis b = s.axis b := congrArg (fun v => v.get b) (retireFrame_axes f e o a s)
    rw [retireActive_of_some o a h hr, stopFrameAxes_axis, hf]
    exact if_congr (by simp) rfl rfl

theorem retireActive_startQueue {e : ExhibitId} (o : CueOutcome) (a : Option AxisId) {s : State}
    (hr : (s.exhibit e).state ≠ .running) :
    (retireActive e o a s).arbiter.startQueue ⊆ s.arbiter.startQueue := by
  cases h : (s.exhibit e).active with
  | none => rw [retireActive_of_none o a h]; exact List.Subset.refl _
  | some f =>
    have hs := stopFrameAxes_startQueue f (retireFrame f e o a s)
    rw [retireFrame_arbiter] at hs
    rw [retireActive_of_some o a h hr]
    exact hs

/-! ## An exhibit leaves use: its state changes and every frame of it retires -/

/-- Exhibit `e` enters state `n` and its frames retire: the active one with the outcome, then the queued ones
CANCELLED (R14, R16). -/
def emptied (e : ExhibitId) (n : ExhibitState) (o : CueOutcome) (a : Option AxisId) (s : State) : State :=
  retireQueue e (retireActive e o a (changeState e n s))

section
variable {e : ExhibitId} {n : ExhibitState} (o : CueOutcome) (a : Option AxisId) (s : State) (hn : n ≠ .running)
include hn

theorem emptied_exhibit :
    (emptied e n o a s).exhibit e
      = { s.exhibit e with state := n, active := none, queue := [], lastChange := s.clock } := by
  have hr : ((changeState e n s).exhibit e).state ≠ .running := by simpa using hn
  have h := retireActive_exhibit o a hr
  unfold emptied
  rw [retireQueue_exhibit (by rw [h]), h, changeState_exhibit_same]

theorem emptied_exhibit_other {k : ExhibitId} (hk : k ≠ e) : (emptied e n o a s).exhibit k = s.exhibit k := by
  have hr : ((changeState e n s).exhibit e).state ≠ .running := by simpa using hn
  unfold emptied
  rw [(retireQueue_retires e _).others k hk, (retireActive_retires o a hr).others k hk,
    changeState_exhibit_other e n s hk]

theorem emptied_retiredList :
    (emptied e n o a s).retiredList = s.retiredList ++ (s.exhibit e).active.toList.map (retirement s e o a)
      ++ (s.exhibit e).waiting.map (retirement s e .cancelled none) := by
  have hr : ((changeState e n s).exhibit e).state ≠ .running := by simpa using hn
  have hs := changeState_sansExhibits e n s
  have hl : (changeState e n s).retiredList = s.retiredList := (congrArg State.retiredList hs :)
  have hc : retirement (changeState e n s) = retirement s :=
    retirement_congr (fun f => (congrArg (fun t : State => (t.frame f).stepsCompleted) hs :))
      (changeState_clock e n s)
  have h := retireActive_retires o a hr
  unfold emptied
  rw [(retireQueue_retires e _).records, h.records, h.later, retireActive_exhibit o a hr, hl, hc]
  simp [Exhibit.waiting]

theorem emptied_axis (b : AxisId) :
    (emptied e n o a s).axis b
      = if (∃ f, (s.exhibit e).active = some f ∧ (s.axis b).movedBy f = true) ∧ (s.axis b).state.busy = true then
          (s.axis b).stopped else s.axis b := by
  have hr : ((changeState e n s).exhibit e).state ≠ .running := by simpa using hn
  unfold emptied
  refine (congrArg (fun v : Vector Axis 12 => v.get b) (retireList_axes e _ _ _ _).1).trans
    ((retireActive_axis o a hr b).trans ?_)
  simp

theorem emptied_startQueue : (emptied e n o a s).arbiter.startQueue ⊆ s.arbiter.startQueue := by
  have hr : ((changeState e n s).exhibit e).state ≠ .running := by simpa using hn
  have h := retireActive_startQueue o a hr
  rw [changeState_arbiter] at h
  unfold emptied
  rw [show (retireQueue e (retireActive e o a (changeState e n s))).arbiter
    = (retireActive e o a (changeState e n s)).arbiter from (retireList_axes e _ _ _ _).2]
  exact h

omit hn in
/-- An exhibit without frames only changes its state. -/
theorem emptied_of_empty (h : (s.exhibit e).active = none) (hq : (s.exhibit e).queue = []) :
    emptied e n o a s = changeState e n s := by
  unfold emptied retireQueue
  rw [retireActive_of_none o a (by simpa using h), changeState_exhibit_same]
  exact congrArg (forList · _ _) hq

end
end Sys2Proof.Machine
end

section
/-! PROOFS. The closing of an exhibit, and EXHIBIT-CLOSE (O24). -/

namespace Sys2Proof.Machine

/-! ## Reading a field off a view -/

section
variable {s t : State} (h : t.sansLines = s.sansLines)
include h

theorem exhibit_of_sansLines (k : ExhibitId) : t.exhibit k = s.exhibit k := (congrArg (State.exhibit · k) h :)

theorem axis_of_sansLines (a : AxisId) : t.axis a = s.axis a := (congrArg (State.axis · a) h :)

theorem arbiter_of_sansLines : t.arbiter = s.arbiter := (congrArg State.arbiter h :)

theorem retiredList_of_sansLines : t.retiredList = s.retiredList := (congrArg State.retiredList h :)

end

/-! ## An axis that waits -/

/-- The place of an axis in the start queue after a loop that takes it out, by the state the loop gives. -/
theorem Withdraws.not_mem_of_eq {op : AxisId → State → State} {p : Axis → Bool} {g : Axis → Axis}
    (h : Withdraws op p g) {l : List AxisId} {s t : State} {b : AxisId} (ht : t = forList l op s) (hb : b ∈ l)
    (hp : p (s.axis b) = true) (hw : (s.axis b).state = .waitingStart) : b ∉ t.arbiter.startQueue := by
  subst ht
  exact h.not_mem_startQueue hb hp hw

theorem stopFrameAxes_not_mem {f : FrameId} {s : State} {b : AxisId} (hm : (s.axis b).movedBy f = true)
    (hw : (s.axis b).state = .waitingStart) : b ∉ (stopFrameAxes f s).arbiter.startQueue :=
  (stopMoved_withdraws f).not_mem_of_eq (stopFrameAxes_eq f s) (List.mem_finRange b) (by rw [hm, hw]; rfl) hw

/-- An axis that waits as its exhibit's frames retire still waits, or has given up its place (R92, R97). -/
theorem emptied_waiting {e : ExhibitId} {n : ExhibitState} (o : CueOutcome) (a : Option AxisId) {s : State}
    (hn : n ≠ .running) {b : AxisId} (hw : (s.axis b).state = .waitingStart) :
    (emptied e n o a s).axis b = s.axis b ∨ b ∉ (emptied e n o a s).arbiter.startQueue := by
  have hr : ((changeState e n s).exhibit e).state ≠ .running := by simpa using hn
  rw [emptied_axis o a s hn]
  split
  · rename_i h
    obtain ⟨⟨f, hf, hm⟩, -⟩ := h
    refine .inr ?_
    have hx : (retireFrame f e o a (changeState e n s)).axis b = s.axis b :=
      (congrArg (fun v : Vector Axis 12 => v.get b) (retireFrame_axes f e o a _)).trans (changeState_axis e n s b)
    have hq := stopFrameAxes_not_mem (f := f) (b := b) (by rw [hx]; exact hm) (by rw [hx]; exact hw)
    unfold emptied
    rw [show (retireQueue e (retireActive e o a (changeState e n s))).arbiter
      = (retireActive e o a (changeState e n s)).arbiter from (retireList_axes e _ _ _ _).2,
      retireActive_of_some o a (by simpa using hf) hr]
    exact hq
  · exact .inl rfl

/-! ## The closing of an exhibit -/

/-- What a closing leaves of an exhibit's set, with its guard-long timer stopped (R16). -/
def Exhibit.leaveUse (x : Exhibit) : Exhibit :=
  { x with holds := { x.holds with attendant := false, lapse := false }, guardLong := none }

/-- The axes of exhibit `e` as its frames retire and the axes are disabled (R16, R98). -/
def withdrawn (e : ExhibitId) (s : State) : State :=
  forList (s.exhibit e).axes disableAxis (emptied e .closed .cancelled none s)

theorem withdrawn_sansAxes (e : ExhibitId) (s : State) :
    (withdrawn e s).sansAxes = (emptied e .closed .cancelled none s).sansAxes :=
  disableAxis_withdraws.list_rest _ _

theorem closeExhibit_eq (e : ExhibitId) (s : State) :
    closeExhibit e s = evaluateExhibitLines e ((withdrawn e s).modExhibit e Exhibit.leaveUse) := by
  have h : ((emptied e .closed .cancelled none s).exhibit e).axes = (s.exhibit e).axes := by
    rw [emptied_exhibit _ _ _ (by decide)]
  unfold withdrawn
  rw [← h]
  rfl

/-- A closing but for the evaluation of the exhibit's lines. -/
theorem closeExhibit_sansLines (e : ExhibitId) (s : State) :
    (closeExhibit e s).sansLines = ((withdrawn e s).modExhibit e Exhibit.leaveUse).sansLines := by
  rw [closeExhibit_eq, evaluateExhibitLines_sansLines]

theorem closeExhibit_exhibit (e : ExhibitId) (s : State) :
    (closeExhibit e s).exhibit e = { s.exhibit e with
      state := .closed, active := none, queue := [], lastChange := s.clock, guardLong := none
      holds := { (s.exhibit e).holds with attendant := false, lapse := false } } := by
  rw [exhibit_of_sansLines (closeExhibit_sansLines e s), modExhibit_exhibit_same,
    exhibit_of_sansAxes (withdrawn_sansAxes e s), emptied_exhibit _ _ _ (by decide)]
  rfl

theorem closeExhibit_exhibit_other {e k : ExhibitId} (s : State) (hk : k ≠ e) :
    (closeExhibit e s).exhibit k = s.exhibit k := by
  rw [exhibit_of_sansLines (closeExhibit_sansLines e s), modExhibit_exhibit_other _ _ _ _ hk,
    exhibit_of_sansAxes (withdrawn_sansAxes e s),
    emptied_exhibit_other _ _ _ (by decide) hk]

theorem closeExhibit_retiredList (e : ExhibitId) (s : State) :
    (closeExhibit e s).retiredList
      = s.retiredList ++ (s.exhibit e).active.toList.map (retirement s e .cancelled none)
        ++ (s.exhibit e).waiting.map (retirement s e .cancelled none) := by
  have h : (closeExhibit e s).retiredList = (withdrawn e s).retiredList :=
    (retiredList_of_sansLines (closeExhibit_sansLines e s)).trans rfl
  rw [h, retiredList_of_sansAxes (withdrawn_sansAxes e s), emptied_retiredList _ _ _ (by decide)]

theorem closeExhibit_arbiter (e : ExhibitId) (s : State) : (closeExhibit e s).arbiter = (withdrawn e s).arbiter :=
  (arbiter_of_sansLines (closeExhibit_sansLines e s)).trans rfl

theorem withdrawn_axis (e : ExhibitId) (s : State) (b : AxisId) :
    (withdrawn e s).axis b
      = if b ∈ (s.exhibit e).axes then (s.axis b).shut else (emptied e .closed .cancelled none s).axis b := by
  refine (disableAxis_withdraws.list_axis _ _ b).trans ?_
  rw [emptied_axis _ _ _ (by decide)]
  by_cases hb : b ∈ (s.exhibit e).axes
  · rw [if_pos hb, if_pos ⟨hb, rfl⟩]
    split <;> rfl
  · rw [if_neg hb, if_neg fun h => hb h.1]

theorem closeExhibit_axis (e : ExhibitId) (s : State) (b : AxisId) :
    (closeExhibit e s).axis b
      = if b ∈ (s.exhibit e).axes then (s.axis b).shut else (emptied e .closed .cancelled none s).axis b :=
  (axis_of_sansLines (closeExhibit_sansLines e s) b).trans (withdrawn_axis e s b)

/-- An axis of a closed exhibit waits no more. -/
theorem closeExhibit_not_waiting {e : ExhibitId} {s : State} {b : AxisId} (hb : b ∈ (s.exhibit e).axes)
    (hw : (s.axis b).state = .waitingStart) : b ∉ (closeExhibit e s).arbiter.startQueue := by
  rw [closeExhibit_arbiter]
  rcases emptied_waiting (e := e) (n := .closed) .cancelled none (by decide) hw with h | h
  · exact disableAxis_withdraws.not_mem_startQueue hb rfl (by rw [h, hw])
  · exact fun hx => h (disableAxis_withdraws.startQueue_subset _ _ hx)

/-! ## EXHIBIT-CLOSE -/

theorem exhibitCloseBody_refuses {e : ExhibitId} {s : State} (port : Port)
    (h : (s.exhibit e).state = .closed ∨ (s.exhibit e).state = .service) :
    exhibitCloseBody port (num1 e.val) s = refuse .wrongState s := by
  refine (onExhibit_num1 e _ s).trans ?_
  rcases h with h | h <;> rw [h]

theorem exhibitCloseBody_closes {e : ExhibitId} {s : State} (port : Port) (hc : (s.exhibit e).state ≠ .closed)
    (hs : (s.exhibit e).state ≠ .service) :
    exhibitCloseBody port (num1 e.val) s = accept [] (conclude (closeExhibit e s)) := by
  refine (onExhibit_num1 e _ s).trans ?_
  split
  · contradiction
  · contradiction
  all_goals rfl

/-- The frames of an exhibit, each once: the queued ones are not active. -/
theorem waiting_eq {x : Exhibit} (h : (x.active.toList ++ x.queue).Nodup) : x.waiting = x.queue := by
  refine List.filter_eq_self.2 fun f hf => ?_
  have := List.disjoint_of_nodup_append h
  simpa using fun ha => this (by simp [ha]) hf

/-- An axis of a closed exhibit is DISABLED and waits no more. -/
theorem closeExhibit_axis_gone {e : ExhibitId} {a : AxisId} (s : State) (ha : a ∈ (s.exhibit e).axes) :
    ((closeExhibit e s).axis a).state = .disabled ∧ ((closeExhibit e s).axis a).drive = .off ∧
      ((closeExhibit e s).axis a).move = none ∧ ((closeExhibit e s).axis a).fault = none ∧
      ((closeExhibit e s).axis a).travel = none ∧ ((closeExhibit e s).axis a).settle = none ∧
      ((s.axis a).state = .waitingStart → a ∉ (closeExhibit e s).arbiter.startQueue) := by
  rw [closeExhibit_axis, if_pos ha]
  exact ⟨rfl, rfl, rfl, rfl, rfl, rfl, closeExhibit_not_waiting ha⟩

/-- The frames of a closed exhibit stand at the tail of the retired list, the active one first (R135). -/
theorem closed_records {e : ExhibitId} {s : State} (hn : ((s.exhibit e).active.toList ++ (s.exhibit e).queue).Nodup) :
    ((closeExhibit e s).retiredList.map fun r => (r.frame, r.exhibit, r.outcome, r.endTime))
      = (s.retiredList.map fun r => (r.frame, r.exhibit, r.outcome, r.endTime))
        ++ ((s.exhibit e).active.toList ++ (s.exhibit e).queue).map fun f => (f, e, CueOutcome.cancelled, s.clock) := by
  rw [closeExhibit_retiredList, waiting_eq hn, List.append_assoc, ← List.map_append, List.map_append, List.map_map]
  rfl

/-- Settles O24: the exhibit's frames retire, its axes are disabled, and its set loses ATTENDANT and LAPSE. -/
theorem exhibitCloses : Obligations.ExhibitCloses := by
  refine ⟨fun e s h => ⟨fun hx => ?_, fun hc hs => ⟨?_, ?_⟩⟩, fun e s => ?_⟩
  · exact answers_body h (by simp) rfl (exhibitCloseBody_refuses .deskPort hx)
  · exact answers_body h (by simp) rfl (exhibitCloseBody_closes .deskPort hc hs)
  · exact Undisturbed.trans (Undisturbed.free.closeExhibit e s) (Undisturbed.wide.toFloor.conclude _)
  · exact fun hn => ⟨closeExhibit_exhibit e s, fun d hd => closeExhibit_exhibit_other s hd,
      fun a ha => closeExhibit_axis_gone s ha, closed_records hn⟩

end Sys2Proof.Machine
end

section
/-! SUPPORT. The fault of an axis: its report, and the reaction of its exhibit (R14, R93, R94). -/

namespace Sys2Proof.Machine

/-! ## The fault of an axis -/

/-- What a fault makes of an axis (R93). -/
def Axis.failed (c : FaultCause) (x : Axis) : Axis :=
  { x.quit with state := .faulted, fault := some c, move := none, corrections := 0, suppress := false }

/-- Steps 1 to 4 of a fault: the axis, its event and its alert (R93). -/
def faultReported (a : AxisId) (c : FaultCause) (s : State) : State :=
  raiseAlert (tableTrigger .axisFault (s.axis a).exhibit (some a.val)) <|
    emit (faultQueues s (s.axis a).exhibit)
      (axisEvent .axisFault a (s.axis a) (some (BitVec.ofNat 16 c.code)))
      ((releaseAxis a s).modAxis a (Axis.failed c))

/-- An event is appended before or after an update of an axis. -/
theorem emit_modAxis (qs : List QueueName) (v : Event) (s : State) (a : AxisId) (f : Axis → Axis) :
    (emit qs v s).modAxis a f = emit qs v (s.modAxis a f) := by
  unfold emit
  induction qs generalizing s with
  | nil => rfl
  | cons q qs ih => exact (ih _).trans (congrArg (fun t => qs.foldl (fun t q => appendTo q v t) t) (by cases q <;> rfl))

theorem faultAxis_unaffected {a : AxisId} {c : FaultCause} {s : State}
    (h : (s.axis a).state = .disabled ∨ (s.axis a).state = .faulted) : faultAxis a c s = s := if_pos h

/-- A fault is its report and the reaction of the axis's exhibit. -/
theorem faultAxis_eq {a : AxisId} {c : FaultCause} {s : State} (hd : (s.axis a).state ≠ .disabled)
    (hf : (s.axis a).state ≠ .faulted) :
    faultAxis a c s = match (s.axis a).exhibit with
      | some e => exhibitFault e a (faultReported a c s)
      | none => faultReported a c s := by
  have hx : (markFaulted a c s).axis a = { (s.axis a).quit with state := .faulted, fault := some c } := by
    unfold markFaulted
    rw [modAxis_axis_same, releaseAxis_axis]
  have he : (markFaulted a c s).exhibits = s.exhibits := (congrArg State.exhibits (releaseAxis_sansAxes a s) :)
  have hq : faultQueues (markFaulted a c s) (s.axis a).exhibit = faultQueues s (s.axis a).exhibit :=
    congrArg (fun q => [q, QueueName.deskQ]) (floorQueue_congr he _)
  have hv : reportFault a c (markFaulted a c s) = emit (faultQueues s (s.axis a).exhibit)
      (axisEvent .axisFault a (s.axis a) (some (BitVec.ofNat 16 c.code))) (markFaulted a c s) := by
    unfold reportFault
    rw [hx]
    exact congrArg (fun qs => emit qs (axisEvent .axisFault a (s.axis a) (some (BitVec.ofNat 16 c.code)))
      (markFaulted a c s)) hq
  have hm : (markFaulted a c s).modAxis a (fun x => { x with move := none, corrections := 0, suppress := false })
      = (releaseAxis a s).modAxis a (Axis.failed c) := modAxis_modAxis _ _ _ _
  have hr : raiseAxisFault a (forgetMove a (reportFault a c (markFaulted a c s))) = faultReported a c s := by
    unfold raiseAxisFault forgetMove faultReported
    rw [hv, emit_modAxis, hm, emit_axis, modAxis_axis_same, releaseAxis_axis]
    rfl
  have hn : ((faultReported a c s).axis a).exhibit = (s.axis a).exhibit := by
    unfold faultReported
    rw [raiseAlert_axis, emit_axis, modAxis_axis_same, releaseAxis_axis]
    rfl
  unfold faultAxis faultExhibitOf
  rw [if_neg (by simp [hd, hf]), hr, hn] <;> rfl

section
variable (a : AxisId) (c : FaultCause) (s : State)

/-- A fault's report is seen in the axis, the arbiter, the alerts and the event queues alone. -/
theorem faultReported_sansAlerts :
    (faultReported a c s).sansAlerts = ((releaseAxis a s).modAxis a (Axis.failed c)).sansAlerts :=
  (raiseAlert_sansAlerts _ _).trans (emit_sansAlerts _ _ _)

theorem faultReported_sansAxes : (faultReported a c s).sansAlerts.sansAxes = s.sansAlerts.sansAxes :=
  (congrArg State.sansAxes (faultReported_sansAlerts a c s) :).trans
    (congrArg State.sansAlerts (releaseAxis_sansAxes a s) :)

@[simp] theorem faultReported_exhibit (k : ExhibitId) : (faultReported a c s).exhibit k = s.exhibit k :=
  exhibit_of_sansAxes (s := s.sansAlerts) (t := (faultReported a c s).sansAlerts) (faultReported_sansAxes a c s) k

theorem faultReported_retiredList : (faultReported a c s).retiredList = s.retiredList :=
  retiredList_of_sansAxes (s := s.sansAlerts) (t := (faultReported a c s).sansAlerts) (faultReported_sansAxes a c s)

theorem faultReported_clock : (faultReported a c s).clock = s.clock :=
  clock_of_sansAxes (s := s.sansAlerts) (t := (faultReported a c s).sansAlerts) (faultReported_sansAxes a c s)

theorem faultReported_retirement : retirement (faultReported a c s) = retirement s :=
  retirement_congr (fun f => congrArg CueFrame.stepsCompleted (frame_of_sansAxes (s := s.sansAlerts)
    (t := (faultReported a c s).sansAlerts) (faultReported_sansAxes a c s) f)) (faultReported_clock a c s)

theorem faultReported_axis (b : AxisId) :
    (faultReported a c s).axis b = if b = a then (s.axis a).failed c else s.axis b := by
  unfold faultReported
  rw [raiseAlert_axis, emit_axis, axis_modAxis, releaseAxis_axis, releaseAxis_axis]

theorem faultReported_arbiter : (faultReported a c s).arbiter = (releaseAxis a s).arbiter := by
  unfold faultReported
  rw [raiseAlert_arbiter, emit_arbiter]
  rfl

end

theorem releaseAxis_not_mem {a : AxisId} {s : State} (h : (s.axis a).state = .waitingStart) :
    a ∉ (releaseAxis a s).arbiter.startQueue := by
  rw [releaseAxis_eq, h]
  simp

/-! ## The exhibit of a faulted axis -/

/-- Whether an exhibit is in use for cues: READY, RUNNING or HELD (R14). -/
def Exhibit.inUse (x : Exhibit) : Prop := x.state = .ready ∨ x.state = .running ∨ x.state = .held

/-- An exhibit in use has its frames retired and its axes stopped (R14, R94). -/
theorem exhibitFault_of_inUse {e : ExhibitId} {a : AxisId} {s : State} (h : (s.exhibit e).inUse) :
    exhibitFault e a s = forList (s.exhibit e).axes stopAxis (emptied e .faulted .faulted (some a) s) := by
  have hx : ((emptied e .faulted .faulted (some a) s).exhibit e).axes = (s.exhibit e).axes := by
    rw [emptied_exhibit _ _ _ (by decide)]
  rw [← hx]
  unfold exhibitFault
  rcases h with h | h | h <;> rw [h] <;> rfl

/-- Any other exhibit stays (R94). -/
theorem exhibitFault_of_not_inUse {e : ExhibitId} {a : AxisId} {s : State} (h : ¬ (s.exhibit e).inUse) :
    exhibitFault e a s = s := by
  unfold exhibitFault
  split
  · rename_i hs; exact absurd (.inl hs) h
  · rename_i hs; exact absurd (.inr (.inl hs)) h
  · rename_i hs; exact absurd (.inr (.inr hs)) h
  all_goals rfl

section
variable {e : ExhibitId} {s : State} (a : AxisId) (h : (s.exhibit e).inUse)
include h

theorem exhibitFault_sansAxes :
    (exhibitFault e a s).sansAxes = (emptied e .faulted .faulted (some a) s).sansAxes := by
  rw [exhibitFault_of_inUse h]
  exact stopAxis_withdraws.list_rest _ _

theorem exhibitFault_exhibit :
    (exhibitFault e a s).exhibit e
      = { s.exhibit e with state := .faulted, active := none, queue := [], lastChange := s.clock } := by
  rw [exhibit_of_sansAxes (exhibitFault_sansAxes a h), emptied_exhibit _ _ _ (by decide)]

theorem exhibitFault_retiredList :
    (exhibitFault e a s).retiredList
      = s.retiredList ++ (s.exhibit e).active.toList.map (retirement s e .faulted (some a))
        ++ (s.exhibit e).waiting.map (retirement s e .cancelled none) := by
  rw [retiredList_of_sansAxes (exhibitFault_sansAxes a h), emptied_retiredList _ _ _ (by decide)]

/-- A busy axis of the exhibit is stopped, with its frame or after it. -/
theorem exhibitFault_axis_busy {b : AxisId} (hb : b ∈ (s.exhibit e).axes) (hx : (s.axis b).state.busy = true) :
    (exhibitFault e a s).axis b = (s.axis b).stopped := by
  rw [exhibitFault_of_inUse h, stopAxis_withdraws.list_axis, emptied_axis _ _ _ (by decide)]
  split
  · exact if_neg fun hc => absurd hc.2 (by simp [Axis.stopped, AxisState.busy])
  · exact if_pos ⟨hb, hx⟩

/-- An axis that is not busy stays. -/
theorem exhibitFault_axis_idle {b : AxisId} (hx : (s.axis b).state.busy = false) :
    (exhibitFault e a s).axis b = s.axis b := by
  rw [exhibitFault_of_inUse h, stopAxis_withdraws.list_axis, emptied_axis _ _ _ (by decide),
    if_neg (c := _ ∧ _) fun hc => absurd hc.2 (by simp [hx]), if_neg fun hc => absurd hc.2 (by simp [hx])]

theorem exhibitFault_startQueue : (exhibitFault e a s).arbiter.startQueue ⊆ s.arbiter.startQueue := by
  rw [exhibitFault_of_inUse h]
  exact List.Subset.trans (stopAxis_withdraws.startQueue_subset _ _) (emptied_startQueue _ _ _ (by decide))

end

theorem exhibitFault_exhibit_other {e k : ExhibitId} (a : AxisId) (s : State) (hk : k ≠ e) :
    (exhibitFault e a s).exhibit k = s.exhibit k := by
  by_cases h : (s.exhibit e).inUse
  · rw [exhibit_of_sansAxes (exhibitFault_sansAxes a h), emptied_exhibit_other _ _ _ (by decide) hk]
  · rw [exhibitFault_of_not_inUse h]

end Sys2Proof.Machine
end

section
/-! PROOFS. An axis fault and its exhibit (O45). -/

namespace Sys2Proof.Machine

/-! ## O45 -/

theorem busy_iff (x : AxisState) :
    x.busy = true ↔ x = .waitingStart ∨ x = .accelerating ∨ x = .moving ∨ x = .settling ∨ x = .held := by
  cases x <;> simp [AxisState.busy]

/-- A fault of an axis of no exhibit is its report. -/
theorem faultAxis_none {a : AxisId} {c : FaultCause} {s : State} (hd : (s.axis a).state ≠ .disabled)
    (hf : (s.axis a).state ≠ .faulted) (hx : (s.axis a).exhibit = none) :
    faultAxis a c s = faultReported a c s := by
  rw [faultAxis_eq hd hf, hx]

theorem faultAxis_some {a : AxisId} {c : FaultCause} {s : State} {e : ExhibitId}
    (hd : (s.axis a).state ≠ .disabled) (hf : (s.axis a).state ≠ .faulted) (hx : (s.axis a).exhibit = some e) :
    faultAxis a c s = exhibitFault e a (faultReported a c s) := by
  rw [faultAxis_eq hd hf, hx]

section
variable {a : AxisId} {c : FaultCause} {s : State} {e : ExhibitId} (hd : (s.axis a).state ≠ .disabled)
  (hf : (s.axis a).state ≠ .faulted)
include hd hf

/-- The faulted axis keeps what its report made of it, whatever its exhibit does. -/
theorem faultAxis_own : (faultAxis a c s).axis a = (s.axis a).failed c := by
  have hr : (faultReported a c s).axis a = (s.axis a).failed c := by rw [faultReported_axis, if_pos rfl]
  cases hx : (s.axis a).exhibit with
  | none => rw [faultAxis_none hd hf hx, hr]
  | some e =>
    rw [faultAxis_some hd hf hx]
    by_cases hu : ((faultReported a c s).exhibit e).inUse
    · rw [exhibitFault_axis_idle a hu (by rw [hr]; rfl), hr]
    · rw [exhibitFault_of_not_inUse hu, hr]

theorem faultAxis_startQueue (hw : (s.axis a).state = .waitingStart) :
    a ∉ (faultAxis a c s).arbiter.startQueue := by
  have hr : a ∉ (faultReported a c s).arbiter.startQueue := by
    rw [faultReported_arbiter]
    exact releaseAxis_not_mem hw
  cases hx : (s.axis a).exhibit with
  | none => rw [faultAxis_none hd hf hx]; exact hr
  | some e =>
    rw [faultAxis_some hd hf hx]
    by_cases hu : ((faultReported a c s).exhibit e).inUse
    · exact fun h => hr (exhibitFault_startQueue a hu h)
    · rw [exhibitFault_of_not_inUse hu]; exact hr

/-- An exhibit in use becomes FAULTED without frames. -/
theorem faultAxis_exhibit (hx : (s.axis a).exhibit = some e) (hu : (s.exhibit e).inUse) :
    (faultAxis a c s).exhibit e
      = { s.exhibit e with state := .faulted, active := none, queue := [], lastChange := s.clock } := by
  rw [faultAxis_some hd hf hx, exhibitFault_exhibit a (by rwa [faultReported_exhibit]), faultReported_exhibit,
    faultReported_clock]

/-- Its other busy axes stop. -/
theorem faultAxis_stops (hx : (s.axis a).exhibit = some e) (hu : (s.exhibit e).inUse) {b : AxisId}
    (hb : b ∈ (s.exhibit e).axes) (hn : b ≠ a) (hy : (s.axis b).state.busy = true) :
    (faultAxis a c s).axis b = (s.axis b).stopped := by
  have hr : (faultReported a c s).axis b = s.axis b := by rw [faultReported_axis, if_neg hn]
  rw [faultAxis_some hd hf hx, exhibitFault_axis_busy a (by rwa [faultReported_exhibit])
    (by rwa [faultReported_exhibit]) (by rwa [hr]), hr]

theorem faultAxis_not_inUse (hx : (s.axis a).exhibit = some e) (hu : ¬ (s.exhibit e).inUse) :
    faultAxis a c s = faultReported a c s := by
  rw [faultAxis_some hd hf hx, exhibitFault_of_not_inUse (by rwa [faultReported_exhibit])]

/-- No other exhibit changes. -/
theorem faultAxis_exhibit_other {d : ExhibitId} (hx : (s.axis a).exhibit ≠ some d) :
    (faultAxis a c s).exhibit d = s.exhibit d := by
  cases he : (s.axis a).exhibit with
  | none => rw [faultAxis_none hd hf he, faultReported_exhibit]
  | some e =>
    rw [faultAxis_some hd hf he, exhibitFault_exhibit_other _ _ (by rintro rfl; exact hx he),
      faultReported_exhibit]

theorem faultAxis_retiredList (hx : (s.axis a).exhibit = some e) (hu : (s.exhibit e).inUse) :
    (faultAxis a c s).retiredList
      = s.retiredList ++ (s.exhibit e).active.toList.map (retirement s e .faulted (some a))
        ++ (s.exhibit e).waiting.map (retirement s e .cancelled none) := by
  rw [faultAxis_some hd hf hx, exhibitFault_retiredList a (by rwa [faultReported_exhibit]), faultReported_exhibit,
    faultReported_retiredList, faultReported_retirement]

end

/-- Settles O45: a fault is its report and the reaction of the axis's exhibit, which retires its frames and stops its
axes. -/
theorem axisFaultStopsItsExhibit : Obligations.AxisFaultStopsItsExhibit := by
  refine ⟨fun a s => ?_, fun a cause s => ?_, fun a cause s => ⟨faultAxis_unaffected, fun hd hf =>
    ⟨faultAxis_own hd hf, faultAxis_startQueue hd hf, fun e hx => ⟨fun hu => faultAxis_exhibit hd hf hx hu,
      fun hu b hb hn hy => faultAxis_stops hd hf hx hu hb hn hy, fun hu => ?_⟩,
      fun d hx => faultAxis_exhibit_other hd hf hx, Undisturbed.wide.toFloor.faultAxis a cause s⟩⟩⟩
  · intro x left busy
    have hl : releaseAxis a s = left := (releaseAxis_eq a s).trans rfl
    have hb : busy ↔ (s.axis a).state.busy = true := (busy_iff _).symm
    exact ⟨fun h => if_neg fun hx => h (hb.2 hx), fun h => (if_pos (hb.1 h)).trans (by rw [hl]; rfl)⟩
  · intro x t left marked code step event alerted hd hf
    have hl : (releaseAxis a s).modAxis a (Axis.failed cause) = marked :=
      congrArg (State.modAxis · a (Axis.failed cause)) ((releaseAxis_eq a s).trans rfl)
    have hc : BitVec.ofNat 16 cause.code = code := by cases cause <;> rfl
    have hv : axisEvent .axisFault a (s.axis a) (some code) = event := axisEvent_eq _ a _ _
    have hr : ∀ q, floorQueue s x.exhibit = q → faultReported a cause s = alerted q := fun q hq => by
      unfold faultReported faultQueues
      rw [hc, hv, hl, hq]
      rfl
    have show_queue : (¬ ∃ e, x.exhibit = some e ∧ (s.exhibit e).state = .service) →
        faultReported a cause s = alerted .showQ := fun h => hr _ ((floorQueue_eq s x.exhibit).trans (if_neg h))
    have only : ∀ {e}, x.exhibit = some e → (s.exhibit e).state ≠ .service →
        faultReported a cause s = alerted .showQ := fun he hs =>
      show_queue fun ⟨k, hk, hks⟩ => hs (by rw [he] at hk; cases hk; exact hks)
    refine ⟨fun hx => ?_, fun e hx => ?_⟩
    · exact (faultAxis_none hd hf hx).trans (show_queue fun ⟨k, hk, _⟩ => by rw [hx] at hk; cases hk)
    · intro y record
      refine ⟨fun hs => ?_, fun hs => ?_, fun hs => ⟨?_, ?_⟩⟩
      · refine (faultAxis_not_inUse hd hf hx fun hu => ?_).trans (hr .serviceQ ?_)
        · rcases hu with hu | hu | hu <;> rw [hs] at hu <;> cases hu
        · exact (floorQueue_eq s x.exhibit).trans (if_pos ⟨e, hx, hs⟩)
      · refine (faultAxis_not_inUse hd hf hx fun hu => ?_).trans (only hx fun h => ?_)
        · rcases hu with hu | hu | hu <;> rcases hs with hs | hs <;> rw [hs] at hu <;> cases hu
        · rcases hs with hs | hs <;> rw [hs] at h <;> cases h
      · have hw : faultReported a cause s = alerted .showQ := only hx fun h => by
          rcases hs with hs | hs | hs <;> rw [hs] at h <;> cases h
        refine (faultAxis_some hd hf hx).trans ?_
        rw [exhibitFault_of_inUse (by rw [faultReported_exhibit]; exact hs), faultReported_exhibit, hw]
        rfl
      · exact faultAxis_retiredList hd hf hx hs
  · exact ⟨by rw [faultAxis_not_inUse hd hf hx hu, faultReported_exhibit],
      fun b hb => by rw [faultAxis_not_inUse hd hf hx hu, faultReported_axis, if_neg hb]⟩

end Sys2Proof.Machine
end

section
/-! SUPPORT. An exhibit comes into use: its state, its axes and its lines (R10, R18, R22, R27, R81). -/

namespace Sys2Proof.Machine

/-! ## An exhibit comes into use -/

/-- The state without its exhibits, lines, axes and event queues. -/
def State.sansFloor (s : State) : State :=
  { s.sansQueues with
    exhibits := Vector.replicate 16 {}, lines := Vector.replicate 64 {}, axes := Vector.replicate 12 {} }

theorem sansFloor_of_sansLines {s t : State} (h : t.sansLines = s.sansLines) : t.sansFloor = s.sansFloor :=
  (congrArg State.sansFloor h :)

theorem sansFloor_of_sansExhibits {s t : State} (h : t.sansExhibits = s.sansExhibits) :
    t.sansFloor = s.sansFloor := (congrArg State.sansFloor h :)

theorem sansFloor_axes (s : State) (v : Vector Axis 12) : { s with axes := v }.sansFloor = s.sansFloor := rfl

theorem sansFloor_exhibits (s : State) (v : Vector Exhibit 16) : { s with exhibits := v }.sansFloor = s.sansFloor :=
  rfl

section
variable {s t : State} (h : t.sansFloor = s.sansFloor)
include h

theorem arbiter_of_sansFloor : t.arbiter = s.arbiter := (congrArg State.arbiter h :)

theorem frames_of_sansFloor : t.frames = s.frames := (congrArg State.frames h :)

theorem freeList_of_sansFloor : t.freeList = s.freeList := (congrArg State.freeList h :)

theorem takenSet_of_sansFloor : t.takenSet = s.takenSet := (congrArg State.takenSet h :)

theorem retiredList_of_sansFloor : t.retiredList = s.retiredList := (congrArg State.retiredList h :)

theorem alerts_of_sansFloor : t.alerts = s.alerts := (congrArg State.alerts h :)

theorem channels_of_sansFloor : t.channels = s.channels := (congrArg State.channels h :)

theorem scanner_of_sansFloor : t.scanner = s.scanner := (congrArg State.scanner h :)

theorem annunciators_of_sansFloor : t.annunciators = s.annunciators := (congrArg State.annunciators h :)

theorem tenures_of_sansFloor : t.tenures = s.tenures := (congrArg State.tenures h :)

theorem mode_of_sansFloor : t.mode = s.mode := (congrArg State.mode h :)

theorem timing_of_sansFloor : t.timing = s.timing := (congrArg State.timing h :)

theorem clock_of_sansFloor : t.clock = s.clock := (congrArg State.clock h :)

end

/-- Exhibit `e` enters state `n`, its DISABLED axes become IDLE, and its lines are evaluated (R10, R18, R81). -/
def comeIntoUse (e : ExhibitId) (n : ExhibitState) (s : State) : State :=
  evaluateExhibitLines e (forAxes e enableAxis (changeState e n s))

theorem openExhibit_eq (e : ExhibitId) (s : State) :
    openExhibit e s = guardOnEntry e
      (comeIntoUse e (if (freshHolds s e).isEmpty then .ready else .held) (applyFresh e (freshHolds s e) s)) := rfl

section
variable (e : ExhibitId) (n : ExhibitState) (s : State)

theorem comeIntoUse_sansLines :
    (comeIntoUse e n s).sansLines
      = { changeState e n s with axes := (forAxes e enableAxis (changeState e n s)).axes }.sansLines := by
  unfold comeIntoUse forAxes
  rw [evaluateExhibitLines_sansLines]
  conv_lhs => rw [forList_enableAxis_eq]

theorem comeIntoUse_sansFloor : (comeIntoUse e n s).sansFloor = s.sansFloor :=
  (sansFloor_of_sansLines (comeIntoUse_sansLines e n s)).trans
    ((sansFloor_axes _ _).trans (sansFloor_of_sansExhibits (changeState_sansExhibits e n s)))

theorem comeIntoUse_exhibit (k : ExhibitId) :
    (comeIntoUse e n s).exhibit k
      = if k = e then { s.exhibit e with state := n, lastChange := s.clock } else s.exhibit k :=
  (exhibit_of_sansLines (comeIntoUse_sansLines e n s) k).trans (changeState_exhibit e k n s)

theorem comeIntoUse_axis (a : AxisId) :
    (comeIntoUse e n s).axis a
      = if a ∈ (s.exhibit e).axes ∧ (s.axis a).state = .disabled then (s.axis a).enabled else s.axis a := by
  refine (axis_of_sansLines (comeIntoUse_sansLines e n s) a).trans ?_
  refine (enableAxis_axisWise.list_axis _ (changeState e n s) a).trans ?_
  simp

/-- The line of an exhibit that comes into use is evaluated by the new state. -/
theorem comeIntoUse_line (l : LineId) :
    (comeIntoUse e n s).line l
      = if (s.line l).exhibit = some e then (s.line l).evaluated (lineLive (changeState e n s) l) else s.line l := by
  have hs := forList_enableAxis_eq ((changeState e n s).exhibit e).axes (changeState e n s)
  have hl : (forAxes e enableAxis (changeState e n s)).line l = s.line l :=
    (congrArg (State.line · l) hs :).trans (congrArg (State.line · l) (changeState_sansExhibits e n s) :)
  have hv : lineLive (forAxes e enableAxis (changeState e n s)) l = lineLive (changeState e n s) l :=
    (congrArg (lineLive · l) hs :)
  unfold comeIntoUse
  rw [evaluateExhibitLines_line, hl, hv]

end

/-- An ACTION line that is live wakes for its latest sample (R27). -/
theorem Line.evaluated_wakes {x : Line} (h : x.state = .inert) :
    (x.evaluated true).state = if x.latest then .waitRelease else .released := by
  unfold Line.evaluated
  rw [if_pos rfl, if_pos h]
  rfl

/-- The guard-long timer of an exhibit with GUARD starts, and nothing else changes (R22). -/
theorem guardOnEntry_exhibit (e k : ExhibitId) (s : State) :
    (guardOnEntry e s).exhibit k
      = if k = e then { s.exhibit e with
          guardLong := if (s.exhibit e).holds.guard then some (1000 * s.timing.guardAlertTime)
            else (s.exhibit e).guardLong }
        else s.exhibit k := by
  unfold guardOnEntry startGuardLong
  split
  · exact exhibit_modExhibit _ _ _ _
  · by_cases hk : k = e
    · subst hk; simp
    · rw [if_neg hk]

theorem guardOnEntry_eq (e : ExhibitId) (s : State) :
    guardOnEntry e s = { s with exhibits := (guardOnEntry e s).exhibits } := by
  unfold guardOnEntry; split <;> rfl

theorem guardOnEntry_axis (e : ExhibitId) (s : State) (a : AxisId) : (guardOnEntry e s).axis a = s.axis a := by
  unfold guardOnEntry; split <;> rfl

theorem guardOnEntry_line (e : ExhibitId) (s : State) (l : LineId) : (guardOnEntry e s).line l = s.line l := by
  unfold guardOnEntry; split <;> rfl

/-! ## Opening -/

theorem openExhibit_sansFloor (e : ExhibitId) (s : State) : (openExhibit e s).sansFloor = s.sansFloor := by
  rw [openExhibit_eq, guardOnEntry_eq, sansFloor_exhibits, comeIntoUse_sansFloor]
  exact sansFloor_exhibits _ _

theorem applyFresh_exhibit (e k : ExhibitId) (f : HoldSet) (s : State) :
    (applyFresh e f s).exhibit k
      = if k = e then { s.exhibit e with holds := f, guardRelease := if f.guard then (s.exhibit e).guardRelease else none }
        else s.exhibit k := exhibit_modExhibit _ _ _ _

end Sys2Proof.Machine
end

section
/-! PROOFS. EXHIBIT-OPEN (O23). -/

namespace Sys2Proof.Machine

/-! ## EXHIBIT-OPEN -/

section
variable (e : ExhibitId) (s : State)

/-- The state an opening gives: READY with no reason, HELD with one (R10). -/
def openState : ExhibitState := if freshHolds s e = {} then .ready else .held

theorem openState_or : openState e s = .ready ∨ openState e s = .held := by
  unfold openState; split
  · exact .inl rfl
  · exact .inr rfl

theorem openExhibit_openState :
    openExhibit e s = guardOnEntry e (comeIntoUse e (openState e s) (applyFresh e (freshHolds s e) s)) := by
  rw [openExhibit_eq]
  exact congrArg (fun n => guardOnEntry e (comeIntoUse e n (applyFresh e (freshHolds s e) s)))
    (if_congr (HoldSet.isEmpty_iff _) rfl rfl)

theorem openExhibit_exhibit :
    (openExhibit e s).exhibit e = { s.exhibit e with
      state := openState e s, holds := freshHolds s e, lastChange := s.clock
      guardRelease := if (freshHolds s e).guard then (s.exhibit e).guardRelease else none
      guardLong := if (freshHolds s e).guard then some (1000 * s.timing.guardAlertTime)
        else (s.exhibit e).guardLong } := by
  have ht : (comeIntoUse e (openState e s) (applyFresh e (freshHolds s e) s)).timing = s.timing :=
    timing_of_sansFloor (comeIntoUse_sansFloor e (openState e s) (applyFresh e (freshHolds s e) s))
  rw [openExhibit_openState, guardOnEntry_exhibit, if_pos rfl, comeIntoUse_exhibit, if_pos rfl, applyFresh_exhibit,
    if_pos rfl, ht]
  rfl

theorem openExhibit_exhibit_other {k : ExhibitId} (hk : k ≠ e) : (openExhibit e s).exhibit k = s.exhibit k := by
  rw [openExhibit_openState, guardOnEntry_exhibit, if_neg hk, comeIntoUse_exhibit, if_neg hk, applyFresh_exhibit,
    if_neg hk]

theorem openExhibit_axis (a : AxisId) :
    (openExhibit e s).axis a
      = if a ∈ (s.exhibit e).axes ∧ (s.axis a).state = .disabled then (s.axis a).enabled else s.axis a := by
  rw [openExhibit_openState, guardOnEntry_axis]
  refine (comeIntoUse_axis e _ (applyFresh e (freshHolds s e) s) a).trans ?_
  rw [applyFresh_exhibit, if_pos rfl]
  rfl

theorem openExhibit_line (l : LineId) :
    (openExhibit e s).line l
      = if (s.line l).exhibit = some e then
          (s.line l).evaluated (lineLive (changeState e (openState e s) (applyFresh e (freshHolds s e) s)) l)
        else s.line l := by
  rw [openExhibit_openState, guardOnEntry_line]
  exact comeIntoUse_line e _ (applyFresh e (freshHolds s e) s) l

end

/-- An ACTION line of an exhibit that enters a state of use in OPEN is live (R26). -/
theorem lineLive_action {e : ExhibitId} {s : State} {l : LineId} (hx : (s.line l).exhibit = some e)
    (hr : (s.line l).role = some .action) (he : (s.line l).enabled = true) :
    lineLive s l = match (s.exhibit e).state with
      | .ready | .running | .held | .faulted => s.mode = .opened || s.mode = .quiet
      | .service => s.mode ≠ .setup
      | .closed => false := by
  unfold lineLive
  rw [hx, hr, he]
  rfl

theorem exhibitOpenBody_num1 (port : Port) (e : ExhibitId) (s : State) :
    exhibitOpenBody port (num1 e.val) s
      = if (s.exhibit e).state = .closed then acceptExhibit e (openExhibit e s) else refuse .wrongState s :=
  onExhibit_num1 e _ s

theorem exhibitOpen_answers {e : ExhibitId} {s : State} (h : Admitted .exhibitOpen .deskPort s)
    (hc : (s.exhibit e).state = .closed) :
    Answers .exhibitOpen .deskPort (num1 e.val) s .ok
      (num1 ((conclude (openExhibit e s)).exhibit e).state.code) (conclude (openExhibit e s)) :=
  answers_body h (by simp) rfl ((exhibitOpenBody_num1 .deskPort e s).trans (if_pos hc))

/-- EXHIBIT-OPEN works in OPEN only. -/
theorem mode_of_exhibitOpen {s : State} (h : Admitted .exhibitOpen .deskPort s) : s.mode = .opened :=
  List.mem_singleton.1 h.2.2

/-- The lines of an opened exhibit wake in OPEN. -/
theorem openExhibit_line_wakes {e : ExhibitId} {s : State} {l : LineId} (hm : s.mode = .opened)
    (hx : (s.line l).exhibit = some e) (hr : (s.line l).role = some .action) (he : (s.line l).enabled = true)
    (hi : (s.line l).state = .inert) :
    ((openExhibit e s).line l).state = if (s.line l).latest then .waitRelease else .released := by
  have hl : (changeState e (openState e s) (applyFresh e (freshHolds s e) s)).line l = s.line l :=
    (congrArg (State.line · l) (changeState_sansExhibits e _ (applyFresh e (freshHolds s e) s)) :)
  have hv : (changeState e (openState e s) (applyFresh e (freshHolds s e) s)).mode = s.mode :=
    (congrArg State.mode (changeState_sansExhibits e _ (applyFresh e (freshHolds s e) s)) :)
  have live : lineLive (changeState e (openState e s) (applyFresh e (freshHolds s e) s)) l = true := by
    rw [lineLive_action (e := e) (by rw [hl, hx]) (by rw [hl, hr]) (by rw [hl, he]), changeState_exhibit_same, hv, hm]
    rcases openState_or e s with h | h <;> rw [h] <;> rfl
  rw [openExhibit_line, if_pos hx, live]
  exact Line.evaluated_wakes hi

/-- Settles O23: the fresh set decides the state, and the exhibit's axes and lines come into use with it. -/
theorem exhibitOpens : Obligations.ExhibitOpens := by
  refine ⟨fun e s h => ⟨fun hc => ?_, fun hc => exhibitOpen_answers h hc⟩, fun e s h hq hc => ?_⟩
  · exact answers_body h (by simp) rfl ((exhibitOpenBody_num1 .deskPort e s).trans (if_neg hc))
  · have hm := mode_of_exhibitOpen h
    have hrest := openExhibit_sansFloor e s
    have hid : conclude (openExhibit e s) = openExhibit e s :=
      conclude_id (by rw [mode_of_sansFloor hrest, hm]; decide)
        (by rw [arbiter_of_sansFloor hrest, hq])
    have ha := exhibitOpen_answers h hc
    rw [hid, openExhibit_exhibit] at ha
    exact ⟨openExhibit e s, ha, openExhibit_exhibit e s, fun d hd => openExhibit_exhibit_other e s hd,
      openExhibit_axis e s, fun l hl => (openExhibit_line e s l).trans (if_neg hl),
      fun l hx hr he hi => openExhibit_line_wakes hm hx hr he hi,
      arbiter_of_sansFloor hrest, frames_of_sansFloor hrest, freeList_of_sansFloor hrest,
      takenSet_of_sansFloor hrest, retiredList_of_sansFloor hrest, alerts_of_sansFloor hrest,
      channels_of_sansFloor hrest, scanner_of_sansFloor hrest, annunciators_of_sansFloor hrest,
      tenures_of_sansFloor hrest, Undisturbed.wide.toFloor.openExhibit e s hc (by rw [hm]; decide)⟩

end Sys2Proof.Machine
end

section
/-! PROOFS. FAULT-CLEAR (O27). -/

namespace Sys2Proof.Machine

/-! ## FAULT-CLEAR -/

/-- A FAULTED axis as the clearing of its fault leaves it (R99). -/
def Axis.cleared (x : Axis) : Axis := { x.quit with state := .idle, fault := none, corrections := 0 }

theorem clearAxis_axisWise : AxisWise clearAxis (fun _ => true) Axis.cleared where
  axis a b s := by
    unfold clearAxis
    rw [axis_modAxis]
    by_cases hb : b = a
    · subst hb; rw [if_pos rfl, if_pos ⟨rfl, rfl⟩]; rfl
    · rw [if_neg hb, if_neg fun h => hb h.1]
  again _ := rfl

/-- Clearing axes changes the axes alone. -/
theorem forList_clearAxis_eq (l : List AxisId) (s : State) :
    forList l clearAxis s = { s with axes := (forList l clearAxis s).axes } := by
  induction l generalizing s with
  | nil => rfl
  | cons a l ih => rw [forList_cons, ih]; rfl

/-- The set of an exhibit that is cleared: LAPSE joins it while the show link is LAPSED (R150). -/
def clearedHolds (s : State) (e : ExhibitId) : HoldSet :=
  { (s.exhibit e).holds with lapse := (s.exhibit e).holds.lapse || s.showLink.state = .lapsed }

/-- The state of an exhibit that is cleared (R15). -/
def clearedState (s : State) (e : ExhibitId) : ExhibitState := if clearedHolds s e = {} then .ready else .held

theorem claimLapse_exhibit (e k : ExhibitId) (s : State) :
    (claimLapse e s).exhibit k = if k = e then { s.exhibit e with holds := clearedHolds s e } else s.exhibit k :=
  exhibit_modExhibit _ _ _ _

section
variable (e : ExhibitId) (s : State)

/-- The axes of a FAULTED exhibit, cleared. -/
def axesCleared : State := { s with axes := (forList (faultedAxes s e) clearAxis s).axes }

theorem clearFault_eq :
    clearFault e s = changeState e (clearedState s e) (claimLapse e (axesCleared e s)) := by
  unfold clearFault returnToUse
  rw [forList_clearAxis_eq]
  refine congrArg (fun n => changeState e n (claimLapse e (axesCleared e s))) (if_congr ?_ rfl rfl)
  rw [HoldSet.isEmpty_iff, show (claimLapse e { s with axes := (forList (faultedAxes s e) clearAxis s).axes }).exhibit e
    = _ from claimLapse_exhibit e e (axesCleared e s), if_pos rfl]
  rfl

theorem clearFault_sansFloor : (clearFault e s).sansFloor = s.sansFloor := by
  rw [clearFault_eq]
  exact (sansFloor_of_sansExhibits (changeState_sansExhibits e _ (claimLapse e (axesCleared e s)))).trans rfl

theorem clearFault_exhibit (k : ExhibitId) :
    (clearFault e s).exhibit k
      = if k = e then { s.exhibit e with
          state := clearedState s e, holds := clearedHolds s e, lastChange := s.clock }
        else s.exhibit k := by
  rw [clearFault_eq, changeState_exhibit, claimLapse_exhibit, claimLapse_exhibit, if_pos rfl]
  by_cases hk : k = e
  · rw [if_pos hk, if_pos hk]; rfl
  · rw [if_neg hk, if_neg hk, if_neg hk]; rfl

theorem clearFault_axis (a : AxisId) :
    (clearFault e s).axis a
      = if a ∈ (s.exhibit e).axes ∧ (s.axis a).state = .faulted then (s.axis a).cleared else s.axis a := by
  rw [clearFault_eq, changeState_axis]
  refine (clearAxis_axisWise.list_axis (faultedAxes s e) s a).trans (if_congr ?_ rfl rfl)
  simp [faultedAxes]

theorem clearFault_lines : (clearFault e s).lines = s.lines := by
  rw [clearFault_eq]
  exact (congrArg State.lines (changeState_sansExhibits e (clearedState s e) (claimLapse e (axesCleared e s))) :)

theorem clearAxis_undisturbed (a : AxisId) (t : State) : Undisturbed t (clearAxis a t) :=
  Undisturbed.coarse.axis t a _ (fun _ => by simp [DriveOk, Axis.quit, AxisState.driving]) fun _ => rfl

theorem claimLapse_undisturbed (t : State) : Undisturbed t (claimLapse e t) :=
  Undisturbed.free.exhibit t e _ fun _ => ⟨rfl, rfl, rfl, rfl⟩

theorem clearFault_undisturbed : Undisturbed s (clearFault e s) := by
  have axes := Undisturbed.free.list clearAxis clearAxis_undisturbed (faultedAxes s e) s
  unfold clearFault returnToUse
  exact Undisturbed.trans axes (Undisturbed.trans (claimLapse_undisturbed e _) (Undisturbed.free.changeState e _ _))

end

theorem faultClearBody_refuses {e : ExhibitId} {s : State} (port : Port) (h : (s.exhibit e).state ≠ .faulted) :
    faultClearBody port (num1 e.val) s = refuse .wrongState s := (onExhibit_num1 e _ s).trans (if_neg h)

/-- The first FAULTED axis, ascending, whose test fails. -/
def failingAxis (s : State) (e : ExhibitId) : Option AxisId :=
  (faultedAxes s e).find? fun a => !faultTestPasses s a

theorem faultClearBody_stillActive {e : ExhibitId} {s : State} (port : Port) {a : AxisId}
    (h : (s.exhibit e).state = .faulted) (ha : failingAxis s e = some a) :
    faultClearBody port (num1 e.val) s = refuseWith .stillActive (num1 a.val) s := by
  refine (onExhibit_num1 e _ s).trans ((if_pos h).trans ?_)
  unfold failingAxis at ha
  rw [ha]

theorem faultClearBody_clears {e : ExhibitId} {s : State} (port : Port) (h : (s.exhibit e).state = .faulted)
    (ha : failingAxis s e = none) :
    faultClearBody port (num1 e.val) s = acceptExhibit e (clearFault e s) := by
  refine (onExhibit_num1 e _ s).trans ((if_pos h).trans ?_)
  unfold failingAxis at ha
  rw [ha]

theorem failingAxis_eq (s : State) (e : ExhibitId) :
    failingAxis s e
      = (s.exhibit e).axes.find? fun b => (s.axis b).state = .faulted ∧ faultTestPasses s b = false := by
  unfold failingAxis faultedAxes
  rw [List.find?_filter]
  refine congrArg (List.find? · _) (funext fun b => ?_)
  cases faultTestPasses s b <;> simp

/-- Settles O27: the test of each cause is read off its window, and the cleared axes, set and state off the
clearing. -/
theorem faultClearReturnsToUse : Obligations.FaultClearReturnsToUse := by
  intro e s h passes
  have hp : ∀ a, passes a = faultTestPasses s a := fun a => by
    unfold faultTestPasses windowOf
    simp only [passes]
    rcases (s.axis a).fault with _ | c
    · rfl
    · cases c <;> cases (s.axis a).currentChannel <;> cases (s.axis a).positionChannel <;> simp
  refine ⟨fun hf => ?_, fun a hf ha => ?_, fun hf hq hm hpass => ?_⟩
  · exact answers_body h (by simp) rfl (faultClearBody_refuses .deskPort hf)
  · refine answers_body h (by simp) rfl (faultClearBody_stillActive .deskPort hf ?_)
    rw [failingAxis_eq, ← ha]
    simp only [hp]
  · intro holds after
    have hn : failingAxis s e = none := by
      rw [failingAxis_eq, List.find?_eq_none]
      intro b hb hc
      have := hpass b hb (by simpa using (of_decide_eq_true hc).1)
      rw [hp, (of_decide_eq_true hc).2] at this
      cases this
    have hrest := clearFault_sansFloor e s
    have hid : conclude (clearFault e s) = clearFault e s :=
      conclude_id (by rw [mode_of_sansFloor hrest]; exact hm) (by rw [arbiter_of_sansFloor hrest, hq])
    have hb : faultClearBody .deskPort (num1 e.val) s = accept (num1 after.code) (clearFault e s) := by
      rw [faultClearBody_clears .deskPort hf hn, acceptExhibit, hid, stateByte, clearFault_exhibit, if_pos rfl]
      rfl
    exact ⟨clearFault e s, answers_body h (by simp) rfl hb,
      (clearFault_exhibit e s e).trans (if_pos rfl), clearFault_axis e s,
      fun d hd => (clearFault_exhibit e s d).trans (if_neg hd), clearFault_lines e s, alerts_of_sansFloor hrest,
      arbiter_of_sansFloor hrest, frames_of_sansFloor hrest, clearFault_undisturbed e s⟩

end Sys2Proof.Machine
end

section
/-! SUPPORT. The handing on of a window and of a fresh sample (R20, R85, R88, R90, R91, R111, R114). -/

namespace Sys2Proof.Machine

/-! ## A change of a window is handed on -/

section
variable {c : ChannelId} {s : State}

theorem handWindow_position {a : AxisId} (hr : (s.channel c).role = .position)
    (hb : (s.channel c).binding = some (.axis a)) :
    handWindow c s = positionWindow a (s.channel c).window s := by
  unfold handWindow; rw [hr, hb]

theorem handWindow_current {a : AxisId} (hr : (s.channel c).role = .current)
    (hb : (s.channel c).binding = some (.axis a)) :
    handWindow c s = currentWindow a (s.channel c).window s := by
  unfold handWindow; rw [hr, hb]

theorem handWindow_presence {e : ExhibitId} (hr : (s.channel c).role = .presence)
    (hb : (s.channel c).binding = some (.exhibit e)) :
    handWindow c s = presenceChanged e (s.channel c).window s := by
  unfold handWindow; rw [hr, hb]

theorem handWindow_supply (hr : (s.channel c).role = .supply) :
    handWindow c s = supplyWindow (s.channel c).window s := by
  unfold handWindow; rw [hr]

theorem handWindow_general (hr : (s.channel c).role = .general) :
    handWindow c s = appendTo .showQ
      { kind := .senseChange, subject := some (BitVec.ofNat 8 c.val)
        value := some (BitVec.ofNat 16 (s.channel c).window.code) } s := by
  unfold handWindow; rw [hr]; rfl

theorem handWindow_none (hr : (s.channel c).role = .none) : handWindow c s = s := by
  unfold handWindow; rw [hr]

end

/-- The presence window at an exhibit (R20): INSIDE or UNKNOWN, and BELOW or ABOVE. -/
theorem guardLeft_eq (e : ExhibitId) (s : State) :
    guardLeft e s
      = if (s.exhibit e).holds.guard = true ∧ (s.exhibit e).guardRelease = none then
          (if s.timing.guardReleaseDelay = 0 then guardReleased e s
          else s.modExhibit e fun x => { x with guardRelease := some s.timing.guardReleaseDelay })
        else s := by
  unfold guardLeft
  refine if_congr (by simp) ?_ rfl
  cases s.timing.guardReleaseDelay <;> rfl

/-- AFTER_HOURS looks at the mode and the exhibit's state, which the window leaves (R171). -/
theorem presenceChanged_eq (e : ExhibitId) (w : Window) (s : State) :
    presenceChanged e w s
      = if w = .inside ∧ s.mode = .closed ∧ (s.exhibit e).state ≠ .service then afterHours e (guardWindow e w s)
        else guardWindow e w s := by
  have hs := Stays.floor.guardWindow e w s
  unfold presenceChanged inService
  refine if_congr ?_ rfl rfl
  have := hs.service e
  simp [hs.mode, this, and_assoc]

/-- The supply window BELOW (R111). -/
theorem supplyBelow_eq (s : State) :
    supplyBelow s = if s.arbiter.sag = .normal then
        (raiseAlert (tableTrigger .supplySag) s).modArbiter fun x =>
          { x with sag := .sagPending, sagTimer := some s.timing.sagHoldTime }
      else raiseAlert (tableTrigger .supplySag) s := by
  unfold supplyBelow
  dsimp only
  rw [raiseAlert_arbiter]
  cases s.arbiter.sag <;> rfl

/-- The supply window INSIDE or ABOVE (R111, R114). -/
theorem supplyGood_eq (s : State) :
    supplyGood s = if s.arbiter.sag = .sagHold then
        removeSupply (s.modArbiter fun x => { x with sag := .normal, sagTimer := none })
      else s.modArbiter fun x => { x with sag := .normal, sagTimer := none } := by
  unfold supplyGood
  cases s.arbiter.sag <;> rfl

/-! ## A fresh sample at an axis -/

theorem hasArrived_iff (d : Direction) (m : Nat) (tol v : Nat) :
    hasArrived d m tol v = true ↔ match d with
      | .forward => m ≤ v + tol
      | .reverse => v ≤ m + tol := by
  cases d <;> simp [hasArrived]

theorem distance_le_iff (x y d : Nat) : distance x y ≤ d ↔ x ≤ y + d ∧ y ≤ x + d := by
  unfold distance
  split <;> omega

theorem takeSample_driving {a : AxisId} {v : Nat} {s : State} {d : Direction} {n : Nat} {m : Move}
    (hs : (s.axis a).state = .accelerating ∨ (s.axis a).state = .moving) (hd : (s.axis a).drive = .on d n)
    (hm : (s.axis a).move = some m) :
    takeSample a v s = if hasArrived d m.target (s.axis a).tolerance v then arriveAxis a s else s := by
  unfold takeSample
  rcases hs with hs | hs <;> rw [hs, hd, hm]

theorem takeSample_settling {a : AxisId} {v : Nat} {s : State} {m : Move}
    (hs : (s.axis a).state = .settling) (hm : (s.axis a).move = some m) :
    takeSample a v s = if distance v m.target ≤ 2 * (s.axis a).tolerance then s else correctAxis a s := by
  unfold takeSample
  rw [hs, hm]

theorem takeSample_other {a : AxisId} {v : Nat} {s : State}
    (hs : (s.axis a).state ∉ [.accelerating, .moving, .settling]) : takeSample a v s = s := by
  unfold takeSample
  split <;> simp_all

end Sys2Proof.Machine
end

section
/-! SUPPORT. The completion of a conversion, and the advance of a pass (R58, R62, R66-R69). -/

namespace Sys2Proof.Machine

/-! ## The channels -/

/-- A step that leaves every channel. -/
def KeepsChannels (s t : State) : Prop := t.channels = s.channels

theorem KeepsChannels.free : Free KeepsChannels where
  refl _ := rfl
  trans a b := Eq.trans b a
  exhibit _ _ _ _ := rfl
  line _ _ _ _ := rfl
  calm _ _ _ _ := rfl
  leaves s a _ _ := (congrArg State.channels (releaseAxis_sansAxes a s) :)
  joins s a _ _ := (congrArg State.channels (releaseAxis_sansAxes a s) :)
  granted s a _ _ _ _ := by
    unfold startDrive
    split <;> rfl
  spilled _ _ _ _ _ := rfl
  faulted s a _ _ _ := (congrArg State.channels (releaseAxis_sansAxes a (returnUnits a (chargeGrant a s))) :)
  arbiter _ _ _ := rfl
  frame _ _ _ := rfl
  annunciators _ _ _ := rfl
  replace _ _ _ _ _ := rfl
  remove _ _ := rfl
  readmit _ _ _ _ _ := rfl
  joins_list _ _ _ := rfl
  evict _ _ _ _ := rfl
  append q _ _ := by cases q <;> rfl
  noted _ _ := rfl
  exhibitAny _ _ _ _ := rfl
  lists _ _ _ _ := rfl

/-! ## The completion of a conversion -/

/-- The state as a result is stored, handed on, and taken as a sample (R58, R60). -/
theorem recordResult_keepsChannels (c : ChannelId) (v : Nat) (s : State) :
    (recordResult c v s).channels = (storeResult c v s).channels :=
  KeepsChannels.free.trans (KeepsChannels.free.floor.handChange c _ (storeResult c v s))
    (KeepsChannels.free.floor.handSample c v _)

/-- A conversion in flight completes (R58). -/
theorem conversionDone_eq {r : BitVec 12} {i : Nat} {c : ChannelId} {s : State}
    (hc : s.scanner.state = .converting) (hp : s.scanner.passPosition = some i)
    (hf : s.scanner.inFlight = some c) :
    conversionDone r s = conclude ((recordResult c r.toNat s).modScanner fun x => x.advance i) := by
  unfold conversionDone
  rw [hc, hp, hf]

theorem exec_conversionComplete {r : BitVec 12} {s : State} (h : s.inReset = false) :
    exec (.conversionComplete r) s = .next (drivePins (conversionDone r s)) := occur_next h

section
variable (r : BitVec 12) (i : Nat) (c : ChannelId) (s : State)

/-- The state a completed conversion leads to. -/
def completed : State := conclude ((recordResult c r.toNat s).modScanner fun x => x.advance i)

theorem completed_undisturbed : Undisturbed s (completed r i c s) :=
  Undisturbed.trans (Undisturbed.wide.recordResult c r.toNat s)
    (Undisturbed.trans (Undisturbed.wide.scanner _ _ fun x => Floor.advance_standing x i)
      (Undisturbed.wide.toFloor.conclude _))

theorem completed_channels : (completed r i c s).channels = (storeResult c r.toNat s).channels :=
  (KeepsChannels.free.floor.conclude ((recordResult c r.toNat s).modScanner fun x => x.advance i)).trans
    (recordResult_keepsChannels c r.toNat s)

theorem completed_channel (d : ChannelId) :
    (completed r i c s).channel d = (storeResult c r.toNat s).channel d :=
  congrArg (fun v : Vector Channel 32 => v.get d) (completed_channels r i c s)

end

/-! ## The advance of a pass -/

/-- Without an entry that is kept the search finds none (R62). -/
theorem keepEntryFrom_none (i : Nat) (l : List ScanEntry)
    (h : ∀ (k : Nat) (d : ScanEntry), l[k]? = some d → d.keepWhenClosed = false) : keepEntryFrom i l = none := by
  induction l generalizing i with
  | nil => rfl
  | cons x l ih =>
    unfold keepEntryFrom
    rw [if_neg (by simp [h 0 x rfl])]
    exact ih _ fun k d hk => h (k + 1) d hk

/-- The search finds the first entry that is kept (R62). -/
theorem keepEntryFrom_first (i k : Nat) (l : List ScanEntry) {e : ScanEntry} (he : l[k]? = some e)
    (hk : e.keepWhenClosed = true) (h : ∀ m d, m < k → l[m]? = some d → d.keepWhenClosed = false) :
    keepEntryFrom i l = some (i + k, e) := by
  induction l generalizing i k with
  | nil => cases he
  | cons x l ih =>
    unfold keepEntryFrom
    cases k with
    | zero =>
      cases he
      exact if_pos hk
    | succ k =>
      rw [if_neg (by simp [h 0 x (Nat.succ_pos k) rfl]), ih (i + 1) k he fun m d hm => h (m + 1) d (by omega),
        Nat.add_right_comm, Nat.add_assoc]

section
variable {x : Scanner} {i : Nat}

theorem advance_day_next {e : ScanEntry} (hr : x.regime = .day) (he : x.scanList[i + 1]? = some e) :
    x.advance i = x.convertEntry (i + 1) e := by
  unfold Scanner.advance
  rw [hr, he]

theorem advance_day_end (hr : x.regime = .day) (he : x.scanList[i + 1]? = none) : x.advance i = x.endDayPass := by
  unfold Scanner.advance
  rw [hr, he]

theorem endDayPass_continuous {e : ScanEntry} (hd : x.dayMode = .continuous) (he : x.scanList[0]? = some e) :
    x.endDayPass = x.convertEntry 0 e := by
  unfold Scanner.endDayPass Scanner.startDayPass
  rw [hd]
  cases hl : x.scanList with
  | nil => rw [hl] at he; cases he
  | cons y l => rw [hl] at he; cases he; rfl

theorem endDayPass_waiting (hd : x.dayMode ≠ .continuous) : x.endDayPass = x.stopPass .waiting := by
  unfold Scanner.endDayPass
  split
  · contradiction
  all_goals rfl

theorem advance_closed (hr : x.regime = .closedScan) : x.advance i = x.closedPassFrom (i + 1) := by
  unfold Scanner.advance
  rw [hr]

theorem closedPassFrom_next {j : Nat} {e : ScanEntry} (hj : i < j) (he : x.scanList[j]? = some e)
    (hk : e.keepWhenClosed = true)
    (h : ∀ k d, i < k → k < j → x.scanList[k]? = some d → d.keepWhenClosed = false) :
    x.closedPassFrom (i + 1) = x.convertEntry j e := by
  have hd : ∀ k, (x.scanList.drop (i + 1))[k]? = x.scanList[i + 1 + k]? := fun k => List.getElem?_drop
  have hs : i + 1 + (j - (i + 1)) = j := by omega
  unfold Scanner.closedPassFrom
  rw [keepEntryFrom_first (i + 1) (j - (i + 1)) _ (by rw [hd, hs]; exact he) hk fun m d hm hmd =>
    h (i + 1 + m) d (by omega) (by omega) (by rw [← hd]; exact hmd), hs]

theorem closedPassFrom_end (h : ∀ k d, i < k → x.scanList[k]? = some d → d.keepWhenClosed = false) :
    x.closedPassFrom (i + 1) = x.stopPass .dozing := by
  have hd : ∀ k, (x.scanList.drop (i + 1))[k]? = x.scanList[i + 1 + k]? := fun k => List.getElem?_drop
  unfold Scanner.closedPassFrom
  rw [keepEntryFrom_none _ _ fun k d hk => h (i + 1 + k) d (by omega) (by rw [← hd]; exact hk)]

end

end Sys2Proof.Machine
end

section
/-! PROOFS. The completion of a conversion (O36). -/

namespace Sys2Proof.Machine

/-! ## O36 -/

/-- What a changed presence window does at its exhibit (R20-R22, R171). -/
theorem presence_handed {c : ChannelId} {e : ExhibitId} {s : State} (hr : (s.channel c).role = .presence)
    (hb : (s.channel c).binding = some (.exhibit e)) :
    ((s.channel c).window = .inside → s.mode = .closed → (s.exhibit e).state ≠ .service →
      handWindow c s = afterHours e (guardEntered e s)) ∧
    ((s.channel c).window = .inside → s.mode ≠ .closed ∨ (s.exhibit e).state = .service →
      handWindow c s = guardEntered e s) ∧
    ((s.channel c).window = .unknown → handWindow c s = guardEntered e s) ∧
    ((s.channel c).window = .below ∨ (s.channel c).window = .above → handWindow c s = guardLeft e s) := by
  have h := (handWindow_presence hr hb).trans (presenceChanged_eq e _ s)
  refine ⟨fun hw hm hs => ?_, fun hw hn => ?_, fun hw => ?_, fun hw => ?_⟩
  · rw [h, hw, if_pos ⟨rfl, hm, hs⟩]; rfl
  · rw [h, hw, if_neg fun hx => hn.elim (· hx.2.1) hx.2.2]; rfl
  · rw [h, hw, if_neg fun hx => absurd hx.1 (by decide)]; rfl
  · rcases hw with hw | hw <;> rw [h, hw, if_neg fun hx => absurd hx.1 (by decide)] <;> rfl

/-- What a changed supply window does (R111, R114). -/
theorem supply_handed {c : ChannelId} {s : State} (hr : (s.channel c).role = .supply) :
    ((s.channel c).window = .below → handWindow c s = supplyBelow s) ∧
    ((s.channel c).window = .inside ∨ (s.channel c).window = .above → handWindow c s = supplyGood s) ∧
    ((s.channel c).window = .unknown → handWindow c s = s) := by
  have h := handWindow_supply hr
  refine ⟨fun hw => ?_, fun hw => ?_, fun hw => ?_⟩
  · rw [h, hw]; rfl
  · rcases hw with hw | hw <;> rw [h, hw] <;> rfl
  · rw [h, hw]; rfl

/-- What a sample does at a driving axis that has reached its target (R85). -/
theorem arriveAxis_eq (a : AxisId) (s : State) :
    arriveAxis a s = (releaseAxis a s).modAxis a fun y =>
      { y with state := .settling, drive := .off, travel := none, settle := some y.settleTime } := rfl

theorem releaseAxis_of_moving {a : AxisId} {s : State} (h : (s.axis a).state = .moving) : releaseAxis a s = s := by
  rw [releaseAxis_eq, h]

theorem releaseAxis_of_accelerating {a : AxisId} {s : State} (h : (s.axis a).state = .accelerating) :
    releaseAxis a s = s.modArbiter fun y => { y with
      unitsInUse := y.unitsInUse - (s.axis a).startCost, accel := modTable y.accel a fun _ => none } := by
  rw [releaseAxis_eq, h]

/-- Settles O36: the owner of a window and the axis of a sample by the channel's role, the completion as the record
of its result and the advance of the pass. -/
theorem conversionCompletes : Obligations.ConversionCompletes := by
  refine ⟨fun c s => ⟨fun a hr hb => ⟨fun hw hs => ?_, fun hw hs => ?_, fun hw => ?_, fun hw => ?_⟩,
    fun a hr hb => ⟨fun hw => ?_, fun hw => ?_⟩, fun e hr hb => ?_, fun hr => ?_, fun hr => ?_, handWindow_none⟩,
    fun a v s => ⟨fun d n m hs hd hm => ?_, fun m hs hm => ?_, takeSample_other⟩,
    fun r i c s hs hc hp hf => ⟨?_, ?_, fun d hd => ?_, ?_⟩, fun x i => ?_⟩
  · rw [handWindow_position hr hb]
    rcases hw with hw | hw <;> rw [hw] <;> exact if_neg (by simp [hs])
  · rw [handWindow_position hr hb]
    rcases hw with hw | hw <;> rw [hw] <;> exact if_pos hs
  · rw [handWindow_position hr hb, hw]; rfl
  · rw [handWindow_position hr hb, hw]; rfl
  · rw [handWindow_current hr hb, hw]; rfl
  · rw [handWindow_current hr hb]
    cases h : (s.channel c).window with
    | above => exact absurd h hw
    | unknown => rfl
    | below => rfl
    | inside => rfl
  · obtain ⟨inside, plain, unknown, outside⟩ := presence_handed hr hb
    exact ⟨inside, plain, unknown, fun hw => (outside hw).trans (guardLeft_eq e s)⟩
  · obtain ⟨below, good, unknown⟩ := supply_handed hr
    refine ⟨fun hw hn => ?_, fun hw hn => ?_, fun hw hn => ?_, fun hw hn => ?_, unknown⟩
    · exact (below hw).trans ((supplyBelow_eq s).trans (if_pos hn))
    · exact (below hw).trans ((supplyBelow_eq s).trans (if_neg hn))
    · exact (good hw).trans ((supplyGood_eq s).trans (if_pos hn))
    · exact (good hw).trans ((supplyGood_eq s).trans (if_neg hn))
  · refine (handWindow_general hr).trans ?_
    cases (s.channel c).window <;> rfl
  · have h := takeSample_driving (v := v) hs hd hm
    have ha := hasArrived_iff d m.target (s.axis a).tolerance v
    refine ⟨fun hn => h.trans (if_neg fun hx => hn ((ha.1 hx : _))), fun hy hx => ?_, fun hy hx => ?_⟩
    · rw [h, if_pos (ha.2 hy), arriveAxis_eq, releaseAxis_of_moving hx]
    · rw [h, if_pos (ha.2 hy), arriveAxis_eq, releaseAxis_of_accelerating hx]
  · have h := takeSample_settling (v := v) hs hm
    have hd := distance_le_iff v m.target (2 * (s.axis a).tolerance)
    refine ⟨fun hn => h.trans (if_pos (hd.2 hn)), fun hn hc => ?_, fun hn hc => ?_⟩
    · exact h.trans ((if_neg fun hx => hn (hd.1 hx)).trans (if_pos hc))
    · exact h.trans ((if_neg fun hx => hn (hd.1 hx)).trans (if_neg hc))
  · rw [exec_conversionComplete hs, conversionDone_eq hc hp hf]
    rfl
  · exact completed_undisturbed r i c s
  · exact (completed_channel r i c s d).trans (modChannel_channel_other s c _ d hd)
  · exact completed_channel r i c s c
  · exact ⟨fun e hr he => advance_day_next hr he,
      fun e hr hn hd he => (advance_day_end hr hn).trans (endDayPass_continuous hd he),
      fun hr hn hd => (advance_day_end hr hn).trans (endDayPass_waiting hd),
      fun j e hr hj he hk h => (advance_closed hr).trans (closedPassFrom_next hj he hk h),
      fun hr h => (advance_closed hr).trans (closedPassFrom_end h)⟩

end Sys2Proof.Machine
end

section
/-! PROOFS. The settle test, and GALLERY-CLOSE (O21). -/

namespace Sys2Proof.Machine

/-! ## Changes of mode -/

theorem setMode_undisturbed (m : GalleryMode) (s : State) : Undisturbed { s with mode := m } (setMode m s) :=
  Undisturbed.free.emit _ _ _

theorem axisState_busy_iff (x : AxisState) :
    x.busy = false ↔ x ∉ ([.waitingStart, .accelerating, .moving, .settling, .held] : List AxisState) := by
  cases x <;> simp [AxisState.busy]

/-- The gallery is settled (R5). -/
theorem settled_iff (s : State) :
    settled s = true ↔ ∀ e, (s.exhibit e).state = .service ∨ ((s.exhibit e).active = none ∧
      ∀ a ∈ (s.exhibit e).axes, (s.axis a).state ∉ [.waitingStart, .accelerating, .moving, .settling, .held]) := by
  unfold settled atRest inService
  simp only [List.all_eq_true, List.mem_finRange, true_implies]
  refine forall_congr' fun e => ?_
  simp only [← axisState_busy_iff]
  simp

/-- The settle test gives its notice once in QUIET (R5). -/
theorem settleTest_settles {s : State} (hm : s.mode = .quiet) (hn : s.settledNoted = false) (hs : settled s = true) :
    settleTest s = emit [.showQ, .deskQ] { kind := .galleryMode, value := some 4 } { s with settledNoted := true } :=
  if_pos (by simp [hm, hn, hs])

theorem settleTest_otherwise {s : State} (h : s.mode ≠ .quiet ∨ s.settledNoted = true ∨ ¬ settled s = true) :
    settleTest s = s := if_neg (by
  rintro hc
  simp only [Bool.and_eq_true, Bool.not_eq_true', decide_eq_true_eq] at hc
  obtain ⟨⟨hm, hn⟩, hs⟩ := hc
  rcases h with h | h | h
  · exact h hm
  · rw [hn] at h; cases h
  · exact h hs)

/-! ## The loops of the gallery commands -/

/-- A loop that acts where a test holds makes those moves in turn. -/
theorem inTurn_where {n : Nat} {c : Fin n → State → Bool} {op : Fin n → State → State}
    {p : State → Fin n → Prop} (hp : ∀ i t, c i t = true ↔ p t i) (s : State) :
    InTurn n (fun i u v => (p u i → v = op i u) ∧ (¬ p u i → v = u)) s
      (forEach (fun i t => if c i t then op i t else t) s) :=
  inTurn_forEach _ _ (fun i t => ⟨fun h => if_pos ((hp i t).2 h), fun h => if_neg fun hc => h ((hp i t).1 hc)⟩) s

theorem evaluateLines_inTurn (s : State) : InTurn 64 (fun l u v => v = evaluateLine l u) s (evaluateLines s) :=
  inTurn_forEach evaluateLine (fun l u v => v = evaluateLine l u) (fun _ _ => rfl) s

theorem closesWithGallery_iff (x : ExhibitState) :
    x.closesWithGallery = true ↔ x = .ready ∨ x = .held ∨ x = .faulted := by
  cases x <;> simp [ExhibitState.closesWithGallery]

/-- Whether a line keeps its sample as the gallery closes: it is an ACTION line of an exhibit that closes (R6). -/
def spares (u : State) (l : LineId) : Bool :=
  match (u.line l).exhibit, (u.line l).role with
  | some e, some .action => (u.exhibit e).state.closesWithGallery
  | _, _ => false

theorem spares_iff (u : State) (l : LineId) :
    spares u l = true ↔ ∃ e, (u.line l).exhibit = some e ∧ (u.line l).role = some .action ∧
      ((u.exhibit e).state = .ready ∨ (u.exhibit e).state = .held ∨ (u.exhibit e).state = .faulted) := by
  unfold spares
  cases he : (u.line l).exhibit with
  | none => simp
  | some e =>
    cases hr : (u.line l).role with
    | none => simp
    | some r =>
      cases r
      · simp [closesWithGallery_iff]
      · simp

theorem evaluateOtherLines_inTurn (s : State) :
    InTurn 64 (fun l u v => (spares u l = true → v = u) ∧ (¬ spares u l = true → v = evaluateLine l u)) s
      (evaluateOtherLines s) := by
  refine inTurn_forEach _ _ (fun l t => ?_) s
  unfold spares
  cases (t.line l).exhibit with
  | none => exact ⟨fun h => absurd h (by simp), fun _ => rfl⟩
  | some e =>
    cases (t.line l).role with
    | none => exact ⟨fun h => absurd h (by simp), fun _ => rfl⟩
    | some r =>
      cases r
      · exact ⟨fun h => if_pos h, fun h => if_neg h⟩
      · exact ⟨fun h => absurd h (by simp), fun _ => rfl⟩

/-- Whether an exhibit's presence window finds someone after hours (R171). -/
theorem intruded_iff (e : ExhibitId) (u : State) :
    (!inService u e && presenceWindow u e = some .inside) = true ↔
      (u.exhibit e).state ≠ .service ∧ ∃ c, (u.exhibit e).presence = some c ∧ (u.channel c).window = .inside := by
  unfold inService presenceWindow
  simp

/-! ## GALLERY-CLOSE -/

theorem afterHoursAtClose_inTurn (s : State) :
    InTurn 16 (fun e u v =>
      (((u.exhibit e).state ≠ .service ∧ ∃ c, (u.exhibit e).presence = some c ∧ (u.channel c).window = .inside) →
        v = afterHours e u) ∧
      (¬ ((u.exhibit e).state ≠ .service ∧
        ∃ c, (u.exhibit e).presence = some c ∧ (u.channel c).window = .inside) → v = u)) s (afterHoursAtClose s) :=
  inTurn_where (c := fun e u => !inService u e && presenceWindow u e = some .inside) (op := afterHours)
    intruded_iff s

section
variable (s : State)

theorem evaluateOtherLines_undisturbed : Undisturbed s (evaluateOtherLines s) := by
  unfold evaluateOtherLines
  refine Undisturbed.free.each _ (fun l t => ?_) s
  split
  · split
    · exact Undisturbed.refl t
    · exact Undisturbed.free.evaluateLine l t
  · exact Undisturbed.free.evaluateLine l t

theorem closeExhibits_undisturbed : Undisturbed s (closeExhibits s) := by
  unfold closeExhibits
  refine Undisturbed.free.each _ (fun e t => ?_) s
  split
  · exact Undisturbed.free.closeExhibit e t
  · exact Undisturbed.refl t

theorem afterHoursAtClose_undisturbed : Undisturbed s (afterHoursAtClose s) := by
  unfold afterHoursAtClose
  refine Undisturbed.free.each _ (fun e t => ?_) s
  split
  · exact Undisturbed.free.afterHours e t
  · exact Undisturbed.refl t

theorem closeGallery_undisturbed : Undisturbed { s with mode := .closed } (conclude (closeGallery s)) :=
  Undisturbed.trans (setMode_undisturbed .closed s) <|
  Undisturbed.trans (evaluateOtherLines_undisturbed _) <|
  Undisturbed.trans (closeExhibits_undisturbed _) <|
  Undisturbed.trans (Undisturbed.wide.reviewRegime _) <|
  Undisturbed.trans (afterHoursAtClose_undisturbed _) (Undisturbed.wide.toFloor.conclude _)

end

/-- Settles O21: the closing is the loops over the lines and the exhibits, around the regime. -/
theorem galleryCloses : Obligations.GalleryCloses := by
  intro s h isSettled event changed closes spared intruded
  refine ⟨fun hn => ?_, fun hs => ⟨evaluateOtherLines changed, closeExhibits (evaluateOtherLines changed),
    closeGallery s, ?_, ?_, afterHoursAtClose_inTurn _, ?_, closeGallery_undisturbed s⟩⟩
  · exact answers_body h (by simp) rfl (if_neg fun hx => hn ((settled_iff s).1 hx))
  · have := evaluateOtherLines_inTurn changed
    simp only [spares_iff] at this
    exact this
  · exact inTurn_where (c := fun e u => (u.exhibit e).state.closesWithGallery) (op := closeExhibit)
      (fun e u => closesWithGallery_iff _) _
  · exact answers_body h (by simp) rfl (if_pos ((settled_iff s).2 hs))

end Sys2Proof.Machine
end

section
/-! PROOFS. GALLERY-OPEN and GALLERY-QUIET (O20). -/

namespace Sys2Proof.Machine

/-! ## The groups of a frame -/

/-- The leading with-previous steps of a list are those before the first that is not. -/
theorem lt_leadingWithPrevious_iff (l : List CueStep) (k : Nat) :
    k < leadingWithPrevious l ↔ ∀ j, j ≤ k → ∃ x, l[j]? = some x ∧ x.withPrevious = true := by
  induction l generalizing k with
  | nil => exact ⟨fun h => absurd h (Nat.not_lt_zero k), fun h => by obtain ⟨x, hx, -⟩ := h 0 (Nat.zero_le k); cases hx⟩
  | cons x l ih =>
    unfold leadingWithPrevious
    by_cases hx : x.withPrevious = true
    · rw [if_pos hx]
      cases k with
      | zero => simp [hx]
      | succ k =>
        rw [Nat.add_lt_add_iff_right, ih]
        refine ⟨fun h j hj => ?_, fun h j hj => h (j + 1) (by omega)⟩
        cases j with
        | zero => exact ⟨x, rfl, hx⟩
        | succ j => exact h j (by omega)
    · rw [if_neg hx]
      refine ⟨fun h => absurd h (by omega), fun h => ?_⟩
      obtain ⟨y, hy, hp⟩ := h 0 (Nat.zero_le k)
      cases hy
      exact absurd hp hx

/-- The steps of a group: its first, and each that follows with the with-previous flag (R120). -/
theorem mem_groupSteps_iff (steps : List CueStep) (g i : Nat) :
    i ∈ groupSteps steps g ↔ g ≤ i ∧ i < steps.length ∧
      ∀ j, g < j → j ≤ i → ∃ x, steps[j]? = some x ∧ x.withPrevious = true := by
  have hmem : i ∈ groupSteps steps g ↔ g ≤ i ∧ i < min (groupEnd steps g) steps.length := by
    unfold groupSteps
    rw [List.range_eq_range', List.drop_range', List.mem_range'_1]
    omega
  rw [hmem]
  refine and_congr_right fun hg => ?_
  rw [lt_min_iff, and_comm]
  refine and_congr_right fun _ => ?_
  have hlead := lt_leadingWithPrevious_iff (steps.drop (g + 1)) (i - (g + 1))
  unfold groupEnd
  rcases hg.eq_or_lt with rfl | hlt
  · exact ⟨fun _ j h1 h2 => absurd h1 (by omega), fun _ => by omega⟩
  · rw [show i < g + 1 + leadingWithPrevious (steps.drop (g + 1)) ↔
      i - (g + 1) < leadingWithPrevious (steps.drop (g + 1)) by omega, hlead]
    refine ⟨fun h j h1 h2 => ?_, fun h j hj => ?_⟩
    · have := h (j - (g + 1)) (by omega)
      rwa [List.getElem?_drop, show g + 1 + (j - (g + 1)) = j by omega] at this
    · rw [List.getElem?_drop]
      exact h _ (by omega) (by omega)

theorem CueStep.waitsForPress_iff (x : CueStep) :
    x.waitsForPress = true ↔ ∃ w l timeout, x = ⟨w, .waitPress l timeout⟩ := by
  obtain ⟨w, b⟩ := x
  cases b <;> simp [CueStep.waitsForPress]

/-- A group waits when one of its steps is a WAIT_PRESS (R134). -/
theorem groupWaits_iff (steps : List CueStep) (g : Nat) :
    groupWaits steps g = true ↔ ∃ i w l timeout, g ≤ i ∧ steps[i]? = some ⟨w, .waitPress l timeout⟩ ∧
      ∀ j, g < j → j ≤ i → ∃ x, steps[j]? = some x ∧ x.withPrevious = true := by
  unfold groupWaits
  rw [List.any_eq_true]
  constructor
  · rintro ⟨i, hi, hw⟩
    obtain ⟨hg, -, hp⟩ := (mem_groupSteps_iff steps g i).1 hi
    cases hx : steps[i]? with
    | none => simp [hx] at hw
    | some x =>
      obtain ⟨w, l, timeout, rfl⟩ := x.waitsForPress_iff.1 (by simpa [hx] using hw)
      exact ⟨i, w, l, timeout, hg, hx, hp⟩
  · rintro ⟨i, w, l, timeout, hg, hx, hp⟩
    exact ⟨i, (mem_groupSteps_iff steps g i).2 ⟨hg, (List.getElem?_eq_some_iff.1 hx).1, hp⟩, by
      simp [hx, CueStep.waitsForPress]⟩

/-- The exhibits whose active frame GALLERY-QUIET retires (R4, R134). -/
theorem waitsForPress_iff (e : ExhibitId) (u : State) :
    waitsForPress u e = true ↔
      ((u.exhibit e).state = .running ∨ (u.exhibit e).state = .held) ∧
      ∃ f g i w l timeout, (u.exhibit e).active = some f ∧ (u.frame f).currentGroup = some g ∧ g ≤ i ∧
        (u.frame f).steps[i]? = some ⟨w, .waitPress l timeout⟩ ∧
        ∀ j, g < j → j ≤ i → ∃ x, (u.frame f).steps[j]? = some x ∧ x.withPrevious = true := by
  unfold waitsForPress
  rw [Bool.and_eq_true]
  refine and_congr (by simp) ?_
  cases ha : (u.exhibit e).active with
  | none => simp
  | some f =>
    cases hg : (u.frame f).currentGroup with
    | none =>
      simp only [hg, Bool.false_eq_true, false_iff]
      rintro ⟨f', g, i, w, l, timeout, hf, hc, -⟩
      cases hf
      rw [hg] at hc
      cases hc
    | some g =>
      simp only [hg, groupWaits_iff]
      constructor
      · rintro ⟨i, w, l, timeout, h⟩
        exact ⟨f, g, i, w, l, timeout, rfl, hg, h⟩
      · rintro ⟨f', g', i, w, l, timeout, hf, hc, h⟩
        cases hf
        rw [hg] at hc
        cases hc
        exact ⟨i, w, l, timeout, h⟩

/-! ## What stands through the commands of the gallery -/

/-- A loop whose passes leave what stands outside SETUP leaves it there. -/
theorem forEach_undisturbed {n : Nat} {f : Fin n → State → State}
    (hf : ∀ i t, t.mode ≠ .setup → Undisturbed t (f i t)) {s : State} (hm : s.mode ≠ .setup) :
    Undisturbed s (forEach f s) := by
  have key : ∀ (l : List (Fin n)) (s : State), s.mode ≠ .setup → Undisturbed s (forList l f s) := fun l => by
    induction l with
    | nil => exact fun s _ => Undisturbed.refl s
    | cons i l ih =>
      intro s hm
      have h := hf i s hm
      exact Undisturbed.trans h (ih _ (by rw [h.mode]; exact hm))
  exact key _ s hm

theorem openFlagged_undisturbed {s : State} (hm : s.mode ≠ .setup) : Undisturbed s (openFlagged s) := by
  unfold openFlagged
  refine forEach_undisturbed (fun e t ht => ?_) hm
  split
  · rename_i h
    exact Undisturbed.wide.toFloor.openExhibit e t (by simp_all) ht
  · exact Undisturbed.refl t

theorem takeWaiting_undisturbed (s : State) : Undisturbed s (takeWaiting s) := by
  unfold takeWaiting
  refine Undisturbed.free.each _ (fun e t => ?_) s
  split
  · exact Undisturbed.free.takeFrame e t
  · exact Undisturbed.refl t

theorem cancelWaiting_undisturbed (s : State) : Undisturbed s (cancelWaiting s) := by
  unfold cancelWaiting
  refine Undisturbed.free.each _ (fun e t => ?_) s
  split
  · exact Undisturbed.free.retireActive e _ _ t
  · exact Undisturbed.refl t

/-- The lines and the regime follow the mode (R26, R70). -/
def afterMode (m : GalleryMode) (s : State) : State := reviewRegime (evaluateLines (setMode m s))

theorem afterMode_undisturbed (m : GalleryMode) (s : State) : Undisturbed { s with mode := m } (afterMode m s) :=
  Undisturbed.trans (setMode_undisturbed m s) <|
  Undisturbed.trans (Undisturbed.free.evaluateLines _) (Undisturbed.wide.reviewRegime _)

theorem openGallery_of_closed {s : State} (h : s.mode = .closed) : openGallery s = openFlagged (afterMode .opened s) := by
  unfold openGallery
  rw [h]
  rfl

theorem openGallery_of_quiet {s : State} (h : s.mode = .quiet) : openGallery s = takeWaiting (afterMode .opened s) := by
  unfold openGallery
  rw [h]
  rfl

theorem openGallery_undisturbed {s : State} (h : s.mode = .closed ∨ s.mode = .quiet) :
    Undisturbed { s with mode := .opened } (openGallery s) := by
  have hm := afterMode_undisturbed .opened s
  rcases h with h | h
  · rw [openGallery_of_closed h]
    exact Undisturbed.trans hm (openFlagged_undisturbed (by rw [hm.mode]; nofun))
  · rw [openGallery_of_quiet h]
    exact Undisturbed.trans hm (takeWaiting_undisturbed _)

theorem quietGallery_undisturbed (s : State) : Undisturbed { s with mode := .quiet } (quietGallery s) :=
  Undisturbed.trans (Undisturbed.free.noted { s with mode := .quiet } false) <|
  Undisturbed.trans (afterMode_undisturbed .quiet (unsettle s)) (cancelWaiting_undisturbed _)

/-- Settles O20: the settle test and the changes of mode by their equations, the commands as the loops over the lines
and the exhibits. -/
theorem galleryOpensAndGoesQuiet : Obligations.GalleryOpensAndGoesQuiet := by
  unfold Obligations.GalleryOpensAndGoesQuiet
  intro event announce
  refine ⟨fun s => ⟨rfl, rfl, rfl, rfl⟩, fun s => ?_, fun s h => ?_, fun s h => ?_⟩
  · intro rest
    have hr : settled s = true ↔ rest := settled_iff s
    refine ⟨fun hm hn hs => settleTest_settles hm hn (hr.2 hs), fun hx => settleTest_otherwise ?_, rfl⟩
    rwa [hr]
  · have hm : s.mode = .closed ∨ s.mode = .quiet := by simpa [Command.modes] using h.2.2
    intro flagged waiting
    refine ⟨evaluateLines (setMode .opened s), openGallery s, evaluateLines_inTurn _, fun hc => ?_, fun hq => ?_,
      answers_body h (by simp) rfl rfl,
      Undisturbed.trans (openGallery_undisturbed hm) (Undisturbed.wide.toFloor.conclude _)⟩
    · rw [openGallery_of_closed hc]
      exact inTurn_where (c := fun e t => (t.exhibit e).state = .closed && (t.exhibit e).openWithGallery)
        (op := openExhibit) (fun e t => by simp [flagged]) _
    · rw [openGallery_of_quiet hq]
      exact inTurn_where (c := fun e t => (t.exhibit e).state = .ready && canTake t e) (op := takeFrame)
        (fun e t => by rw [Bool.and_eq_true, canTake_iff]; simp [waiting]) _
  · intro waits
    refine ⟨evaluateLines (setMode .quiet (unsettle s)), quietGallery s, evaluateLines_inTurn _, ?_,
      answers_body h (by simp) rfl rfl,
      Undisturbed.trans (quietGallery_undisturbed s) (Undisturbed.wide.toFloor.conclude _)⟩
    exact inTurn_where (c := fun e t => waitsForPress t e) (op := fun e t => retireActive e .cancelled none t)
      waitsForPress_iff _

end Sys2Proof.Machine
end

section
/-! SUPPORT. Triggers that create records, on a list of new records: what they add and what they leave (R163, R167,
R173, R184, R189). -/

namespace Sys2Proof.Machine

/-! ## What a trigger of a new record moves -/

/-- The state without its alerts, the annunciators and the desk queue. -/
def State.sansDesk (s : State) : State := { s with alerts := {}, annunciators := {}, deskQueue := {} }

/-- A step of the alert list: the desk queue grows by at most `k` events while it has room, the annunciators change
in their tone, and a silence is at most ended. -/
structure AlertMoves (k : Nat) (s t : State) : Prop where
  rest : t.sansDesk = s.sansDesk
  lampTest : t.annunciators.lampTest = s.annunciators.lampTest
  flash : t.annunciators.flash = s.annunciators.flash
  patterns : t.annunciators.patterns = s.annunciators.patterns
  silence : s.annunciators.silence = none → t.annunciators.silence = none
  grows : s.deskQueue.events.length + k ≤ 32 →
    ∃ vs, vs.length ≤ k ∧ t.deskQueue.events = s.deskQueue.events ++ vs

namespace AlertMoves

theorem refl (s : State) : AlertMoves 0 s s :=
  ⟨rfl, rfl, rfl, rfl, id, fun _ => ⟨[], Nat.le_refl 0, (List.append_nil _).symm⟩⟩

theorem trans {j k : Nat} {s t u : State} (a : AlertMoves j s t) (b : AlertMoves k t u) : AlertMoves (j + k) s u where
  rest := b.rest.trans a.rest
  lampTest := b.lampTest.trans a.lampTest
  flash := b.flash.trans a.flash
  patterns := b.patterns.trans a.patterns
  silence h := b.silence (a.silence h)
  grows h := by
    obtain ⟨vs, hv, ht⟩ := a.grows (by omega)
    obtain ⟨ws, hw, hu⟩ := b.grows (by rw [ht, List.length_append]; omega)
    exact ⟨vs ++ ws, by rw [List.length_append]; omega, by rw [hu, ht, List.append_assoc]⟩

theorem mono {j k : Nat} {s t : State} (a : AlertMoves j s t) (h : j ≤ k) : AlertMoves k s t :=
  ⟨a.rest, a.lampTest, a.flash, a.patterns, a.silence, fun hk => by
    obtain ⟨vs, hv, ht⟩ := a.grows (by omega)
    exact ⟨vs, by omega, ht⟩⟩

/-- An update of the alert list alone. -/
theorem alerts (s : State) (f : AlertList → AlertList) : AlertMoves 0 s (s.modAlerts f) :=
  ⟨rfl, rfl, rfl, rfl, id, fun _ => ⟨[], Nat.le_refl 0, (List.append_nil _).symm⟩⟩

/-- An update of the tone alone. -/
theorem tone (s : State) (n : ToneArbiter) : AlertMoves 0 s (s.modAnnunciators fun x => { x with tone := n }) :=
  ⟨rfl, rfl, rfl, rfl, id, fun _ => ⟨[], Nat.le_refl 0, (List.append_nil _).symm⟩⟩

theorem endSilence (s : State) : AlertMoves 0 s (endSilence s) :=
  ⟨rfl, rfl, rfl, rfl, fun _ => rfl, fun _ => ⟨[], Nat.le_refl 0, (List.append_nil _).symm⟩⟩

/-- One event to the desk queue. -/
theorem desk (v : Event) (s : State) : AlertMoves 1 s (emit [.deskQ] v s) where
  rest := rfl
  lampTest := rfl
  flash := rfl
  patterns := rfl
  silence := id
  grows h := by
    refine ⟨[{ v with time := s.clock, seq := s.deskQueue.nextSeq, gap := false }], Nat.le_refl 1, ?_⟩
    show (placeEvent 32 _ _).events = _
    unfold placeEvent
    rw [if_pos (by show s.deskQueue.events.length < 32; omega)]

theorem reachLevel (r : AlertRecord) (s : State) : AlertMoves 1 s (reachLevel r s) := by
  have h := trans (alerts s fun l =>
    { l with records := l.records.map fun x => if x.number = r.number then { r with level := r.level + 1 } else x })
    (desk (alertEvent .alertChanged { r with level := r.level + 1 } r.number) _)
  unfold Machine.reachLevel
  dsimp only
  split
  · exact trans h (endSilence _)
  · exact h

theorem climb (fuel : Nat) (n : BitVec 16) (limit : Nat) (s : State) : AlertMoves fuel s (climb fuel n limit s) := by
  induction fuel generalizing s with
  | zero => exact refl s
  | succ fuel ih =>
    unfold Machine.climb
    split
    · exact (refl s).mono (Nat.zero_le _)
    · split
      · exact (trans (reachLevel _ s) (ih _)).mono (by omega)
      · exact (refl s).mono (Nat.zero_le _)

theorem climbElapsed (n : BitVec 16) (s : State) : AlertMoves 3 s (climbElapsed n s) := by
  unfold Machine.climbElapsed
  split
  · exact (refl s).mono (Nat.zero_le _)
  · exact climb 3 _ _ s

theorem createRecord (t : Trigger) (s : State) : AlertMoves 4 s (createRecord t s) :=
  trans (trans (alerts s _) (desk _ _)) (climbElapsed _ _)

theorem reevaluateTone (s : State) : AlertMoves 1 s (reevaluateTone s) := by
  unfold Machine.reevaluateTone
  split
  · exact (refl s).mono (Nat.zero_le _)
  · exact (tone s _).mono (Nat.zero_le _)
  · exact (tone s _).mono (Nat.zero_le _)
  · split
    · exact (refl s).mono (Nat.zero_le _)
    · exact (tone s _).mono (Nat.zero_le _)
  · exact (refl s).mono (Nat.zero_le _)
  · exact trans (desk _ s) (tone _ _)

end AlertMoves

/-! ## A list of new records -/

/-- What a record says of its trigger and its time. -/
def AlertRecord.brief (r : AlertRecord) : AlertKind × Severity × Clock := (r.kind, r.severity, r.raised)

/-- A record as its trigger made it, its level apart. -/
structure AlertRecord.Fresh (r : AlertRecord) : Prop where
  opened : r.state = .opened
  once : r.repeatCount = 1
  exhibit : r.exhibit = none
  subject : r.subject = none
  showCode : r.showCode = none
  acked : r.acked = none

/-- The alert list holds new records alone, under distinct numbers, and the next number is free. -/
structure Listed (L : List (AlertKind × Severity × Clock)) (s : State) : Prop where
  briefs : s.alerts.records.map AlertRecord.brief = L
  numbers : (s.alerts.records.map AlertRecord.number).Nodup
  next : s.alerts.nextNumber ∉ s.alerts.records.map AlertRecord.number
  fresh : ∀ r ∈ s.alerts.records, r.Fresh

namespace Listed

variable {L : List (AlertKind × Severity × Clock)} {s t : State}

theorem congr (h : Listed L s) (ha : t.alerts = s.alerts) : Listed L t := by
  constructor
  · rw [ha]; exact h.briefs
  · rw [ha]; exact h.numbers
  · rw [ha]; exact h.next
  · rw [ha]; exact h.fresh

/-- The record of a number is replaced by one that differs in its level. -/
theorem levelled (h : Listed L s) {r : AlertRecord} (hr : r ∈ s.alerts.records) (n : Nat) :
    Listed L (replaceRecord r.number { r with level := n } s) := by
  have at_most : ∀ x ∈ s.alerts.records, x.number = r.number → x = r := fun x hx =>
    List.inj_on_of_nodup_map h.numbers hx hr
  have keeps : ∀ {β : Type} (g : AlertRecord → β), g { r with level := n } = g r →
      (replaceRecord r.number { r with level := n } s).alerts.records.map g = s.alerts.records.map g := fun g hg => by
    show (s.alerts.records.map _).map g = _
    rw [List.map_map]
    refine List.map_congr_left fun x hx => ?_
    rw [Function.comp_apply]
    split
    · rename_i he
      rw [hg, at_most x hx he]
    · rfl
  constructor
  · rw [keeps AlertRecord.brief rfl]; exact h.briefs
  · rw [keeps AlertRecord.number rfl]; exact h.numbers
  · rw [keeps AlertRecord.number rfl]; exact h.next
  · intro x hx
    obtain ⟨y, hy, rfl⟩ := List.mem_map.1 hx
    split
    · have := h.fresh r hr
      exact ⟨this.opened, this.once, this.exhibit, this.subject, this.showCode, this.acked⟩
    · exact h.fresh y hy

theorem reachLevel (h : Listed L s) {r : AlertRecord} (hr : r ∈ s.alerts.records) : Listed L (reachLevel r s) := by
  have hl := h.levelled hr (r.level + 1)
  unfold Machine.reachLevel
  dsimp only
  split
  · exact hl.congr rfl
  · exact hl.congr rfl

theorem climb (fuel : Nat) (n : BitVec 16) (limit : Nat) {s : State} (h : Listed L s) :
    Listed L (climb fuel n limit s) := by
  induction fuel generalizing s with
  | zero => exact h
  | succ fuel ih =>
    unfold Machine.climb
    split
    · exact h
    · rename_i r hr
      split
      · exact ih (h.reachLevel (List.mem_of_find?_eq_some hr))
      · exact h

theorem climbElapsed (n : BitVec 16) (h : Listed L s) : Listed L (climbElapsed n s) := by
  unfold Machine.climbElapsed
  split
  · exact h
  · exact h.climb 3 _ _

theorem reevaluateTone (h : Listed L s) : Listed L (reevaluateTone s) := by
  refine h.congr ?_
  unfold Machine.reevaluateTone
  split
  · rfl
  · rfl
  · rfl
  · split <;> rfl
  · rfl
  · rfl

/-- A trigger of a kind that no record has, with no exhibit and no subject. -/
theorem admits (h : Listed L s) {k : AlertKind} (hk : k ∉ L.map Prod.fst) (hf : k ≠ .listFull)
    (hl : L.length < 23) : Admits (tableTrigger k) s where
  fresh := by
    refine List.find?_eq_none.2 fun r hr hm => hk ?_
    have hkind : r.kind = k := by
      unfold Trigger.matches at hm
      simp only [Bool.and_eq_true, decide_eq_true_eq] at hm
      exact hm.1.1.1
    rw [← h.briefs, List.map_map]
    exact List.mem_map.2 ⟨r, hr, hkind⟩
  place := .inr ⟨hf, by
    have hlen : s.alerts.records.length = L.length := by rw [← h.briefs, List.length_map]
    exact lt_of_le_of_lt (List.length_filter_le _ _) (hlen ▸ hl)⟩

/-- The new record joins the list. -/
theorem admitRecord (h : Listed L s) (k : AlertKind) (hl : L.length < 23) :
    Listed (L ++ [(k, k.severity, s.clock)]) (admitRecord (tableTrigger k) s) where
  briefs := by
    show (s.alerts.records ++ [_]).map AlertRecord.brief = _
    rw [List.map_append, h.briefs]
    rfl
  numbers := by
    show ((s.alerts.records ++ [_]).map AlertRecord.number).Nodup
    rw [List.map_append]
    refine List.nodup_append.2 ⟨h.numbers, List.nodup_singleton _, ?_⟩
    rintro x hx y hy rfl
    exact h.next (by rw [List.mem_singleton.1 hy] at hx; exact hx)
  next := by
    have hlen : s.alerts.records.length = L.length := by rw [← h.briefs, List.length_map]
    intro hx
    obtain ⟨r, hr, hn⟩ := List.mem_map.1 hx
    refine freeNumber_free (l := s.alerts.records ++ [(tableTrigger k).newRecord s]) ?_
      (bumpNumber_ne s.alerts.nextNumber) r hr hn
    rw [List.length_append, hlen, List.length_singleton]
    omega
  fresh r hr := by
    rcases List.mem_append.1 hr with hr | hr
    · exact h.fresh r hr
    · rw [List.mem_singleton.1 hr]
      exact ⟨rfl, rfl, rfl, rfl, rfl, rfl⟩

end Listed

/-- A trigger that creates its record. -/
theorem raiseAlert_of_admits {t : Trigger} {s : State} (h : Admits t s) (hk : t.kind ≠ .listFull) :
    raiseAlert t s = reevaluateTone (createRecord t s) := by
  have hp : (ordinaryRecords s).length < 23 := by
    rcases h.place with ⟨hl, -⟩ | ⟨-, hp⟩
    · exact absurd hl hk
    · exact hp
  unfold raiseAlert storeTrigger
  rw [h.fresh]
  exact congrArg (fun x : State × Option (BitVec 16) => reevaluateTone x.1) (if_pos hp)

/-- A trigger of a new kind adds its record. -/
theorem raiseAlert_listed {L : List (AlertKind × Severity × Clock)} {s : State} {k : AlertKind} (h : Listed L s)
    (hk : k ∉ L.map Prod.fst) (hf : k ≠ .listFull) (hl : L.length < 23) :
    Listed (L ++ [(k, k.severity, s.clock)]) (raiseAlert (tableTrigger k) s) := by
  rw [raiseAlert_of_admits (h.admits hk hf hl) hf, Base.createRecord_eq]
  have raised : Listed (L ++ [(k, k.severity, s.clock)])
      (alertRaised ((tableTrigger k).newRecord s) (admitRecord (tableTrigger k) s)) := (h.admitRecord k hl).congr rfl
  exact (raised.climbElapsed _).reevaluateTone

theorem raiseAlert_moves {L : List (AlertKind × Severity × Clock)} {s : State} {k : AlertKind} (h : Listed L s)
    (hk : k ∉ L.map Prod.fst) (hf : k ≠ .listFull) (hl : L.length < 23) :
    AlertMoves 5 s (raiseAlert (tableTrigger k) s) := by
  rw [raiseAlert_of_admits (h.admits hk hf hl) hf]
  exact (AlertMoves.createRecord _ s).trans (AlertMoves.reevaluateTone _)

end Sys2Proof.Machine
end

section
/-! SUPPORT. The blocks at their warm-restart values, and the lines evaluated in CLOSED (R7, R24, R27). -/

namespace Sys2Proof.Machine

/-! ## Lines that are INERT -/

/-- An INERT line wakes or stays, with no event. -/
theorem evaluateLine_of_inert {l : LineId} {s : State} (h : (s.line l).state = .inert) :
    evaluateLine l s = { s with lines := (evaluateLine l s).lines } := by
  unfold evaluateLine
  rw [if_pos h, if_pos h]
  split <;> rfl

theorem evaluateLines_of_inert {s : State} (h : ∀ l, (s.line l).state = .inert) :
    evaluateLines s = { s with lines := (evaluateLines s).lines } := by
  have key : ∀ (l : List LineId) (s : State), l.Nodup → (∀ k ∈ l, (s.line k).state = .inert) →
      forList l evaluateLine s = { s with lines := (forList l evaluateLine s).lines } := fun l => by
    induction l with
    | nil => exact fun _ _ _ => rfl
    | cons a l ih =>
      intro s hn hi
      obtain ⟨ha, hn⟩ := List.nodup_cons.1 hn
      have others : ∀ k ∈ l, ((evaluateLine a s).line k).state = .inert := fun k hk => by
        rw [evaluateLine_line, if_neg (by rintro rfl; exact ha hk)]
        exact hi k (List.mem_cons_of_mem _ hk)
      rw [forList_cons, ih _ hn others, evaluateLine_of_inert (hi a List.mem_cons_self)]
  exact key _ s (List.nodup_finRange 64) fun k _ => h k

/-! ## The state after a warm restart, its alerts apart -/

/-- The blocks at their warm-restart values (R7). -/
theorem warmBlocks_eq (s : State) : warmBlocks s = { s with
    settledNoted := false
    exhibits := mapTable Exhibit.warm s.exhibits
    lines := mapTable Line.warm s.lines
    showQueue := s.showQueue.emptied, deskQueue := s.deskQueue.emptied, serviceQueue := s.serviceQueue.emptied
    channels := mapTable Channel.warm s.channels
    axes := mapTable Axis.warm s.axes
    arbiter := {}
    frames := Vector.replicate 48 {}, freeList := List.finRange 48, takenSet := [], retiredList := []
    tenures := Vector.replicate 16 none, serviceIdle := none
    alerts := { records := [], nextNumber := s.alerts.nextNumber }
    annunciators := { s.annunciators with
      tone := .silent, silence := none, silenceBegan := none, lampTest := none }
    showSpi := { s.showSpi with edges := {} }
    deskSpi := { s.deskSpi with edges := {} }
    notes := Vector.replicate 8 none } := by
  simp only [warmBlocks, warmPorts, warmTenures, warmAnnunciators, warmAlerts, warmQueues, warmCues, warmArbiter,
    warmAxes, warmChannels, warmLines, warmExhibits, unsettle, State.modAlerts, State.modAnnunciators]

/-- An emptied queue that GALLERY_MODE (CLOSED) has entered (R2, R53). -/
def closedNotice (s : State) (n : BitVec 32) : EventQueue where
  events := [{ kind := .galleryMode, seq := n, time := s.clock, value := some 1 }]
  nextSeq := nextSequence n
  gap := false

theorem setMode_closed_eq (s : State) : setMode .closed s = { s with
    mode := .closed
    showQueue := offerEvent 64 { kind := .galleryMode, time := s.clock, value := some 1 } s.showQueue
    deskQueue := offerEvent 32 { kind := .galleryMode, time := s.clock, value := some 1 } s.deskQueue } := rfl

theorem offerEvent_emptied (s : State) (q : EventQueue) {n : Nat} (h : 0 < n) :
    offerEvent n { kind := .galleryMode, time := s.clock, value := some 1 } q.emptied = closedNotice s q.nextSeq :=
  if_pos h

/-- The blocks at their warm-restart values, in CLOSED (R7). -/
def rewarmed (s : State) : State := setMode .closed (warmScanner (stampExhibits (warmBlocks s)))

theorem rewarmed_eq (s : State) : rewarmed s = { s with
    mode := .closed, settledNoted := false
    exhibits := mapTable (fun x => { x with lastChange := s.clock }) (mapTable Exhibit.warm s.exhibits)
    lines := mapTable Line.warm s.lines
    showQueue := closedNotice s s.showQueue.nextSeq, deskQueue := closedNotice s s.deskQueue.nextSeq
    serviceQueue := s.serviceQueue.emptied
    channels := mapTable Channel.warm s.channels
    scanner := s.scanner.warm s.timing.closedPace
    axes := mapTable Axis.warm s.axes
    arbiter := {}
    frames := Vector.replicate 48 {}, freeList := List.finRange 48, takenSet := [], retiredList := []
    tenures := Vector.replicate 16 none, serviceIdle := none
    alerts := { records := [], nextNumber := s.alerts.nextNumber }
    annunciators := { s.annunciators with
      tone := .silent, silence := none, silenceBegan := none, lampTest := none }
    showSpi := { s.showSpi with edges := {} }
    deskSpi := { s.deskSpi with edges := {} }
    notes := Vector.replicate 8 none } := by
  unfold rewarmed
  rw [warmBlocks_eq, setMode_closed_eq]
  simp only [warmScanner, stampExhibits, State.modScanner]
  rw [offerEvent_emptied s _ (by decide), offerEvent_emptied s _ (by decide)]
/-- The state whose alerts a warm restart then triggers. -/
def restarted (s : State) : State := evaluateLines (rewarmed s)

theorem restartHub_eq (s : State) :
    restartHub s
      = renewLost .deskMaster (renewLost .showMaster (raiseAlert (tableTrigger .restarted) (restarted s))) := rfl

theorem rewarmed_line (s : State) (l : LineId) : (rewarmed s).line l = (s.line l).warm := by
  simp only [rewarmed_eq, State.line, get_mapTable]

theorem rewarmed_exhibit (s : State) (e : ExhibitId) :
    (rewarmed s).exhibit e = { (s.exhibit e).warm with lastChange := s.clock } := by
  simp only [rewarmed_eq, State.exhibit, get_mapTable]

/-- A warm restart leaves every line INERT until the lines are evaluated. -/
theorem restarted_eq (s : State) : restarted s = { rewarmed s with lines := (restarted s).lines } :=
  evaluateLines_of_inert fun l => by rw [rewarmed_line]; rfl

/-- A HELP line is live in CLOSED, and an ACTION line is not while its exhibit is CLOSED (R26). -/
theorem rewarmed_lineLive (s : State) (l : LineId) :
    lineLive (rewarmed s) l = ((s.line l).exhibit.isSome && (s.line l).role = some .help) := by
  have hm : (rewarmed s).mode = .closed := by rw [rewarmed_eq]
  unfold lineLive
  rw [rewarmed_line, hm, show (s.line l).warm.exhibit = (s.line l).exhibit from rfl,
    show (s.line l).warm.role = (s.line l).role from rfl, show (s.line l).warm.enabled = true from rfl]
  cases (s.line l).exhibit with
  | none => rfl
  | some e =>
    cases (s.line l).role with
    | none => rfl
    | some r =>
      cases r
      · simp [rewarmed_exhibit, Exhibit.warm]
      · rfl

theorem restarted_line (s : State) (l : LineId) :
    (restarted s).line l
      = (s.line l).warm.evaluated ((s.line l).exhibit.isSome && (s.line l).role = some .help) := by
  unfold restarted
  rw [evaluateLines_line, rewarmed_lineLive, rewarmed_line]

end Sys2Proof.Machine
end

section
/-! SUPPORT. The alerts of a warm restart, and the state they are triggered in (R7, R159, R181). -/

namespace Sys2Proof.Machine

/-! ## The records of a warm restart -/

/-- A notice has no escalation time. -/
theorem levelDue_notice {s : State} {r : AlertRecord} (h : r.severity = .notice) (limit : Nat) :
    levelDue s r limit = false := by
  unfold levelDue levelTime
  rw [h]
  exact Bool.and_false _

theorem climbElapsed_notice {s : State} {n : BitVec 16} {r : AlertRecord} (hr : recordOf s n = some r)
    (h : r.severity = .notice) : climbElapsed n s = s := by
  unfold climbElapsed climb
  rw [hr]
  dsimp only
  rw [levelDue_notice h]
  rfl

/-- A first notice, with no silence in force, demands no tone. -/
theorem raiseAlert_notice_tone {s : State} (hl : Listed [] s) (hs : s.annunciators.silence = none)
    (ht : s.annunciators.tone = .silent) :
    (raiseAlert (tableTrigger .restarted) s).annunciators.tone = .silent := by
  have hnil : s.alerts.records = [] := List.map_eq_nil_iff.1 hl.briefs
  have hrec : (admitRecord (tableTrigger .restarted) s).alerts.records
      = [(tableTrigger .restarted).newRecord s] := congrArg (· ++ [_]) hnil
  have hof : recordOf (alertRaised ((tableTrigger .restarted).newRecord s) (admitRecord (tableTrigger .restarted) s))
      s.alerts.nextNumber = some ((tableTrigger .restarted).newRecord s) := by
    show (admitRecord (tableTrigger .restarted) s).alerts.records.find? _ = _
    rw [hrec]
    exact List.find?_cons_of_pos (decide_eq_true rfl)
  have hdem : demandedPattern (alertRaised ((tableTrigger .restarted).newRecord s)
      (admitRecord (tableTrigger .restarted) s)) = none := by
    unfold demandedPattern
    show (if s.annunciators.silence.isSome then none
      else if (admitRecord (tableTrigger .restarted) s).alerts.records.any _ then some 0
      else if (admitRecord (tableTrigger .restarted) s).alerts.records.any _ then some 1 else none) = none
    rw [hrec, hs]
    rfl
  rw [raiseAlert_of_admits (hl.admits (by simp) (by decide) (by decide)) (by decide), Base.createRecord_eq,
    climbElapsed_notice hof rfl]
  unfold reevaluateTone
  rw [hdem, show (alertRaised ((tableTrigger .restarted).newRecord s)
    (admitRecord (tableTrigger .restarted) s)).annunciators.tone = .silent from ht]
  exact ht

/-- The alert of a link that is LAPSED, triggered anew (R159). -/
def renewed (k : AlertKind) (x : LinkRecord) (s : State) : State :=
  if x.state = .lapsed then raiseAlert (tableTrigger k) s else s

/-- The record that a renewed alert adds. -/
def renewedBriefs (k : AlertKind) (x : LinkRecord) (c : Clock) : List (AlertKind × Severity × Clock) :=
  if x.state = .lapsed then [(k, k.severity, c)] else []

section
variable {L : List (AlertKind × Severity × Clock)} {s : State} {k : AlertKind} (x : LinkRecord) (h : Listed L s)
  (hk : k ∉ L.map Prod.fst) (hf : k ≠ .listFull) (hl : L.length < 23)
include h hk hf hl

theorem renewed_listed : Listed (L ++ renewedBriefs k x s.clock) (renewed k x s) := by
  unfold renewed renewedBriefs
  split
  · exact raiseAlert_listed h hk hf hl
  · rw [List.append_nil]; exact h

theorem renewed_moves : AlertMoves 5 s (renewed k x s) := by
  unfold renewed
  split
  · exact raiseAlert_moves h hk hf hl
  · exact (AlertMoves.refl s).mono (Nat.zero_le 5)

end

theorem AlertMoves.clock {k : Nat} {s t : State} (h : AlertMoves k s t) : t.clock = s.clock :=
  (congrArg State.clock h.rest :)

theorem AlertMoves.links {k : Nat} {s t : State} (h : AlertMoves k s t) :
    t.showLink = s.showLink ∧ t.deskLink = s.deskLink :=
  ⟨(congrArg State.showLink h.rest :), (congrArg State.deskLink h.rest :)⟩

/-- All but the alerts, the annunciators and the desk queue stands. -/
theorem AlertMoves.restored {k : Nat} {s t : State} (h : AlertMoves k s t) :
    { t with alerts := s.alerts, annunciators := s.annunciators, deskQueue := s.deskQueue } = s :=
  (congrArg (fun v : State => { v with alerts := s.alerts, annunciators := s.annunciators, deskQueue := s.deskQueue })
    h.rest :)

/-- The kinds of the first records of a warm restart. -/
theorem renewedBriefs_kinds (k : AlertKind) (x : LinkRecord) (c : Clock) :
    (renewedBriefs k x c).map Prod.fst ⊆ [k] := by
  unfold renewedBriefs; split <;> simp

theorem renewedBriefs_length (k : AlertKind) (x : LinkRecord) (c : Clock) : (renewedBriefs k x c).length ≤ 1 := by
  unfold renewedBriefs; split <;> simp

section
variable {u : State} (hu : Listed [] u) (x y : LinkRecord)
include hu

/-- The three triggers of a warm restart. -/
def noticed (x y : LinkRecord) (u : State) : State :=
  renewed .deskLinkLost y (renewed .showLinkLost x (raiseAlert (tableTrigger .restarted) u))

theorem noticed_spec :
    Listed ([(.restarted, .notice, u.clock)] ++ renewedBriefs .showLinkLost x u.clock
      ++ renewedBriefs .deskLinkLost y u.clock) (noticed x y u) ∧
    AlertMoves 15 u (noticed x y u) := by
  have l1 := raiseAlert_listed (k := .restarted) hu (by simp) (by decide) (by decide)
  have m1 := raiseAlert_moves (k := .restarted) hu (by simp) (by decide) (by decide)
  have l2 := renewed_listed (k := .showLinkLost) x l1 (by simp) (by decide) (by simp)
  have m2 := renewed_moves (k := .showLinkLost) x l1 (by simp) (by decide) (by simp)
  have hk : AlertKind.deskLinkLost ∉ ([] ++ [(AlertKind.restarted, AlertKind.restarted.severity, u.clock)]
      ++ renewedBriefs .showLinkLost x (raiseAlert (tableTrigger .restarted) u).clock).map Prod.fst := fun h => by
    rw [List.map_append] at h
    rcases List.mem_append.1 h with h | h
    · simp at h
    · have := renewedBriefs_kinds _ _ _ h
      simp at this
  have hn : ([] ++ [(AlertKind.restarted, AlertKind.restarted.severity, u.clock)]
      ++ renewedBriefs .showLinkLost x (raiseAlert (tableTrigger .restarted) u).clock).length < 23 := by
    have := renewedBriefs_length .showLinkLost x (raiseAlert (tableTrigger .restarted) u).clock
    simp only [List.nil_append, List.length_append, List.length_singleton]
    omega
  have l3 := renewed_listed (k := .deskLinkLost) y l2 hk (by decide) hn
  have m3 := renewed_moves (k := .deskLinkLost) y l2 hk (by decide) hn
  rw [m2.clock, m1.clock] at l3
  exact ⟨l3, (m1.trans m2).trans m3⟩

end

theorem renewLost_show {v : State} {x : LinkRecord} (h : v.showLink = x) :
    renewLost .showMaster v = renewed .showLinkLost x v := by subst h; rfl

theorem renewLost_desk {v : State} {x : LinkRecord} (h : v.deskLink = x) :
    renewLost .deskMaster v = renewed .deskLinkLost x v := by subst h; rfl

theorem restartHub_noticed {s : State} (hl : Listed [] (restarted s))
    (hs : (restarted s).showLink = s.showLink ∧ (restarted s).deskLink = s.deskLink) :
    restartHub s = noticed s.showLink s.deskLink (restarted s) := by
  have m1 := raiseAlert_moves (k := .restarted) hl (by simp) (by decide) (by decide)
  have l1 := raiseAlert_listed (k := .restarted) hl (by simp) (by decide) (by decide)
  have m2 := renewed_moves (k := .showLinkLost) s.showLink l1 (by simp) (by decide) (by simp)
  rw [restartHub_eq, renewLost_show (m1.links.1.trans hs.1),
    renewLost_desk (m2.links.2.trans (m1.links.2.trans hs.2))]
  rfl

/-! ## The state before the triggers -/

theorem restarted_fields (s : State) :
    (restarted s).exhibits = (rewarmed s).exhibits ∧ (restarted s).channels = (rewarmed s).channels ∧
    (restarted s).axes = (rewarmed s).axes ∧ (restarted s).frames = (rewarmed s).frames ∧
    (restarted s).tenures = (rewarmed s).tenures ∧ (restarted s).notes = (rewarmed s).notes := by
  refine ⟨?_, ?_, ?_, ?_, ?_, ?_⟩ <;> rw [restarted_eq]

theorem restarted_links (s : State) : (restarted s).showLink = s.showLink ∧ (restarted s).deskLink = s.deskLink := by
  rw [restarted_eq, rewarmed_eq]; exact ⟨rfl, rfl⟩

theorem restarted_alerts (s : State) :
    (restarted s).alerts = { records := [], nextNumber := s.alerts.nextNumber } := by
  rw [restarted_eq, rewarmed_eq]

theorem restarted_clock (s : State) : (restarted s).clock = s.clock := by
  rw [restarted_eq, rewarmed_eq]

theorem restarted_annunciators (s : State) :
    (restarted s).annunciators = { s.annunciators with
      tone := .silent, silence := none, silenceBegan := none, lampTest := none } := by
  rw [restarted_eq, rewarmed_eq]

theorem restarted_deskQueue (s : State) : (restarted s).deskQueue = closedNotice s s.deskQueue.nextSeq := by
  rw [restarted_eq, rewarmed_eq]

theorem restarted_listed (s : State) : Listed [] (restarted s) := by
  constructor <;> rw [restarted_alerts]
  · rfl
  · exact List.nodup_nil
  · exact List.not_mem_nil
  · exact fun r hr => absurd hr List.not_mem_nil

/-- A line after a warm restart (R24, R27). -/
theorem restarted_line_eq (s : State) (l : LineId) :
    (restarted s).line l = { s.line l with
      enabled := true, latest := (s.line l).input = (s.line l).activeLevel, accepted := false
      destination := none, lastAccepted := none, debounceTimer := 0, stuckTimer := none
      state := if (s.line l).exhibit.isSome ∧ (s.line l).role = some .help then
          (if (s.line l).input = (s.line l).activeLevel then .waitRelease else .released)
        else .inert } := by
  rw [restarted_line]
  by_cases h : (s.line l).exhibit.isSome ∧ (s.line l).role = some .help
  · rw [if_pos h, show ((s.line l).exhibit.isSome && decide ((s.line l).role = some .help)) = true by simpa using h]
    simp [Line.evaluated, Line.warm, Line.awake]
  · rw [if_neg h, show ((s.line l).exhibit.isSome && decide ((s.line l).role = some .help)) = false by simpa using h]
    rfl

theorem restarted_exhibit (s : State) (e : ExhibitId) :
    (restarted s).exhibit e = { (s.exhibit e).warm with lastChange := s.clock } := by
  rw [State.exhibit, (restarted_fields s).1]
  exact rewarmed_exhibit s e

theorem restarted_channel (s : State) (c : ChannelId) : (restarted s).channel c = (s.channel c).warm := by
  rw [State.channel, (restarted_fields s).2.1]
  simp only [rewarmed_eq, State.channel, get_mapTable]

theorem restarted_axis (s : State) (a : AxisId) : (restarted s).axis a = (s.axis a).warm := by
  rw [State.axis, (restarted_fields s).2.2.1]
  simp only [rewarmed_eq, State.axis, get_mapTable]

/-- Every frame is free, every tenure absent and every note slot EMPTY. -/
theorem restarted_empty (s : State) :
    (∀ f, (restarted s).frame f = {}) ∧ (∀ e, (restarted s).tenure e = none) ∧
      ∀ i, (restarted s).note i = none := by
  obtain ⟨-, -, -, hf, ht, hn⟩ := restarted_fields s
  refine ⟨fun f => ?_, fun e => ?_, fun i => ?_⟩
  · rw [State.frame, hf]; simp only [rewarmed_eq, get_as_index, Vector.getElem_replicate]
  · rw [State.tenure, ht]; simp only [rewarmed_eq, get_as_index, Vector.getElem_replicate]
  · rw [State.note, hn]; simp only [rewarmed_eq, get_as_index, Vector.getElem_replicate]

end Sys2Proof.Machine
end

section
/-! PROOFS. RESTART (O22). -/

namespace Sys2Proof.Machine

/-! ## O22 -/

/-- The state after a warm restart, its alerts apart, in full. -/
theorem restarted_full (s : State) : restarted s = { s with
    mode := .closed, settledNoted := false
    exhibits := (restarted s).exhibits
    lines := (restarted s).lines
    showQueue := closedNotice s s.showQueue.nextSeq, deskQueue := closedNotice s s.deskQueue.nextSeq
    serviceQueue := s.serviceQueue.emptied
    channels := (restarted s).channels
    scanner := s.scanner.warm s.timing.closedPace
    axes := (restarted s).axes
    arbiter := {}
    frames := (restarted s).frames, freeList := List.finRange 48, takenSet := [], retiredList := []
    tenures := (restarted s).tenures, serviceIdle := none
    alerts := { records := [], nextNumber := s.alerts.nextNumber }
    annunciators := { s.annunciators with
      tone := .silent, silence := none, silenceBegan := none, lampTest := none }
    showSpi := { s.showSpi with edges := {} }
    deskSpi := { s.deskSpi with edges := {} }
    notes := (restarted s).notes } := by
  obtain ⟨he, hc, ha, hf, ht, hn⟩ := restarted_fields s
  have h := restarted_eq s
  rw [he, hc, ha, hf, ht, hn, rewarmed_eq]
  rw [rewarmed_eq] at h
  exact h

/-- The records of a warm restart, as the obligation lists them. -/
theorem noticed_briefs {s : State} (x y : LinkRecord) {u : State} (h : Listed
    ([(.restarted, .notice, s.clock)] ++ renewedBriefs .showLinkLost x s.clock
      ++ renewedBriefs .deskLinkLost y s.clock) u) :
    u.alerts.records.map (fun r => (r.kind, r.severity, r.raised))
      = (.restarted, .notice, s.clock) ::
        ((if x.state = .lapsed then [(.showLinkLost, .urgent, s.clock)] else []) ++
          if y.state = .lapsed then [(.deskLinkLost, .urgent, s.clock)] else []) := h.briefs

theorem noticed_of_active {x y : LinkRecord} (u : State) (hx : x.state ≠ .lapsed) (hy : y.state ≠ .lapsed) :
    noticed x y u = raiseAlert (tableTrigger .restarted) u := by
  unfold noticed renewed
  rw [if_neg hy, if_neg hx]

/-- Settles O22: the blocks are rewarmed, the lines are evaluated, and the triggers act on an empty alert list. -/
theorem restartIsAWarmRestart : Obligations.RestartIsAWarmRestart := by
  intro s h
  have hl := restarted_listed s
  have hsilence : (restarted s).annunciators.silence = none := by rw [restarted_annunciators]
  obtain ⟨listed, moves⟩ := noticed_spec hl s.showLink s.deskLink
  rw [restarted_clock] at listed
  have hb : restartBody .deskPort [] s = accept [] (noticed s.showLink s.deskLink (restarted s)) :=
    congrArg (accept []) (restartHub_noticed hl (restarted_links s))
  refine ⟨restarted s, noticed s.showLink s.deskLink (restarted s), answers_body h (by simp) rfl hb,
    ⟨restarted_full s, restarted_exhibit s, restarted_line_eq s, restarted_channel s, restarted_axis s,
      restarted_empty s⟩, rfl, noticed_briefs _ _ listed, fun r hr => ?_, moves.restored, ?_, moves.silence hsilence, ?_, ?_,
    fun hx hy => ?_, ?_⟩
  · obtain ⟨opened, once, exhibit, subject, showCode, acked⟩ := listed.fresh r hr
    exact ⟨opened, once, exhibit, subject, showCode, acked⟩
  · rw [moves.patterns, restarted_annunciators]
  · rw [moves.lampTest, restarted_annunciators]
  · rw [moves.flash, restarted_annunciators]
  · rw [noticed_of_active _ hx hy]
    exact raiseAlert_notice_tone hl hsilence (by rw [restarted_annunciators])
  · obtain ⟨vs, -, hv⟩ := moves.grows (by rw [restarted_deskQueue]; exact (by decide : 1 + 15 ≤ 32))
    rw [hv, restarted_deskQueue]
    rfl

end Sys2Proof.Machine
end

section
/-! SUPPORT. The regime's re-evaluation, and the entry to SERVICE (R18, R70, R113). -/

namespace Sys2Proof.Machine

/-! ## The regime -/

/-- The regime's re-evaluation changes the scanner alone (R70). -/
theorem reviewRegime_eq (s : State) : reviewRegime s = { s with scanner := (reviewRegime s).scanner } := by
  unfold reviewRegime
  split
  · rfl
  · split <;> rfl

theorem startDayPass_regime (x : Scanner) : x.startDayPass.regime = x.regime := by
  unfold Scanner.startDayPass; split <;> rfl

theorem beginDay_regime (n : Nat) (x : Scanner) : (x.beginDay n).regime = x.regime := by
  unfold Scanner.beginDay
  split
  · exact startDayPass_regime x
  · exact startDayPass_regime x
  · split
    · exact startDayPass_regime x
    · rfl

theorem closedPassFrom_regime (x : Scanner) (i : Nat) : (x.closedPassFrom i).regime = x.regime := by
  unfold Scanner.closedPassFrom; split <;> rfl

theorem toDay_regime (n : Nat) (x : Scanner) : (x.toDay n).regime = .day := by
  unfold Scanner.toDay
  dsimp only
  split
  · rfl
  · rfl
  · exact beginDay_regime n _
  · rfl
  · rfl

theorem toClosedScan_regime (n : Nat) (x : Scanner) : (x.toClosedScan n).regime = .closedScan := by
  unfold Scanner.toClosedScan
  dsimp only
  split
  · rfl
  · exact closedPassFrom_regime _ _
  · exact closedPassFrom_regime _ _
  · rfl
  · rfl

/-- The regime after its re-evaluation is the one the gallery gives (R70). -/
theorem reviewRegime_regime (s : State) : (reviewRegime s).scanner.regime = regimeOf (reviewRegime s) := by
  have h : regimeOf (reviewRegime s) = regimeOf s := (congrArg regimeOf (reviewRegime_eq s) :)
  rw [h]
  unfold reviewRegime
  split
  · assumption
  · split
    · rename_i h; rw [h]; rfl
    · rename_i h; rw [h]; exact toDay_regime _ _
    · rename_i h; rw [h]; exact toClosedScan_regime _ _

/-! ## An exhibit enters SERVICE -/

/-- An entry to SERVICE but for the sag hold (R18). -/
def entered (e : ExhibitId) (s : State) : State :=
  if (s.exhibit e).state = .closed then guardOnEntry e (comeIntoUse e .service s)
  else evaluateExhibitLines e (changeState e .service s)

theorem enterService_eq (e : ExhibitId) (s : State) : enterService e s = supplyOnEntry e (entered e s) := rfl

section
variable (e : ExhibitId) (s : State)

theorem entered_sansFloor : (entered e s).sansFloor = s.sansFloor := by
  unfold entered
  split
  · rw [guardOnEntry_eq, sansFloor_exhibits, comeIntoUse_sansFloor]
  · exact (sansFloor_of_sansLines (evaluateExhibitLines_sansLines e _)).trans
      (sansFloor_of_sansExhibits (changeState_sansExhibits e _ s))

theorem entered_exhibit (k : ExhibitId) :
    (entered e s).exhibit k
      = if k = e then { s.exhibit e with
          state := .service, lastChange := s.clock
          guardLong := if (s.exhibit e).state = .closed ∧ (s.exhibit e).holds.guard = true then
              some (1000 * s.timing.guardAlertTime)
            else (s.exhibit e).guardLong }
        else s.exhibit k := by
  unfold entered
  split
  · rename_i hc
    rw [guardOnEntry_exhibit, comeIntoUse_exhibit, comeIntoUse_exhibit, if_pos rfl,
      timing_of_sansFloor (comeIntoUse_sansFloor e .service s)]
    by_cases hk : k = e
    · simp [hk, hc]
    · rw [if_neg hk, if_neg hk, if_neg hk]
  · rename_i hc
    rw [exhibit_of_sansLines (evaluateExhibitLines_sansLines e _), changeState_exhibit]
    simp [hc]

theorem entered_axis (a : AxisId) :
    (entered e s).axis a
      = if (s.exhibit e).state = .closed ∧ a ∈ (s.exhibit e).axes ∧ (s.axis a).state = .disabled then
          (s.axis a).enabled else s.axis a := by
  unfold entered
  split
  · rename_i hc
    rw [guardOnEntry_axis, comeIntoUse_axis]
    exact if_congr (by simp [hc]) rfl rfl
  · rename_i hc
    rw [axis_of_sansLines (evaluateExhibitLines_sansLines e _), changeState_axis, if_neg fun h => hc h.1]

theorem entered_line (l : LineId) :
    (entered e s).line l
      = if (s.line l).exhibit = some e then (s.line l).evaluated (lineLive (changeState e .service s) l)
        else s.line l := by
  unfold entered
  split
  · rw [guardOnEntry_line, comeIntoUse_line]
  · have h : (changeState e .service s).line l = s.line l :=
      (congrArg (State.line · l) (changeState_sansExhibits e .service s) :)
    rw [evaluateExhibitLines_line, h]

end

/-- Axes that do not work are not held (R95). -/
theorem forAxes_hold_of_idle {e : ExhibitId} {s : State}
    (h : ∀ a ∈ (s.exhibit e).axes, (s.axis a).state.working = false) : forAxes e holdAxis s = s := by
  unfold forAxes
  generalize (s.exhibit e).axes = l at h
  induction l with
  | nil => rfl
  | cons a l ih =>
    have ha : holdAxis a s = s := if_neg (by simp [h a List.mem_cons_self])
    rw [forList_cons, ha]
    exact ih fun b hb => h b (List.mem_cons_of_mem _ hb)

/-- The set of an exhibit that enters SERVICE (R113). -/
def serviceHolds (s : State) (h : HoldSet) : HoldSet := { h with supply := h.supply || s.arbiter.sag = .sagHold }

/-- SUPPLY joins the set of a SERVICE exhibit whose axes rest, and nothing else changes (R113). -/
theorem supplyOnEntry_eq {e : ExhibitId} {s : State} (hs : (s.exhibit e).state = .service)
    (hw : ∀ a ∈ (s.exhibit e).axes, (s.axis a).state.working = false) :
    supplyOnEntry e s = s.modExhibit e fun x => { x with holds := serviceHolds s x.holds } := by
  have stay : ∀ f : Exhibit → Exhibit, f (s.exhibit e) = s.exhibit e → s = s.modExhibit e f := fun f hf => by
    unfold State.modExhibit
    rw [modTable_same _ _ _ hf]
  unfold supplyOnEntry serviceHolds
  split
  · rename_i hsag
    rw [hsag]
    by_cases hh : (s.exhibit e).holds.has .supply = true
    · rw [addHold_of_has hh]
      refine stay _ ?_
      have : (s.exhibit e).holds.supply = true := hh
      cases hx : s.exhibit e with
      | mk st holds =>
        rw [hx] at this
        obtain ⟨g, a, l, p⟩ := holds
        have : p = true := this
        subst this
        rfl
    · have put : (s.modExhibit e fun x => { x with holds := x.holds.put .supply true })
          = s.modExhibit e fun x => { x with holds := { x.holds with
            supply := x.holds.supply || decide (SagState.sagHold = SagState.sagHold) } } :=
        modExhibit_congr _ _ _ _ (by simp [HoldSet.put])
      by_cases he : (s.exhibit e).holds = {}
      · rw [addHold_of_empty he, onHeld_of_service (by simpa using hs), forAxes_hold_of_idle (by simpa using hw), put]
      · rw [addHold_of_held (by simpa using hh) he, put]
  · rename_i hsag
    exact stay _ (by simp [hsag])

end Sys2Proof.Machine
end

section
/-! SUPPORT. The beginning of a tenure (R154). -/

namespace Sys2Proof.Machine

/-! ## A tenure begins -/

section
variable (e : ExhibitId) (s : State)

/-- The tenure and the entry to SERVICE, before the regime (R154). -/
def takenUp : State := enterService e (s.setTenure e (some s.clock))

theorem beginTenure_eq : beginTenure e s = { takenUp e s with scanner := (beginTenure e s).scanner } :=
  reviewRegime_eq (takenUp e s)

/-- The regime follows the entry to SERVICE (R70). -/
theorem beginTenure_regime : (beginTenure e s).scanner.regime = regimeOf (beginTenure e s) := by
  rw [show beginTenure e s = reviewRegime (takenUp e s) from rfl]
  exact reviewRegime_regime _

theorem beginTenure_exhibit (k : ExhibitId) : (beginTenure e s).exhibit k = (takenUp e s).exhibit k := by
  rw [beginTenure_eq]; rfl

theorem supplyOnEntry_exhibit_other {k : ExhibitId} (hk : k ≠ e) :
    (supplyOnEntry e s).exhibit k = s.exhibit k := by
  unfold supplyOnEntry
  split
  · exact addHold_exhibit_other _ s hk
  · rfl

theorem takenUp_exhibit_other {k : ExhibitId} (hk : k ≠ e) : (takenUp e s).exhibit k = s.exhibit k := by
  unfold takenUp
  rw [enterService_eq, supplyOnEntry_exhibit_other _ _ hk, entered_exhibit, if_neg hk]
  rfl

/-- The exhibit is in SERVICE whatever holds do (R13). -/
theorem takenUp_state : ((takenUp e s).exhibit e).state = .service := by
  refine ((Stays.floor.supplyOnEntry e (entered e (s.setTenure e (some s.clock)))).service e).2 ?_
  rw [entered_exhibit, if_pos rfl]

theorem takenUp_tenures : (takenUp e s).tenures = (s.setTenure e (some s.clock)).tenures :=
  (SameIdle.free.floor.supplyOnEntry e (entered e (s.setTenure e (some s.clock)))).1.trans
    (tenures_of_sansFloor (entered_sansFloor e _))

theorem beginTenure_tenure (k : ExhibitId) :
    (beginTenure e s).tenure k = if k = e then some s.clock else s.tenure k := by
  have h : (beginTenure e s).tenures = (s.setTenure e (some s.clock)).tenures := by
    rw [beginTenure_eq]; exact takenUp_tenures e s
  rw [State.tenure, h]
  exact get_modTable _ _ _ _

theorem comeIntoUse_undisturbed (n : ExhibitState) : Undisturbed s (comeIntoUse e n s) := by
  have axis (a : AxisId) (t : State) : Undisturbed t (enableAxis a t) := by
    unfold enableAxis
    split
    · exact Undisturbed.coarse.axis t a _ (fun _ => by simp [DriveOk, AxisState.driving]) fun _ => rfl
    · exact Undisturbed.refl t
  exact Undisturbed.trans (Undisturbed.free.changeState e n s)
    (Undisturbed.trans (Undisturbed.free.list enableAxis axis _ _) (Undisturbed.free.evaluateExhibitLines e _))

theorem entered_undisturbed : Undisturbed s (entered e s) := by
  unfold entered
  split
  · exact Undisturbed.trans (comeIntoUse_undisturbed e s _) (Undisturbed.free.guardOnEntry e _)
  · exact Undisturbed.trans (Undisturbed.free.changeState e _ s) (Undisturbed.free.evaluateExhibitLines e _)

theorem beginTenure_undisturbed : Undisturbed s (beginTenure e s) :=
  Undisturbed.trans (Undisturbed.coarse.tenure s e (some s.clock)) <|
  Undisturbed.trans (entered_undisturbed e _) <|
  Undisturbed.trans (Undisturbed.wide.toFloor.supplyOnEntry e _) (Undisturbed.wide.reviewRegime _)

end

section
variable {e : ExhibitId} {s : State} (hw : ∀ a ∈ (s.exhibit e).axes, (s.axis a).state.working = false)
include hw

/-- An exhibit whose axes rest is entered, and SUPPLY may join its set. -/
theorem takenUp_eq :
    takenUp e s = (entered e (s.setTenure e (some s.clock))).modExhibit e fun x =>
      { x with holds := serviceHolds s x.holds } := by
  have hx : (entered e (s.setTenure e (some s.clock))).exhibit e = _ :=
    (entered_exhibit e (s.setTenure e (some s.clock)) e).trans (if_pos rfl)
  have hsag : (entered e (s.setTenure e (some s.clock))).arbiter = s.arbiter :=
    (arbiter_of_sansFloor (entered_sansFloor e (s.setTenure e (some s.clock))) :)
  have h := supplyOnEntry_eq (e := e) (s := entered e (s.setTenure e (some s.clock))) (by rw [hx]) fun a ha => by
    rw [hx] at ha
    rw [entered_axis]
    split
    · rfl
    · exact hw a ha
  refine (enterService_eq e _).trans (h.trans ?_)
  unfold serviceHolds
  rw [hsag]

theorem beginTenure_record :
    (beginTenure e s).exhibit e = { s.exhibit e with
      state := .service, lastChange := s.clock
      holds := { (s.exhibit e).holds with supply := (s.exhibit e).holds.supply || s.arbiter.sag = .sagHold }
      guardLong := if (s.exhibit e).state = .closed ∧ (s.exhibit e).holds.guard = true then
          some (1000 * s.timing.guardAlertTime)
        else (s.exhibit e).guardLong } := by
  rw [beginTenure_exhibit, takenUp_eq hw, modExhibit_exhibit_same, entered_exhibit, if_pos rfl]
  rfl

theorem beginTenure_axis (a : AxisId) :
    (beginTenure e s).axis a
      = if (s.exhibit e).state = .closed ∧ a ∈ (s.exhibit e).axes ∧ (s.axis a).state = .disabled then
          (s.axis a).enabled else s.axis a := by
  rw [beginTenure_eq, takenUp_eq hw]
  exact entered_axis e (s.setTenure e (some s.clock)) a

theorem beginTenure_line (l : LineId) :
    (beginTenure e s).line l
      = if (s.line l).exhibit = some e then
          (s.line l).evaluated (lineLive (changeState e .service (s.setTenure e (some s.clock))) l)
        else s.line l := by
  rw [beginTenure_eq, takenUp_eq hw]
  exact entered_line e (s.setTenure e (some s.clock)) l

theorem beginTenure_sansFloor :
    (beginTenure e s).frames = s.frames ∧ (beginTenure e s).arbiter = s.arbiter ∧
      (beginTenure e s).alerts = s.alerts := by
  have h := entered_sansFloor e (s.setTenure e (some s.clock))
  rw [beginTenure_eq, takenUp_eq hw]
  exact ⟨(frames_of_sansFloor h :), (arbiter_of_sansFloor h :), (alerts_of_sansFloor h :)⟩

/-- The ACTION lines of an exhibit in SERVICE wake outside SETUP (R26, R27). -/
theorem beginTenure_line_wakes {l : LineId} (hm : s.mode ≠ .setup) (hx : (s.line l).exhibit = some e)
    (hr : (s.line l).role = some .action) (he : (s.line l).enabled = true) (hi : (s.line l).state = .inert) :
    ((beginTenure e s).line l).state = if (s.line l).latest then .waitRelease else .released := by
  have hs := changeState_sansExhibits e .service (s.setTenure e (some s.clock))
  have hl : (changeState e .service (s.setTenure e (some s.clock))).line l = s.line l :=
    (congrArg (State.line · l) hs :)
  have hv : (changeState e .service (s.setTenure e (some s.clock))).mode = s.mode := (congrArg State.mode hs :)
  have live : lineLive (changeState e .service (s.setTenure e (some s.clock))) l = true := by
    rw [lineLive_action (e := e) (by rw [hl, hx]) (by rw [hl, hr]) (by rw [hl, he]), changeState_exhibit_same, hv]
    exact decide_eq_true hm
  rw [beginTenure_line hw, if_pos hx, live]
  exact Line.evaluated_wakes hi

end

end Sys2Proof.Machine
end

section
/-! SUPPORT. The end of a tenure, and the lines it takes along (R28, R155). -/

namespace Sys2Proof.Machine

/-! ## A tenure ends -/

/-- A state that differs from another in the scanner and the idle timer. -/
def UpToIdle (s t : State) : Prop := t = { s with scanner := t.scanner, serviceIdle := t.serviceIdle }

namespace UpToIdle

variable {s t : State} (h : UpToIdle s t)
include h

theorem exhibit (k : ExhibitId) : t.exhibit k = s.exhibit k := (congrArg (State.exhibit · k) h :)

theorem line (l : LineId) : t.line l = s.line l := (congrArg (State.line · l) h :)

theorem axis (a : AxisId) : t.axis a = s.axis a := (congrArg (State.axis · a) h :)

theorem arbiter : t.arbiter = s.arbiter := (congrArg State.arbiter h :)

theorem queue (q : QueueName) : t.queue q = s.queue q := by cases q <;> exact (congrArg (State.queue · _) h :)

end UpToIdle

theorem reviewRegime_idle (s : State) : (reviewRegime s).serviceIdle = s.serviceIdle := (SameIdle.reviewed s).2

section
variable (e : ExhibitId) (s : State)

/-- The exhibit closed with its tenure absent, before the idle timer and the regime (R155). -/
def givenUp : State := closeExhibit e (s.setTenure e none)

theorem givenUp_same : SameIdle (s.setTenure e none) (givenUp e s) := SameIdle.free.closeExhibit e _

theorem stopIdleTimer_eq (t : State) : stopIdleTimer t = { t with serviceIdle := (stopIdleTimer t).serviceIdle } := by
  unfold stopIdleTimer; split <;> rfl

theorem reviewed_upToIdle (t : State) : UpToIdle t (reviewRegime (stopIdleTimer t)) := by
  unfold UpToIdle
  rw [reviewRegime_eq, stopIdleTimer_eq]

/-- All but the scanner and the idle timer is as the closing leaves it. -/
theorem endTenure_upToIdle : UpToIdle (givenUp e s) (endTenure e s) := reviewed_upToIdle (givenUp e s)

theorem endTenure_exhibit (k : ExhibitId) : (endTenure e s).exhibit k = (givenUp e s).exhibit k :=
  (endTenure_upToIdle e s).exhibit k

theorem endTenure_exhibit_other {k : ExhibitId} (hk : k ≠ e) : (endTenure e s).exhibit k = s.exhibit k := by
  rw [endTenure_exhibit]
  exact closeExhibit_exhibit_other _ hk

theorem endTenure_state : ((endTenure e s).exhibit e).state = .closed := by
  rw [endTenure_exhibit]
  unfold givenUp
  rw [closeExhibit_exhibit]

theorem givenUp_tenure (k : ExhibitId) : (givenUp e s).tenure k = if k = e then none else s.tenure k := by
  rw [State.tenure, (givenUp_same e s).1]
  exact get_modTable _ _ _ _

/-- The idle timer stops as the last tenure ends (R155). -/
theorem endTenure_last (h : ∀ d, d ≠ e → s.tenure d = none) :
    endTenure e s = reviewRegime { givenUp e s with serviceIdle := none } := by
  have hn : ¬ anyTenure (givenUp e s) = true := fun hx => by
    obtain ⟨d, hd⟩ := (IdleOk.anyTenure_iff _).1 hx
    rw [givenUp_tenure] at hd
    split at hd
    · cases hd
    · rename_i hne
      rw [h d hne] at hd
      cases hd
  exact congrArg reviewRegime (if_neg hn)

/-- It runs on while another tenure is present. -/
theorem endTenure_other {d : ExhibitId} (hd : d ≠ e) (h : s.tenure d ≠ none) :
    endTenure e s = reviewRegime (givenUp e s) := by
  have hy : anyTenure (givenUp e s) = true :=
    (IdleOk.anyTenure_iff _).2 ⟨d, by rw [givenUp_tenure, if_neg hd]; exact Option.isSome_iff_ne_none.2 h⟩
  exact congrArg reviewRegime (if_pos hy)

theorem endTenure_idle_last (h : ∀ d, d ≠ e → s.tenure d = none) : (endTenure e s).serviceIdle = none := by
  rw [endTenure_last e s h, reviewRegime_idle]

theorem endTenure_idle_other {d : ExhibitId} (hd : d ≠ e) (h : s.tenure d ≠ none) :
    (endTenure e s).serviceIdle = s.serviceIdle := by
  rw [endTenure_other e s hd h, reviewRegime_idle, (givenUp_same e s).2]
  rfl

theorem endTenure_reviewed : endTenure e s = reviewRegime (stopIdleTimer (givenUp e s)) := rfl

theorem endTenure_regime : (endTenure e s).scanner.regime = regimeOf (endTenure e s) := by
  rw [endTenure_reviewed]
  exact reviewRegime_regime _

end

/-! ## The lines of an exhibit that is closed -/

/-- A line of a CLOSED exhibit is live only for HELP (R26). -/
theorem lineLive_closed {e : ExhibitId} {s : State} {l : LineId} (hx : (s.line l).exhibit = some e)
    (hc : (s.exhibit e).state = .closed) :
    lineLive s l = ((s.line l).role = some .help && (s.line l).enabled && s.mode ≠ .setup) := by
  unfold lineLive
  rw [hx]
  cases (s.line l).role with
  | none => rfl
  | some r =>
    cases r
    · simp [hc]
    · rfl

/-- Whether a line turns INERT as its exhibit `e` is closed (R28). -/
def leavesWith (e : ExhibitId) (s : State) (l : LineId) : Bool :=
  (s.line l).exhibit = some e &&
    !((s.line l).role = some .help && (s.line l).enabled && s.mode ≠ .setup) && (s.line l).state ≠ .inert

/-- The forced release of a delivered press. -/
def forcedRelease (e : ExhibitId) (l : LineId) : Event :=
  { kind := .buttonRelease, exhibit := some e, subject := some (BitVec.ofNat 8 l.val), value := some 1 }

/-- What a line that turns INERT appends to the queue of a destination (R28). -/
def releaseTo (e : ExhibitId) (s : State) (d : PressDestination) (l : LineId) (u : State) : State :=
  if leavesWith e s l && (s.line l).accepted && (s.line l).destination = some d then
    appendTo d.queue (forcedRelease e l) u
  else u

theorem appendTo_queue_same (q : QueueName) (v : Event) {s t : State} (hq : t.queue q = s.queue q)
    (hc : t.clock = s.clock) : (appendTo q v t).queue q = (appendTo q v s).queue q := by
  cases q <;> exact (congrArg₂ (fun c x => offerEvent _ { v with time := c } x) hc hq :)

theorem appendTo_queue_other {q r : QueueName} (v : Event) (s : State) (h : r ≠ q) :
    (appendTo q v s).queue r = s.queue r := by
  cases q <;> cases r <;> simp_all [appendTo, State.queue, State.modQueue]

theorem appendTo_clock (q : QueueName) (v : Event) (s : State) : (appendTo q v s).clock = s.clock := by
  cases q <;> rfl

theorem destination_queue_ne {d c : PressDestination} (h : c ≠ d) : d.queue ≠ c.queue := by
  cases d <;> cases c <;> simp_all [PressDestination.queue]

/-- The queues after a release of a delivered press. -/
theorem releasePress_queue (l : LineId) (v : Option (BitVec 16)) (d : PressDestination) (s : State) :
    (releasePress l v s).queue d.queue
      = if (s.line l).accepted = true ∧ (s.line l).destination = some d then
          (appendTo d.queue { kind := .buttonRelease, exhibit := (s.line l).exhibit
                              subject := some (BitVec.ofNat 8 l.val), value := v } s).queue d.queue
        else s.queue d.queue := by
  have modLine_queue : ∀ (t : State) f, (t.modLine l f).queue d.queue = t.queue d.queue := fun t f => by
    cases d <;> rfl
  unfold releasePress
  dsimp only
  rw [modLine_queue]
  cases ha : (s.line l).accepted with
  | false => rw [if_neg fun h => by cases h.1]
  | true =>
    cases hd : (s.line l).destination with
    | none => rw [if_neg fun h => by cases h.2]
    | some c =>
      by_cases hc : c = d
      · subst hc
        rw [if_pos ⟨rfl, rfl⟩]
        rfl
      · rw [if_neg fun h => hc (Option.some.inj h.2)]
        exact appendTo_queue_other _ s (destination_queue_ne hc)

end Sys2Proof.Machine
end

section
/-! SUPPORT. The forced releases of a closing, in the queues that have the presses (R28, R48). -/

namespace Sys2Proof.Machine

/-! ## The forced releases, in order -/

section
variable {e : ExhibitId} {s : State} (d : PressDestination)

/-- What the loop over the lines needs of a state: its lines ahead are those of `s`, its exhibit is CLOSED and its
mode is that of `s`. -/
structure Releasing (e : ExhibitId) (s : State) (l : List LineId) (w : State) : Prop where
  lines : ∀ k ∈ l, w.line k = s.line k
  closed : (w.exhibit e).state = .closed
  mode : w.mode = s.mode

/-- The body of the loop over the lines of an exhibit. -/
def evaluateIfOf (e : ExhibitId) (l : LineId) (t : State) : State :=
  if (t.line l).exhibit = some e then evaluateLine l t else t

theorem evaluateIfOf_sansLines (l : LineId) (t : State) : (evaluateIfOf e l t).sansLines = t.sansLines := by
  unfold evaluateIfOf
  split
  · exact evaluateLine_sansLines l t
  · rfl

theorem evaluateIfOf_line_other {l k : LineId} (t : State) (h : k ≠ l) : (evaluateIfOf e l t).line k = t.line k := by
  unfold evaluateIfOf
  split
  · rw [evaluateLine_line, if_neg h]
  · rfl

/-- One line's part in the queue of a destination. -/
theorem evaluateIfOf_queue {l : LineId} {w u : State} (hl : w.line l = s.line l)
    (hc : (w.exhibit e).state = .closed) (hm : w.mode = s.mode) (hq : w.queue d.queue = u.queue d.queue)
    (hk : w.clock = u.clock) :
    (evaluateIfOf e l w).queue d.queue = (releaseTo e s d l u).queue d.queue := by
  unfold evaluateIfOf releaseTo leavesWith
  by_cases hx : (w.line l).exhibit = some e
  · have hx' : (s.line l).exhibit = some e := by rw [← hl, hx]
    have hv := lineLive_closed hx hc
    rw [hl, hm] at hv
    rw [if_pos hx, hx']
    unfold evaluateLine
    rw [hv, hl]
    cases hlive : ((s.line l).role = some .help && (s.line l).enabled && s.mode ≠ .setup) with
    | true =>
      rw [if_pos rfl, if_neg (c := _ = true) (by simp)]
      split
      · exact Eq.trans (by cases d <;> rfl) hq
      · exact hq
    | false =>
      rw [if_neg Bool.false_ne_true]
      by_cases hi : (s.line l).state = .inert
      · rw [if_pos hi]
        simpa [hi] using hq
      · rw [if_neg hi]
        have hr : (becomeInert l w).queue d.queue = (releasePress l (some 1) w).queue d.queue := by
          cases d <;> rfl
        rw [hr, releasePress_queue, hl, hx']
        by_cases ha : (s.line l).accepted = true ∧ (s.line l).destination = some d
        · rw [if_pos ha, if_pos (by simp [hi, ha])]
          exact appendTo_queue_same _ _ hq hk
        · rw [if_neg ha, if_neg (by simpa [hi] using fun h => not_and.1 ha h)]
          exact hq
  · have hx' : ¬ (s.line l).exhibit = some e := by rwa [← hl]
    rw [if_neg hx, if_neg (by simp [hx'])]
    exact hq

theorem releaseTo_clock (l : LineId) (u : State) : (releaseTo e s d l u).clock = u.clock := by
  unfold releaseTo
  split
  · exact appendTo_clock _ _ u
  · rfl

/-- The forced releases enter the queue of a destination in ascending line. -/
theorem releases_queue (l : List LineId) {w u : State} (hn : l.Nodup) (hw : Releasing e s l w)
    (hq : w.queue d.queue = u.queue d.queue) (hk : w.clock = u.clock) :
    (forList l (evaluateIfOf e) w).queue d.queue
      = (l.foldl (fun u k => releaseTo e s d k u) u).queue d.queue := by
  induction l generalizing w u with
  | nil => exact hq
  | cons a l ih =>
    obtain ⟨ha, hn⟩ := List.nodup_cons.1 hn
    obtain ⟨lines, closed, mode⟩ := hw
    have hs := evaluateIfOf_sansLines (e := e) a w
    rw [forList_cons, List.foldl_cons]
    refine ih hn ⟨fun k hk => ?_, ?_, ?_⟩ ?_ ?_
    · rw [evaluateIfOf_line_other w (by rintro rfl; exact ha hk)]
      exact lines k (List.mem_cons_of_mem _ hk)
    · rw [exhibit_of_sansLines hs]; exact closed
    · exact (congrArg State.mode hs :).trans mode
    · exact evaluateIfOf_queue d (lines a List.mem_cons_self) closed mode hq hk
    · rw [releaseTo_clock]; exact (congrArg State.clock hs :).trans hk

end

/-- No forced release is for the desk. -/
theorem evaluateExhibitLines_deskQueue (e : ExhibitId) (s : State) :
    (evaluateExhibitLines e s).deskQueue = s.deskQueue := by
  have released : ∀ (l : LineId) v (t : State), (releasePress l v t).deskQueue = t.deskQueue := fun l v t => by
    unfold releasePress
    dsimp only
    split
    · rename_i d _ _
      cases d <;> rfl
    · rfl
  refine forEach_keeps State.deskQueue (fun l t => ?_) s
  split
  · unfold evaluateLine
    split
    · split <;> rfl
    · split
      · rfl
      · exact released l _ t
  · rfl

end Sys2Proof.Machine
end

section
/-! SUPPORT. The closing of an exhibit in SERVICE, field by field (R16, R98, R155). -/

namespace Sys2Proof.Machine

/-! ## The closing of a SERVICE exhibit -/

/-- A SERVICE exhibit has no frames (R118, R121). -/
theorem service_frames {s : State} {e : ExhibitId} (h : PlacesOk s) (hs : (s.exhibit e).state = .service) :
    (s.exhibit e).active = none ∧ (s.exhibit e).queue = [] := by
  constructor
  · by_contra ha
    rcases h.active e (Option.isSome_iff_ne_none.2 ha) with hx | hx <;> rw [hs] at hx <;> cases hx
  · by_contra hq
    rcases h.queue e hq with hx | hx | hx <;> rw [hs] at hx <;> cases hx

theorem disableAxis_queue (q : QueueName) (a : AxisId) (s : State) : (disableAxis a s).queue q = s.queue q := by
  unfold disableAxis releaseAxis
  cases q <;> split <;> rfl

theorem forList_disableAxis_queue (q : QueueName) (l : List AxisId) (s : State) :
    (forList l disableAxis s).queue q = s.queue q :=
  forList_keeps (fun t => t.queue q) (disableAxis_queue q) l s

/-- The EXHIBIT_STATE of a SERVICE exhibit that is closed is in all three queues (R48). -/
theorem changeState_closed_queue {e : ExhibitId} {s : State} (hs : (s.exhibit e).state = .service) (q : QueueName) :
    (changeState e .closed s).queue q
      = (appendTo q { kind := .exhibitState, exhibit := some e, value := some 0 } s).queue q := by
  rw [changeState_eq]
  dsimp only
  rw [if_pos (.inl hs)]
  cases q
  · rw [appendTo_queue_other _ _ (by decide), appendTo_queue_other _ _ (by decide)]; rfl
  · rw [appendTo_queue_other _ _ (by decide)]
    exact appendTo_queue_same _ _ (appendTo_queue_other _ _ (by decide)) (appendTo_clock _ _ _)
  · refine appendTo_queue_same _ _ ?_ ?_
    · rw [appendTo_queue_other _ _ (by decide), appendTo_queue_other _ _ (by decide)]; rfl
    · rw [appendTo_clock, appendTo_clock]; rfl

section
variable {e : ExhibitId} {s : State} (hp : PlacesOk s) (hs : (s.exhibit e).state = .service)
include hp hs

/-- The axes of the exhibit, disabled after its change of state. -/
theorem withdrawn_service :
    withdrawn e (s.setTenure e none)
      = forList (s.exhibit e).axes disableAxis (changeState e .closed (s.setTenure e none)) := by
  obtain ⟨ha, hq⟩ := service_frames hp hs
  unfold withdrawn
  rw [emptied_of_empty (s := s.setTenure e none) _ _ ha hq]
  rfl

/-- The state in which the lines of the exhibit are evaluated. -/
theorem withdrawn_sansFields :
    (∀ l, (withdrawn e (s.setTenure e none)).line l = s.line l) ∧
    (withdrawn e (s.setTenure e none)).mode = s.mode ∧
    (withdrawn e (s.setTenure e none)).clock = s.clock := by
  rw [withdrawn_service hp hs]
  have h := disableAxis_withdraws.list_rest (s.exhibit e).axes (changeState e .closed (s.setTenure e none))
  have hc := changeState_sansExhibits e .closed (s.setTenure e none)
  exact ⟨fun l => (congrArg (State.line · l) h :).trans (congrArg (State.line · l) hc :),
    (congrArg State.mode h :).trans (congrArg State.mode hc :),
    (congrArg State.clock h :).trans (congrArg State.clock hc :)⟩

theorem givenUp_record :
    (givenUp e s).exhibit e = { s.exhibit e with
      state := .closed, lastChange := s.clock, guardLong := none
      holds := { (s.exhibit e).holds with attendant := false, lapse := false } } := by
  obtain ⟨ha, hq⟩ := service_frames hp hs
  unfold givenUp
  rw [closeExhibit_exhibit, show (s.setTenure e none).exhibit e = s.exhibit e from rfl]
  generalize s.exhibit e = x at ha hq
  cases x
  cases ha
  cases hq
  rfl

theorem givenUp_axis (a : AxisId) :
    (givenUp e s).axis a = if a ∈ (s.exhibit e).axes then (s.axis a).shut else s.axis a := by
  obtain ⟨ha, hq⟩ := service_frames hp hs
  unfold givenUp
  rw [closeExhibit_axis, emptied_of_empty (s := s.setTenure e none) _ _ ha hq, changeState_axis]
  rfl

theorem givenUp_startQueue :
    (givenUp e s).arbiter.startQueue
      = s.arbiter.startQueue.filter fun a => !(a ∈ (s.exhibit e).axes && (s.axis a).state = .waitingStart) := by
  unfold givenUp
  rw [closeExhibit_arbiter, withdrawn_service hp hs, disableAxis_withdraws.list_startQueue, changeState_arbiter]
  refine List.filter_congr fun a _ => ?_
  rw [changeState_axis, Bool.and_true]
  rfl

theorem givenUp_unitsInUse :
    (givenUp e s).arbiter.unitsInUse = s.arbiter.unitsInUse
      - (((List.finRange 12).filter fun a => a ∈ (s.exhibit e).axes && (s.axis a).state = .accelerating).map
          fun a => (s.axis a).startCost).sum := by
  unfold givenUp
  rw [closeExhibit_arbiter, withdrawn_service hp hs, disableAxis_withdraws.list_unitsInUse, changeState_arbiter,
    sum_filter_map, ← Fin.sum_univ_def]
  refine congrArg (s.arbiter.unitsInUse - ·) (Finset.sum_congr rfl fun a _ => ?_)
  rw [changeState_axis]
  unfold Withdraws.unitsOf
  show (if a ∈ (s.exhibit e).axes then if true = true ∧ (s.axis a).state = .accelerating then (s.axis a).startCost
    else 0 else 0) = _
  simp [ite_and]

theorem givenUp_accel (a : AxisId) :
    (givenUp e s).arbiter.accel.get a
      = if a ∈ (List.finRange 12).filter fun a => a ∈ (s.exhibit e).axes && (s.axis a).state = .accelerating then none
        else s.arbiter.accel.get a := by
  unfold givenUp
  rw [closeExhibit_arbiter, withdrawn_service hp hs, disableAxis_withdraws.list_accel, changeState_arbiter,
    changeState_axis]
  exact if_congr (by simp) rfl rfl

/-- The lines ahead of the loop that evaluates them. -/
theorem givenUp_releasing : Releasing e s (List.finRange 64)
    ((withdrawn e (s.setTenure e none)).modExhibit e Exhibit.leaveUse) := by
  obtain ⟨lines, mode, -⟩ := withdrawn_sansFields hp hs
  refine ⟨fun k _ => lines k, ?_, mode⟩
  rw [modExhibit_exhibit_same, exhibit_of_sansAxes (withdrawn_sansAxes e _), emptied_exhibit _ _ _ (by decide)]
  rfl

/-- A line that leaves with its exhibit is INERT (R28). -/
theorem givenUp_line {l : LineId} (h : leavesWith e s l = true) : (givenUp e s).line l = (s.line l).asleep := by
  obtain ⟨lines, closed, mode⟩ := givenUp_releasing hp hs
  have hl := lines l (List.mem_finRange l)
  simp only [leavesWith, Bool.and_eq_true, Bool.not_eq_true', decide_eq_true_eq] at h
  obtain ⟨⟨hx, hv⟩, hi⟩ := h
  have live := lineLive_closed (by rw [hl]; exact hx) closed
  rw [hl, mode, hv] at live
  unfold givenUp
  rw [closeExhibit_eq, evaluateExhibitLines_line, live, hl, if_pos hx]
  unfold Line.evaluated
  rw [if_neg Bool.false_ne_true, if_neg hi]

/-- The queues before the lines are evaluated: EXHIBIT_STATE is in each. -/
theorem withdrawn_queue (q : QueueName) :
    ((withdrawn e (s.setTenure e none)).modExhibit e Exhibit.leaveUse).queue q
      = (appendTo q { kind := .exhibitState, exhibit := some e, value := some 0 } s).queue q := by
  have hm : ∀ t : State, (t.modExhibit e Exhibit.leaveUse).queue q = t.queue q := fun t => by cases q <;> rfl
  rw [hm, withdrawn_service hp hs, forList_disableAxis_queue,
    changeState_closed_queue (s := s.setTenure e none) hs]
  exact appendTo_queue_same q _ (by cases q <;> rfl) rfl

theorem givenUp_deskQueue :
    (givenUp e s).deskQueue
      = (appendTo .deskQ { kind := .exhibitState, exhibit := some e, value := some 0 } s).deskQueue := by
  unfold givenUp
  rw [closeExhibit_eq, evaluateExhibitLines_deskQueue]
  exact withdrawn_queue hp hs .deskQ

theorem givenUp_queue (d : PressDestination) :
    (givenUp e s).queue d.queue = ((List.finRange 64).foldl (fun u l => releaseTo e s d l u)
      (appendTo d.queue { kind := .exhibitState, exhibit := some e, value := some 0 } s)).queue d.queue := by
  unfold givenUp
  rw [closeExhibit_eq]
  refine releases_queue d (List.finRange 64) (List.nodup_finRange 64) (givenUp_releasing hp hs)
    (withdrawn_queue hp hs d.queue) ?_
  rw [appendTo_clock]
  exact (withdrawn_sansFields hp hs).2.2

end

end Sys2Proof.Machine
end

section
/-! SUPPORT. What keeps the tenures' agreement across a step, and the bodies of the commands of tenure (R152-R155). -/

namespace Sys2Proof.Machine

/-! ## The agreement of tenures is kept -/

/-- A relation closed under the moves of the events, and blind to the waiting commands, holds across a step. -/
theorem step_steps {R : State → State → Prop} (h : Steps R) (hp : ∀ s p, R s { s with pending := p }) (s : State) :
    Reaches R s (step s) := by
  intro t ht
  unfold step at ht
  split at ht
  · cases ht; exact h.refl s
  · exact h.trans (hp s _) (exec_steps h _ _ t ht)

theorem step_tenuresOk {s t : State} (hs : TenuresOk s) (ht : step s = .next t) : TenuresOk t := by
  obtain ⟨service, idle⟩ := (tenuresOk_iff s).1 hs
  exact (tenuresOk_iff t).2
    ⟨step_steps ServiceOk.steps (fun _ _ => ServiceOk.aside rfl rfl rfl) s t ht service,
      step_steps IdleOk.steps (fun _ _ => IdleOk.same ⟨rfl, rfl⟩) s t ht idle⟩

/-! ## The commands of tenure -/

section
variable (port : Port) (e : ExhibitId) (s : State)

theorem onExhibit_head (l : List Byte) (f : ExhibitId → State → State × Reply) :
    onExhibit (num1 e.val ++ l) f s = f e s := by
  unfold onExhibit; rw [exhibitAt_head]

theorem serviceRevokeBody_num1 : serviceRevokeBody port (num1 e.val) s
    = if inService s e then acceptExhibit e (endTenure e s) else refuse .wrongState s := onExhibit_num1 e _ s

theorem exhibitGiveBody_num1 : exhibitGiveBody port (num1 e.val) s
    = if inService s e then acceptExhibit e (endTenure e s) else refuse .wrongState s := onExhibit_num1 e _ s

theorem exhibitTakeBody_num1 : exhibitTakeBody port (num1 e.val) s
    = if !(s.exhibit e).permit then refuse .notPermitted s
      else if (s.exhibit e).state.takesTenure then acceptExhibit e (beginTenure e s)
      else refuse .wrongState s := onExhibit_num1 e _ s

/-- The permit is what the command sets: neither the end of a tenure nor the conclusion writes it. -/
theorem setPermit_permit (b : Bool) : ((conclude (setPermit e b s)).exhibit e).permit = b := by
  have set : ((s.modExhibit e fun x => { x with permit := b }).exhibit e).permit = b := by
    rw [modExhibit_exhibit_same]
  have kept : Undisturbed (s.modExhibit e fun x => { x with permit := b }) (conclude (setPermit e b s)) := by
    refine Undisturbed.trans ?_ (Undisturbed.wide.toFloor.conclude _)
    unfold setPermit
    dsimp only
    split
    · exact Undisturbed.wide.endsTenure _ e
    · exact Undisturbed.refl _
  exact (Same.permit_of_standing (kept.exhibits e)).trans set

theorem servicePermitBody_flag {b : Byte} {v : Bool} (hv : flagAt (num1 e.val ++ [b]) 1 = some v) :
    servicePermitBody port (num1 e.val ++ [b]) s
      = accept (flagByte v ++ stateByte (conclude (setPermit e v s)) e) (conclude (setPermit e v s)) := by
  refine (onExhibit_head e s [b] _).trans ?_
  rw [hv]
  exact congrArg (fun x => accept (flagByte x ++ stateByte (conclude (setPermit e v s)) e)
    (conclude (setPermit e v s))) (setPermit_permit e s v)

theorem servicePermitBody_bad {b : Byte} (hb : 1 < b.toNat) :
    servicePermitBody port (num1 e.val ++ [b]) s = refuse .badValue s := by
  have hv : flagAt (num1 e.val ++ [b]) 1 = none := by
    unfold flagAt
    split
    · have h : b.toNat = 0 := by assumption
      omega
    · have h : b.toNat = 1 := by assumption
      omega
    · rfl
  refine (onExhibit_head e s [b] _).trans ?_
  rw [hv]

theorem setPermit_on : setPermit e true s = s.modExhibit e fun x => { x with permit := true } := rfl

theorem setPermit_off {s : State} (h : (s.exhibit e).state ≠ .service) :
    setPermit e false s = s.modExhibit e fun x => { x with permit := false } := if_neg (by simp [inService, h])

theorem setPermit_ends {s : State} (h : (s.exhibit e).state = .service) :
    setPermit e false s = endTenure e (s.modExhibit e fun x => { x with permit := false }) :=
  if_pos (by simp [inService, h])

end

end Sys2Proof.Machine
end

section
/-! PROOFS. Tenures (O53). -/

namespace Sys2Proof.Machine

/-! ## The idle timer's expiry ends every tenure -/

/-- One exhibit's part in the end of every tenure. -/
def endIfPresent (e : ExhibitId) (t : State) : State := if (t.tenure e).isSome then endTenure e t else t

theorem endTenures_eq (s : State) : endTenures s = { forEach endIfPresent s with serviceIdle := none } := rfl

theorem endTenures_inTurn (s : State) :
    ∃ u, InTurn 16 (fun e a b => b = if (a.tenure e).isSome then endTenure e a else a) s u ∧
      endTenures s = { u with serviceIdle := none } :=
  ⟨forEach endIfPresent s, inTurn_forEach endIfPresent (fun e a b => b = endIfPresent e a) (fun _ _ => rfl) s, rfl⟩

/-- A tenure and its exhibit, before and after the end of every tenure. -/
def Ended (x y : Option Clock × Exhibit) : Prop :=
  y.1 = none ∧ (x.1 ≠ none → y.2.state = .closed) ∧ (x.1 = none → y.2 = x.2)

/-- Every tenure ends with its exhibit CLOSED, and an exhibit without one stays as it is (R156). -/
theorem endIfPresent_ended (s : State) (e : ExhibitId) :
    Ended (s.tenure e, s.exhibit e) ((forEach endIfPresent s).tenure e, (forEach endIfPresent s).exhibit e) := by
  refine forEach_component (fun t k => (t.tenure k, t.exhibit k)) Ended (fun e k t hk => ?_) (fun e t => ?_) s e
  · unfold endIfPresent
    split
    · rw [IdleOk.endTenure_tenure, if_neg hk, endTenure_exhibit_other _ _ hk]
    · rfl
  · unfold endIfPresent
    split
    · rename_i h
      refine ⟨?_, fun _ => endTenure_state e t, fun hn => ?_⟩
      · rw [IdleOk.endTenure_tenure, if_pos rfl]
      · rw [show t.tenure e = none from hn] at h
        cases h
    · rename_i h
      have hn : t.tenure e = none := by simpa using h
      exact ⟨hn, fun hx => absurd hn hx, fun _ => rfl⟩

theorem endTenures_ended (s : State) (e : ExhibitId) :
    Ended (s.tenure e, s.exhibit e) ((endTenures s).tenure e, (endTenures s).exhibit e) := by
  have h := endIfPresent_ended s e
  rw [endTenures_eq]
  generalize forEach endIfPresent s = u at h
  exact h

theorem exec_serviceIdleExpiry {s : State} (h : s.inReset = false) :
    exec .serviceIdleExpiry s = .next (drivePins (serviceIdleExpires s)) := occur_next h

theorem exec_serviceIdleExpiry_early {s : State} (h : s.inReset = false) (hi : s.serviceIdle ≠ some 0) :
    exec .serviceIdleExpiry s = .next (drivePins s) :=
  (exec_serviceIdleExpiry h).trans (congrArg (fun t => (.next (drivePins t) : Result)) (if_neg hi))

theorem exec_serviceIdleExpiry_due {s : State} (h : s.inReset = false) (hi : s.serviceIdle = some 0) :
    exec .serviceIdleExpiry s = .next (drivePins (conclude (endTenures s))) :=
  (exec_serviceIdleExpiry h).trans (congrArg (fun t => (.next (drivePins t) : Result)) (if_pos hi))

/-! ## O53 -/

theorem takesTenure_iff (x : ExhibitState) : x.takesTenure = true ↔ x = .closed ∨ x = .faulted := by
  cases x <;> simp [ExhibitState.takesTenure]

section
variable {e : ExhibitId} {s : State}

/-- A body that ends a tenure in SERVICE and refuses otherwise, as SERVICE-REVOKE and EXHIBIT-GIVE do (R155). -/
theorem answers_ending {c : Command} {port : Port} (h : Admitted c port s) (hl : c.lengthOk (num1 e.val) = true)
    (hb : c.body port (num1 e.val) s
      = if inService s e then acceptExhibit e (endTenure e s) else refuse .wrongState s) :
    ((s.exhibit e).state ≠ .service → Answers c port (num1 e.val) s .wrongState [] s) ∧
    ((s.exhibit e).state = .service → Answers c port (num1 e.val) s .ok
      (num1 ((conclude (endTenure e s)).exhibit e).state.code) (conclude (endTenure e s))) :=
  ⟨fun hn => answers_body h (by simp) hl (hb.trans (if_neg (by simp [inService, hn]))),
    fun hy => answers_body h (by simp) hl (hb.trans (if_pos (by simp [inService, hy])))⟩

/-- SERVICE-PERMIT answers the permit and the state after it (R153). -/
theorem answers_permit {b : Byte} {v : Bool} {u : State} (h : Admitted .servicePermit .deskPort s)
    (hv : flagAt (num1 e.val ++ [b]) 1 = some v) (hu : setPermit e v s = u) :
    Answers .servicePermit .deskPort (num1 e.val ++ [b]) s .ok
      (flagByte v ++ num1 ((conclude u).exhibit e).state.code) (conclude u) := by
  subst hu
  exact answers_body h (by simp) rfl (servicePermitBody_flag .deskPort e s hv)

/-- EXHIBIT-TAKE asks for the permit first and for the state next (R154). -/
theorem answers_take (h : Admitted .exhibitTake .servicePort s) :
    ((s.exhibit e).permit = false → Answers .exhibitTake .servicePort (num1 e.val) s .notPermitted [] s) ∧
    ((s.exhibit e).permit = true → (s.exhibit e).state ≠ .closed → (s.exhibit e).state ≠ .faulted →
      Answers .exhibitTake .servicePort (num1 e.val) s .wrongState [] s) ∧
    ((s.exhibit e).permit = true → (s.exhibit e).state = .closed ∨ (s.exhibit e).state = .faulted →
      Answers .exhibitTake .servicePort (num1 e.val) s .ok
        (num1 ((conclude (beginTenure e s)).exhibit e).state.code) (conclude (beginTenure e s))) := by
  have hb := exhibitTakeBody_num1 .servicePort e s
  refine ⟨fun hp => ?_, fun hp hc hf => ?_, fun hp hx => ?_⟩
  · exact answers_body h (by simp) rfl (hb.trans (if_pos (by simp [hp])))
  · refine answers_body h (by simp) rfl (hb.trans ((if_neg (by simp [hp])).trans (if_neg fun ht => ?_)))
    exact ((takesTenure_iff _).1 ht).elim hc hf
  · exact answers_body h (by simp) rfl
      (hb.trans ((if_neg (by simp [hp])).trans (if_pos ((takesTenure_iff _).2 hx))))

end

section
variable (e : ExhibitId) (s : State)

/-- What every tenure's beginning does, whatever the exhibit's state (R154). -/
theorem beginTenure_spec :
    (beginTenure e s).tenure e = some s.clock ∧ ((beginTenure e s).exhibit e).state = .service ∧
    (∀ d, d ≠ e → (beginTenure e s).tenure d = s.tenure d) ∧
    (∀ d, d ≠ e → (beginTenure e s).exhibit d = s.exhibit d) ∧
    (beginTenure e s).scanner.regime = regimeOf (beginTenure e s) ∧ Undisturbed s (beginTenure e s) := by
  refine ⟨?_, ?_, fun d hd => ?_, fun d hd => ?_, beginTenure_regime e s, beginTenure_undisturbed e s⟩
  · rw [beginTenure_tenure, if_pos rfl]
  · rw [beginTenure_exhibit, takenUp_state]
  · rw [beginTenure_tenure, if_neg hd]
  · rw [beginTenure_exhibit, takenUp_exhibit_other _ _ hd]

/-- What every tenure's end does, whatever the exhibit's state (R155). -/
theorem endTenure_spec :
    (endTenure e s).tenure e = none ∧ ((endTenure e s).exhibit e).state = .closed ∧
    (∀ d, d ≠ e → (endTenure e s).tenure d = s.tenure d) ∧
    (∀ d, d ≠ e → (endTenure e s).exhibit d = s.exhibit d) ∧
    (endTenure e s).scanner.regime = regimeOf (endTenure e s) ∧
    ((∀ d, d ≠ e → s.tenure d = none) → (endTenure e s).serviceIdle = none) ∧
    (∀ d, d ≠ e → s.tenure d ≠ none → (endTenure e s).serviceIdle = s.serviceIdle) ∧
    Undisturbed s (endTenure e s) := by
  refine ⟨?_, endTenure_state e s, fun d hd => ?_, fun d hd => endTenure_exhibit_other e s hd, endTenure_regime e s,
    endTenure_idle_last e s, fun d hd => endTenure_idle_other e s hd, Undisturbed.wide.endsTenure s e⟩
  · rw [IdleOk.endTenure_tenure, if_pos rfl]
  · rw [IdleOk.endTenure_tenure, if_neg hd]

end

/-- Settles O53: the agreement is a relation that every event keeps; a tenure's beginning and end are read off the
entry to SERVICE and the closing, and the idle timer's expiry is the loop of the ends. -/
theorem tenuresBeginAndEnd : Obligations.TenuresBeginAndEnd := by
  unfold Obligations.TenuresBeginAndEnd
  refine ⟨fun s t => step_tenuresOk, fun e s => ?_,
    fun e s => ⟨fun h => ⟨fun b hb => ?_, ?_, fun hn => ?_, fun hy => ?_⟩,
    fun h => ?_, fun h => ?_, fun h => ?_, ?_, ?_, ?_, ?_⟩, fun s h => ⟨?_, ?_, ?_⟩⟩
  · exact fun _ hw => ⟨beginTenure_record hw, beginTenure_axis hw,
      fun l hl => (beginTenure_line hw l).trans (if_neg hl), fun _ => beginTenure_line_wakes hw,
      beginTenure_sansFloor hw⟩
  · exact answers_body h (by simp) rfl (servicePermitBody_bad .deskPort e s hb)
  · exact answers_permit (v := true) h rfl (setPermit_on e s)
  · exact answers_permit (v := false) h rfl (setPermit_off e hn)
  · exact answers_permit (v := false) h rfl (setPermit_ends e hy)
  · exact answers_ending h rfl (serviceRevokeBody_num1 .deskPort e s)
  · exact answers_ending h rfl (exhibitGiveBody_num1 .servicePort e s)
  · exact answers_take h
  · exact beginTenure_spec e s
  · exact endTenure_spec e s
  · exact ⟨endTenure_last e s, fun d hd => endTenure_other e s hd⟩
  · exact fun hp hs =>
      have u := endTenure_upToIdle e s
      ⟨(u.exhibit e).trans (givenUp_record hp hs), fun a => (u.axis a).trans (givenUp_axis hp hs a),
        (congrArg Arbiter.startQueue u.arbiter).trans (givenUp_startQueue hp hs),
        (congrArg Arbiter.unitsInUse u.arbiter).trans (givenUp_unitsInUse hp hs),
        fun a => (congrArg (fun x : Arbiter => x.accel.get a) u.arbiter).trans (givenUp_accel hp hs a),
        fun l hl => (u.line l).trans (givenUp_line hp hs hl),
        (u.queue .deskQ).trans (givenUp_deskQueue hp hs), (u.queue .showQ).trans (givenUp_queue hp hs .showQueue),
        (u.queue .serviceQ).trans (givenUp_queue hp hs .serviceQueue)⟩
  · exact exec_serviceIdleExpiry_early h
  · exact endTenures_inTurn s
  · exact fun hi => ⟨exec_serviceIdleExpiry_due h hi, rfl, endTenures_ended s, Undisturbed.wide.endsTenures s⟩

end Sys2Proof.Machine
end

section
/-! SUPPORT. One line's record put in place, and what liveness and the end of a press make of it (R26-R28, R34,
R36). -/

namespace Sys2Proof.Machine

/-! ## The record of one line -/

/-- The state with the record of line `l` replaced. -/
def State.putLine (s : State) (l : LineId) (x : Line) : State := s.modLine l fun _ => x

@[simp] theorem putLine_line (s : State) (l : LineId) (x : Line) : (s.putLine l x).line l = x :=
  modLine_line_same s l _

@[simp] theorem putLine_modLine (s : State) (l : LineId) (x : Line) (f : Line → Line) :
    (s.putLine l x).modLine l f = s.putLine l (f x) := modLine_modLine s l _ f

/-- An update of a line puts the updated record in its place. -/
theorem modLine_eq_putLine (s : State) (l : LineId) (f : Line → Line) :
    s.modLine l f = s.putLine l (f (s.line l)) := modLine_congr s l f _ rfl

/-- A record put where it stands is no change. -/
theorem putLine_self (s : State) (l : LineId) : s.putLine l (s.line l) = s :=
  congrArg (fun v => { s with lines := v }) (modTable_same s.lines l _ rfl)

/-- An event of a press goes to the queue that has the press, whatever the lines are. -/
theorem emit_modLine (d : PressDestination) (v : Event) (s : State) (l : LineId) (f : Line → Line) :
    (emit [d.queue] v s).modLine l f = emit [d.queue] v (s.modLine l f) := by cases d <;> rfl

/-! ## The end of a press (R28, R34, R36) -/

/-- A line's record with no press accepted. -/
def Line.cleared (x : Line) : Line := { x with accepted := false, destination := none }

/-- BUTTON_RELEASE of a line. -/
def releaseEvent (x : Line) (l : LineId) (value : Option (BitVec 16)) : Event :=
  { kind := .buttonRelease, exhibit := x.exhibit, subject := some (BitVec.ofNat 8 l.val), value := value }

/-- A press that no queue has ends without an event. -/
theorem releasePress_undelivered {l : LineId} {v : Option (BitVec 16)} {s : State}
    (h : (s.line l).accepted = false ∨ (s.line l).destination = none) :
    releasePress l v s = s.putLine l (s.line l).cleared := by
  unfold releasePress
  dsimp only
  split
  · rename_i d ha hd
    rw [ha, hd] at h
    rcases h with h | h <;> cases h
  · exact modLine_eq_putLine s l _

/-- A press that a queue has ends with its BUTTON_RELEASE there. -/
theorem releasePress_delivered {l : LineId} {v : Option (BitVec 16)} {s : State} {d : PressDestination}
    (ha : (s.line l).accepted = true) (hd : (s.line l).destination = some d) :
    releasePress l v s = emit [d.queue] (releaseEvent (s.line l) l v) (s.putLine l (s.line l).cleared) := by
  unfold releasePress
  dsimp only
  rw [ha, hd]
  dsimp only
  rw [emit_modLine, modLine_eq_putLine]
  rfl

theorem releasePress_putLine_undelivered {l : LineId} {v : Option (BitVec 16)} {s : State} {x : Line}
    (h : x.accepted = false ∨ x.destination = none) : releasePress l v (s.putLine l x) = s.putLine l x.cleared := by
  rw [releasePress_undelivered (by rwa [putLine_line]), putLine_line]
  exact putLine_modLine s l x _

theorem releasePress_putLine_delivered {l : LineId} {v : Option (BitVec 16)} {s : State} {x : Line}
    {d : PressDestination} (ha : x.accepted = true) (hd : x.destination = some d) :
    releasePress l v (s.putLine l x) = emit [d.queue] (releaseEvent x l v) (s.putLine l x.cleared) := by
  rw [releasePress_delivered (by rwa [putLine_line]) (by rwa [putLine_line]), putLine_line]
  exact congrArg (emit [d.queue] _) (putLine_modLine s l x _)

/-! ## Liveness (R26-R28) -/

/-- When a line is live (R26). -/
theorem lineLive_iff (s : State) (l : LineId) :
    lineLive s l = true ↔ (s.line l).enabled = true ∧ ∃ e, (s.line l).exhibit = some e ∧
      (((s.line l).role = some .action ∧
        ((((s.exhibit e).state = .ready ∨ (s.exhibit e).state = .running ∨ (s.exhibit e).state = .held ∨
          (s.exhibit e).state = .faulted) ∧ (s.mode = .opened ∨ s.mode = .quiet)) ∨
         ((s.exhibit e).state = .service ∧ s.mode ≠ .setup))) ∨
       ((s.line l).role = some .help ∧ s.mode ≠ .setup)) := by
  unfold lineLive
  cases (s.line l).exhibit with
  | none => simp
  | some e =>
    cases (s.line l).role with
    | none => simp
    | some r =>
      cases r with
      | help => simp
      | action => cases h : (s.exhibit e).state <;> simp [h]

/-- A live line leaves INERT (R27). -/
theorem evaluateLine_wakes {l : LineId} {s : State} (hl : lineLive s l = true) (hi : (s.line l).state = .inert) :
    evaluateLine l s = s.putLine l (s.line l).awake := by
  unfold evaluateLine
  rw [if_pos hl, if_pos hi]
  exact modLine_eq_putLine s l _

/-- A line that is live and not INERT, or INERT and not live, stays as it is. -/
theorem evaluateLine_stays {l : LineId} {s : State} (h : lineLive s l = true ↔ (s.line l).state ≠ .inert) :
    evaluateLine l s = s := by
  unfold evaluateLine
  by_cases hi : (s.line l).state = .inert
  · rw [if_neg fun hl => h.1 hl hi, if_pos hi]
  · rw [if_pos (h.2 hi), if_neg hi]

/-- A line that ceases to be live turns INERT (R28). -/
theorem evaluateLine_sleeps {l : LineId} {s : State} (hl : ¬ lineLive s l = true) (hi : (s.line l).state ≠ .inert) :
    evaluateLine l s = becomeInert l s := by
  unfold evaluateLine
  rw [if_neg hl, if_neg hi]

theorem becomeInert_undelivered {l : LineId} {s : State}
    (h : (s.line l).accepted = false ∨ (s.line l).destination = none) :
    becomeInert l s = s.putLine l (s.line l).asleep := by
  unfold becomeInert
  rw [releasePress_undelivered h, putLine_modLine]
  rfl

theorem becomeInert_delivered {l : LineId} {s : State} {d : PressDestination} (ha : (s.line l).accepted = true)
    (hd : (s.line l).destination = some d) :
    becomeInert l s = emit [d.queue] (releaseEvent (s.line l) l (some 1)) (s.putLine l (s.line l).asleep) := by
  unfold becomeInert
  rw [releasePress_delivered ha hd, emit_modLine, putLine_modLine]
  rfl

/-- The evaluation of a line puts a record in its place, at most with an event of its press. -/
theorem evaluateLine_cases (l : LineId) (s : State) :
    ∃ x, evaluateLine l s = s.putLine l x ∨
      ∃ d v, evaluateLine l s = emit [PressDestination.queue d] v (s.putLine l x) := by
  by_cases hl : lineLive s l = true ↔ (s.line l).state ≠ .inert
  · exact ⟨_, .inl ((evaluateLine_stays hl).trans (putLine_self s l).symm)⟩
  · by_cases hi : (s.line l).state = .inert
    · exact ⟨_, .inl (evaluateLine_wakes (by tauto) hi)⟩
    · rw [evaluateLine_sleeps (by tauto) hi]
      cases ha : (s.line l).accepted with
      | false => exact ⟨_, .inl (becomeInert_undelivered (.inl ha))⟩
      | true =>
        cases hd : (s.line l).destination with
        | none => exact ⟨_, .inl (becomeInert_undelivered (.inr hd))⟩
        | some d => exact ⟨_, .inr ⟨d, _, becomeInert_delivered ha hd⟩⟩

end Sys2Proof.Machine
end

section
/-! PROOFS. The liveness of a line, LINE-ENABLE and LINE-DISABLE (O33, O34). -/

namespace Sys2Proof.Machine

/-- Settles O33: liveness by the role and the exhibit's state, and the evaluation by the case it falls in. -/
theorem livenessOfALine : Obligations.LivenessOfALine := by
  intro l s x live inert forced
  have hlive : lineLive s l = true ↔ live := lineLive_iff s l
  have hdead : ¬ live → ¬ lineLive s l = true := mt hlive.1
  refine ⟨fun h hi => evaluateLine_wakes (hlive.2 h) hi,
    fun h hi => evaluateLine_stays (iff_of_true (hlive.2 h) hi),
    fun h hi => evaluateLine_stays (iff_of_false (hdead h) (not_not.2 hi)),
    fun h hi hp => ?_, fun h hi ha hd => ?_, fun h hi ha hd => ?_⟩
  · exact (evaluateLine_sleeps (hdead h) hi).trans (becomeInert_undelivered hp)
  · exact (evaluateLine_sleeps (hdead h) hi).trans (becomeInert_delivered ha hd)
  · exact (evaluateLine_sleeps (hdead h) hi).trans (becomeInert_delivered ha hd)

/-- The checks of R39, in the words of the statement. -/
theorem mayEnable_iff (s : State) (l : LineId) (port : Port) :
    mayEnable s l port = true ↔
      let service := ∃ e, (s.line l).exhibit = some e ∧ (s.exhibit e).state = .service
      ¬ ((port = .showPort ∧ service) ∨ (port = .servicePort ∧ ¬ service)) := by
  have hs : lineInService s l = true ↔ ∃ e, (s.line l).exhibit = some e ∧ (s.exhibit e).state = .service := by
    unfold lineInService inService
    cases (s.line l).exhibit <;> simp
  unfold mayEnable
  cases port <;> simp [← hs]

/-- The body of LINE-ENABLE and LINE-DISABLE on a line (R39, R40). -/
theorem setEnabled_num1 (b : Bool) (port : Port) (l : LineId) (s : State) :
    setEnabled b port (num1 l.val) s
      = if mayEnable s l port then accept (num1 ((enableLine b l s).line l).state.code) (enableLine b l s)
        else refuse .wrongState s := by
  unfold setEnabled onLine
  rw [lineAt_one]

/-- The flag and the liveness of one line touch that line and the queues a press can be in. -/
theorem enableLine_frame (b : Bool) (l : LineId) (s : State) :
    (∀ k, k ≠ l → (enableLine b l s).line k = s.line k) ∧
      enableLine b l s = { s with
        lines := (enableLine b l s).lines, showQueue := (enableLine b l s).showQueue
        serviceQueue := (enableLine b l s).serviceQueue } := by
  unfold enableLine
  refine ⟨fun k hk => ?_, ?_⟩
  · rw [evaluateLine_line, if_neg hk, line_modLine, if_neg hk]
  · obtain ⟨x, h | ⟨d, v, h⟩⟩ := evaluateLine_cases l (s.modLine l fun x => { x with enabled := b })
    · rw [h]; rfl
    · rw [h]; cases d <;> rfl

theorem enableLine_line (b : Bool) (l : LineId) (s : State) :
    (enableLine b l s).line l = ({ s.line l with enabled := b } : Line).evaluated
      (lineLive (s.modLine l fun x => { x with enabled := b }) l) := by
  unfold enableLine
  rw [evaluateLine_line, if_pos rfl, modLine_line_same]

@[simp] theorem Line.evaluated_enabled (live : Bool) (x : Line) : (x.evaluated live).enabled = x.enabled := by
  unfold Line.evaluated
  split <;> split <;> rfl

theorem enableLine_enabled (b : Bool) (l : LineId) (s : State) : ((enableLine b l s).line l).enabled = b := by
  rw [enableLine_line, Line.evaluated_enabled]

/-- A line that is disabled is INERT (R26, R39). -/
theorem disableLine_state (l : LineId) (s : State) : ((enableLine false l s).line l).state = .inert := by
  have hl : lineLive (s.modLine l fun x => { x with enabled := false }) l = false := by
    rw [← Bool.not_eq_true, lineLive_iff, modLine_line_same]
    exact fun h => absurd h.1 Bool.false_ne_true
  rw [enableLine_line, hl]
  unfold Line.evaluated
  rw [if_neg Bool.false_ne_true]
  split
  · assumption
  · rfl

/-- Settles O34: both commands are one body, which tests the port, and what it does to the line is an evaluation. -/
theorem lineEnableAndDisable : Obligations.LineEnableAndDisable := by
  intro port l s service refused after frame
  have hmay : mayEnable s l port = true ↔ ¬ refused := mayEnable_iff s l port
  have refuses (b : Bool) (h : refused) : setEnabled b port (num1 l.val) s = refuse .wrongState s :=
    (setEnabled_num1 b port l s).trans (if_neg fun hm => hmay.1 hm h)
  have sets (b : Bool) (h : ¬ refused) : setEnabled b port (num1 l.val) s
      = accept (num1 ((enableLine b l s).line l).state.code) (enableLine b l s) :=
    (setEnabled_num1 b port l s).trans (if_pos (hmay.2 h))
  refine ⟨fun had => ⟨fun h => ?_, fun h => ⟨?_, disableLine_state l s, enableLine_enabled false l s,
      enableLine_frame false l s⟩⟩,
    fun had => ⟨fun h => ?_, fun h => ⟨?_, enableLine_enabled true l s, enableLine_frame true l s⟩⟩⟩
  · exact answers_body had (by simp) rfl (refuses false h)
  · refine answers_body had (by simp) rfl ((sets false h).trans ?_)
    rw [disableLine_state]
    rfl
  · exact answers_body had (by simp) rfl (refuses true h)
  · exact answers_body had (by simp) rfl (sets true h)

end Sys2Proof.Machine
end

section
/-! SUPPORT. One sample of a line, by the line's state (R25, R29, R30, R34, R37, R38). -/

namespace Sys2Proof.Machine

/-! ## The sample enters the record (R25) -/

/-- A line's record with a sample as its latest. -/
def Line.sampled (x : Line) (v : Level) : Line := { x with input := v, latest := v = x.activeLevel }

/-- The record with its run of samples one millisecond longer. -/
def Line.counted (x : Line) : Line := { x with debounceTimer := x.debounceTimer + 1 }

/-- The record with its stuck timer one millisecond on. -/
def Line.heldOn (x : Line) : Line := { x with stuckTimer := some (x.stuckTimer.getD 0 + 1) }

theorem exec_lineSample {s : State} (h : s.inReset = false) (l : LineId) (v : Level) :
    exec (.lineSample l v) s = .next (drivePins (conclude (sampleLine l v s))) :=
  (if_neg (by simp [h])).trans (occur_next h)

theorem sampleLine_active {l : LineId} {v : Level} {s : State} (h : v = (s.line l).activeLevel) :
    sampleLine l v s = activeSample l (s.putLine l ((s.line l).sampled v)) := by
  unfold sampleLine
  simp only [h, decide_true, if_pos]
  rw [modLine_eq_putLine]
  simp [Line.sampled]

theorem sampleLine_inactive {l : LineId} {v : Level} {s : State} (h : ¬ v = (s.line l).activeLevel) :
    sampleLine l v s = inactiveSample l (s.putLine l ((s.line l).sampled v)) := by
  unfold sampleLine
  simp only [h, decide_false]
  rw [modLine_eq_putLine]
  simp [Line.sampled, h]

/-! ## What a sample does in each state -/

section
variable {l : LineId} {s : State} {x : Line}

theorem activeSample_inert (h : x.state = .inert) : activeSample l (s.putLine l x) = s.putLine l x := by
  unfold activeSample
  rw [putLine_line, h]

theorem inactiveSample_resting (h : x.state = .inert ∨ x.state = .released) :
    inactiveSample l (s.putLine l x) = s.putLine l x := by
  unfold inactiveSample
  rw [putLine_line]
  rcases h with h | h <;> rw [h]

/-- An active sample ends the run of a line that waits for its release (R29, R38). -/
theorem activeSample_waits (h : x.state = .waitRelease ∨ x.state = .stuck) :
    activeSample l (s.putLine l x) = s.putLine l { x with debounceTimer := 0 } := by
  unfold activeSample
  rcases h with h | h <;> simp only [putLine_line, h, putLine_modLine]

/-- An active sample begins a press (R30). -/
theorem activeSample_released (h : x.state = .released) :
    activeSample l (s.putLine l x) = s.putLine l { x with state := .pressPending, debounceTimer := 1 } := by
  unfold activeSample
  rw [putLine_line, h]
  exact putLine_modLine s l x _

theorem runCompletes_iff (x : Line) : runCompletes x = true ↔ x.debounce ≤ x.debounceTimer + 1 := by
  simp [runCompletes]

theorem countRun_putLine : countRun l (s.putLine l x) = s.putLine l x.counted := putLine_modLine s l x _

theorem activeSample_pressPending_short (h : x.state = .pressPending) (hr : ¬ runCompletes x = true) :
    activeSample l (s.putLine l x) = s.putLine l x.counted := by
  unfold activeSample
  rw [putLine_line, h]
  exact (if_neg hr).trans countRun_putLine

/-- The run of active samples takes the press (R30). -/
theorem activeSample_pressPending_completes (h : x.state = .pressPending) (hr : runCompletes x = true) :
    activeSample l (s.putLine l x)
      = testPress l (s.putLine l { x with state := .pressed, debounceTimer := 0, stuckTimer := some 0 }) := by
  unfold activeSample
  rw [putLine_line, h]
  exact (if_pos hr).trans (congrArg (testPress l) (putLine_modLine s l x _))

theorem inactiveSample_pressPending (h : x.state = .pressPending) :
    inactiveSample l (s.putLine l x) = s.putLine l { x with state := .released, debounceTimer := 0 } := by
  unfold inactiveSample
  rw [putLine_line, h]
  exact putLine_modLine s l x _

theorem activeSample_pressed (h : x.state = .pressed) :
    activeSample l (s.putLine l x) = stuckTest l (s.putLine l x) := by
  unfold activeSample
  rw [putLine_line, h]

theorem inactiveSample_pressed (h : x.state = .pressed) :
    inactiveSample l (s.putLine l x)
      = stuckTest l (s.putLine l { x with state := .releasePending, debounceTimer := 1 }) := by
  unfold inactiveSample
  rw [putLine_line, h]
  exact congrArg (stuckTest l) (putLine_modLine s l x _)

theorem activeSample_releasePending (h : x.state = .releasePending) :
    activeSample l (s.putLine l x)
      = stuckTest l (s.putLine l { x with state := .pressed, debounceTimer := 0 }) := by
  unfold activeSample
  rw [putLine_line, h]
  exact congrArg (stuckTest l) (putLine_modLine s l x _)

theorem inactiveSample_releasePending_short (h : x.state = .releasePending) (hr : ¬ runCompletes x = true) :
    inactiveSample l (s.putLine l x) = stuckTest l (s.putLine l x.counted) := by
  unfold inactiveSample
  rw [putLine_line, h]
  exact (if_neg hr).trans (congrArg (stuckTest l) countRun_putLine)

theorem inactiveSample_waits_short (h : x.state = .waitRelease ∨ x.state = .stuck)
    (hr : ¬ runCompletes x = true) : inactiveSample l (s.putLine l x) = s.putLine l x.counted := by
  unfold inactiveSample
  rw [putLine_line]
  rcases h with h | h <;> rw [h] <;> exact (if_neg hr).trans countRun_putLine

/-- The run of inactive samples ends the press or the wait for its release (R29, R34, R38). -/
theorem inactiveSample_completes (h : x.state = .waitRelease ∨ x.state = .releasePending ∨ x.state = .stuck)
    (hr : runCompletes x = true) : inactiveSample l (s.putLine l x) = becomeReleased l (s.putLine l x) := by
  unfold inactiveSample
  rw [putLine_line]
  rcases h with h | h | h <;> rw [h] <;> exact if_pos hr

/-! ## The stuck test (R37) -/

theorem stuckTest_free (h : x.stuckTimer.getD 0 + 1 < 1000 * x.stuckTime) :
    stuckTest l (s.putLine l x) = s.putLine l x.heldOn := by
  unfold stuckTest
  dsimp only
  rw [putLine_line, if_neg (by unfold seconds; omega), putLine_modLine]
  rfl

/-- The stuck time takes the line to STUCK with its alert; the run of a RELEASE_PENDING line is kept. -/
theorem stuckTest_sticks {n : Nat} (h : 1000 * x.stuckTime ≤ x.stuckTimer.getD 0 + 1)
    (hn : (if x.state = .releasePending then x.debounceTimer else 0) = n) :
    stuckTest l (s.putLine l x) = raiseAlert (tableTrigger .buttonStuck x.exhibit (some l.val))
      (s.putLine l { x with state := .stuck, stuckTimer := none, debounceTimer := n }) := by
  unfold stuckTest
  dsimp only
  rw [putLine_line, if_pos (by unfold seconds; omega), putLine_modLine]
  unfold becomeStuck
  rw [putLine_line, putLine_modLine, ← hn]

end

end Sys2Proof.Machine
end

section
/-! PROOFS. Samples that complete no run and reach no stuck time (O30). -/

namespace Sys2Proof.Machine

/-- Settles O30: the sample enters the record, and the state says what follows; a line that stays down is tested
for its stuck time. -/
theorem lineSampleTransitions : Obligations.LineSampleTransitions := by
  intro l v s hs x active y counted held short free goesTo
  have goes {z : Line} (h : sampleLine l v s = s.putLine l z) : goesTo z := by
    show exec _ s = _
    rw [exec_lineSample hs, h]
    rfl
  have down (ha : active) : sampleLine l v s = activeSample l (s.putLine l y) := sampleLine_active ha
  have up (ha : ¬ active) : sampleLine l v s = inactiveSample l (s.putLine l y) := sampleLine_inactive ha
  have run (hr : short) : ¬ runCompletes y = true := fun h => absurd ((runCompletes_iff y).1 h) (Nat.not_le.2 hr)
  refine ⟨fun h => ?_, fun h ha => goes ((down ha).trans (activeSample_waits h)),
    fun h ha hr => goes ((up ha).trans (inactiveSample_waits_short h (run hr))),
    fun h ha => goes ((down ha).trans (activeSample_released h)),
    fun h ha => goes ((up ha).trans (inactiveSample_resting (.inr h))),
    fun h ha hr => goes ((down ha).trans (activeSample_pressPending_short h (run hr))),
    fun h ha => goes ((up ha).trans (inactiveSample_pressPending h)),
    fun h ha hf => goes ((down ha).trans ((activeSample_pressed (x := y) h).trans (stuckTest_free hf))),
    fun h ha hf => goes ((up ha).trans ((inactiveSample_pressed (x := y) h).trans (stuckTest_free hf))),
    fun h ha hf => goes ((down ha).trans ((activeSample_releasePending (x := y) h).trans (stuckTest_free hf))),
    fun h ha hr hf => goes ((up ha).trans
      ((inactiveSample_releasePending_short (x := y) h (run hr)).trans (stuckTest_free hf)))⟩
  by_cases ha : active
  · exact goes ((down ha).trans (activeSample_inert h))
  · exact goes ((up ha).trans (inactiveSample_resting (.inl h)))

end Sys2Proof.Machine
end

section
/-! SUPPORT. A press is tested and placed (R30-R33, R35, R36). -/

namespace Sys2Proof.Machine

/-! ## The run of active samples ends (R30) -/

theorem exec_pressTaken {l : LineId} {s : State} (h : s.inReset = false) (hp : (s.line l).state = .pressPending)
    (hr : runCompletes (s.line l) = true) :
    exec (.pressTaken l) s = .next (drivePins (conclude (sampleLine l (s.line l).activeLevel s))) :=
  (occur_next h).trans (congrArg (fun t => Host.Outcome.next (drivePins t)) (if_pos ⟨hp, hr⟩))

/-- A line's record as a press is taken at its debounce time (R30). -/
def Line.taken (x : Line) : Line :=
  { x with
    input := x.activeLevel, latest := true, state := .pressed, debounceTimer := 0, stuckTimer := some 0 }

/-- The sample that completes a run of active samples takes the press and tests it. -/
theorem sampleLine_takes {l : LineId} {s : State} (hp : (s.line l).state = .pressPending)
    (hr : runCompletes (s.line l) = true) :
    sampleLine l (s.line l).activeLevel s = testPress l (s.putLine l (s.line l).taken) := by
  rw [sampleLine_active rfl, activeSample_pressPending_completes (x := (s.line l).sampled _) hp hr]
  simp [Line.sampled, Line.taken]

/-! ## The test of a press (R31-R33) -/

/-- A line's record as its press is accepted (R31). -/
def Line.acceptedAt (x : Line) (c : Clock) : Line := { x with lastAccepted := some c, accepted := true }

/-- A line's record as its press goes to a queue (R33). -/
def Line.deliveredTo (x : Line) (d : PressDestination) : Line := { x with destination := some d }

/-- BUTTON_PRESS of a line (R36). -/
def pressOf (x : Line) (l : LineId) (value : Option (BitVec 16)) (step : Option StepId) : Event :=
  { kind := .buttonPress, exhibit := x.exhibit, subject := some (BitVec.ofNat 8 l.val), value := value, step := step }

theorem pressAccepted_iff (s : State) (l : LineId) :
    pressAccepted s l = true ↔
      ∀ t, (s.line l).lastAccepted = some t → (s.line l).repeatGuard ≤ elapsed t s.clock := by
  unfold pressAccepted
  cases (s.line l).lastAccepted <;> simp

section
variable {l : LineId} {s : State} {x : Line} {e : ExhibitId}

theorem testPress_guarded (h : ¬ pressAccepted (s.putLine l x) l = true) :
    testPress l (s.putLine l x) = s.putLine l x := if_neg h

/-- A press that is accepted is marked so with its time before it is placed (R31). -/
theorem acceptPress_putLine :
    ((s.putLine l x).modLine l fun y => { y with lastAccepted := some (s.putLine l x).clock, accepted := true })
      = s.putLine l (x.acceptedAt s.clock) := putLine_modLine s l x _

/-- An accepted HELP press triggers HELP_CALL (R32). -/
theorem testPress_help (h : pressAccepted (s.putLine l x) l = true) (he : x.exhibit = some e)
    (hr : x.role = some .help) :
    testPress l (s.putLine l x)
      = raiseAlert (tableTrigger .helpCall (some e)) (s.putLine l (x.acceptedAt s.clock)) := by
  unfold testPress
  rw [if_pos h]
  dsimp only
  rw [acceptPress_putLine, putLine_line, show (x.acceptedAt s.clock).exhibit = some e from he,
    show (x.acceptedAt s.clock).role = some .help from hr]

/-- An accepted ACTION press is placed (R33). -/
theorem testPress_action (h : pressAccepted (s.putLine l x) l = true) (he : x.exhibit = some e)
    (hr : x.role = some .action) :
    testPress l (s.putLine l x) = placePress l e (s.putLine l (x.acceptedAt s.clock)) := by
  unfold testPress
  rw [if_pos h]
  dsimp only
  rw [acceptPress_putLine, putLine_line, show (x.acceptedAt s.clock).exhibit = some e from he,
    show (x.acceptedAt s.clock).role = some .action from hr]

/-! ## The place of a press (R33, R35, R36) -/

theorem deliverPress_putLine (d : PressDestination) (value : Option (BitVec 16)) (step : Option StepId) :
    deliverPress l d value step (s.putLine l x)
      = emit [d.queue] (pressOf x l value step) (s.putLine l (x.deliveredTo d)) := by
  unfold deliverPress pressEvent
  rw [putLine_modLine, putLine_line]
  rfl

/-- The frames and the lines are apart. -/
theorem markDone_putLine (f : FrameId) (i : Nat) (s : State) (l : LineId) (x : Line) :
    markDone f i (s.putLine l x) = (markDone f i s).putLine l x := rfl

theorem deliverPress_markDone (d : PressDestination) (value : Option (BitVec 16)) (step : Option StepId)
    (f : FrameId) (i : Nat) :
    deliverPress l d value step (markDone f i (s.putLine l x))
      = emit [d.queue] (pressOf x l value step) (markDone f i (s.putLine l (x.deliveredTo d))) := by
  rw [markDone_putLine, markDone_putLine, deliverPress_putLine]

/-- Case 1 of R33: in SERVICE the service queue has the press. -/
theorem placePress_service (h : (s.exhibit e).state = .service) :
    placePress l e s = deliverPress l .serviceQueue none none s := by
  unfold placePress
  rw [h]

/-- Case 2 of R33: in QUIET the press is swallowed. -/
theorem placePress_quiet (h : (s.exhibit e).state ≠ .service) (hq : s.mode = .quiet) : placePress l e s = s := by
  unfold placePress
  split
  · contradiction
  · exact if_pos hq

/-- Cases 3 to 5 of R33: on a RUNNING exhibit the press is offered to the cue. -/
theorem placePress_running (h : (s.exhibit e).state = .running) (hq : s.mode ≠ .quiet) :
    placePress l e s = offerPress l e s := by
  unfold placePress
  rw [h]
  exact if_neg hq

/-- Cases 6 and 7 of R33: otherwise the show queue has the press, with the state when it is HELD or FAULTED. -/
theorem placePress_show {st : ExhibitState} (h : (s.exhibit e).state = st)
    (hst : st = .ready ∨ st = .held ∨ st = .faulted) (hq : s.mode ≠ .quiet) :
    placePress l e s = deliverPress l .showQueue (pressValue st) none s := by
  unfold placePress
  rw [h]
  rcases hst with rfl | rfl | rfl <;> exact if_neg hq

/-- The step of exhibit `e`'s active frame that waits for line `l`, with its frame (R35). -/
def awaitedStep (s : State) (e : ExhibitId) (l : LineId) : Option (FrameId × Nat) :=
  (s.exhibit e).active.bind fun f => (waitingStep (s.frame f) l).map fun i => (f, i)

/-- Case 3 of R33: the press completes the step that waits for it (R35). -/
theorem offerPress_awaited {f : FrameId} {i : Nat} (h : awaitedStep s e l = some (f, i)) :
    offerPress l e s = afterDone e f (deliverPress l .showQueue none (some (stepIndex i)) (markDone f i s)) := by
  unfold awaitedStep at h
  obtain ⟨g, hg, hi⟩ := Option.bind_eq_some_iff.1 h
  obtain ⟨j, hj, heq⟩ := Option.map_eq_some_iff.1 hi
  cases heq
  unfold offerPress
  simp only [hg, hj]

/-- Case 4 of R33: without such a step the busy policy may swallow the press. -/
theorem offerPress_swallowed (h : awaitedStep s e l = none)
    (hb : (s.exhibit e).busyPolicy = .swallowWhileRunning) : offerPress l e s = s := by
  unfold offerPress
  rw [hb]
  cases hg : (s.exhibit e).active with
  | none => rfl
  | some f =>
    cases hj : waitingStep (s.frame f) l with
    | none => simp only [hj]
    | some i => simp [awaitedStep, hg, hj] at h

/-- Case 5 of R33: or deliver it. -/
theorem offerPress_delivered (h : awaitedStep s e l = none) (hb : (s.exhibit e).busyPolicy = .deliver) :
    offerPress l e s = deliverPress l .showQueue none none s := by
  unfold offerPress
  rw [hb]
  cases hg : (s.exhibit e).active with
  | none => rfl
  | some f =>
    cases hj : waitingStep (s.frame f) l with
    | none => simp only [hj]
    | some i => simp [awaitedStep, hg, hj] at h

end

end Sys2Proof.Machine
end

section
/-! PROOFS. Presses (O31). -/

namespace Sys2Proof.Machine

/-- Settles O31: the sample that completes the run takes the press, which is tested and then placed by the first case
of R33 that matches. -/
theorem pressIsTakenAndPlaced : Obligations.PressIsTakenAndPlaced := by
  intro l s hs hp hdeb x down taken accepted goesTo swallowed placed press
  have hr : runCompletes x = true := (runCompletes_iff x).2 hdeb
  have goes {t : State} (h : testPress l (s.putLine l x.taken) = t) : goesTo t := by
    have hsample : sampleLine l x.activeLevel s = t := (sampleLine_takes hp hr).trans h
    exact ⟨(exec_pressTaken hs hp hr).trans (by rw [hsample]), (exec_lineSample hs l _).trans (by rw [hsample])⟩
  have haccepted : pressAccepted (s.putLine l x.taken) l = true ↔ accepted := by
    rw [pressAccepted_iff, putLine_line]
    rfl
  refine ⟨fun ha => goes (testPress_guarded (mt haccepted.1 ha)),
    fun e ha he hrole => goes (testPress_help (haccepted.2 ha) he hrole), fun e ha he hrole => ?_⟩
  intro z step
  have delivered (d : PressDestination) (value : Option (BitVec 16)) (step : Option StepId) :
      deliverPress l d value step swallowed = emit [d.queue] (press value step) (placed d) :=
    deliverPress_putLine (s := s) (x := taken) d value step
  have goesPlaced {t : State} (h : placePress l e swallowed = t) : goesTo t :=
    goes ((testPress_action (haccepted.2 ha) he hrole).trans h)
  have running (hz : z.state = .running) (hq : s.mode ≠ .quiet) :
      placePress l e swallowed = offerPress l e swallowed := placePress_running (s := swallowed) hz hq
  refine ⟨fun hz => ?_, fun hz hq => goesPlaced (placePress_quiet (s := swallowed) hz hq), fun f i hz hq hstep => ?_,
    fun hz hq hstep hb => ?_, fun hz hq hstep hb => ?_, fun hz hq => ?_, fun hz hq => ?_⟩
  · exact goesPlaced ((placePress_service (s := swallowed) hz).trans (delivered _ _ _))
  · refine goesPlaced ((running hz hq).trans ((offerPress_awaited (s := swallowed) hstep).trans ?_))
    exact congrArg (afterDone e f) (deliverPress_markDone _ _ _ f i)
  · exact goesPlaced ((running hz hq).trans (offerPress_swallowed (s := swallowed) hstep hb))
  · exact goesPlaced ((running hz hq).trans
      ((offerPress_delivered (s := swallowed) hstep hb).trans (delivered _ _ _)))
  · exact goesPlaced ((placePress_show (s := swallowed) hz (.inl rfl) hq).trans (delivered _ _ _))
  · rcases hz with hz | hz
    · rw [hz]
      exact goesPlaced ((placePress_show (s := swallowed) hz (.inr (.inl rfl)) hq).trans (delivered _ _ _))
    · rw [hz]
      exact goesPlaced ((placePress_show (s := swallowed) hz (.inr (.inr rfl)) hq).trans (delivered _ _ _))

end Sys2Proof.Machine
end

section
/-! PROOFS. The end of a press, and STUCK lines (O32). -/

namespace Sys2Proof.Machine

/-! ## The run of inactive samples ends (R29, R34, R38) -/

theorem inactiveLevel_ne (x : Line) : ¬ inactiveLevel x = x.activeLevel := by
  unfold inactiveLevel Level.other
  cases x.activeLevel <;> decide

/-- An event at the sample that completes the run of a line in its state. -/
theorem completeRun_of {st : LineState} {l : LineId} {v : Level} {s : State} (h : (s.line l).state = st)
    (hr : runCompletes (s.line l) = true) : completeRun st l v s = conclude (sampleLine l v s) := if_pos ⟨h, hr⟩

/-- A line's record as its run of inactive samples completes, its press apart. -/
def Line.up (x : Line) : Line :=
  { x with
    input := Level.other x.activeLevel, latest := false, state := .released, debounceTimer := 0, stuckTimer := none }

theorem sampleLine_releases {l : LineId} {s : State}
    (h : (s.line l).state = .waitRelease ∨ (s.line l).state = .releasePending ∨ (s.line l).state = .stuck)
    (hr : runCompletes (s.line l) = true) :
    sampleLine l (inactiveLevel (s.line l)) s = releasePress l none (s.putLine l (s.line l).up) := by
  have hne := inactiveLevel_ne (s.line l)
  rw [sampleLine_inactive hne, inactiveSample_completes (x := (s.line l).sampled _) h hr]
  unfold becomeReleased
  rw [putLine_modLine]
  simp only [Line.sampled, hne, decide_false]
  rfl

/-! ## A line sticks (R37) -/

theorem sticks_iff (x : Line) (v : Level) :
    sticks x v = true ↔ 1000 * x.stuckTime ≤ x.stuckTimer.getD 0 + 1 ∧
      (x.state = .pressed ∨ x.state = .releasePending ∧ (v = x.activeLevel ∨ ¬ runCompletes x = true)) := by
  unfold sticks seconds
  cases h : x.state <;> simp

theorem exec_lineStuck {l : LineId} {v : Level} {s : State} (h : s.inReset = false)
    (hk : sticks (s.line l) v = true) :
    exec (.lineStuck l v) s = .next (drivePins (conclude (sampleLine l v s))) :=
  (occur_next h).trans (congrArg (fun t => Host.Outcome.next (drivePins t)) (if_pos hk))

/-- Settles O32: the run of inactive samples ends in `releasePress`, by who has the press; the stuck time, in the
stuck test. -/
theorem lineIsReleasedOrBecomesStuck : Obligations.LineIsReleasedOrBecomesStuck := by
  refine ⟨fun l s hs hdeb => ?_, fun l v s hs hstuck => ?_⟩
  · intro x up release t
    have hr : runCompletes x = true := (runCompletes_iff x).2 hdeb
    have ends : releasePress l none (s.putLine l x.up) = t := by
      have kept (h : x.accepted = false ∨ x.destination = none) :
          releasePress l none (s.putLine l x.up) = s.modLine l fun _ => up :=
        releasePress_putLine_undelivered (x := x.up) h
      have told (d : PressDestination) (ha : x.accepted = true) (hd : x.destination = some d) :
          releasePress l none (s.putLine l x.up) = emit [d.queue] release (s.modLine l fun _ => up) :=
        releasePress_putLine_delivered (x := x.up) ha hd
      show _ = match x.accepted, x.destination with
        | true, some .showQueue => _
        | true, some .serviceQueue => _
        | _, _ => _
      split
      · exact told _ ‹_› ‹_›
      · exact told _ ‹_› ‹_›
      · refine kept ?_
        cases ha : x.accepted with
        | false => exact .inl rfl
        | true =>
          cases hd : x.destination with
          | none => exact .inr rfl
          | some d => cases d <;> simp_all
    have releases (h : x.state = .waitRelease ∨ x.state = .releasePending ∨ x.state = .stuck) :
        sampleLine l (inactiveLevel x) s = t := (sampleLine_releases h hr).trans ends
    have expires {st : LineState} (hst : x.state = st)
        (h : st = .waitRelease ∨ st = .releasePending ∨ st = .stuck) :
        occur (fun t => completeRun st l (inactiveLevel (t.line l)) t) s = .next (drivePins (conclude t)) := by
      rw [occur_next hs, completeRun_of hst hr, releases (by rw [hst]; exact h)]
    refine ⟨fun h => expires h (.inl rfl), fun h => expires h (.inr (.inl rfl)),
      fun h => expires h (.inr (.inr rfl)), fun h => ?_⟩
    exact (exec_lineSample hs l _).trans (by rw [show Level.other x.activeLevel = inactiveLevel x from rfl, releases h])
  · intro x active down goesTo
    have goes {z : Line} (hx : sticks x v = true)
        (h : sampleLine l v s = raiseAlert (tableTrigger .buttonStuck x.exhibit (some l.val)) (s.putLine l z)) :
        goesTo z := (exec_lineStuck hs hx).trans (by rw [h]; rfl)
    have pressed (h : x.state = .pressed) : sticks x v = true := (sticks_iff x v).2 ⟨hstuck, .inl h⟩
    have releasing (h : x.state = .releasePending) (hv : active ∨ ¬ runCompletes x = true) : sticks x v = true :=
      (sticks_iff x v).2 ⟨hstuck, .inr ⟨h, hv⟩⟩
    refine ⟨fun h ha => ?_, fun h ha => ?_, fun h ha hr => ?_⟩
    · rcases h with h | h
      · exact goes (pressed h) ((sampleLine_active ha).trans ((activeSample_pressed (x := x.sampled v) h).trans
          (stuckTest_sticks hstuck (if_neg (by rw [show (x.sampled v).state = .pressed from h]; decide)))))
      · exact goes (releasing h (.inl ha)) ((sampleLine_active ha).trans
          ((activeSample_releasePending (x := x.sampled v) h).trans (stuckTest_sticks hstuck rfl)))
    · exact goes (pressed h) ((sampleLine_inactive ha).trans
        ((inactiveSample_pressed (x := x.sampled v) h).trans (stuckTest_sticks hstuck rfl)))
    · have hshort : ¬ runCompletes x = true := fun hc => absurd ((runCompletes_iff x).1 hc) (Nat.not_le.2 hr)
      exact goes (releasing h (.inr hshort)) ((sampleLine_inactive ha).trans
        ((inactiveSample_releasePending_short (x := x.sampled v) h hshort).trans
          (stuckTest_sticks hstuck (if_pos h))))

end Sys2Proof.Machine
end

section
/-! PROOFS. Full reset and its release (O16). -/

namespace Sys2Proof.Machine

/-- In full reset only the resets and the samples of the lines act: every other arm of `exec` is an event under
`occur`, which leaves the state as it is (R24, R210). -/
theorem exec_inReset {c : Instr} {s : State} (h : s.inReset = true) (hf : c ≠ .fullReset) (hr : c ≠ .resetRelease)
    (hl : ∀ l v, c ≠ .lineSample l v) : exec c s = .next s := by
  cases c
  case fullReset => exact absurd rfl hf
  case resetRelease => exact absurd rfl hr
  case lineSample l v => exact absurd rfl (hl l v)
  all_goals exact congrArg Host.Outcome.next (if_pos h)

theorem fullResetHub_line (s : State) (l : LineId) : (fullResetHub s).line l = (s.line l).full :=
  get_mapTable s.lines l _

/-- Settles O16: the part in full reset is written out, and the arms of `exec` are events that it ignores. -/
theorem fullResetHoldsThePart : Obligations.FullResetHoldsThePart :=
  ⟨fun s => ⟨fullResetHub s, rfl, rfl, rfl, rfl, fullResetHub_line s, rfl⟩,
    fun _ _ => exec_inReset,
    fun _ _ _ h => if_pos h,
    fun _ h => congrArg Host.Outcome.next (if_pos h),
    fun s h => congrArg Host.Outcome.next (if_neg (by simp [h]))⟩

end Sys2Proof.Machine
end

section
/-! SUPPORT. The readers of a payload's fields, each as a test and a value (R200, R206). -/

namespace Sys2Proof.Machine

/-! ## Numbers within their ranges -/

section
variable {p : List Byte} {i n : Nat} {b : Byte}

theorem byteIn_eq (lo hi : Nat) (h : byteAt p i = n) :
    byteIn lo hi p i = if lo ≤ n ∧ n ≤ hi then some n else none := by
  unfold byteIn
  rw [h]

theorem wordIn_eq (lo hi : Nat) (h : wordAt p i = n) :
    wordIn lo hi p i = if lo ≤ n ∧ n ≤ hi then some n else none := by
  unfold wordIn
  rw [h]

theorem indexAt_of {n : Nat} {j : Fin n} (h : byteAt p i = j.val) : indexAt n p i = some j := by
  unfold indexAt
  rw [dif_pos (by rw [h]; exact j.isLt)]
  exact congrArg some (Fin.ext h)

theorem indexAt_none {n : Nat} (h : n ≤ byteAt p i) : indexAt n p i = none := dif_neg (Nat.not_lt.2 h)

/-! ## Codes -/

theorem byte_toNat_eq_zero (b : Byte) : b.toNat = 0 ↔ b = 0 := by rw [BitVec.toNat_eq]; rfl

theorem byte_toNat_eq_one (b : Byte) : b.toNat = 1 ↔ b = 1 := by rw [BitVec.toNat_eq]; rfl

/-- A byte is one of two codes or outside them. -/
theorem byte_cases (b : Byte) : b = 0 ∨ b = 1 ∨ 1 < b.toNat := by
  rw [← byte_toNat_eq_zero, ← byte_toNat_eq_one]
  omega

/-- The value of a code of two, none outside them. -/
def ofTwoCodes {α : Type} (x y : α) : Nat → Option α
  | 0 => some x
  | 1 => some y
  | _ => none

theorem ofTwoCodes_none {α : Type} (x y : α) {n : Nat} (h : 1 < n) : ofTwoCodes x y n = none := by
  obtain ⟨k, rfl⟩ := Nat.exists_eq_add_of_le' h
  rfl

theorem ofTwoCodes_eq {α : Type} (x y : α) (b : Byte) :
    ofTwoCodes x y b.toNat = if b.toNat ≤ 1 then some (if b = 0 then x else y) else none := by
  rcases byte_cases b with rfl | rfl | hb
  · rfl
  · rfl
  · rw [ofTwoCodes_none x y hb, if_neg (by omega)]

theorem levelAt_eq (h : byteAt p i = b.toNat) :
    levelAt p i = if b.toNat ≤ 1 then some (if b = 0 then .low else .high) else none := by
  rw [← ofTwoCodes_eq, ← h]
  rfl

theorem policyAt_eq (h : byteAt p i = b.toNat) :
    policyAt p i = if b.toNat ≤ 1 then some (if b = 0 then .deliver else .swallowWhileRunning) else none := by
  rw [← ofTwoCodes_eq, ← h]
  rfl

theorem envelopeAt_eq (h : byteAt p i = b.toNat) :
    envelopeAt p i = if b.toNat ≤ 1 then some (if b = 0 then .flat else .decay) else none := by
  rw [← ofTwoCodes_eq, ← h]
  rfl

theorem flagAt_eq (h : byteAt p i = b.toNat) :
    flagAt p i = if b.toNat ≤ 1 then some (decide (b = 1)) else none := by
  have hf : flagAt p i = ofTwoCodes false true (byteAt p i) := rfl
  rw [hf, h]
  rcases byte_cases b with rfl | rfl | hb
  · rfl
  · rfl
  · rw [ofTwoCodes_none _ _ hb, if_neg (by omega)]

theorem channelRoleAt_of {r : ChannelRole} (h : byteAt p i = r.code) : channelRoleAt p i = some r := by
  unfold channelRoleAt
  rw [h]
  cases r <;> rfl

theorem dayModeAt_of {m : DayMode} (h : byteAt p i = m.code) : dayModeAt p i = some m := by
  unfold dayModeAt
  rw [h]
  cases m <;> rfl

theorem roleAt_none (h : 1 < byteAt p i) : roleAt p i = none := ofTwoCodes_none LineRole.action LineRole.help h

theorem channelRoleAt_none (h : 5 < byteAt p i) : channelRoleAt p i = none := by
  obtain ⟨k, hk⟩ := Nat.exists_eq_add_of_le' h
  unfold channelRoleAt
  rw [hk]
  rfl

theorem dayModeAt_none (h : 2 < byteAt p i) : dayModeAt p i = none := by
  obtain ⟨k, hk⟩ := Nat.exists_eq_add_of_le' h
  unfold dayModeAt
  rw [hk]
  rfl

/-! ## Optional fields -/

section
variable {α : Type} {read : List Byte → Nat → Option α}

theorem optAt_absent (h : byteAt p i = 0) : optAt read p i = some none := by
  unfold optAt
  rw [h]
  rfl

theorem optAt_present (h : byteAt p i = 1) : optAt read p i = (read p (i + 1)).map some := by
  unfold optAt
  rw [h]
  rfl

theorem optAt_none (h : 1 < byteAt p i) : optAt read p i = none := by
  obtain ⟨k, hk⟩ := Nat.exists_eq_add_of_le' h
  unfold optAt
  rw [hk]
  rfl

end

/-- An optional index is two bytes that read back (R200). -/
theorem optIndex_reads {n : Nat} (hn : n ≤ 256) (o : Option (Fin n)) :
    ∃ a b : Byte, optIndex o = [a, b] ∧
      ∀ p i, byteAt p i = a.toNat → byteAt p (i + 1) = b.toNat → optAt (indexAt n) p i = some o := by
  cases o with
  | none => exact ⟨0, 0, rfl, fun p i ha _ => optAt_absent ha⟩
  | some j =>
    refine ⟨1, BitVec.ofNat 8 j.val, rfl, fun p i ha hb => ?_⟩
    rw [optAt_present ha, indexAt_of (hb.trans (byte_of_index hn j))]
    rfl

/-! ## Bindings (R206) -/

theorem bindingAt_absent (role : ChannelRole) (h : byteAt p i = 0) : bindingAt role p i = some none := by
  unfold bindingAt
  cases role <;> exact optAt_absent h

theorem bindingAt_axis {role : ChannelRole} {a : AxisId} (hr : role = .position ∨ role = .current)
    (h : byteAt p i = 1) (ha : byteAt p (i + 1) = a.val) : bindingAt role p i = some (some (.axis a)) := by
  have hx : (axisAt p (i + 1)).map Binding.axis = some (.axis a) := congrArg (Option.map _) (indexAt_of ha)
  unfold bindingAt
  rcases hr with rfl | rfl <;> exact (optAt_present h).trans (congrArg (Option.map some) hx)

theorem bindingAt_exhibit {e : ExhibitId} (h : byteAt p i = 1) (he : byteAt p (i + 1) = e.val) :
    bindingAt .presence p i = some (some (.exhibit e)) := by
  have hx : (exhibitAt p (i + 1)).map Binding.exhibit = some (.exhibit e) :=
    congrArg (Option.map _) (indexAt_of he)
  unfold bindingAt
  exact (optAt_present h).trans (congrArg (Option.map some) hx)

/-! ## Chains of tests -/

/-- A field that passes its test is handed on. -/
theorem bind_test {α β : Type} {c : Prop} [Decidable c] (x : α) (f : α → Option β) :
    ((if c then some x else none) >>= f) = if c then f x else none := by
  split <;> rfl

end

end Sys2Proof.Machine
end

section
/-! SUPPORT. What the configuration commands answer: the record written, or a refusal (R206). -/

namespace Sys2Proof.Machine

/-! ## An item of configuration -/

/-- A command whose body writes a record or refuses it, by one test, is answered by that test. -/
theorem answers_item {c : Command} {port : Port} {p : List Byte} {s t : State} {ok : Prop} [Decidable ok]
    (hp : p.length ≤ 200) (hl : c.lengthOk p = true)
    (hb : c.body port p s = if ok then accept [] t else refuse .badValue s) (h : Admitted c port s) :
    (ok → Answers c port p s .ok [] t) ∧ (¬ ok → Answers c port p s .badValue [] s) :=
  ⟨fun ho => answers_body h hp hl (hb.trans (if_pos ho)), fun ho => answers_body h hp hl (hb.trans (if_neg ho))⟩

/-! ## Exhibits and lines -/

theorem configExhibitBody_eq {port : Port} {p : List Byte} {s : State} {e : ExhibitId} {policy flag : Byte}
    (he : byteAt p 0 = e.val) (hp : byteAt p 1 = policy.toNat) (hf : byteAt p 2 = flag.toNat) :
    Command.body .configExhibit port p s = if policy.toNat ≤ 1 ∧ flag.toNat ≤ 1 then
        accept [] (s.modExhibit e fun x => { x with
          busyPolicy := if policy = 0 then .deliver else .swallowWhileRunning, openWithGallery := flag = 1 })
      else refuse .badValue s := by
  have hx : exhibitAt p 0 = some e := indexAt_of he
  show configExhibitBody port p s = _
  unfold configExhibitBody onExhibit
  simp only [hx, policyAt_eq hp, flagAt_eq hf]
  by_cases h1 : policy.toNat ≤ 1
  · by_cases h2 : flag.toNat ≤ 1
    · simp only [h1, h2, and_self, if_true]
    · simp only [h1, h2, and_false, if_true, if_false]
  · simp only [h1, false_and, if_false]

theorem configuredLine_eq {p : List Byte} {e : Option ExhibitId} {role : Option LineRole}
    {level debounce stuck : Byte} {guard : Nat} (he : optAt exhibitAt p 1 = some e)
    (hr : optAt roleAt p 3 = some role) (hl : byteAt p 5 = level.toNat) (hd : byteAt p 6 = debounce.toNat)
    (hg : wordAt p 7 = guard) (hs : byteAt p 9 = stuck.toNat) (x : Line) :
    configuredLine p x = if level.toNat ≤ 1 ∧ 5 ≤ debounce.toNat ∧ debounce.toNat ≤ 100 ∧ guard ≤ 5000 ∧
        5 ≤ stuck.toNat ∧ stuck.toNat ≤ 120 then
      some { x with
        exhibit := e, role := role, activeLevel := if level = 0 then .low else .high
        debounce := debounce.toNat, repeatGuard := guard, stuckTime := stuck.toNat } else none := by
  unfold configuredLine
  rw [he, hr, levelAt_eq hl, byteIn_eq _ _ hd, wordIn_eq _ _ hg, byteIn_eq _ _ hs]
  simp only [Option.bind_eq_bind, Option.bind_some, bind_test, ← ite_and, and_assoc, Nat.zero_le, true_and,
    Option.pure_def]

theorem configLineBody_eq {port : Port} {p : List Byte} {s : State} {l : LineId} {ok : Prop} [Decidable ok]
    {f : Line → Line} (hl : byteAt p 0 = l.val)
    (h : configuredLine p (s.line l) = if ok then some (f (s.line l)) else none) :
    Command.body .configLine port p s = if ok then accept [] (s.modLine l f) else refuse .badValue s := by
  have hx : lineAt p 0 = some l := indexAt_of hl
  show configLineBody port p s = _
  unfold configLineBody onLine
  rw [hx]
  dsimp only
  rw [h, modLine_congr s l f (fun _ => f (s.line l)) rfl]
  by_cases ho : ok
  · rw [if_pos ho, if_pos ho]
  · rw [if_neg ho, if_neg ho]

theorem configLineBody_none {port : Port} {p : List Byte} {s : State} {l : LineId} (hl : byteAt p 0 = l.val)
    (h : configuredLine p (s.line l) = none) :
    Command.body .configLine port p s = refuse .badValue s :=
  (configLineBody_eq (ok := False) (f := id) hl (h.trans (if_neg id).symm)).trans (if_neg id)

/-! ## Axes and channels -/

theorem configuredAxis_eq {p : List Byte} {e : Option ExhibitId} {flag tolerance speed cost : Byte}
    {targetMin targetMax accel travel settle feedback : Nat} (hf : byteAt p 1 = flag.toNat)
    (he : optAt exhibitAt p 2 = some e) (hmin : wordAt p 4 = targetMin) (hmax : wordAt p 6 = targetMax)
    (htol : byteAt p 8 = tolerance.toNat) (hsp : byteAt p 9 = speed.toNat) (hc : byteAt p 10 = cost.toNat)
    (hac : wordAt p 11 = accel) (htr : wordAt p 13 = travel) (hse : wordAt p 15 = settle)
    (hfe : wordAt p 17 = feedback) (x : Axis) :
    configuredAxis p x = if flag.toNat ≤ 1 ∧ targetMin ≤ 4095 ∧ targetMax ≤ 4095 ∧ 2 ≤ tolerance.toNat ∧
        tolerance.toNat ≤ 200 ∧ 1 ≤ speed.toNat ∧ speed.toNat ≤ 8 ∧ 1 ≤ cost.toNat ∧ cost.toNat ≤ 4 ∧
        20 ≤ accel ∧ accel ≤ 2000 ∧ 500 ≤ travel ∧ travel ≤ 60000 ∧ 10 ≤ settle ∧ settle ≤ 2000 ∧
        20 ≤ feedback ∧ feedback ≤ 500 then
      some { x with
        configured := flag = 1, exhibit := e, targetMin := targetMin, targetMax := targetMax
        tolerance := tolerance.toNat, defaultSpeed := speed.toNat, startCost := cost.toNat, accelTime := accel
        travelLimit := travel, settleTime := settle, feedbackTimeout := feedback } else none := by
  unfold configuredAxis
  rw [flagAt_eq hf, he, wordIn_eq _ _ hmin, wordIn_eq _ _ hmax, byteIn_eq _ _ htol, byteIn_eq _ _ hsp,
    byteIn_eq _ _ hc, wordIn_eq _ _ hac, wordIn_eq _ _ htr, wordIn_eq _ _ hse, wordIn_eq _ _ hfe]
  simp only [Option.bind_eq_bind, Option.bind_some, bind_test, ← ite_and, and_assoc, Nat.zero_le, true_and,
    Option.pure_def]

theorem configAxisBody_eq {port : Port} {p : List Byte} {s : State} {a : AxisId} {ok : Prop} [Decidable ok]
    {f : Axis → Axis} (ha : byteAt p 0 = a.val)
    (h : configuredAxis p (s.axis a) = if ok then some (f (s.axis a)) else none) :
    Command.body .configAxis port p s = if ok then accept [] (s.modAxis a f) else refuse .badValue s := by
  have hx : axisAt p 0 = some a := indexAt_of ha
  show configAxisBody port p s = _
  unfold configAxisBody onAxis
  rw [hx]
  dsimp only
  rw [h, modAxis_congr s a f (fun _ => f (s.axis a)) rfl]
  by_cases ho : ok
  · rw [if_pos ho, if_pos ho]
  · rw [if_neg ho, if_neg ho]

theorem configAxisBody_none {port : Port} {p : List Byte} {s : State} {a : AxisId} (ha : byteAt p 0 = a.val)
    (h : configuredAxis p (s.axis a) = none) :
    Command.body .configAxis port p s = refuse .badValue s :=
  (configAxisBody_eq (ok := False) (f := id) ha (h.trans (if_neg id).symm)).trans (if_neg id)

theorem configuredChannel_eq {p : List Byte} {role : ChannelRole} {b : Option Binding} {count : Byte}
    {lower upper : Nat} (hr : channelRoleAt p 1 = some role) (hb : bindingAt role p 2 = some b)
    (hlo : wordAt p 4 = lower) (hup : wordAt p 6 = upper) (hc : byteAt p 8 = count.toNat) (x : Channel) :
    configuredChannel p x = if lower ≤ upper ∧ upper ≤ 4095 ∧ 1 ≤ count.toNat ∧ count.toNat ≤ 8 then
      some { x with role := role, binding := b, lower := lower, upper := upper, filterCount := count.toNat }
      else none := by
  unfold configuredChannel
  rw [hr, Option.bind_eq_bind, Option.bind_some, hb, Option.bind_eq_bind, Option.bind_some]
  simp only [wordIn_eq _ _ hlo, wordIn_eq _ _ hup, byteIn_eq _ _ hc, bind_test, ← ite_and, and_assoc,
    Nat.zero_le, true_and, Option.pure_def]
  exact if_congr ⟨fun h => h.2, fun h => ⟨h.1.trans h.2.1, h⟩⟩ rfl rfl

theorem configChannelBody_eq {port : Port} {p : List Byte} {s : State} {c : ChannelId} {ok : Prop} [Decidable ok]
    {f : Channel → Channel} (hc : byteAt p 0 = c.val)
    (h : configuredChannel p (s.channel c) = if ok then some (f (s.channel c)) else none) :
    Command.body .configChannel port p s = if ok then accept [] (s.modChannel c f) else refuse .badValue s := by
  have hx : channelAt p 0 = some c := indexAt_of hc
  show configChannelBody port p s = _
  unfold configChannelBody
  rw [hx]
  dsimp only
  rw [h, modChannel_congr s c f (fun _ => f (s.channel c)) rfl]
  by_cases ho : ok
  · rw [if_pos ho, if_pos ho]
  · rw [if_neg ho, if_neg ho]

theorem configChannelBody_none {port : Port} {p : List Byte} {s : State} {c : ChannelId} (hc : byteAt p 0 = c.val)
    (h : configuredChannel p (s.channel c) = none) :
    Command.body .configChannel port p s = refuse .badValue s :=
  (configChannelBody_eq (ok := False) (f := id) hc (h.trans (if_neg id).symm)).trans (if_neg id)

/-! ## Tone patterns -/

theorem tonePatternAt_eq {p : List Byte} {pitch envelope repeats : Byte} {on off : Nat}
    (hp : byteAt p 1 = pitch.toNat) (hon : wordAt p 2 = on) (hoff : wordAt p 4 = off)
    (he : byteAt p 6 = envelope.toNat) (hr : byteAt p 7 = repeats.toNat) :
    tonePatternAt p = if pitch.toNat ≤ 7 ∧ 20 ≤ on ∧ on ≤ 2000 ∧ off ≤ 2000 ∧ envelope.toNat ≤ 1 ∧
        repeats.toNat ≤ 15 then
      some ⟨⟨pitch.toNat % 8, Nat.mod_lt _ (by decide)⟩, on, off,
        if envelope = 0 then .flat else .decay, repeats.toNat⟩ else none := by
  have hi : indexAt 8 p 1
      = if pitch.toNat ≤ 7 then some ⟨pitch.toNat % 8, Nat.mod_lt _ (by decide)⟩ else none := by
    split
    · exact indexAt_of (hp.trans (Nat.mod_eq_of_lt (by omega)).symm)
    · exact indexAt_none (by omega)
  unfold tonePatternAt
  rw [hi, wordIn_eq _ _ hon, wordIn_eq _ _ hoff, envelopeAt_eq he, byteIn_eq _ _ hr]
  simp only [bind_test, ← ite_and, and_assoc, Nat.zero_le, true_and, Option.pure_def]

theorem configToneBody_eq {port : Port} {p : List Byte} {s : State} {q : PatternId} {ok : Prop} [Decidable ok]
    {x : TonePattern} (hq : byteAt p 0 = q.val) (h : tonePatternAt p = if ok then some x else none) :
    Command.body .configTone port p s = if ok then
        accept [] (s.modAnnunciators fun y => { y with patterns := modTable y.patterns q fun _ => x })
      else refuse .badValue s := by
  have hx : patternAt p 0 = some q := indexAt_of hq
  show configToneBody port p s = _
  unfold configToneBody
  rw [hx]
  dsimp only
  rw [h]
  by_cases ho : ok
  · rw [if_pos ho, if_pos ho]
  · rw [if_neg ho, if_neg ho]

/-! ## Timing -/

theorem levelTimesAt_eq {p : List Byte} {i x y z : Nat} (hx : wordAt p i = x) (hy : wordAt p (i + 2) = y)
    (hz : wordAt p (i + 4) = z) :
    levelTimesAt p i = if x ≤ 3600 ∧ y ≤ 3600 ∧ z ≤ 3600 then some ⟨x, y, z⟩ else none := by
  unfold levelTimesAt
  rw [wordIn_eq _ _ hx, wordIn_eq _ _ hy, wordIn_eq _ _ hz]
  simp only [bind_test, ← ite_and, Nat.zero_le, true_and, Option.pure_def]

/-- Every time of a timing record is within its range (R206). -/
def Timing.InRange (t : Timing) : Prop :=
  (250 ≤ t.showHeartbeat ∧ t.showHeartbeat ≤ 10000) ∧ (250 ≤ t.deskHeartbeat ∧ t.deskHeartbeat ≤ 10000) ∧
  t.guardReleaseDelay ≤ 10000 ∧ (5 ≤ t.guardAlertTime ∧ t.guardAlertTime ≤ 300) ∧
  (50 ≤ t.sagHoldTime ∧ t.sagHoldTime ≤ 5000) ∧ (10 ≤ t.silenceTime ∧ t.silenceTime ≤ 600) ∧
  (10 ≤ t.serviceIdleTime ∧ t.serviceIdleTime ≤ 600) ∧
  t.urgentTimes.level1 ≤ 3600 ∧ t.urgentTimes.level2 ≤ 3600 ∧ t.urgentTimes.level3 ≤ 3600 ∧
  t.attentionTimes.level1 ≤ 3600 ∧ t.attentionTimes.level2 ≤ 3600 ∧ t.attentionTimes.level3 ≤ 3600 ∧
  1 ≤ t.startBudget ∧ t.startBudget ≤ 15 ∧ (2 ≤ t.paceInterval ∧ t.paceInterval ≤ 1000) ∧
  (100 ≤ t.closedPace ∧ t.closedPace ≤ 10000)

theorem timingAt_eq {p : List Byte} {t : Timing} [Decidable t.InRange] (hsh : wordAt p 0 = t.showHeartbeat)
    (hde : wordAt p 2 = t.deskHeartbeat) (hgr : wordAt p 4 = t.guardReleaseDelay)
    (hga : wordAt p 6 = t.guardAlertTime) (hsag : wordAt p 8 = t.sagHoldTime) (hsi : wordAt p 10 = t.silenceTime)
    (hid : wordAt p 12 = t.serviceIdleTime) (hu1 : wordAt p 14 = t.urgentTimes.level1)
    (hu2 : wordAt p 16 = t.urgentTimes.level2) (hu3 : wordAt p 18 = t.urgentTimes.level3)
    (ha1 : wordAt p 20 = t.attentionTimes.level1) (ha2 : wordAt p 22 = t.attentionTimes.level2)
    (ha3 : wordAt p 24 = t.attentionTimes.level3) (hb : byteAt p 26 = t.startBudget)
    (hpa : wordAt p 27 = t.paceInterval) (hcl : wordAt p 29 = t.closedPace) :
    timingAt p = if t.InRange then some t else none := by
  unfold timingAt
  rw [wordIn_eq _ _ hsh, wordIn_eq _ _ hde, wordIn_eq _ _ hgr, wordIn_eq _ _ hga, wordIn_eq _ _ hsag,
    wordIn_eq _ _ hsi, wordIn_eq _ _ hid, levelTimesAt_eq hu1 hu2 hu3, levelTimesAt_eq ha1 ha2 ha3,
    byteIn_eq _ _ hb, wordIn_eq _ _ hpa, wordIn_eq _ _ hcl]
  simp only [bind_test, ← ite_and, Option.pure_def]
  refine if_congr ?_ rfl rfl
  simp only [Timing.InRange, and_assoc, Nat.zero_le, true_and]

theorem configTimingBody_eq {port : Port} {p : List Byte} {s : State} {ok : Prop} [Decidable ok] {t : Timing}
    (h : timingAt p = if ok then some t else none) :
    Command.body .configTiming port p s = if ok then accept [] (setTiming t s) else refuse .badValue s := by
  show configTimingBody port p s = _
  unfold configTimingBody
  rw [h]
  by_cases ho : ok
  · rw [if_pos ho, if_pos ho]
  · rw [if_neg ho, if_neg ho]

theorem configTiming_answers {port : Port} {p : List Byte} {s : State} {t : Timing}
    (h : Admitted .configTiming port s) (hp : p.length = 31)
    (ht : ∀ [Decidable t.InRange], timingAt p = if t.InRange then some t else none) :
    (t.InRange → Answers .configTiming port p s .ok [] (setTiming t s)) ∧
      (¬ t.InRange → Answers .configTiming port p s .badValue [] s) := by
  classical exact answers_item (by omega) (decide_eq_true hp) (configTimingBody_eq ht) h

theorem sameLevels_iff (x y : Timing) :
    sameLevels x y = true ↔ y.urgentTimes = x.urgentTimes ∧ y.attentionTimes = x.attentionTimes := by
  unfold sameLevels
  rw [Bool.and_eq_true, decide_eq_true_iff, decide_eq_true_iff, eq_comm, eq_comm (a := x.attentionTimes)]

/-- The review of the levels is not in the timing record (R206). -/
theorem setTiming_timing (t : Timing) (s : State) : (setTiming t s).timing = t := by
  have review (u : State) : (reviewLevels u).sansAlerts = u.sansAlerts :=
    forList_keeps State.sansAlerts (fun r u => by
      split
      · exact climbElapsed_sansAlerts r.number u
      · rfl) _ u
  unfold setTiming
  split
  · rfl
  · exact (congrArg State.timing ((reevaluateTone_sansAlerts _).trans (review { s with timing := t })) :)

/-! ## The scan list -/

/-- The bytes of a scan list entry (R62). -/
def entryBytes (x : ScanEntry) : List Byte := [BitVec.ofNat 8 x.channel.val, if x.keepWhenClosed then 1 else 0]

theorem byteAt_append (l r : List Byte) (i : Nat) : byteAt (l ++ r) (l.length + i) = byteAt r i := by
  unfold byteAt
  rw [List.getD_append_right _ _ _ _ (by omega), Nat.add_sub_cancel_left]

/-- An entry whose bytes stand at an offset reads back. -/
theorem scanEntryAt_of {p : List Byte} {i : Nat} {x : ScanEntry}
    (hc : byteAt p i = (BitVec.ofNat 8 x.channel.val).toNat)
    (hk : byteAt p (i + 1) = (if x.keepWhenClosed then 1 else 0 : Byte).toNat) : scanEntryAt p i = some x := by
  have hchannel : channelAt p i = some x.channel := indexAt_of (hc.trans (byte_of_index (by decide) _))
  have hflag : flagAt p (i + 1) = some x.keepWhenClosed := by
    rw [flagAt_eq hk]
    cases x.keepWhenClosed <;> rfl
  unfold scanEntryAt
  rw [hchannel, hflag]

/-- An entry with a channel above 31 or a flag outside its codes reads as none (R72). -/
theorem scanEntryAt_none {p : List Byte} {i : Nat} (h : 31 < byteAt p i ∨ 1 < byteAt p (i + 1)) :
    scanEntryAt p i = none := by
  unfold scanEntryAt
  rcases h with h | h
  · rw [show channelAt p i = none from indexAt_none h]
  · rw [show flagAt p (i + 1) = none from ofTwoCodes_none false true h]
    cases channelAt p i <;> rfl

theorem scanEntriesFrom_succ {p : List Byte} {i : Nat} {x : ScanEntry} (h : scanEntryAt p i = some x)
    (n index : Nat) :
    scanEntriesFrom p (n + 1) i index = (scanEntriesFrom p n (i + 2) (index + 1)).map (x :: ·) := by
  rw [scanEntriesFrom, h]
  dsimp only
  cases scanEntriesFrom p n (i + 2) (index + 1) <;> rfl

/-- The first bad entry is answered with its number, whatever follows it. -/
theorem scanEntriesFrom_bad {p : List Byte} {i : Nat} (h : scanEntryAt p i = none) (n index : Nat) :
    scanEntriesFrom p (n + 1) i index = .error index := by
  rw [scanEntriesFrom, h]

/-- The entries that stand at an offset are read before what follows them. -/
theorem scanEntriesFrom_entries (list : List ScanEntry) (head tail : List Byte) (n index : Nat) :
    scanEntriesFrom (head ++ (list.flatMap entryBytes ++ tail)) (list.length + n) head.length index
      = (scanEntriesFrom (head ++ (list.flatMap entryBytes ++ tail)) n (head.length + 2 * list.length)
          (index + list.length)).map (list ++ ·) := by
  induction list generalizing head index with
  | nil =>
    simp only [List.length_nil, Nat.zero_add, Nat.mul_zero, Nat.add_zero, List.nil_append]
    cases scanEntriesFrom _ n head.length index <;> rfl
  | cons x list ih =>
    have hp : head ++ ((x :: list).flatMap entryBytes ++ tail)
        = (head ++ entryBytes x) ++ (list.flatMap entryBytes ++ tail) := by simp
    have hx : scanEntryAt (head ++ ((x :: list).flatMap entryBytes ++ tail)) head.length = some x :=
      scanEntryAt_of (byteAt_append head _ 0) (byteAt_append head _ 1)
    have hrest := ih (head ++ entryBytes x) (index + 1)
    rw [← hp, show (head ++ entryBytes x).length = head.length + 2 by simp [entryBytes],
      show head.length + 2 + 2 * list.length = head.length + 2 * (x :: list).length by simp; omega,
      show index + 1 + list.length = index + (x :: list).length by simp; omega] at hrest
    rw [show (x :: list).length + n = (list.length + n) + 1 by simp; omega, scanEntriesFrom_succ hx, hrest]
    cases scanEntriesFrom _ n _ _ <;> rfl

theorem length_entries (list : List ScanEntry) : (list.flatMap entryBytes).length = 2 * list.length := by
  induction list with
  | nil => rfl
  | cons x list ih => rw [List.flatMap_cons, List.length_append, ih, List.length_cons]; simp [entryBytes]; omega

/-- A whole scan list reads back. -/
theorem scanEntriesFrom_whole (list : List ScanEntry) (head : List Byte) :
    scanEntriesFrom (head ++ list.flatMap entryBytes) list.length head.length 0 = .ok list := by
  have h := scanEntriesFrom_entries list head [] 0 0
  rw [List.append_nil, Nat.add_zero] at h
  rw [h]
  exact congrArg Except.ok (List.append_nil list)

/-- A list with a bad entry is answered with the number of the first. -/
theorem scanEntriesFrom_firstBad {before : List ScanEntry} {b flag : Byte} (h : 31 < b.toNat ∨ 1 < flag.toNat)
    (head after : List Byte) {count : Nat} (hc : before.length < count) :
    scanEntriesFrom (head ++ (before.flatMap entryBytes ++ b :: flag :: after)) count head.length 0
      = .error before.length := by
  obtain ⟨n, rfl⟩ := Nat.exists_eq_add_of_lt hc
  have hlen : (head ++ before.flatMap entryBytes).length = head.length + 2 * before.length := by
    rw [List.length_append, length_entries]
  have hread (k : Nat) : byteAt (head ++ (before.flatMap entryBytes ++ b :: flag :: after))
      (head.length + 2 * before.length + k) = byteAt (b :: flag :: after) k := by
    rw [← List.append_assoc, ← hlen]
    exact byteAt_append _ _ k
  have hbad : scanEntryAt (head ++ (before.flatMap entryBytes ++ b :: flag :: after))
      (head.length + 2 * before.length) = none := scanEntryAt_none (by
    rw [hread 1, show head.length + 2 * before.length = head.length + 2 * before.length + 0 from rfl, hread 0]
    exact h)
  rw [show before.length + n + 1 = before.length + (n + 1) from rfl, scanEntriesFrom_entries,
    scanEntriesFrom_bad hbad, Nat.zero_add]
  rfl

/-- A CONFIG-SCAN whose day mode is none is refused first (log 27). -/
theorem configScanBody_noMode {port : Port} {p : List Byte} {s : State} (h : dayModeAt p 0 = none) :
    Command.body .configScan port p s = refuse .badValue s := by
  show configScanBody port p s = _
  unfold configScanBody
  rw [h]

/-- Then one with more than 40 entries. -/
theorem configScanBody_tooMany {port : Port} {p : List Byte} {s : State} (h : 40 < byteAt p 1) :
    Command.body .configScan port p s = refuse .badValue s := by
  show configScanBody port p s = _
  unfold configScanBody
  cases dayModeAt p 0 with
  | none => rfl
  | some mode => exact if_pos h

section
variable {port : Port} {p : List Byte} {s : State} {mode : DayMode} {count : Nat}
  (hm : dayModeAt p 0 = some mode) (hn : byteAt p 1 = count) (hc : count ≤ 40)
include hm hn hc

theorem configScanBody_bad {i : Nat} (h : scanEntriesFrom p count 2 0 = .error i) :
    Command.body .configScan port p s = refuseWith .badValue (num1 i) s := by
  show configScanBody port p s = _
  unfold configScanBody
  rw [hm, hn]
  dsimp only
  rw [if_neg (by omega), h]

theorem configScanBody_writes {list : List ScanEntry} (h : scanEntriesFrom p count 2 0 = .ok list) :
    Command.body .configScan port p s
      = accept [] (s.modScanner fun x => { x with dayMode := mode, scanList := list }) := by
  show configScanBody port p s = _
  unfold configScanBody
  rw [hm, hn]
  dsimp only
  rw [if_neg (by omega), h]

end

/-! ## Payloads outside their codes -/

theorem configuredLine_none {p : List Byte} (x : Line)
    (h : optAt exhibitAt p 1 = none ∨ optAt roleAt p 3 = none) : configuredLine p x = none := by
  unfold configuredLine
  rcases h with h | h
  · rw [h]; rfl
  · rw [h]; cases optAt exhibitAt p 1 <;> rfl

theorem configuredAxis_none {p : List Byte} (x : Axis) (h : optAt exhibitAt p 2 = none) :
    configuredAxis p x = none := by
  unfold configuredAxis
  rw [h]
  cases flagAt p 1 <;> rfl

theorem configuredChannel_none {p : List Byte} (x : Channel)
    (h : ∀ role, channelRoleAt p 1 = some role → bindingAt role p 2 = none) : configuredChannel p x = none := by
  unfold configuredChannel
  cases hr : channelRoleAt p 1 with
  | none => rfl
  | some role =>
    show (bindingAt role p 2).bind _ = none
    rw [h role hr]
    rfl

/-- An optional exhibit outside its codes (R200). -/
theorem optExhibit_none {p : List Byte} {i : Nat}
    (h : 1 < byteAt p i ∨ byteAt p i = 1 ∧ 15 < byteAt p (i + 1)) : optAt exhibitAt p i = none := by
  rcases h with h | ⟨h1, h2⟩
  · exact optAt_none h
  · rw [optAt_present h1, show exhibitAt p (i + 1) = none from indexAt_none h2]
    rfl

/-- An optional line role outside its codes. -/
theorem optRole_none {p : List Byte} {i : Nat}
    (h : 1 < byteAt p i ∨ byteAt p i = 1 ∧ 1 < byteAt p (i + 1)) : optAt roleAt p i = none := by
  rcases h with h | ⟨h1, h2⟩
  · exact optAt_none h
  · rw [optAt_present h1, roleAt_none h2]
    rfl

/-- A binding that its role may not have, or that is none (R206). -/
theorem binding_none {p : List Byte} {i : Nat} {role : ChannelRole}
    (h : 1 < byteAt p i ∨ byteAt p i = 1 ∧ (role = .none ∨ role = .supply ∨ role = .general ∨
      ((role = .position ∨ role = .current) ∧ 11 < byteAt p (i + 1)) ∨
      (role = .presence ∧ 15 < byteAt p (i + 1)))) : bindingAt role p i = none := by
  unfold bindingAt
  rcases h with h | ⟨h1, h⟩
  · cases role <;> exact optAt_none h
  · rcases h with rfl | rfl | rfl | ⟨rfl | rfl, h⟩ | ⟨rfl, h⟩
    · exact optAt_present h1
    · exact optAt_present h1
    · exact optAt_present h1
    · exact (optAt_present h1).trans (by rw [show axisAt p (i + 1) = none from indexAt_none h]; rfl)
    · exact (optAt_present h1).trans (by rw [show axisAt p (i + 1) = none from indexAt_none h]; rfl)
    · exact (optAt_present h1).trans (by rw [show exhibitAt p (i + 1) = none from indexAt_none h]; rfl)

end Sys2Proof.Machine
end

section
/-! PROOFS. Configuration (O58). -/

namespace Sys2Proof.Machine

section
variable {port : Port} {s : State}

/-- The entries of a scan list after its day mode and count, in a CONFIG-SCAN (R206). -/
theorem configScan_payload (m n : Nat) (list : List ScanEntry) :
    num1 m ++ num1 n ++ (list.map fun x =>
        [BitVec.ofNat 8 x.channel.val, if x.keepWhenClosed then (1 : Byte) else 0]).flatten
      = [BitVec.ofNat 8 m, BitVec.ofNat 8 n] ++ list.flatMap entryBytes := by
  rw [List.flatMap_def]
  rfl

theorem configScan_badPayload (m : Nat) (count b flag : Byte) (list : List ScanEntry) (after : List Byte) :
    num1 m ++ [count] ++ (list.map fun x =>
        [BitVec.ofNat 8 x.channel.val, if x.keepWhenClosed then (1 : Byte) else 0]).flatten ++ [b, flag] ++ after
      = [BitVec.ofNat 8 m, count] ++ (list.flatMap entryBytes ++ b :: flag :: after) := by
  rw [List.flatMap_def, List.append_assoc, List.append_assoc]
  rfl

theorem dayModeAt_head (mode : DayMode) (l : List Byte) :
    dayModeAt (BitVec.ofNat 8 mode.code :: l) 0 = some mode := dayModeAt_of (by cases mode <;> rfl)

/-- A CONFIG-SCAN with at most 40 good entries is written. -/
theorem configScan_written (h : Admitted .configScan port s) (mode : DayMode) {list : List ScanEntry}
    (hlen : list.length ≤ 40) :
    Answers .configScan port ([BitVec.ofNat 8 mode.code, BitVec.ofNat 8 list.length] ++ list.flatMap entryBytes)
      s .ok [] (s.modScanner fun x => { x with dayMode := mode, scanList := list }) := by
  have hcount : (BitVec.ofNat 8 list.length).toNat = list.length := by simp; omega
  have hbytes := length_entries list
  refine answers_body h ?_ (decide_eq_true ?_) ?_
  · rw [List.length_append, hbytes]
    simp
    omega
  · rw [List.length_append, hbytes, List.cons_append, byteAt_cons_succ, List.cons_append, byteAt_cons_zero, hcount]
    rfl
  · refine configScanBody_writes ?_ ?_ hlen ?_
    · exact dayModeAt_head mode _
    · exact hcount
    · exact scanEntriesFrom_whole list [_, _]

/-- A CONFIG-SCAN with a bad entry is refused with the number of the first. -/
theorem configScan_firstBad (h : Admitted .configScan port s) (mode : DayMode) {before : List ScanEntry}
    {count b flag : Byte} {after : List Byte} (hbad : 31 < b.toNat ∨ 1 < flag.toNat) (hc : count.toNat ≤ 40)
    (hlt : before.length < count.toNat) (hafter : after.length = 2 * (count.toNat - before.length - 1)) :
    Answers .configScan port
      ([BitVec.ofNat 8 mode.code, count] ++ (before.flatMap entryBytes ++ b :: flag :: after))
      s .badValue (num1 before.length) s := by
  have hbytes := length_entries before
  refine answers_body h ?_ (decide_eq_true ?_) ?_
  · simp only [List.length_append, List.length_cons, List.length_nil, hbytes, hafter]
    omega
  · simp only [List.length_append, List.length_cons, List.length_nil, hbytes, hafter, List.cons_append,
      byteAt_cons_succ, byteAt_cons_zero]
    omega
  · refine configScanBody_bad (mode := mode) ?_ ?_ hc ?_
    · exact dayModeAt_head mode _
    · rfl
    · exact scanEntriesFrom_firstBad hbad [_, _] after hlt

/-- A CONFIG-SCAN with a bad day mode or count is refused, whatever its entries (log 27). -/
theorem configScan_refused (h : Admitted .configScan port s) {mode count : Byte} {rest : List Byte}
    (hrest : rest.length = 2 * count.toNat) (hlen : rest.length ≤ 198) (hb : 2 < mode.toNat ∨ 40 < count.toNat) :
    Answers .configScan port (mode :: count :: rest) s .badValue [] s := by
  refine answers_body h ?_ (decide_eq_true ?_) ?_
  · simp only [List.length_cons]
    omega
  · simp only [List.length_cons, byteAt_cons_succ, byteAt_cons_zero]
    omega
  · rcases hb with hb | hb
    · exact configScanBody_noMode (dayModeAt_none hb)
    · exact configScanBody_tooMany hb

/-- A CONFIG-LINE that is refused for its exhibit or its role. -/
theorem configLine_refused (h : Admitted .configLine port s) (l : LineId) {eb e rb r level debounce stuck : Byte}
    {guard : BitVec 16}
    (hb : 1 < eb.toNat ∨ (eb = 1 ∧ 15 < e.toNat) ∨ 1 < rb.toNat ∨ (rb = 1 ∧ 1 < r.toNat)) :
    Answers .configLine port (num1 l.val ++ [eb, e, rb, r, level, debounce] ++ num2 guard.toNat ++ [stuck]) s
      .badValue [] s := by
  rw [← byte_toNat_eq_one, ← byte_toNat_eq_one] at hb
  refine answers_body h (by simp) rfl (configLineBody_none (byte_of_index (by decide) l) (configuredLine_none _ ?_))
  rcases hb with hb | hb | hb | hb
  · exact .inl (optExhibit_none (.inl hb))
  · exact .inl (optExhibit_none (.inr hb))
  · exact .inr (optRole_none (.inl hb))
  · exact .inr (optRole_none (.inr hb))

/-- A CONFIG-AXIS that is refused for its exhibit. -/
theorem configAxis_refused (h : Admitted .configAxis port s) (a : AxisId) {flag eb e : Byte} {rest : List Byte}
    (hrest : rest.length = 15) (hb : 1 < eb.toNat ∨ (eb = 1 ∧ 15 < e.toNat)) :
    Answers .configAxis port (num1 a.val ++ [flag, eb, e] ++ rest) s .badValue [] s := by
  rw [← byte_toNat_eq_one] at hb
  have hlen : (num1 a.val ++ [flag, eb, e] ++ rest).length = 19 := by simp [hrest]
  exact answers_body h (by omega) (decide_eq_true hlen)
    (configAxisBody_none (byte_of_index (by decide) a) (configuredAxis_none _ (optExhibit_none hb)))

/-- A CONFIG-CHANNEL that is refused for its role or its binding. -/
theorem configChannel_refused (h : Admitted .configChannel port s) (c : ChannelId) {role bb b : Byte}
    {rest : List Byte} (hrest : rest.length = 5)
    (hb : 5 < role.toNat ∨ 1 < bb.toNat ∨ (bb = 1 ∧ (role = 0 ∨ role = 4 ∨ role = 5 ∨
      ((role = 1 ∨ role = 2) ∧ 11 < b.toNat) ∨ (role = 3 ∧ 15 < b.toNat)))) :
    Answers .configChannel port (num1 c.val ++ [role, bb, b] ++ rest) s .badValue [] s := by
  have hlen : (num1 c.val ++ [role, bb, b] ++ rest).length = 9 := by simp [hrest]
  refine answers_body h (by omega) (decide_eq_true hlen)
    (configChannelBody_none (byte_of_index (by decide) c) (configuredChannel_none _ fun r hr => ?_))
  rcases hb with hb | hb | ⟨hp, hb⟩
  · have hn : channelRoleAt (num1 c.val ++ [role, bb, b] ++ rest) 1 = none := channelRoleAt_none hb
    rw [hn] at hr
    cases hr
  · exact binding_none (.inl hb)
  · refine binding_none (.inr ⟨(byte_toNat_eq_one bb).2 hp, ?_⟩)
    have code : ∀ r' : ChannelRole, role = BitVec.ofNat 8 r'.code → r = r' := fun r' h' => by
      subst h'
      have := channelRoleAt_of (p := num1 c.val ++ [BitVec.ofNat 8 r'.code, bb, b] ++ rest) (i := 1) (r := r')
        (by cases r' <;> rfl)
      exact Option.some.inj (hr.symm.trans this)
    rcases hb with hb | hb | hb | ⟨hb | hb, hn⟩ | ⟨hb, hn⟩
    · exact .inl (code .none hb)
    · exact .inr (.inl (code .supply hb))
    · exact .inr (.inr (.inl (code .general hb)))
    · exact .inr (.inr (.inr (.inl ⟨.inl (code .position hb), hn⟩)))
    · exact .inr (.inr (.inr (.inl ⟨.inr (code .current hb), hn⟩)))
    · exact .inr (.inr (.inr (.inr ⟨code .presence hb, hn⟩)))

end

/-- Settles O58: each body reads its fields as tests, in the order of the payload, and writes the record or refuses; a
scan list is read entry by entry, and the review of the levels is a loop over the list order. -/
theorem configurationIsWritten : Obligations.ConfigurationIsWritten := by
  intro port s index item
  have hindex {n : Nat} (o : Option (Fin n)) : index o = optIndex o := by cases o <;> rfl
  refine ⟨fun e policy flag had => ?_, fun l e role level debounce stuck guard had => ?_,
    fun a e flag tolerance speed cost targetMin targetMax accel travel settle feedback had => ?_,
    fun c role b count lower upper hax hex had => ?_, fun mode list hlen had => ?_,
    fun mode before count b flag after had hbad hc hlt hafter => ?_,
    fun sh de re al sa si id u1 u2 u3 a1 a2 a3 pa cl budget => ?_, fun timing => ?_, ?_,
    fun q pitch envelope repeats on off had => ?_⟩
  · refine answers_item (by simp) rfl ?_ had
    exact configExhibitBody_eq (byte_of_index (by decide) e) rfl rfl
  · obtain ⟨b0, b1, he, hread⟩ := optIndex_reads (by decide) e
    rw [hindex, he]
    rcases role with _ | _ | _
    all_goals
      refine answers_item (by simp) rfl (configLineBody_eq (byte_of_index (by decide) l) ?_) had
      apply configuredLine_eq
      case he => exact hread _ _ rfl rfl
      case hg => exact word_of_bytes guard
      all_goals rfl
  · obtain ⟨b0, b1, he, hread⟩ := optIndex_reads (by decide) e
    rw [hindex, he]
    refine answers_item (by simp) rfl (configAxisBody_eq (byte_of_index (by decide) a) ?_) had
    apply configuredAxis_eq
    case he => exact hread _ _ rfl rfl
    case hf | htol | hsp | hc => rfl
    all_goals exact word_of_bytes _
  · have hcode : (BitVec.ofNat 8 role.code).toNat = role.code := by cases role <;> rfl
    rcases b with _ | a | e
    all_goals
      refine answers_item (by simp) rfl (configChannelBody_eq (byte_of_index (by decide) c) ?_) had
      apply configuredChannel_eq
      case hr => exact channelRoleAt_of hcode
      case hlo | hup => exact word_of_bytes _
      case hc => rfl
    · exact bindingAt_absent role rfl
    · exact bindingAt_axis (hax a rfl) rfl (byte_of_index (by decide) a)
    · cases hex e rfl
      exact bindingAt_exhibit rfl (byte_of_index (by decide) e)
  · rw [configScan_payload]
    exact ⟨fun _ => configScan_written had mode hlen, fun h => absurd trivial h⟩
  · rw [configScan_badPayload]
    exact configScan_firstBad had mode hbad hc hlt hafter
  · intro within timing
    refine ⟨fun had => configTiming_answers (t := timing) had ?_ ?_, setTiming_timing timing s⟩
    · simp
    · intro _
      simp only [num2, List.cons_append, List.nil_append]
      apply timingAt_eq
      case hb => rfl
      all_goals exact word_of_bytes _
  · intro level order t same
    exact ⟨fun h => if_pos ((sameLevels_iff _ _).2 h), fun h => if_neg (mt (sameLevels_iff _ _).1 h)⟩
  · intro refused
    exact ⟨fun l eb e rb r level debounce stuck guard hb had => configLine_refused had l hb,
      fun a flag eb e rest hrest hb had => configAxis_refused had a hrest hb,
      fun c role bb b rest hrest hb had => configChannel_refused had c hrest hb,
      fun mode count rest hrest hlen hb had => configScan_refused had hrest hlen hb⟩
  · refine answers_item (by simp) rfl ?_ had
    exact configToneBody_eq (byte_of_index (by decide) q)
      (tonePatternAt_eq rfl (word_of_bytes _) (word_of_bytes _) rfl rfl)

end Sys2Proof.Machine
end

section
/-! PROOFS. The state right after reset is good (O4). -/

namespace Sys2Proof.Machine

/-! ## The records at reset -/

@[simp] theorem exhibit_reset (e : ExhibitId) : State.reset.exhibit e = {} := by
  simp [State.exhibit, State.reset, get_as_index]

@[simp] theorem axis_reset (a : AxisId) : State.reset.axis a = {} := by
  simp [State.axis, State.reset, get_as_index]

@[simp] theorem tenure_reset (e : ExhibitId) : State.reset.tenure e = none := by
  simp [State.tenure, State.reset, get_as_index]

/-! ## The pins at reset -/

/-- With no cause in its set, a port's attention line is released at reset (R202). -/
theorem attentionLine_reset (m : Master) : attentionLine State.reset m = false := by cases m <;> rfl

/-- With no lamp test and no record, and its exhibit CLOSED, a beacon is dark at reset (R192). -/
theorem beaconPattern_reset (e : ExhibitId) : beaconPattern State.reset e = .off := by
  have hl : State.reset.annunciators.lampTest = none := rfl
  have hr : ∀ p, litRecord State.reset e p = false := fun _ => rfl
  simp [beaconPattern, hl, hr]

/-- Every pin at reset is released, dark, silent or 0 (R79, R183, R190, R192, R202). -/
theorem pinsFollow_reset : PinsFollow State.reset := by
  have hbeacons : (Vector.ofFn fun e : ExhibitId => (⟨beaconPattern State.reset e,
      (beaconPattern State.reset e).litAt State.reset.annunciators.flash⟩ : Beacon)) = Vector.replicate 16 {} :=
    table_ext fun e => by simp [get_as_index, beaconPattern_reset, BeaconPattern.litAt]
  have hpwm : (Vector.ofFn fun a => (State.reset.axis a).drive.duty) = Vector.replicate 12 0 :=
    table_ext fun a => by simp [get_as_index, Drive.duty]
  unfold PinsFollow pinsOf
  rw [if_neg (by decide), hbeacons, hpwm, attentionLine_reset, attentionLine_reset]
  rfl

/-! ## The invariants at reset -/

/-- Every drive is OFF at reset, and every axis DISABLED (R80). -/
theorem drivesOk_reset : DrivesOk State.reset := fun a => by simp [DriveOk, AxisState.driving]

/-- Every queue is empty at reset, and its numbers begin at 1 (R42, R45). -/
theorem queuesOk_reset : QueuesOk State.reset := fun q => by
  cases q <;> exact ⟨Nat.zero_le _, by decide⟩

theorem arbiterOk_reset : ArbiterOk State.reset := .ofDisabled (fun a => by simp) rfl rfl

/-- Every frame is in the free list at reset (R118). -/
theorem placesOk_reset : PlacesOk State.reset := PlacesOk.ofEmpty (fun e => by simp [slot]) rfl rfl rfl

theorem linksOk_reset : LinksOk State.reset := fun m => by cases m <;> simp [State.link, State.reset]

theorem tenuresOk_reset : TenuresOk State.reset :=
  (tenuresOk_iff _).2 ⟨⟨fun e => by simp, fun e => by simp, fun _ e => by simp⟩, IdleOk.ofNone rfl tenure_reset⟩

theorem alertsOk_reset : AlertsOk State.reset := .empty rfl (by decide)

/-- Settles O4: each invariant of the state at reset is a lemma above. -/
theorem resetIsGood : Obligations.ResetIsGood :=
  ⟨pinsFollow_reset, drivesOk_reset, queuesOk_reset, arbiterOk_reset, placesOk_reset, linksOk_reset,
    tenuresOk_reset, alertsOk_reset⟩

end Sys2Proof.Machine
end

section
/-! PROOFS. Every step keeps the event queues, the places of the frames and the alert list (O7). -/

namespace Sys2Proof.Machine

/-! ## Wider relations -/

section
variable {R Q : State → State → Prop} (hq : ∀ {s t}, R s t → Q s t)
  (ht : ∀ {s t u}, Q s t → Q t u → Q s u)
include hq ht

/-- A wider relation, closed under composition, is closed under the moves of the links, the tenures and the
channels. -/
theorem Wide.widen (h : Wide R) : Wide Q where
  toFloor := h.toFloor.widen hq ht
  hears s m a := hq (h.hears s m a)
  wakes s m := hq (h.wakes s m)
  lapses s m := hq (h.lapses s m)
  channel s c f a := hq (h.channel s c f a)
  scanner s f a := hq (h.scanner s f a)
  returns s := hq (h.returns s)
  endsTenure s e := hq (h.endsTenure s e)
  endsTenures s := hq (h.endsTenures s)

/-- A wider relation, closed under composition, is closed under the moves of the commands. -/
theorem Acts.widen (h : Acts R) : Acts Q where
  toWide := h.toWide.widen hq ht
  mode s m a := hq (h.mode s m a)
  rebuilt s := hq (h.rebuilt s)
  rewarmed s := hq (h.rewarmed s)
  committed s a := hq (h.committed s a)
  configures s e f a := hq (h.configures s e f a)
  lineAny s l f := hq (h.lineAny s l f)
  channelAny s c f := hq (h.channelAny s c f)
  scannerAny s f := hq (h.scannerAny s f)
  annunciatorsAny s f := hq (h.annunciatorsAny s f)
  axisSet s a p x hm hx := hq (h.axisSet s a p x hm hx)
  timed s x hm := hq (h.timed s x hm)
  queue s q f a := hq (h.queue s q f a)
  spi s m f := hq (h.spi s m f)
  uart s f := hq (h.uart s f)
  note s i n := hq (h.note s i n)
  permits s e b := hq (h.permits s e b)
  takesUp s f rest a := hq (h.takesUp s f rest a)
  drops s f a := hq (h.drops s f a)
  collects s r rest a := hq (h.collects s r rest a)
  posts s e f a := hq (h.posts s e f a)

end

/-! ## The queues -/

/-- A step that leaves the three queues. -/
theorem Kept.queues {s t : State} (h1 : t.showQueue = s.showQueue) (h2 : t.deskQueue = s.deskQueue)
    (h3 : t.serviceQueue = s.serviceQueue) : Kept QueuesOk s t := fun hs q => by
  have h := hs q
  cases q <;> simpa [State.queue, h1, h2, h3] using h

/-- The queues are kept by every command, whose moves are sound. -/
theorem QueuesOk.acts : Acts (Kept QueuesOk) := Sound.acts.widen Sound.queues fun a b => b ∘ a

/-- The queues are kept by every event. -/
theorem QueuesOk.steps : Steps (Kept QueuesOk) where
  toActs := QueuesOk.acts
  serves code p s hs := Kept.queues rfl rfl rfl ((perform_sound .servicePort code p s).queues hs)
  pins _ _ := Kept.queues rfl rfl rfl
  ticks _ := Kept.queues rfl rfl rfl
  resets _ _ := Kept.queues rfl rfl rfl queuesOk_reset
  released _ := Kept.queues rfl rfl rfl
  accelerated _ _ _ := Kept.queues rfl rfl rfl

/-- Settles O7: each of the three is kept by every event, and none looks at the waiting commands. -/
theorem queuesOkKept : Obligations.QueuesOkKept :=
  ⟨fun s t hs ht => step_steps QueuesOk.steps (fun _ _ => Kept.queues rfl rfl rfl) s t ht hs,
    fun s t hs ht => step_steps PlacesOk.steps (fun _ _ => PlacesOk.aside rfl rfl rfl rfl rfl) s t ht hs,
    fun s t hs ht => step_steps AlertsOk.steps (fun _ _ => Kept.alerts rfl) s t ht hs⟩

end Sys2Proof.Machine
end

section
/-! PROOFS. The attention sets, and the commands of attention (O17). -/

namespace Sys2Proof.Machine

/-! ## The causes -/

/-- A byte of five flags: each bit is its flag, and no bit stands above them (R201). -/
theorem fiveFlags_bits (b0 b1 b2 b3 b4 : Bool) :
    let x : Byte := BitVec.ofNat 8 (bitIf b0 1 + bitIf b1 2 + bitIf b2 4 + bitIf b3 8 + bitIf b4 16)
    x.getLsbD 0 = b0 ∧ x.getLsbD 1 = b1 ∧ x.getLsbD 2 = b2 ∧ x.getLsbD 3 = b3 ∧ x.getLsbD 4 = b4 ∧
      x.toNat < 32 := by
  revert b0 b1 b2 b3 b4
  decide

/-- The set of a port is the byte of its five causes (R201). -/
theorem attentionSet_bits (s : State) (m : Master) :
    (attentionSet s m).getLsbD 0 = eventsCause s m ∧
    (attentionSet s m).getLsbD 1 = (m = .showMaster && !s.retiredList.isEmpty) ∧
    (attentionSet s m).getLsbD 2 = (m = .deskMaster && s.alerts.records.any fun r => r.state = .opened) ∧
    (attentionSet s m).getLsbD 3 = (s.spi m).edges.noteIn ∧
    (attentionSet s m).getLsbD 4 = (s.spi m).edges.noteTaken ∧ (attentionSet s m).toNat < 32 :=
  fiveFlags_bits _ _ _ _ _

/-! ## The commands of attention -/

/-- A mask is within its port's causes unless it has a bit above bit 4, or the other port's cause (R202). -/
theorem maskOk_iff (m : Master) (b : Byte) : maskOk m b = true ↔
    ¬ (0x1F < b.toNat ∨ (m = .deskMaster ∧ b.getLsbD 1) ∨ (m = .showMaster ∧ b.getLsbD 2)) := by
  have hb : b.toNat < 32 ↔ ¬ 0x1F < b.toNat := by omega
  cases m <;> simp [maskOk, hb]

/-- A command of a master at its own port. -/
theorem onMaster_port (m : Master) (f : Master → State → State × Reply) (s : State) :
    onMaster m.port f s = f m s := by cases m <;> rfl

theorem attentionMaskBody_ok {m : Master} {b : Byte} (h : maskOk m b = true) (s : State) :
    attentionMaskBody m.port [b] s = accept [b, attentionSet s m] (s.modSpi m fun x => { x with mask := b }) :=
  (onMaster_port m _ s).trans (if_pos h)

theorem attentionMaskBody_refused {m : Master} {b : Byte} (h : ¬ maskOk m b = true) (s : State) :
    attentionMaskBody m.port [b] s = refuse .badValue s := (onMaster_port m _ s).trans (if_neg h)

theorem attentionReadBody_port (m : Master) (s : State) : attentionReadBody m.port [] s
    = accept [attentionSet s m, (s.spi m).mask]
        (s.modSpi m fun x => { x with edges := { noteIn := false, noteTaken := false } }) := onMaster_port m _ s

/-- Settles O17: the set is read off its flags, and the two commands are their bodies at a master's port. -/
theorem attentionFollowsItsCauses : Obligations.AttentionFollowsItsCauses := by
  refine ⟨fun s => ?_, fun m b s had => ?_, fun m s had =>
    answers_body had (by simp) rfl (attentionReadBody_port m s)⟩
  · obtain ⟨hevents, hretired, hshowAlerts, -⟩ := attentionSet_bits s .showMaster
    obtain ⟨hdeskEvents, hdeskRetired, halerts, -⟩ := attentionSet_bits s .deskMaster
    refine ⟨hevents, hdeskEvents, by simpa using hretired, by simpa using hdeskRetired, by simpa using hshowAlerts,
      by simpa using halerts, fun m => ?_⟩
    obtain ⟨-, -, -, hedges⟩ := attentionSet_bits s m
    exact hedges
  · intro bad
    have hok : maskOk m b = true ↔ ¬ bad := maskOk_iff m b
    exact ⟨fun hgood => answers_body had (by simp) rfl (attentionMaskBody_ok (hok.2 hgood) s),
      fun hbad => answers_body had (by simp) rfl (attentionMaskBody_refused (fun h => hok.1 h hbad) s)⟩

end Sys2Proof.Machine
end

section
/-! PROOFS. The event queues: the record, the read-out and the overflow (O54). -/

namespace Sys2Proof.Machine

/-! ## The record -/

/-- The kinds of events in the order of their codes, which begin at 1 (R46). -/
def eventKinds : List EventKind :=
  [.buttonPress, .buttonRelease, .axisArrived, .axisHeld, .axisResumed, .axisFault, .cueStarted, .cueRetired,
    .senseChange, .scanOverrun, .exhibitState, .galleryMode, .linkState, .alertRaised, .alertChanged, .alertRemoved,
    .chimeCut]

theorem eventKind_code (k : EventKind) : k.code = eventKinds.idxOf k + 1 := by cases k <;> rfl

theorem num1_subject (x : Option Byte) : num1 ((x.map BitVec.toNat).getD 0) = [x.getD 0] := by
  cases x <;> simp [num1]

theorem value_toNat (x : Option (BitVec 16)) : (x.map BitVec.toNat).getD 0 = (x.getD 0).toNat := by
  cases x <;> rfl

/-! ## The read-out -/

/-- EVENT-READ is admitted at every port in every mode (R51). -/
theorem eventRead_admitted {port : Port} {s : State} (h : Ready port s) : Admitted .eventRead port s :=
  ⟨h, by cases port <;> decide, by cases s.mode <;> decide⟩

/-- With nothing to read, the queue and its gap flag stay (R50). -/
theorem readOut_nothing {n : Nat} {q : EventQueue} (h : q.events.take n = []) : readOut n q = ([], q) := by
  unfold readOut; rw [h]

/-- The events read leave the queue, and the first of them takes the gap flag along (R50). -/
theorem readOut_some {n : Nat} {q : EventQueue} {v : Event} {rest : List Event} (h : q.events.take n = v :: rest) :
    readOut n q = ({ v with gap := q.gap } :: rest, { q with events := q.events.drop n, gap := false }) := by
  unfold readOut; rw [h]; rfl

/-- An update of a queue is what it makes of that queue. -/
theorem modQueue_congr (s : State) (q : QueueName) (f g : EventQueue → EventQueue)
    (h : f (s.queue q) = g (s.queue q)) : s.modQueue q f = s.modQueue q g := by
  cases q
  · exact congrArg (fun x => { s with showQueue := x }) h
  · exact congrArg (fun x => { s with deskQueue := x }) h
  · exact congrArg (fun x => { s with serviceQueue := x }) h

/-- A queue put back as it is. -/
theorem modQueue_id (s : State) (q : QueueName) : (s.modQueue q fun _ => s.queue q) = s := by cases q <;> rfl

section
variable {port : Port} {b : Byte} {s : State}

theorem eventReadBody_above (h : 8 < b.toNat) : eventReadBody port [b] s = refuse .badValue s := if_pos h

theorem eventReadBody_within (h : b.toNat ≤ 8) : eventReadBody port [b] s =
    accept (listBytes ((readOut b.toNat (s.queue (portQueue port))).1.map Event.bytes)
        ++ num1 (readOut b.toNat (s.queue (portQueue port))).2.events.length
        ++ flagByte (readOut b.toNat (s.queue (portQueue port))).2.gap)
      (s.modQueue (portQueue port) fun _ => (readOut b.toNat (s.queue (portQueue port))).2) :=
  if_neg (Nat.not_lt.2 h)

theorem eventReadBody_nothing (h : b.toNat ≤ 8) (hq : (s.queue (portQueue port)).events.take b.toNat = []) :
    eventReadBody port [b] s = accept ([0] ++ num1 (s.queue (portQueue port)).events.length
      ++ flagByte (s.queue (portQueue port)).gap) s := by
  rw [eventReadBody_within h, readOut_nothing hq, modQueue_id]
  rfl

theorem eventReadBody_some (h : b.toNat ≤ 8) {v : Event} {rest : List Event}
    (hq : (s.queue (portQueue port)).events.take b.toNat = v :: rest) : eventReadBody port [b] s =
      accept (num1 (rest.length + 1)
          ++ (({ v with gap := (s.queue (portQueue port)).gap } :: rest).map Event.bytes).flatten
          ++ num1 ((s.queue (portQueue port)).events.length - (rest.length + 1)) ++ num1 0)
        (s.modQueue (portQueue port) fun _ => { s.queue (portQueue port) with
          events := (s.queue (portQueue port)).events.drop b.toNat, gap := false }) := by
  have hleft : ((s.queue (portQueue port)).events.drop b.toNat).length
      = (s.queue (portQueue port)).events.length - (rest.length + 1) := by
    have htaken := congrArg List.length hq
    simp only [List.length_take, List.length_cons] at htaken
    rw [List.length_drop]
    omega
  rw [eventReadBody_within h, readOut_some hq, ← hleft]
  simp [listBytes, flagByte]

end

/-! ## The overflow -/

theorem isButton_iff (v : Event) : v.isButton = true ↔ v.kind = .buttonPress ∨ v.kind = .buttonRelease := by
  unfold Event.isButton
  cases v.kind <;> simp

/-- The oldest button event is sought behind the events that are none. -/
theorem dropOldestButton_append {l : List Event} (h : ∀ u ∈ l, ¬ u.isButton = true) (r : List Event) :
    dropOldestButton (l ++ r) = (dropOldestButton r).map (l ++ ·) := by
  induction l with
  | nil => simp
  | cons v l ih =>
    have hv : dropOldestButton (v :: (l ++ r)) = (dropOldestButton (l ++ r)).map (v :: ·) :=
      if_neg (h v List.mem_cons_self)
    rw [List.cons_append, hv, ih fun u hu => h u (List.mem_cons_of_mem _ hu), Option.map_map]
    rfl

/-- Without a button event none is displaced (R49). -/
theorem dropOldestButton_none {l : List Event} (h : ∀ u ∈ l, ¬ u.isButton = true) : dropOldestButton l = none := by
  simpa [dropOldestButton] using dropOldestButton_append h []

/-- The oldest button event is displaced (R49). -/
theorem dropOldestButton_first {l r : List Event} {w : Event} (h : ∀ u ∈ l, ¬ u.isButton = true)
    (hw : w.isButton = true) : dropOldestButton (l ++ w :: r) = some (l ++ r) := by
  have hr : dropOldestButton (w :: r) = some r := if_pos hw
  rw [dropOldestButton_append h, hr]
  rfl

section
variable {c : Nat} {v : Event} {q : EventQueue}

theorem placeEvent_room (h : q.events.length < c) : placeEvent c v q = { q with events := q.events ++ [v] } :=
  if_pos h

theorem placeEvent_displaces {l r : List Event} {w : Event} (h : c ≤ q.events.length) (hq : q.events = l ++ w :: r)
    (hl : ∀ u ∈ l, ¬ u.isButton = true) (hw : w.isButton = true) :
    placeEvent c v q = { q with events := l ++ r ++ [v], gap := true } := by
  unfold placeEvent
  rw [if_neg (Nat.not_lt.2 h), hq, dropOldestButton_first hl hw]

theorem placeEvent_dropped (h : c ≤ q.events.length) (hq : ∀ u ∈ q.events, ¬ u.isButton = true)
    (hv : v.isButton = true) : placeEvent c v q = { q with gap := true } := by
  unfold placeEvent
  rw [if_neg (Nat.not_lt.2 h), dropOldestButton_none hq]
  exact if_pos hv

theorem placeEvent_oldest (h : c ≤ q.events.length) (hq : ∀ u ∈ q.events, ¬ u.isButton = true)
    (hv : ¬ v.isButton = true) : placeEvent c v q = { q with events := q.events.tail ++ [v], gap := true } := by
  unfold placeEvent
  rw [if_neg (Nat.not_lt.2 h), dropOldestButton_none hq]
  exact if_neg hv

end

/-- An event placed is what the placing makes of the queue with its number taken (R44, R45). -/
theorem appendTo_eq {q : QueueName} {v : Event} {s : State} {x : EventQueue}
    (h : placeEvent q.capacity { v with seq := (s.queue q).nextSeq, time := s.clock, gap := false }
      { s.queue q with nextSeq := nextSequence (s.queue q).nextSeq } = x) :
    appendTo q v s = s.modQueue q fun _ => x := modQueue_congr s q _ _ h

/-- Settles O54: the record field by field, the read-out by what there is to read, and the placing by the room in
the queue and the button events in it. -/
theorem eventQueuesReadAndOverflow : Obligations.EventQueuesReadAndOverflow := by
  refine ⟨fun v => ?_, ⟨rfl, rfl, rfl⟩, ⟨rfl, rfl, rfl⟩, fun port b s hready => ?_, fun q v s => ?_⟩
  · intro low four kinds bit value
    unfold Event.bytes
    rw [eventKind_code, num1_subject, value_toNat]
    cases v.exhibit <;> cases v.step <;> rfl
  · intro q x
    have had := eventRead_admitted hready
    exact ⟨fun h => answers_body had (by simp) rfl (eventReadBody_above h),
      fun h hx => answers_body had (by simp) rfl (eventReadBody_nothing h hx),
      fun v rest h hx => answers_body had (by simp) rfl (eventReadBody_some h hx)⟩
  · intro x n new after button becomes
    have hnone : ∀ {l : List Event}, (∀ u ∈ l, ¬ button u) → ∀ u ∈ l, ¬ u.isButton = true :=
      fun h u hu => mt (isButton_iff u).1 (h u hu)
    exact ⟨fun hroom => appendTo_eq (placeEvent_room hroom),
      fun l w r hfull hx hl hw => appendTo_eq (placeEvent_displaces hfull hx (hnone hl) ((isButton_iff w).2 hw)),
      fun hfull hx => ⟨fun hv => appendTo_eq (placeEvent_dropped hfull (hnone hx) ((isButton_iff v).2 hv)),
        fun hv => appendTo_eq (placeEvent_oldest hfull (hnone hx) (mt (isButton_iff v).1 hv))⟩⟩

end Sys2Proof.Machine
end

section
/-! PROOFS. The window filter (O35). -/

namespace Sys2Proof.Machine

/-- The zone of a result is that of the window (R59). -/
theorem zone_window_eq_iff (z : Zone) (w : Window) :
    z.window = w ↔ (z = .below ∧ w = .below) ∨ (z = .inside ∧ w = .inside) ∨ (z = .above ∧ w = .above) := by
  cases z <;> simp [Zone.window, eq_comm]

section
variable {x : Channel} {v : Nat}

theorem filter_agrees (h : (x.zoneOf v).window = x.window) :
    x.filter v = { x with agreement := 0, candidate := none } := if_pos h

theorem filter_changes (h : (x.zoneOf v).window ≠ x.window) (hn : x.filterCount ≤ x.agreed (x.zoneOf v)) :
    x.filter v = { x with window := (x.zoneOf v).window, agreement := 0, candidate := none } :=
  (if_neg h).trans (if_pos hn)

theorem filter_counts (h : (x.zoneOf v).window ≠ x.window) (hn : x.agreed (x.zoneOf v) < x.filterCount) :
    x.filter v = { x with candidate := some (x.zoneOf v), agreement := x.agreed (x.zoneOf v) } :=
  (if_neg h).trans (if_neg (Nat.not_le.2 hn))

end

/-- Settles O35: a result agrees with the window, completes the count of a new zone, or counts toward it. -/
theorem windowFilter : Obligations.WindowFilter := by
  intro x v z same n new
  have hsame : (x.zoneOf v).window = x.window ↔ same := zone_window_eq_iff (x.zoneOf v) x.window
  have hnew : new = (x.zoneOf v).window := rfl
  refine ⟨fun h => filter_agrees (hsame.2 h), fun h hn => ?_, fun h hn => filter_counts (mt hsame.1 h) hn⟩
  rw [hnew]
  exact filter_changes (mt hsame.1 h) hn

end Sys2Proof.Machine
end

section
/-! SUPPORT. The passes of the scanner, as equations by its list and its day mode (R62, R65, R66-R69). -/

namespace Sys2Proof.Machine

/-! ## The search for an entry that is kept -/

theorem keepEntryFrom_isSome_iff (i : Nat) (l : List ScanEntry) :
    (keepEntryFrom i l).isSome = true ↔ ∃ e ∈ l, e.keepWhenClosed = true := by
  induction l generalizing i with
  | nil => simp [keepEntryFrom]
  | cons x l ih =>
    unfold keepEntryFrom
    by_cases hx : x.keepWhenClosed = true
    · simp [hx]
    · simp [hx, ih]

/-- A closed pass from the list's start is at the first entry that is kept, or over (R62, R65). -/
theorem closedPassFrom_zero (x : Scanner) :
    x.closedPassFrom 0 = match x.scanList.findIdx? fun e => e.keepWhenClosed with
      | none => x.stopPass .dozing
      | some i => { x with
          state := .converting, passPosition := some i, inFlight := x.scanList[i]?.map fun e => e.channel } := by
  unfold Scanner.closedPassFrom
  rw [List.drop_zero]
  cases hf : x.scanList.findIdx? fun e => e.keepWhenClosed with
  | none =>
    have hnone := List.findIdx?_eq_none_iff.1 hf
    rw [keepEntryFrom_none 0 _ fun k d hk => hnone d (List.mem_of_getElem? hk)]
  | some i =>
    obtain ⟨hi, hkeep, hbefore⟩ := List.findIdx?_eq_some_iff_getElem.1 hf
    have hget := List.getElem?_eq_getElem hi
    have hfirst := keepEntryFrom_first 0 i _ hget hkeep fun m d hm hd => by
      obtain ⟨hlt, rfl⟩ := List.getElem?_eq_some_iff.1 hd
      exact Bool.eq_false_iff.2 (hbefore m hm)
    rw [hfirst, Nat.zero_add]
    dsimp only
    rw [hget]
    rfl

/-! ## A day pass -/

section
variable {x : Scanner}

theorem startDayPass_nil (h : x.scanList = []) : x.startDayPass = x.stopPass .waiting := by
  unfold Scanner.startDayPass
  rw [h]

theorem startDayPass_cons {e : ScanEntry} {rest : List ScanEntry} (h : x.scanList = e :: rest) :
    x.startDayPass = x.convertEntry 0 e := by
  unfold Scanner.startDayPass
  rw [h]

theorem startDayPass_head (h : x.scanList ≠ []) : x.startDayPass = { x with
    state := .converting, passPosition := some 0, inFlight := x.scanList.head?.map fun e => e.channel } := by
  obtain ⟨e, rest, he⟩ := List.exists_cons_of_ne_nil h
  rw [startDayPass_cons he, show x.scanList.head? = some e by rw [he]; rfl]
  rfl

/-- Where a pass starts does not depend on where the scanner stood. -/
theorem startDayPass_stopPass (x : Scanner) (st : ScannerState) : (x.stopPass st).startDayPass = x.startDayPass := by
  unfold Scanner.startDayPass
  dsimp only [Scanner.stopPass]
  split <;> rfl

/-- A pass started leaves the pace timer and the request, which may be set before it as well as after. -/
theorem startDayPass_pace (x : Scanner) (n : Option Nat) :
    { x.startDayPass with pace := n } = ({ x with pace := n } : Scanner).startDayPass := by
  unfold Scanner.startDayPass
  dsimp only
  split <;> rfl

theorem startDayPass_passRequested (x : Scanner) (b : Bool) :
    { x.startDayPass with passRequested := b } = ({ x with passRequested := b } : Scanner).startDayPass := by
  unfold Scanner.startDayPass
  dsimp only
  split <;> rfl

/-! ## What the day mode does at once (R65, R70) -/

section
variable {n : Nat}

theorem beginDay_continuous (h : x.dayMode = .continuous) : x.beginDay n = x.startDayPass := by
  unfold Scanner.beginDay
  rw [h]

theorem beginDay_paced (h : x.dayMode = .paced) :
    x.beginDay n = ({ x with pace := some n } : Scanner).startDayPass := by
  rw [← startDayPass_pace]
  unfold Scanner.beginDay
  rw [h]

theorem beginDay_requested (h : x.dayMode = .single) (hr : x.passRequested = true) :
    x.beginDay n = ({ x with passRequested := false } : Scanner).startDayPass := by
  rw [← startDayPass_passRequested]
  unfold Scanner.beginDay
  rw [h]
  exact if_pos hr

theorem beginDay_unrequested (h : x.dayMode = .single) (hr : x.passRequested = false) :
    x.beginDay n = x.stopPass .waiting := by
  unfold Scanner.beginDay
  rw [h]
  exact if_neg (by simp [hr])

end
end

end Sys2Proof.Machine
end

section
/-! PROOFS. The timers of the scanner (O37). -/

namespace Sys2Proof.Machine

/-! ## The warm-up ends (R65) -/

section
variable {x : Scanner} {n : Nat}

theorem warmedUp_closedScan (h : x.regime = .closedScan) :
    x.warmedUp n = ({ x with warmUp := none } : Scanner).closedPassFrom 0 := by
  unfold Scanner.warmedUp
  rw [h]

theorem warmedUp_day (h : x.regime = .day) : x.warmedUp n = ({ x with warmUp := none } : Scanner).beginDay n := by
  unfold Scanner.warmedUp
  rw [h]

end

theorem exec_warmUpExpiry {s : State} {y : Scanner} (hs : s.inReset = false) (hw : s.scanner.state = .warming)
    (ht : s.scanner.warmUp = some 0) (h : s.scanner.warmedUp s.timing.paceInterval = y) :
    exec .warmUpExpiry s = .next (drivePins { s with scanner := y }) := by
  have hx : warmUpExpires s = { s with scanner := s.scanner.warmedUp s.timing.paceInterval } := if_pos ⟨hw, ht⟩
  rw [← h, ← hx]
  exact occur_next hs

/-! ## The pace timers expire (R67, R69) -/

section
variable {s : State}

theorem exec_paceTimerExpiry {t : State} (hs : s.inReset = false) (h : paceExpires s = t) :
    exec .paceTimerExpiry s = .next (drivePins t) := h ▸ occur_next hs

theorem exec_closedPaceExpiry {t : State} (hs : s.inReset = false) (h : closedPaceExpires s = t) :
    exec .closedPaceExpiry s = .next (drivePins t) := h ▸ occur_next hs

/-- The scanner with its pace timer restarted. -/
def Scanner.paced (n : Nat) (x : Scanner) : Scanner := { x with pace := some n }

/-- The scanner with its closed pace timer restarted. -/
def Scanner.closedPaced (n : Nat) (x : Scanner) : Scanner := { x with closedPaceTimer := some n }

section
variable (h : s.scanner.pace = some 0)
include h

theorem paceExpires_waiting (hw : s.scanner.state = .waiting) :
    paceExpires s = { s with scanner := (s.scanner.paced s.timing.paceInterval).startDayPass } := by
  unfold paceExpires
  rw [if_pos h, hw]
  rfl

theorem paceExpires_converting (hw : s.scanner.state = .converting) :
    paceExpires s
      = emit [.showQ] { kind := .scanOverrun } { s with scanner := s.scanner.paced s.timing.paceInterval } := by
  unfold paceExpires
  rw [if_pos h, hw]
  rfl

theorem paceExpires_other (hw : s.scanner.state ≠ .waiting) (hc : s.scanner.state ≠ .converting) :
    paceExpires s = { s with scanner := s.scanner.paced s.timing.paceInterval } := by
  unfold paceExpires
  rw [if_pos h]
  cases hx : s.scanner.state with
  | waiting => exact absurd hx hw
  | converting => exact absurd hx hc
  | off | dozing | warming => rfl

end

section
variable (h : s.scanner.closedPaceTimer = some 0)
include h

theorem closedPaceExpires_warms (hd : s.scanner.state = .dozing)
    (he : ∃ e ∈ s.scanner.scanList, e.keepWhenClosed = true) :
    closedPaceExpires s = { s with scanner := (s.scanner.closedPaced s.timing.closedPace).powerUp } :=
  (if_pos h).trans (if_pos ⟨hd, (keepEntryFrom_isSome_iff 0 _).2 he⟩)

theorem closedPaceExpires_ignored
    (hn : ¬ (s.scanner.state = .dozing ∧ ∃ e ∈ s.scanner.scanList, e.keepWhenClosed = true)) :
    closedPaceExpires s = { s with scanner := s.scanner.closedPaced s.timing.closedPace } :=
  (if_pos h).trans (if_neg fun hx => hn ⟨hx.1, (keepEntryFrom_isSome_iff 0 _).1 hx.2⟩)

end
end

/-- Settles O37: the warm-up's end by the regime and the day mode, each pace timer by the scanner's state. -/
theorem scannerTimersExpire : Obligations.ScannerTimersExpire := by
  constructor
  · intro s hs hw ht x goesTo day closed
    have goes {y : Scanner} (h : s.scanner.warmedUp s.timing.paceInterval = y) : goesTo y :=
      exec_warmUpExpiry hs hw ht h
    have hday (y : Scanner) : day y = y.startDayPass := rfl
    have hclosed (y : Scanner) : closed y = y.closedPassFrom 0 := (closedPassFrom_zero y).symm
    refine ⟨fun hr => goes ?_, fun hr hm => goes ?_, fun hr hm => goes ?_, fun hr hm hp => goes ?_,
      fun hr hm hp => goes ?_⟩
    · rw [hclosed]
      exact warmedUp_closedScan hr
    · rw [hday]
      exact (warmedUp_day hr).trans (beginDay_continuous hm)
    · rw [hday]
      exact (warmedUp_day hr).trans (beginDay_paced hm)
    · rw [hday]
      exact (warmedUp_day hr).trans (beginDay_requested hm hp)
    · exact (warmedUp_day hr).trans (beginDay_unrequested hm hp)
  · intro s hs paced closed hasEntry paceGoes closedGoes
    have pace {t : State} (h : paceExpires s = t) : paceGoes t := exec_paceTimerExpiry hs h
    have closedPace {y : Scanner} (h : closedPaceExpires s = { s with scanner := y }) : closedGoes y :=
      exec_closedPaceExpiry hs h
    refine ⟨fun e rest hp hw hl => pace ?_, fun hp hw hl => pace ?_, fun hp hc => pace (paceExpires_converting hp hc),
      fun hp hw hc => pace (paceExpires_other hp hw hc), fun hp hd he => closedPace (closedPaceExpires_warms hp hd he),
      fun hp hd he => closedPace (closedPaceExpires_ignored hp fun hx => he hx.2),
      fun hp hd => closedPace (closedPaceExpires_ignored hp fun hx => hd hx.1)⟩
    · rw [paceExpires_waiting hp hw, startDayPass_cons (x := s.scanner.paced _) hl]
      rfl
    · rw [paceExpires_waiting hp hw, startDayPass_nil (x := s.scanner.paced _) hl]
      show _ = { s with scanner := { paced with passPosition := none, inFlight := none } }
      unfold Scanner.stopPass
      rw [← hw]
      rfl

end Sys2Proof.Machine
end

section
/-! PROOFS. The scanner's regime (O38). -/

namespace Sys2Proof.Machine

/-! ## The regime the gallery gives (R70) -/

theorem regimeOf_setup {s : State} (h : s.mode = .setup) : regimeOf s = .off := by
  unfold regimeOf
  rw [h]

theorem regimeOf_open {s : State} (h : s.mode = .opened ∨ s.mode = .quiet) : regimeOf s = .day := by
  unfold regimeOf
  rcases h with h | h <;> rw [h]

theorem regimeOf_closed {s : State} (h : s.mode = .closed) [Decidable (∃ e, (s.exhibit e).state = .service)] :
    regimeOf s = if ∃ e, (s.exhibit e).state = .service then .day else .closedScan := by
  unfold regimeOf
  rw [h]
  exact if_congr (by simp [inService]) rfl rfl

/-! ## What a re-evaluation does by the regime it gives -/

section
variable {s : State}

theorem reviewRegime_same (h : s.scanner.regime = regimeOf s) : reviewRegime s = s := if_pos h

theorem reviewRegime_off (h : s.scanner.regime ≠ .off) (hr : regimeOf s = .off) :
    reviewRegime s = s.modScanner Scanner.toOff := by
  unfold reviewRegime
  rw [hr, if_neg h]

theorem reviewRegime_day (h : s.scanner.regime ≠ .day) (hr : regimeOf s = .day) :
    reviewRegime s = s.modScanner (Scanner.toDay s.timing.paceInterval) := by
  unfold reviewRegime
  rw [hr, if_neg h]

theorem reviewRegime_closedScan (h : s.scanner.regime ≠ .closedScan) (hr : regimeOf s = .closedScan) :
    reviewRegime s = s.modScanner (Scanner.toClosedScan s.timing.closedPace) := by
  unfold reviewRegime
  rw [hr, if_neg h]

end

/-! ## The change to DAY (R70) -/

/-- The scanner in DAY, before it acts by its state. -/
def Scanner.inDay (x : Scanner) : Scanner := { x with regime := .day, passRequested := false, closedPaceTimer := none }

/-- The scanner in CLOSED_SCAN, before it acts by its state. -/
def Scanner.inClosedScan (n : Nat) (x : Scanner) : Scanner :=
  { x with regime := .closedScan, passRequested := false, pace := none, closedPaceTimer := some n }

section
variable {x : Scanner} {n : Nat}

theorem toDay_powersUp (h : x.state = .off ∨ x.state = .dozing) : x.toDay n = x.inDay.powerUp := by
  unfold Scanner.toDay
  rcases h with h | h <;> rw [h] <;> rfl

theorem toDay_runsOn (h : x.state = .warming ∨ x.state = .waiting) : x.toDay n = x.inDay := by
  unfold Scanner.toDay Scanner.inDay
  rcases h with h | h <;> rw [h]

theorem toDay_converting (h : x.state = .converting) : x.toDay n = (x.inDay.stopPass .waiting).beginDay n := by
  unfold Scanner.toDay
  rw [h]
  rfl

/-- A closed pass under way gives way to what the day mode does (R70). -/
theorem toDay_continuous (h : x.state = .converting) (hm : x.dayMode = .continuous) :
    x.toDay n = x.inDay.startDayPass :=
  (toDay_converting h).trans ((beginDay_continuous (x := x.inDay.stopPass .waiting) hm).trans (startDayPass_stopPass _ _))

theorem toDay_paced (h : x.state = .converting) (hm : x.dayMode = .paced) :
    x.toDay n = ({ x.inDay with pace := some n } : Scanner).startDayPass :=
  (toDay_converting h).trans ((beginDay_paced (x := x.inDay.stopPass .waiting) hm).trans
    (startDayPass_stopPass { x.inDay with pace := some n } .waiting))

theorem toDay_single (h : x.state = .converting) (hm : x.dayMode = .single) :
    x.toDay n = x.inDay.stopPass .waiting :=
  (toDay_converting h).trans (beginDay_unrequested hm rfl)

/-! ## The change to CLOSED_SCAN (R71) -/

theorem toClosedScan_powersUp (h : x.state = .off) : x.toClosedScan n = (x.inClosedScan n).powerUp := by
  unfold Scanner.toClosedScan
  rw [h]
  rfl

theorem toClosedScan_runsOn (h : x.state = .warming ∨ x.state = .dozing) : x.toClosedScan n = x.inClosedScan n := by
  unfold Scanner.toClosedScan Scanner.inClosedScan
  rcases h with h | h <;> rw [h]

theorem toClosedScan_starts (h : x.state = .converting ∨ x.state = .waiting) :
    x.toClosedScan n = (x.inClosedScan n).closedPassFrom 0 := by
  unfold Scanner.toClosedScan
  rcases h with h | h <;> rw [h] <;> rfl

end

/-! ## The request and the timers of the regimes -/

/-- The request and the timers that belong to a regime. -/
def Scanner.regimeTimers (x : Scanner) : Bool × Option Nat × Option Nat := (x.passRequested, x.pace, x.closedPaceTimer)

theorem startDayPass_regimeTimers (x : Scanner) : x.startDayPass.regimeTimers = x.regimeTimers := by
  unfold Scanner.startDayPass
  split <;> rfl

theorem closedPassFrom_regimeTimers (x : Scanner) (i : Nat) :
    (x.closedPassFrom i).regimeTimers = x.regimeTimers := by
  unfold Scanner.closedPassFrom
  split <;> rfl

/-- The change to CLOSED_SCAN clears the request, stops the pace timer and starts the closed one (R71). -/
theorem toClosedScan_regimeTimers (n : Nat) (x : Scanner) : (x.toClosedScan n).regimeTimers = (false, none, some n) := by
  cases h : x.state with
  | off => rw [toClosedScan_powersUp h]; rfl
  | warming => rw [toClosedScan_runsOn (.inl h)]; rfl
  | dozing => rw [toClosedScan_runsOn (.inr h)]; rfl
  | converting => rw [toClosedScan_starts (.inl h), closedPassFrom_regimeTimers]; rfl
  | waiting => rw [toClosedScan_starts (.inr h), closedPassFrom_regimeTimers]; rfl

/-- The change to DAY clears the request and stops the closed pace timer; the day mode alone starts the other (R70). -/
theorem toDay_regimeTimers (n : Nat) (x : Scanner) : ∃ pace, (x.toDay n).regimeTimers = (false, pace, none) := by
  cases h : x.state with
  | off => exact ⟨x.pace, by rw [toDay_powersUp (.inl h)]; rfl⟩
  | dozing => exact ⟨x.pace, by rw [toDay_powersUp (.inr h)]; rfl⟩
  | warming => exact ⟨x.pace, by rw [toDay_runsOn (.inl h)]; rfl⟩
  | waiting => exact ⟨x.pace, by rw [toDay_runsOn (.inr h)]; rfl⟩
  | converting =>
    cases hm : x.dayMode with
    | continuous => exact ⟨x.pace, by rw [toDay_continuous h hm, startDayPass_regimeTimers]; rfl⟩
    | paced => exact ⟨some n, by rw [toDay_paced h hm, startDayPass_regimeTimers]; rfl⟩
    | single => exact ⟨x.pace, by rw [toDay_single h hm]; rfl⟩

/-! ## O38 -/

/-- Settles O38: the regime by the mode, and each change of it by the scanner's state. -/
theorem regimeFollowsTheGallery : Obligations.RegimeFollowsTheGallery := by
  intro s t serving regime
  have hoff (h : s.scanner.regime ≠ .off) (hr : regime = .off) : t.scanner = s.scanner.toOff :=
    congrArg State.scanner (reviewRegime_off h hr)
  have hday (h : s.scanner.regime ≠ .day) (hr : regime = .day) : t.scanner = s.scanner.toDay s.timing.paceInterval :=
    congrArg State.scanner (reviewRegime_day h hr)
  have hclosed (h : s.scanner.regime ≠ .closedScan) (hr : regime = .closedScan) :
      t.scanner = s.scanner.toClosedScan s.timing.closedPace :=
    congrArg State.scanner (reviewRegime_closedScan h hr)
  refine ⟨regimeOf_setup, regimeOf_open, fun h hs => ?_, fun h hs => ?_, reviewRegime_same, reviewRegime_eq s, ?_,
    fun h => ?_, hoff, fun h hr => ?_, fun h hr => ?_, fun h hr hx => ?_, ?_⟩
  · classical exact (regimeOf_closed h).trans (if_pos hs)
  · classical exact (regimeOf_closed h).trans (if_neg hs)
  · exact (reviewRegime_regime s).trans (congrArg regimeOf (reviewRegime_eq s) :)
  · cases hr : regime with
    | off => rw [hoff (hr ▸ h) hr]; rfl
    | day =>
      obtain ⟨pace, ht⟩ := toDay_regimeTimers s.timing.paceInterval s.scanner
      rw [hday (hr ▸ h) hr]
      exact congrArg Prod.fst ht
    | closedScan =>
      rw [hclosed (hr ▸ h) hr]
      exact congrArg Prod.fst (toClosedScan_regimeTimers _ _)
  · have ht := congrArg Prod.snd (toClosedScan_regimeTimers s.timing.closedPace s.scanner)
    rw [hclosed (hr ▸ h) hr]
    exact ⟨congrArg Prod.fst ht, congrArg Prod.snd ht⟩
  · obtain ⟨pace, ht⟩ := toDay_regimeTimers s.timing.paceInterval s.scanner
    rw [hday (hr ▸ h) hr]
    exact congrArg (fun x => x.2.2) ht
  · cases hc : regime with
    | off => exact absurd hc hr
    | day => rw [hday (hc ▸ h) hc, toDay_powersUp (.inl hx)]; exact ⟨rfl, rfl⟩
    | closedScan => rw [hclosed (hc ▸ h) hc, toClosedScan_powersUp hx]; exact ⟨rfl, rfl⟩
  · intro x warming waiting day closed
    have hpass (y : Scanner) : closed y = y.closedPassFrom 0 := (closedPassFrom_zero y).symm
    constructor
    · intro h hr y
      have hd := hday h hr
      exact ⟨fun hx => hd.trans (toDay_powersUp hx), fun hx => hd.trans (toDay_runsOn (.inl hx)),
        fun hx hm => hd.trans (toDay_continuous hx hm), fun hx hm => hd.trans (toDay_paced hx hm),
        fun hx hm => hd.trans (toDay_single hx hm)⟩
    · intro h hr y
      have hc := hclosed h hr
      rw [hpass]
      exact ⟨fun hx => hc.trans (toClosedScan_powersUp hx), fun hx => hc.trans (toClosedScan_runsOn (.inl hx)),
        fun hx => hc.trans (toClosedScan_starts hx)⟩

end Sys2Proof.Machine
end

section
/-! PROOFS. SCAN-LIST and SCAN-ONCE (O39). -/

namespace Sys2Proof.Machine

/-! ## What a new list and a request make the scanner do (R72, R73) -/

section
variable {x : Scanner} {list : List ScanEntry}

theorem relist_day (hr : x.regime = .day)
    (h : x.state = .converting ∨ x.state = .waiting ∧ x.dayMode = .continuous) :
    x.relist list = ({ x with scanList := list } : Scanner).startDayPass := by
  unfold Scanner.relist
  rcases h with h | ⟨h, hm⟩
  · rw [h, hr]
  · rw [h, hr, hm]

theorem relist_closedScan (hr : x.regime = .closedScan) (h : x.state = .converting) :
    x.relist list = ({ x with scanList := list } : Scanner).closedPassFrom 0 := by
  unfold Scanner.relist
  rw [h, hr]

theorem relist_keeps (h : (x.state = .waiting ∧ x.dayMode ≠ .continuous) ∨ x.state = .warming ∨ x.state = .dozing) :
    x.relist list = { x with scanList := list } := by
  unfold Scanner.relist
  split
  · simp_all
  · simp_all
  · simp_all
  · rfl

theorem requestPass_starts (h : x.state = .waiting ∨ x.state = .converting) : x.requestPass = x.startDayPass := by
  unfold Scanner.requestPass
  rcases h with h | h <;> rw [h]

theorem requestPass_warming (h : x.state = .warming) : x.requestPass = { x with passRequested := true } := by
  unfold Scanner.requestPass
  rw [h]

end

/-! ## The body of SCAN-LIST -/

section
variable {port : Port} {p : List Byte} {s : State}

theorem scanListBody_count (h : byteAt p 0 = 0 ∨ 40 < byteAt p 0) :
    Command.body .scanList port p s = refuse .badValue s := if_pos h

section
variable (h0 : byteAt p 0 ≠ 0) (h40 : byteAt p 0 ≤ 40)
include h0 h40

theorem scanListBody_bad {i : Nat} (h : scanEntriesFrom p (byteAt p 0) 1 0 = .error i) :
    Command.body .scanList port p s = refuseWith .badValue (num1 i) s := by
  show scanListBody port p s = _
  unfold scanListBody
  rw [if_neg (by omega), h]

theorem scanListBody_unused {list : List ScanEntry} {i : Nat} (h : scanEntriesFrom p (byteAt p 0) 1 0 = .ok list)
    (hu : firstUnused s list = some i) : Command.body .scanList port p s = refuseWith .badValue (num1 i) s := by
  show scanListBody port p s = _
  unfold scanListBody
  rw [if_neg (by omega), h]
  dsimp only
  rw [hu]

theorem scanListBody_replaces {list : List ScanEntry} (h : scanEntriesFrom p (byteAt p 0) 1 0 = .ok list)
    (hu : firstUnused s list = none) :
    Command.body .scanList port p s = accept [] (s.modScanner (Scanner.relist list)) := by
  show scanListBody port p s = _
  unfold scanListBody
  rw [if_neg (by omega), h]
  dsimp only
  rw [hu]

end
end

/-! ## The answers of SCAN-LIST -/

section
variable {s : State} (had : Admitted .scanList .showPort s)
include had

/-- A count of 0 or above 40 is refused before any entry is read. -/
theorem scanList_count {count : Byte} {rest : List Byte} (hc : count.toNat = 0 ∨ 40 < count.toNat)
    (hrest : rest.length = 2 * count.toNat) (hlen : rest.length ≤ 199) :
    Answers .scanList .showPort (count :: rest) s .badValue [] s := by
  refine answers_body had ?_ ?_ (scanListBody_count hc)
  · rw [List.length_cons]
    omega
  · simp only [Command.lengthOk, List.length_cons, byteAt_cons_zero, hrest]
    simp [Nat.add_comm]

/-- The first bad entry is named, whatever follows it. -/
theorem scanList_firstBad {before : List ScanEntry} {count b flag : Byte} {after : List Byte}
    (hbad : 31 < b.toNat ∨ 1 < flag.toNat) (hc : count.toNat ≤ 40) (hlt : before.length < count.toNat)
    (hafter : after.length = 2 * (count.toNat - before.length - 1)) :
    Answers .scanList .showPort (count :: (before.flatMap entryBytes ++ b :: flag :: after)) s .badValue
      (num1 before.length) s := by
  have hlen : (count :: (before.flatMap entryBytes ++ b :: flag :: after)).length = 1 + 2 * count.toNat := by
    simp only [List.length_cons, List.length_append, length_entries, hafter]
    omega
  refine answers_body had (by omega) ?_ (scanListBody_bad (i := before.length) ?_ ?_ ?_)
  · simp [Command.lengthOk, hlen]
  · rw [byteAt_cons_zero]
    omega
  · exact hc
  · exact scanEntriesFrom_firstBad hbad [count] after hlt

section
variable {list : List ScanEntry} (h1 : 1 ≤ list.length) (h40 : list.length ≤ 40)
include h1 h40

/-- A list of 1 to 40 entries is read whole; its body decides. -/
theorem scanList_read {t : State} {st : Status} {reply : List Byte}
    (h : ∀ p : List Byte, byteAt p 0 ≠ 0 → byteAt p 0 ≤ 40 → scanEntriesFrom p (byteAt p 0) 1 0 = .ok list →
      Command.body .scanList .showPort p s = (t, ⟨st, reply⟩)) :
    Answers .scanList .showPort (BitVec.ofNat 8 list.length :: list.flatMap entryBytes) s st reply t := by
  have hcount : (BitVec.ofNat 8 list.length).toNat = list.length := by simp; omega
  have hlen : (BitVec.ofNat 8 list.length :: list.flatMap entryBytes).length = 1 + 2 * list.length := by
    rw [List.length_cons, length_entries, Nat.add_comm]
  refine answers_body had (by omega) ?_ (h _ ?_ ?_ ?_)
  · simp [Command.lengthOk, hlen]
    omega
  · rw [byteAt_cons_zero, hcount]
    omega
  · rw [byteAt_cons_zero, hcount]
    exact h40
  · rw [byteAt_cons_zero, hcount]
    exact scanEntriesFrom_whole list [BitVec.ofNat 8 list.length]

theorem scanList_unused {i : Nat} (hu : firstUnused s list = some i) :
    Answers .scanList .showPort (BitVec.ofNat 8 list.length :: list.flatMap entryBytes) s .badValue (num1 i) s :=
  scanList_read had h1 h40 fun _ h0 hc hl => scanListBody_unused h0 hc hl hu

theorem scanList_replaces (hu : firstUnused s list = none) {y : Scanner} (hy : s.scanner.relist list = y) :
    Answers .scanList .showPort (BitVec.ofNat 8 list.length :: list.flatMap entryBytes) s .ok []
      { s with scanner := y } :=
  scanList_read had h1 h40 fun _ h0 hc hl => hy ▸ scanListBody_replaces h0 hc hl hu

end
end

/-! ## SCAN-ONCE (R73) -/

section
variable {s : State} (had : Admitted .scanOnce .showPort s)
include had

theorem scanOnce_refused (h : ¬ (s.scanner.regime = .day ∧ s.scanner.dayMode = .single)) :
    Answers .scanOnce .showPort [] s .wrongState [] s := answers_body had (by simp) rfl (if_neg h)

theorem scanOnce_requests (h : s.scanner.regime = .day ∧ s.scanner.dayMode = .single) {y : Scanner}
    (hy : s.scanner.requestPass = y) : Answers .scanOnce .showPort [] s .ok [] { s with scanner := y } :=
  hy ▸ answers_body had (by simp) rfl (if_pos h)

end

/-! ## O39 -/

/-- Settles O39: the list read back from its payload, and what the scanner does by its state. -/
theorem scanListAndScanOnce : Obligations.ScanListAndScanOnce := by
  constructor
  · intro list s had item payload unused listed
    have hbytes (l : List ScanEntry) : (l.map item).flatten = l.flatMap entryBytes := List.flatMap_def.symm
    have hpayload : payload = BitVec.ofNat 8 list.length :: list.flatMap entryBytes := congrArg _ (hbytes list)
    refine ⟨fun hnil => ?_, fun i h40 hu => ?_, fun h1 h40 hu => ?_,
      fun before count b flag after hbad hc hlt hafter => ?_,
      fun count rest hc hrest hlen => scanList_count had (.inr hc) hrest hlen⟩
    · rw [hpayload, hnil]
      exact scanList_count had (.inl rfl) rfl (by decide)
    · rw [hpayload]
      obtain ⟨hi, -⟩ := List.findIdx?_eq_some_iff_getElem.1 hu
      exact scanList_unused had (by omega) h40 hu
    · intro goesTo day closed
      have goes {y : Scanner} (hy : s.scanner.relist list = y) : goesTo y := by
        show Answers .scanList .showPort payload s .ok [] _
        rw [hpayload]
        exact scanList_replaces had h1 h40 hu hy
      have hday : listed.startDayPass = day := startDayPass_head (List.ne_nil_of_length_pos h1)
      have hclosed : listed.closedPassFrom 0 = closed := closedPassFrom_zero listed
      exact ⟨fun hs hr => goes ((relist_day hr (.inl hs)).trans hday),
        fun hs hr => goes ((relist_closedScan hr hs).trans hclosed),
        fun hs hr hm => goes ((relist_day hr (.inr ⟨hs, hm⟩)).trans hday),
        fun hs hm => goes (relist_keeps (.inl ⟨hs, hm⟩)), fun hs => goes (relist_keeps (.inr hs))⟩
    · rw [hbytes, List.append_assoc]
      exact scanList_firstBad had hbad hc hlt hafter
  · intro s had single
    exact ⟨scanOnce_refused had,
      fun e rest h hs hl => scanOnce_requests had h ((requestPass_starts hs).trans (startDayPass_cons hl)),
      fun h hs hl => scanOnce_requests had h ((requestPass_starts hs).trans (startDayPass_nil hl)),
      fun h hs => scanOnce_requests had h (requestPass_warming hs)⟩

end Sys2Proof.Machine
end

section
/-! PROOFS. SCAN-LIMITS (O40). -/

namespace Sys2Proof.Machine

/-! ## The exhibit a channel belongs to (R74, R157) -/

theorem boundAxis_eq_some_iff (x : Channel) (a : AxisId) :
    x.boundAxis = some a ↔ (x.role = .position ∨ x.role = .current) ∧ x.binding = some (.axis a) := by
  unfold Channel.boundAxis
  split
  · simp_all
  · simp_all
  · rename_i hposition hcurrent
    exact iff_of_false (by simp) fun ⟨hr, hb⟩ => hr.elim (hposition a · hb) (hcurrent a · hb)

theorem exhibitOfChannel_eq_some_iff (s : State) (c : ChannelId) (e : ExhibitId) :
    exhibitOfChannel s c = some e ↔
      ((s.channel c).role = .presence ∧ (s.channel c).binding = some (.exhibit e)) ∨
      ∃ a, (s.channel c).boundAxis = some a ∧ (s.axis a).exhibit = some e := by
  unfold exhibitOfChannel
  split
  · simp_all [boundAxis_eq_some_iff]
  · simp_all [Option.bind_eq_some_iff]

/-- Whether a channel is in SERVICE, by its binding (check 2 of R74). -/
theorem channelInService_iff (s : State) (c : ChannelId) :
    channelInService s c = true ↔
      ((s.channel c).role = .presence ∧ ∃ e, (s.channel c).binding = some (.exhibit e) ∧
        (s.exhibit e).state = .service) ∨
      (((s.channel c).role = .position ∨ (s.channel c).role = .current) ∧
        ∃ a e, (s.channel c).binding = some (.axis a) ∧ (s.axis a).exhibit = some e ∧
          (s.exhibit e).state = .service) := by
  have h : channelInService s c = true ↔ ∃ e, exhibitOfChannel s c = some e ∧ (s.exhibit e).state = .service := by
    unfold channelInService inService
    cases exhibitOfChannel s c <;> simp
  simp only [h, exhibitOfChannel_eq_some_iff, boundAxis_eq_some_iff]
  constructor
  · rintro ⟨e, ⟨hr, hb⟩ | ⟨a, ⟨hr, hb⟩, he⟩, hs⟩
    · exact .inl ⟨hr, e, hb, hs⟩
    · exact .inr ⟨hr, a, e, hb, he, hs⟩
  · rintro (⟨hr, e, hb, hs⟩ | ⟨hr, a, e, hb, he, hs⟩)
    · exact ⟨e, .inl ⟨hr, hb⟩, hs⟩
    · exact ⟨e, .inr ⟨a, ⟨hr, hb⟩, he⟩, hs⟩

/-- The limits of a POSITION channel enclose the target limits of its axis (check 4 of R74). -/
theorem limitsEnclose_iff (s : State) (c : ChannelId) (lower upper : Nat) :
    limitsEnclose s c lower upper = true ↔
      ∀ a, (s.channel c).role = .position → (s.channel c).binding = some (.axis a) →
        lower ≤ (s.axis a).targetMin ∧ (s.axis a).targetMax ≤ upper := by
  unfold limitsEnclose
  split
  · simp_all [encloses]
  · simp_all

/-! ## The new limits -/

theorem handWindow_channel (c d : ChannelId) (s : State) : (handWindow c s).channel d = s.channel d :=
  (congrArg (fun v : Vector Channel 32 => v.get d) (KeepsChannels.free.floor.handWindow c s) :)

theorem conclude_channel (s : State) (d : ChannelId) : (conclude s).channel d = s.channel d :=
  (congrArg (fun v : Vector Channel 32 => v.get d) (KeepsChannels.free.floor.conclude s) :)

/-- The window stays UNKNOWN while it is handed on (R74). -/
theorem setLimits_window (c : ChannelId) (lower upper : Nat) (s : State) :
    ((setLimits c lower upper s).channel c).window = .unknown := by
  unfold setLimits
  dsimp only
  split
  · rw [modChannel_channel_same]
    rfl
  · rw [handWindow_channel, modChannel_channel_same]
    rfl

/-! ## The body -/

section
variable {port : Port} {p : List Byte} {s : State} {c : ChannelId} (hc : channelAt p 0 = some c)
include hc

theorem scanLimitsBody_inService (h : channelInService s c = true) :
    Command.body .scanLimits port p s = refuse .wrongState s := by
  show scanLimitsBody port p s = _
  unfold scanLimitsBody
  rw [hc]
  exact if_pos h

/-- Outside SERVICE the two checks of the limits decide. -/
theorem scanLimitsBody_eq (h : ¬ channelInService s c = true) {lower upper : Nat} (hl : wordAt p 1 = lower)
    (hu : wordAt p 3 = upper) :
    Command.body .scanLimits port p s
      = if (lower ≤ 4095 ∧ upper ≤ 4095 ∧ lower ≤ upper) ∧ limitsEnclose s c lower upper = true then
          accept (num1 0) (conclude (setLimits c lower upper s))
        else refuse .badValue s := by
  show scanLimitsBody port p s = _
  unfold scanLimitsBody
  rw [hc, hl, hu]
  dsimp only
  rw [if_neg h]
  by_cases hr : 4095 < lower ∨ 4095 < upper ∨ upper < lower
  · rw [if_pos hr, if_neg fun hx => by omega]
  · rw [if_neg hr]
    by_cases he : limitsEnclose s c lower upper = true
    · rw [if_pos he, if_pos ⟨by omega, he⟩, conclude_channel, setLimits_window]
      rfl
    · rw [if_neg he, if_neg fun hx => he hx.2]

end

/-! ## O40 -/

/-- Settles O40: the checks in their order, and the window handed on when it was decided. -/
theorem scanLimitsResetTheWindow : Obligations.ScanLimitsResetTheWindow := by
  intro c lower upper s had payload inOrder encl serving set
  have hc : channelAt payload 0 = some c := channelAt_head c _
  have hserving : channelInService s c = true ↔ serving := channelInService_iff s c
  have hencl : limitsEnclose s c lower.toNat upper.toNat = true ↔ encl := limitsEnclose_iff s c _ _
  have hbody (h : ¬ serving) := scanLimitsBody_eq (port := .showPort) hc (mt hserving.1 h) (word_of_bytes lower)
    (word_of_bytes upper)
  have answer {t : State} {st : Status} {reply : List Byte} :
      Command.body .scanLimits .showPort payload s = (t, ⟨st, reply⟩) →
        Answers .scanLimits .showPort payload s st reply t := answers_body had (by simp [payload]) rfl
  have accepted (h : ¬ serving) (ho : inOrder) (he : encl) :
      Answers .scanLimits .showPort payload s .ok (num1 0) (conclude (setLimits c lower.toNat upper.toNat s)) :=
    answer ((hbody h).trans (if_pos ⟨ho, hencl.2 he⟩))
  refine ⟨fun h => answer (scanLimitsBody_inService hc (hserving.2 h)),
    fun h hn => answer
      ((hbody h).trans (if_neg fun hx => hn ⟨hx.1, hencl.1 hx.2⟩)), fun h ho he hw => ?_, fun h ho he hw => ?_⟩
  · have hset : setLimits c lower.toNat upper.toNat s = set := if_pos hw
    exact hset ▸ accepted h ho he
  · have hset : setLimits c lower.toNat upper.toNat s = handWindow c set := if_neg hw
    exact hset ▸ accepted h ho he

end Sys2Proof.Machine
end

section
/-! PROOFS. SENSE-READ (O41). -/

namespace Sys2Proof.Machine

/-! ## The channels read -/

/-- The channels from `first` on are numbered in order (R75). -/
theorem map_val_channelsFrom {first count : Nat} (h : first + count ≤ 32) :
    (channelsFrom first count).map Fin.val = List.range' first count := by
  have hfilter : (List.range 32).filter (fun k => decide (first ≤ k) && decide (k < first + count))
      = List.Ico first (first + count) := by
    rw [← List.filter_filter, ← List.Ico.zero_bot, List.Ico.filter_lt, List.Ico.filter_le, Nat.zero_max,
      Nat.min_eq_right h]
  rw [← List.map_coe_finRange_eq_range, List.filter_map, List.Ico, Nat.add_sub_cancel_left] at hfilter
  exact hfilter

theorem length_channelsFrom {first count : Nat} (h : first + count ≤ 32) :
    (channelsFrom first count).length = count := by
  rw [← List.length_map Fin.val, map_val_channelsFrom h, List.length_range']

theorem channelsFrom_get {first count k : Nat} (h : first + count ≤ 32) (hk : k < count) :
    ((channelsFrom first count)[k]?).map Fin.val = some (first + k) := by
  rw [← List.getElem?_map, map_val_channelsFrom h, List.getElem?_range' hk, Nat.one_mul]

/-! ## The body -/

section
variable {port : Port} {first count : Byte} {s : State} (had : Admitted .senseRead port s)
include had

theorem senseRead_noSuch (h : 31 < first.toNat) : Answers .senseRead port [first, count] s .noSuch [] s :=
  answers_body had (by simp) rfl (if_pos h)

theorem senseRead_badValue (h : first.toNat ≤ 31)
    (hb : count.toNat = 0 ∨ 8 < count.toNat ∨ 32 < first.toNat + count.toNat) :
    Answers .senseRead port [first, count] s .badValue [] s :=
  answers_body had (by simp) rfl ((if_neg (Nat.not_lt.2 h)).trans (if_pos hb))

theorem senseRead_reads (h : first.toNat ≤ 31)
    (hb : ¬ (count.toNat = 0 ∨ 8 < count.toNat ∨ 32 < first.toNat + count.toNat)) :
    Answers .senseRead port [first, count] s .ok
      (scannerReport s ++ listBytes ((channelsFrom first.toNat count.toNat).map fun c => channelReport s c)) s :=
  answers_body had (by simp) rfl ((if_neg (Nat.not_lt.2 h)).trans (if_neg hb))

end

/-! ## O41 -/

/-- A number of four bytes is two numbers of two (R200). -/
theorem num4_eq_num2 (n : Nat) : num4 n = num2 n ++ num2 (n / 65536) := by
  unfold num4 num2
  rw [Nat.div_div_eq_div_mul]
  rfl

/-- Settles O41: the channels by their numbers, and the record of each as the model writes it. -/
theorem senseReadReadsChannels : Obligations.SenseReadReadsChannels := by
  intro port first count s hready bad low two record
  have had : Admitted .senseRead port s :=
    ⟨hready, by cases port <;> decide, by show s.mode ∈ everyMode; cases s.mode <;> decide⟩
  have hbad : bad ↔ count.toNat = 0 ∨ 8 < count.toNat ∨ 32 < first.toNat + count.toNat := by
    rw [byte_toNat_eq_zero]
  have hrole (r : ChannelRole) : num1 r.code = [match r with
      | .none => 0 | .position => 1 | .current => 2 | .presence => 3 | .supply => 4 | .general => 5] := by
    cases r <;> rfl
  have hbinding (b : Option Binding) : optBytes 1 (fun b => num1 b.number) b = match b with
      | none => [0, 0]
      | some (.axis a) => [1, low a.val]
      | some (.exhibit e) => [1, low e.val] := by
    rcases b with _ | _ | _ <;> rfl
  have hvalue (y : Option Sample) : optBytes 2 (fun y => num2 y.value) y = match y with
      | none => [0, 0, 0]
      | some y => 1 :: two y.value := by
    cases y <;> rfl
  have htime (y : Option Sample) : optBytes 4 (fun y => clockBytes y.time) y = match y with
      | none => [0, 0, 0, 0, 0]
      | some y => 1 :: (two y.time.toNat ++ two (y.time.toNat / 65536)) := by
    cases y with
    | none => rfl
    | some y => exact congrArg (1 :: ·) (num4_eq_num2 y.time.toNat)
  have hwindow (w : Window) : num1 w.code = [match w with
      | .unknown => 0 | .below => 1 | .inside => 2 | .above => 3] := by
    cases w <;> rfl
  have hcandidate (z : Option Zone) : optBytes 1 (fun z => num1 z.code) z = match z with
      | none => [0, 0] | some .below => [1, 0] | some .inside => [1, 1] | some .above => [1, 2] := by
    rcases z with _ | _ | _ | _ <;> rfl
  have hposition (i : Option Nat) : optBytes 1 num1 i = match i with
      | none => [0, 0]
      | some i => [1, BitVec.ofNat 8 i] := by
    cases i <;> rfl
  have hrecord : channelReport s = record := by
    funext c
    unfold channelReport
    dsimp only
    rw [hrole, hbinding, hvalue, htime, hwindow, hcandidate]
    rfl
  refine ⟨senseRead_noSuch had, fun h hb => senseRead_badValue had h (hbad.1 hb), fun h hb => ?_⟩
  have hin : first.toNat + count.toNat ≤ 32 := by
    have := mt hbad.2 hb
    omega
  refine ⟨channelsFrom first.toNat count.toNat, length_channelsFrom hin, fun k hk => channelsFrom_get hin hk, ?_⟩
  have hread := senseRead_reads had h (mt hbad.2 hb)
  have hcount : num1 count.toNat = [count] := by
    unfold num1
    rw [BitVec.ofNat_toNat, BitVec.setWidth_eq]
  unfold scannerReport listBytes at hread
  rw [List.length_map, length_channelsFrom hin, hcount, hposition, hrecord] at hread
  exact hread

end Sys2Proof.Machine
end

section
/-! PROOFS. Every step keeps the drives and the start arbiter's agreement with the axes (O6). -/

namespace Sys2Proof.Machine

/-! ## The drives -/

/-- A step that leaves the axes. -/
theorem Kept.drives {s t : State} (h : t.axes = s.axes) : Kept DrivesOk s t := fun hs a => by
  simpa [State.axis, h] using hs a

/-- The drives are kept by every command, whose moves are sound. -/
theorem DrivesOk.acts : Acts (Kept DrivesOk) := Sound.acts.widen Sound.drives fun a b => b ∘ a

/-- One millisecond leaves the states and the drives. -/
theorem DrivesOk.tick {s : State} (hs : DrivesOk s) : DrivesOk (clockTick s) := fun a => by
  simpa [clockTick, State.axis, Axis.tick, DriveOk] using hs a

/-- ACCELERATING and MOVING both drive, so the end of an acceleration leaves the drive right (R84). -/
theorem DrivesOk.accelerated {s : State} {a : AxisId} (ha : (s.axis a).state = .accelerating) (hs : DrivesOk s) :
    DrivesOk ((returnUnits a s).modAxis a fun x => { x with state := .moving }) := fun b => by
  rw [axis_modAxis]
  split
  · have hon : (s.axis a).drive ≠ .off := (hs a).2 (by rw [ha]; rfl)
    exact iff_of_true hon rfl
  · exact hs b

/-- The drives are kept by every event. -/
theorem DrivesOk.steps : Steps (Kept DrivesOk) where
  toActs := DrivesOk.acts
  serves code p s hs := Kept.drives rfl ((perform_sound .servicePort code p s).drives hs)
  pins _ _ := Kept.drives rfl
  ticks _ hs := hs.tick
  resets _ _ := Kept.drives rfl drivesOk_reset
  released _ := Kept.drives rfl
  accelerated _ _ ha hs := hs.accelerated ha

/-- Settles O6: both are kept by every event, and neither looks at the waiting commands. -/
theorem drivesOkKept : Obligations.DrivesOkKept :=
  ⟨fun s t hs ht => step_steps DrivesOk.steps (fun _ _ => Kept.drives rfl) s t ht hs,
    fun s t hs ht => step_steps ArbiterOk.steps (fun _ _ => Kept.arbiter rfl rfl rfl rfl rfl) s t ht hs⟩

end Sys2Proof.Machine
end

section
/-! PROOFS. The start arbiter's evaluation (O46). -/

namespace Sys2Proof.Machine

/-! ## A fault adds nothing to the start queue

The evaluation is bounded by the length of the queue before it, so what counts is that the queue after a fault is a
sublist of the queue before. -/

/-- A loop that withdraws axes leaves a sublist of the start queue. -/
theorem Withdraws.startQueue_sublist {op : AxisId → State → State} {p : Axis → Bool} {g : Axis → Axis}
    (h : Withdraws op p g) (l : List AxisId) (s : State) :
    (forList l op s).arbiter.startQueue.Sublist s.arbiter.startQueue := by
  rw [h.list_startQueue]
  exact List.filter_sublist

theorem releaseAxis_startQueue_sublist (a : AxisId) (s : State) :
    (releaseAxis a s).arbiter.startQueue.Sublist s.arbiter.startQueue := by
  unfold releaseAxis
  split
  · exact List.filter_sublist
  all_goals exact List.Sublist.refl _

theorem stopFrameAxes_startQueue_sublist (f : FrameId) (s : State) :
    (stopFrameAxes f s).arbiter.startQueue.Sublist s.arbiter.startQueue := by
  simp only [stopFrameAxes_eq, (stopMoved_withdraws f).list_startQueue]
  exact List.filter_sublist

theorem retireActive_startQueue_sublist {e : ExhibitId} (o : CueOutcome) (a : Option AxisId) {s : State}
    (hr : (s.exhibit e).state ≠ .running) :
    (retireActive e o a s).arbiter.startQueue.Sublist s.arbiter.startQueue := by
  cases h : (s.exhibit e).active with
  | none => rw [retireActive_of_none o a h]
  | some f =>
    have hstop := stopFrameAxes_startQueue_sublist f (retireFrame f e o a s)
    rw [retireFrame_arbiter] at hstop
    rw [retireActive_of_some o a h hr]
    exact hstop

theorem emptied_startQueue_sublist {e : ExhibitId} {n : ExhibitState} (o : CueOutcome) (a : Option AxisId) (s : State)
    (hn : n ≠ .running) : (emptied e n o a s).arbiter.startQueue.Sublist s.arbiter.startQueue := by
  have hr : ((changeState e n s).exhibit e).state ≠ .running := by simpa using hn
  have hq : (emptied e n o a s).arbiter = (retireActive e o a (changeState e n s)).arbiter :=
    (retireList_axes e _ _ _ _).2
  rw [hq, ← changeState_arbiter e n s]
  exact retireActive_startQueue_sublist o a hr

theorem exhibitFault_startQueue_sublist (e : ExhibitId) (a : AxisId) (s : State) :
    (exhibitFault e a s).arbiter.startQueue.Sublist s.arbiter.startQueue := by
  by_cases h : (s.exhibit e).inUse
  · rw [exhibitFault_of_inUse h]
    exact (stopAxis_withdraws.startQueue_sublist _ _).trans (emptied_startQueue_sublist _ _ _ (by decide))
  · rw [exhibitFault_of_not_inUse h]

theorem faultAxis_startQueue_sublist (a : AxisId) (c : FaultCause) (s : State) :
    (faultAxis a c s).arbiter.startQueue.Sublist s.arbiter.startQueue := by
  by_cases h : (s.axis a).state = .disabled ∨ (s.axis a).state = .faulted
  · rw [faultAxis_unaffected h]
  · obtain ⟨hd, hf⟩ := not_or.1 h
    have hreport : (faultReported a c s).arbiter.startQueue.Sublist s.arbiter.startQueue := by
      rw [faultReported_arbiter]
      exact releaseAxis_startQueue_sublist a s
    cases hx : (s.axis a).exhibit with
    | none => rwa [faultAxis_none hd hf hx]
    | some e =>
      rw [faultAxis_some hd hf hx]
      exact (exhibitFault_startQueue_sublist e a _).trans hreport

/-! ## A grant -/

theorem modArbiter_congr (s : State) (f g : Arbiter → Arbiter) (h : f s.arbiter = g s.arbiter) :
    s.modArbiter f = s.modArbiter g := by
  simp only [State.modArbiter, h]

/-- A grant takes the head from the queue, charges its cost and starts its timer (R106). -/
theorem chargeGrant_eq {s : State} {a : AxisId} {rest : List AxisId} (hq : s.arbiter.startQueue = a :: rest) :
    chargeGrant a s = s.modArbiter fun y => { y with
      startQueue := rest, unitsInUse := y.unitsInUse + (s.axis a).startCost
      accel := modTable y.accel a fun _ => some (s.axis a).accelTime } :=
  modArbiter_congr s _ _ (by rw [hq, List.tail_cons])

/-- What is charged to the head of the start queue and returned at once leaves its place and its timer alone. -/
theorem returnUnits_chargeGrant {s : State} {a : AxisId} {rest : List AxisId} (hq : s.arbiter.startQueue = a :: rest) :
    returnUnits a (chargeGrant a s)
      = s.modArbiter fun y => { y with startQueue := rest, accel := modTable y.accel a fun _ => none } := by
  rw [chargeGrant_eq hq]
  simp only [returnUnits, State.modArbiter, modTable_modTable, State.axis, Nat.add_sub_cancel]

theorem grant_stale {s : State} {a : AxisId} (h : feedbackStale s a = true) :
    grant a s = faultAxis a .noFeedback (returnUnits a (chargeGrant a s)) := if_pos h

theorem grant_fresh {s : State} {a : AxisId} (h : feedbackStale s a = false) :
    grant a s = startDrive a (chargeGrant a s) :=
  if_neg (by simp [show feedbackStale (chargeGrant a s) a = false from h])

theorem startDrive_arbiter (a : AxisId) (s : State) : (startDrive a s).arbiter = s.arbiter := by
  unfold startDrive
  split <;> rfl

theorem startDrive_of {s : State} {a : AxisId} {m : Move} {p : Sample} (hm : (s.axis a).move = some m)
    (hp : positionSampleOf s a = some p) :
    startDrive a s = s.modAxis a fun x =>
      { x.driveOn (directionTo m.target p.value) m.speed with
        state := .accelerating, travel := some x.travelLimit } := by
  unfold startDrive
  rw [hm, hp]

/-- After a grant the queue holds at most what stood behind the head. -/
theorem grant_startQueue_sublist {s : State} {a : AxisId} {rest : List AxisId}
    (hq : s.arbiter.startQueue = a :: rest) : (grant a s).arbiter.startQueue.Sublist rest := by
  have htail : (chargeGrant a s).arbiter.startQueue = rest := congrArg List.tail hq
  cases h : feedbackStale s a with
  | true =>
    rw [grant_stale h, ← htail]
    exact faultAxis_startQueue_sublist a _ (returnUnits a (chargeGrant a s))
  | false => rw [grant_fresh h, startDrive_arbiter, htail]

/-- The feedback is stale when there is no latest sample, or it is too old (R83, R86). -/
theorem feedbackStale_iff (s : State) (a : AxisId) :
    feedbackStale s a = true ↔
      ∀ p, positionSampleOf s a = some p → (s.axis a).feedbackTimeout < elapsed p.time s.clock := by
  unfold feedbackStale
  split <;> simp_all

/-! ## The evaluation -/

/-- Tries beyond the length of the queue change nothing. -/
theorem evaluateUpTo_congr : ∀ {m n : Nat} {s : State}, s.arbiter.startQueue.length ≤ m →
    s.arbiter.startQueue.length ≤ n → evaluateUpTo m s = evaluateUpTo n s
  | 0, 0, _, _, _ => rfl
  | 0, n + 1, s, hm, _ => by
    have hq : s.arbiter.startQueue = [] := List.length_eq_zero_iff.1 (Nat.le_zero.1 hm)
    unfold evaluateUpTo
    rw [hq]
  | m + 1, 0, s, _, hn => by
    have hq : s.arbiter.startQueue = [] := List.length_eq_zero_iff.1 (Nat.le_zero.1 hn)
    unfold evaluateUpTo
    rw [hq]
  | m + 1, n + 1, s, hm, hn => by
    unfold evaluateUpTo
    split
    · rfl
    · rename_i a rest hq
      rw [hq, List.length_cons] at hm hn
      have hl := (grant_startQueue_sublist hq).length_le
      rw [evaluateUpTo_congr (hl.trans (Nat.le_of_succ_le_succ hm)) (hl.trans (Nat.le_of_succ_le_succ hn))]

theorem evaluate_nil {s : State} (hq : s.arbiter.startQueue = []) : evaluate s = s := by
  unfold evaluate
  rw [hq]
  rfl

section
variable {s : State} {a : AxisId} {rest : List AxisId} (hq : s.arbiter.startQueue = a :: rest)
include hq

/-- The head is granted, and the evaluation goes on, unless the freeze or the free units hold it back (R106). -/
theorem evaluate_cons :
    evaluate s = if frozen s = true ∨ freeUnits s < (s.axis a).startCost then s else evaluate (grant a s) := by
  have hg : evaluateUpTo rest.length (grant a s) = evaluate (grant a s) :=
    evaluateUpTo_congr (grant_startQueue_sublist hq).length_le le_rfl
  rw [← hg]
  conv => lhs; unfold evaluate
  rw [hq, List.length_cons]
  conv => lhs; unfold evaluateUpTo
  rw [hq]

theorem evaluate_granted (hf : frozen s = false) (hc : (s.axis a).startCost ≤ freeUnits s) :
    evaluate s = evaluate (grant a s) := by
  rw [evaluate_cons hq, if_neg]
  rintro (h | h)
  · rw [hf] at h; cases h
  · omega

end

/-! ## The freeze (R110) -/

theorem supplyChannel_eq_none {s : State} (h : ∀ c, (s.channel c).role ≠ .supply) : supplyChannel s = none :=
  List.find?_eq_none.2 fun c _ => by simpa using h c

/-- The one channel with the role SUPPLY is the SUPPLY channel. -/
theorem supplyChannel_eq_some {s : State} {c : ChannelId} (h : ∀ d, (s.channel d).role = .supply ↔ d = c) :
    supplyChannel s = some c := by
  obtain ⟨d, hd⟩ : ∃ d, supplyChannel s = some d :=
    Option.isSome_iff_exists.1 (List.find?_isSome.2 ⟨c, List.mem_finRange c, by simpa using (h c).2 rfl⟩)
  rw [hd, (h d).1 (by simpa using List.find?_some hd)]

theorem frozen_of_none {s : State} (h : supplyChannel s = none) : frozen s = false := by
  unfold frozen
  rw [h]

theorem frozen_iff_of_some {s : State} {c : ChannelId} (h : supplyChannel s = some c) :
    frozen s = true ↔ (s.channel c).window = .below ∨ (s.channel c).window = .unknown := by
  unfold frozen
  rw [h]
  simp

/-! ## O46 -/

/-- Settles O46: the evaluation is one grant and the evaluation after it, and a grant drives the axis or faults it. -/
theorem arbiterGrantsTheHead : Obligations.ArbiterGrantsTheHead := by
  intro s
  refine ⟨evaluate_nil, fun h => frozen_of_none (supplyChannel_eq_none h),
    fun c h => frozen_iff_of_some (supplyChannel_eq_some h), fun a rest hq => ?_⟩
  intro x free granted
  have hcharge : chargeGrant a s = granted := chargeGrant_eq hq
  refine ⟨fun h => (evaluate_cons hq).trans (if_pos h), fun m p hf hc hm hp ht => ?_, fun hstale => ?_⟩
  · have hfresh : feedbackStale s a = false := by
      rw [← Bool.not_eq_true, feedbackStale_iff]
      exact fun h => absurd (h p hp) (Nat.not_lt.2 ht)
    have hdrive := startDrive_of (s := chargeGrant a s) (a := a) hm hp
    rw [hcharge] at hdrive
    rw [evaluate_granted hq hf hc, grant_fresh hfresh, hcharge, hdrive]
    rfl
  · have hgrant := grant_stale ((feedbackStale_iff s a).2 hstale)
    rw [returnUnits_chargeGrant hq] at hgrant
    exact ⟨hgrant, fun hf hc => (evaluate_granted hq hf hc).trans (congrArg evaluate hgrant)⟩

end Sys2Proof.Machine
end

section
/-! PROOFS. The timers of an axis (O43). -/

namespace Sys2Proof.Machine

theorem exec_accelerationTimerExpiry {a : AxisId} {s : State} (h : s.inReset = false) :
    exec (.accelerationTimerExpiry a) s = .next (drivePins (accelerationEnds a s)) := occur_next h

theorem exec_feedbackTimeout {a : AxisId} {s : State} (h : s.inReset = false) :
    exec (.feedbackTimeout a) s = .next (drivePins (feedbackExpires a s)) := occur_next h

theorem exec_travelTimerExpiry {a : AxisId} {s : State} (h : s.inReset = false) :
    exec (.travelTimerExpiry a) s = .next (drivePins (travelExpires a s)) := occur_next h

theorem driving_iff (x : AxisState) : x.driving = true ↔ x = .accelerating ∨ x = .moving := by
  cases x <;> simp [AxisState.driving]

/-- The conclusion of an event disturbs nothing that stands. -/
theorem concluded_undisturbed {s t : State} (h : Undisturbed s t) : Undisturbed s (conclude t) :=
  h.trans (Undisturbed.wide.toFloor.conclude t)

theorem faulted_undisturbed (a : AxisId) (c : FaultCause) (s : State) : Undisturbed s (conclude (faultAxis a c s)) :=
  concluded_undisturbed (Undisturbed.wide.toFloor.faultAxis a c s)

/-- The end of an acceleration disturbs nothing that stands (R84, R108). -/
theorem accelerated_undisturbed {a : AxisId} {s : State} (h : (s.axis a).state = .accelerating) :
    Undisturbed s ((returnUnits a s).modAxis a fun x => { x with state := .moving }) :=
  (Undisturbed.coarse.arbiter s _).trans (Undisturbed.coarse.axis (returnUnits a s) a _
    (fun hd => iff_of_true (hd.2 (by rw [returnUnits, modArbiter_axis, h]; rfl)) rfl) (by exact fun _ => rfl))

/-- Settles O43: each expiry is one operation and its conclusion when it can occur, and nothing otherwise. -/
theorem axisTimersExpire : Obligations.AxisTimersExpire := by
  intro a s hs x driving stale ended moving faulted goesTo
  have hdriving : x.state.driving = true ↔ driving := driving_iff _
  have hstale : feedbackStale s a = true ↔ stale := feedbackStale_iff s a
  refine ⟨fun h => ⟨?_, concluded_undisturbed (accelerated_undisturbed h.1)⟩, fun h => ⟨?_, .refl s⟩,
    fun hd hx => ⟨?_, faulted_undisturbed a _ s⟩, fun h => ⟨?_, .refl s⟩,
    fun hd hx => ⟨?_, faulted_undisturbed a _ s⟩, fun h => ⟨?_, .refl s⟩⟩
  · rw [exec_accelerationTimerExpiry hs, accelerationEnds, if_pos h]
    rfl
  · rw [exec_accelerationTimerExpiry hs, accelerationEnds, if_neg h]
  · rw [exec_feedbackTimeout hs, feedbackExpires, if_pos ⟨hdriving.2 hd, hstale.2 hx⟩]
  · rw [exec_feedbackTimeout hs, feedbackExpires, if_neg fun hx => h ⟨hdriving.1 hx.1, hstale.1 hx.2⟩]
  · rw [exec_travelTimerExpiry hs, travelExpires, if_pos ⟨hdriving.2 hd, hx⟩]
  · rw [exec_travelTimerExpiry hs, travelExpires, if_neg fun hx => h ⟨hdriving.1 hx.1, hx.2⟩]

end Sys2Proof.Machine
end

section
/-! PROOFS. The judgement of a settled axis (O44). -/

namespace Sys2Proof.Machine

theorem exec_settleTimerExpiry {a : AxisId} {s : State} (h : s.inReset = false) :
    exec (.settleTimerExpiry a) s = .next (drivePins (settleExpires a s)) := occur_next h

/-- The judgement compares the latest sample with the target (R89). -/
theorem judgeSettled_of {a : AxisId} {s : State} {m : Move} {p : Sample} (hm : (s.axis a).move = some m)
    (hp : positionSampleOf s a = some p) :
    judgeSettled a s = if distance p.value m.target ≤ (s.axis a).tolerance then settleAxis a p.value m.source s
      else correctAxis a s := by
  unfold judgeSettled
  rw [hm, hp]

/-- What an arrival makes of an axis (R89). -/
def Axis.arrived (x : Axis) : Axis := { x.quit with state := .idle, corrections := 0, move := none }

/-- An arrival reports the sample and the step of the move, and the runner is told (R89). -/
theorem settleAxis_eq (a : AxisId) (v : Nat) (source : MoveSource) (s : State) :
    settleAxis a v source s
      = tellRunner source (emit [floorQueue s (s.axis a).exhibit]
          (axisEvent .axisArrived a (s.axis a) (some (BitVec.ofNat 16 v))) (s.modAxis a Axis.arrived)) := by
  unfold settleAxis reportArrival
  dsimp only
  rw [emit_modAxis, modAxis_modAxis, modAxis_axis_same, floorQueue_congr (s := s) rfl]
  rfl

/-- Settles O44: the judgement is an arrival, a correction or a fault, by the distance and the corrections made. -/
theorem settledAxisIsJudged : Obligations.SettledAxisIsJudged := by
  intro a s hs x goesTo
  refine ⟨fun h => ⟨?_, .refl s⟩, fun m p hstate htimer hm hp => ?_⟩
  · rw [exec_settleTimerExpiry hs, settleExpires, if_neg h]
  intro near arrived
  have hnear : distance p.value m.target ≤ x.tolerance ↔ near := distance_le_iff _ _ _
  have judged {t : State} (h : judgeSettled a s = t) : goesTo (conclude t) := by
    refine ⟨?_, ?_⟩
    · rw [exec_settleTimerExpiry hs, settleExpires, if_pos ⟨hstate, htimer⟩, h]
    · rw [← h]
      exact concluded_undisturbed (Undisturbed.wide.toFloor.judgeSettled a s hstate)
  have arrives (hn : near) : judgeSettled a s
      = tellRunner m.source (arrived (match m.source with | .cueStep _ i => some i | .jog => none)) := by
    rw [judgeSettled_of hm hp, if_pos (hnear.2 hn), settleAxis_eq, axisEvent_eq, hm]
    cases m with
    | mk target speed source => cases source <;> rfl
  have corrects (hn : ¬ near) : judgeSettled a s = correctAxis a s :=
    (judgeSettled_of hm hp).trans (if_neg (mt hnear.1 hn))
  refine ⟨fun hn hsource => judged ?_, fun f i hn hsource => judged ?_, fun hn hc => judged ?_,
    fun hn hc => judged ?_⟩
  · rw [arrives hn, hsource]
    rfl
  · rw [arrives hn, hsource]
    rfl
  · exact (corrects hn).trans (if_pos hc)
  · exact (corrects hn).trans (if_neg hc)

end Sys2Proof.Machine
end

section
/-! PROOFS. JOG (O42). -/

namespace Sys2Proof.Machine

/-! ## The checks of JOG (R100) -/

/-- The exhibit that a jogged axis serves (check 2 of R100). -/
theorem serviceExhibitOf_eq_some_iff (s : State) (a : AxisId) (e : ExhibitId) :
    serviceExhibitOf s a = some e ↔
      (s.axis a).configured = true ∧ (s.axis a).exhibit = some e ∧ (s.exhibit e).state = .service := by
  unfold serviceExhibitOf inService
  cases (s.axis a).configured <;> cases (s.axis a).exhibit with
  | none => simp
  | some k => by_cases hk : (s.exhibit k).state = .service <;> simp [hk] <;> rintro rfl <;> simp [hk]

/-- The target and the speed of a JOG, when both lie in their ranges; no byte of an absent speed is looked at (check 3
of R100). -/
theorem jogFields_eq {x : Axis} {p : List Byte} {target : Nat} {flag speed : Byte} (ht : wordAt p 1 = target)
    (hf : byteAt p 3 = flag.toNat) (hs : byteAt p 4 = speed.toNat) :
    jogFields x p
      = if x.targetMin ≤ target ∧ target ≤ x.targetMax ∧
            (flag = 0 ∨ (flag = 1 ∧ 1 ≤ speed.toNat ∧ speed.toNat ≤ 8)) then
          some (target, if flag = 0 then none else some speed.toNat)
        else none := by
  have hspeed : optAt (byteIn 1 8) p 3
      = if flag = 0 ∨ (flag = 1 ∧ 1 ≤ speed.toNat ∧ speed.toNat ≤ 8) then
          some (if flag = 0 then none else some speed.toNat) else none := by
    rcases byte_cases flag with rfl | rfl | h
    · exact optAt_absent hf
    · rw [optAt_present hf, byteIn_eq 1 8 hs]
      split <;> simp_all
    · rw [optAt_none (by omega), if_neg]
      rintro (rfl | ⟨rfl, -⟩) <;> simp at h
  unfold jogFields
  rw [wordIn_eq _ _ ht, hspeed]
  by_cases hin : x.targetMin ≤ target ∧ target ≤ x.targetMax
  · rw [if_pos hin]
    by_cases hsp : flag = 0 ∨ (flag = 1 ∧ 1 ≤ speed.toNat ∧ speed.toNat ≤ 8)
    · rw [if_pos hsp, if_pos (c := _ ∧ _) ⟨hin.1, hin.2, hsp⟩]
    · rw [if_neg hsp, if_neg (c := _ ∧ _) fun h => hsp h.2.2]
  · rw [if_neg hin, if_neg (c := _ ∧ _) fun h => hin ⟨h.1, h.2.1⟩]

/-- Check 5 of R100. -/
theorem jogAdmitted_iff (x : Axis) :
    jogAdmitted x = true ↔ ¬ (x.state = .held ∨ (x.state = .faulted ∧ x.fault ≠ some .overtravel)) := by
  unfold jogAdmitted
  cases x.state <;> simp

section
variable {port : Port} {p : List Byte} {s : State} {a : AxisId} (ha : axisAt p 0 = some a)
include ha

theorem jogBody_notServing (h : serviceExhibitOf s a = none) :
    Command.body .jog port p s = refuse .wrongState s := by
  show jogBody port p s = _
  unfold jogBody onAxis
  rw [ha]
  dsimp only
  rw [h]

theorem jogBody_outOfRange {e : ExhibitId} (h : serviceExhibitOf s a = some e) (hf : jogFields (s.axis a) p = none) :
    Command.body .jog port p s = refuse .badValue s := by
  show jogBody port p s = _
  unfold jogBody onAxis
  rw [ha]
  dsimp only
  rw [h, hf]

/-- A JOG within its ranges is admitted by the hold reasons and the axis's state (checks 4 and 5 of R100). -/
theorem jogBody_eq {e : ExhibitId} {target : Nat} {speed : Option Nat} (h : serviceExhibitOf s a = some e)
    (hf : jogFields (s.axis a) p = some (target, speed)) :
    Command.body .jog port p s
      = if (s.exhibit e).holds = {} ∧ jogAdmitted (s.axis a) = true then
          let t := conclude (jogAxis a ⟨target, speed.getD (s.axis a).defaultSpeed, .jog⟩ s)
          accept (num1 (t.axis a).state.code) t
        else refuse .wrongState s := by
  show jogBody port p s = _
  unfold jogBody onAxis
  rw [ha]
  dsimp only
  rw [h, hf]
  exact if_congr (by rw [Bool.and_eq_true, HoldSet.isEmpty_iff]) rfl rfl

end

/-! ## What an accepted JOG does (R100, R101) -/

/-- An axis with a new pending move. -/
def Axis.directed (m : Move) (x : Axis) : Axis := { x with move := some m, corrections := 0 }

/-- What a return to the start queue for a new move makes of an axis (R101). -/
def Axis.requeued (m : Move) (x : Axis) : Axis := { (x.directed m).quit with state := .waitingStart }

/-- What leaves an axis's state and start cost is seen neither by the queue nor by the units. -/
theorem releaseAxis_modAxis {a : AxisId} {f : Axis → Axis} {s : State} (hs : (f (s.axis a)).state = (s.axis a).state)
    (hc : (f (s.axis a)).startCost = (s.axis a).startCost) :
    releaseAxis a (s.modAxis a f) = (releaseAxis a s).modAxis a f := by
  rw [releaseAxis_eq, releaseAxis_eq, modAxis_axis_same, hs, hc]
  cases (s.axis a).state <;> rfl

section
variable {a : AxisId} {m : Move} {s : State}

theorem requeueAxis_directed :
    requeueAxis a (s.modAxis a (Axis.directed m)) = joinQueue a ((releaseAxis a s).modAxis a (Axis.requeued m)) := by
  unfold requeueAxis
  rw [releaseAxis_modAxis rfl rfl, modAxis_modAxis]
  rfl

theorem positionSampleOf_directed :
    positionSampleOf (s.modAxis a (Axis.directed m)) a = positionSampleOf s a := by
  unfold positionSampleOf
  rw [modAxis_axis_same]
  rfl

theorem jogAxis_idle (h : (s.axis a).state = .idle) :
    jogAxis a m s
      = joinQueue a (s.modAxis a fun _ => ({ s.axis a with state := .waitingStart } : Axis).directed m) := by
  unfold jogAxis startRequest
  rw [h]
  exact congrArg (joinQueue a) (modAxis_congr s a _ _ rfl)

theorem jogAxis_faulted (h : (s.axis a).state = .faulted) :
    jogAxis a m s
      = joinQueue a (s.modAxis a fun _ =>
          ({ s.axis a with
              state := .waitingStart, fault := none
              suppress := (s.axis a).suppress || windowOf s (s.axis a).positionChannel ≠ some .inside } :
            Axis).directed m) := by
  unfold jogAxis jogFromFault startRequest
  rw [h]
  dsimp only
  rw [modAxis_axis_same, if_pos rfl, modAxis_modAxis]
  exact congrArg (joinQueue a) (modAxis_congr s a _ _ rfl)

theorem jogAxis_waitingStart (h : (s.axis a).state = .waitingStart) :
    jogAxis a m s = s.modAxis a fun _ => (s.axis a).directed m := by
  unfold jogAxis replaceMove
  rw [h]
  exact modAxis_congr s a _ _ rfl

theorem jogAxis_settling (h : (s.axis a).state = .settling) :
    jogAxis a m s = joinQueue a ((releaseAxis a s).modAxis a (Axis.requeued m)) := by
  unfold jogAxis replaceMove
  rw [h]
  exact requeueAxis_directed

/-- A driving axis drives on when the target lies ahead, and returns to the start queue otherwise (R101). -/
theorem jogAxis_driving {d : Direction} {n : Nat} {p : Sample}
    (h : (s.axis a).state = .accelerating ∨ (s.axis a).state = .moving) (hd : (s.axis a).drive = .on d n)
    (hp : positionSampleOf s a = some p) :
    jogAxis a m s = if directionTo m.target p.value = d then
        s.modAxis a fun _ =>
          ({ (s.axis a).driveOn d m.speed with travel := some (s.axis a).travelLimit } : Axis).directed m
      else joinQueue a ((releaseAxis a s).modAxis a (Axis.requeued m)) := by
  have hredirect : jogAxis a m s = redirectAxis a m (s.modAxis a (Axis.directed m)) := by
    unfold jogAxis replaceMove
    rcases h with h | h <;> rw [h] <;> rfl
  have hdrive : ((s.modAxis a (Axis.directed m)).axis a).drive = .on d n := by
    rw [modAxis_axis_same]
    exact hd
  rw [hredirect, redirectAxis, hdrive, positionSampleOf_directed, hp]
  dsimp only
  refine if_congr Iff.rfl ?_ requeueAxis_directed
  rw [modAxis_modAxis]
  exact modAxis_congr s a _ _ rfl

end

/-! ## What a JOG leaves -/

/-- One axis's record put in place of one with the same standing fields. -/
theorem Undisturbed.setAxis {s : State} {a : AxisId} {y : Axis} (h : y.standing = (s.axis a).standing) :
    Undisturbed s (s.modAxis a fun _ => y) :=
  { Undisturbed.refl s with
    axes := fun b => by
      rw [axis_modAxis]
      split
      · rename_i hb
        rw [hb, h]
      · rfl }

theorem joinQueue_undisturbed {s t : State} (a : AxisId) (h : Undisturbed s t) : Undisturbed s (joinQueue a t) :=
  h.trans (Undisturbed.coarse.arbiter t _)

theorem requeued_undisturbed (a : AxisId) (m : Move) (s : State) :
    Undisturbed s (joinQueue a ((releaseAxis a s).modAxis a (Axis.requeued m))) :=
  joinQueue_undisturbed a ((Undisturbed.coarse.releaseAxis a s).trans
    (Undisturbed.coarse.axis _ a _ (fun _ => by simp [DriveOk, Axis.requeued, Axis.quit, AxisState.driving])
      fun _ => rfl))

/-! ## O42 -/

/-- Settles O42: the checks in their order, and what the axis's state makes of the new move. -/
theorem jogMovesAnAxisInService : Obligations.JogMovesAnAxisInService := by
  intro a target flag speed s had x payload serving inRange level m answers goesTo set requeued outside
  have hserving (e : ExhibitId) : serviceExhibitOf s a = some e ↔ serving e := serviceExhibitOf_eq_some_iff s a e
  have ha : axisAt payload 0 = some a := axisAt_head a _
  have hfields := jogFields_eq (x := x) (p := payload) (flag := flag) (speed := speed) (word_of_bytes target) rfl rfl
  have answer {t : State} {st : Status} {reply : List Byte} :
      Command.body .jog .servicePort payload s = (t, ⟨st, reply⟩) →
        Answers .jog .servicePort payload s st reply t := answers_body had (by simp [payload]) rfl
  have hbody {e : ExhibitId} (he : serving e) (hr : inRange) :=
    jogBody_eq (port := .servicePort) ha ((hserving e).2 he) (hfields.trans (if_pos hr))
  have hlevel : (if flag = 0 then none else some speed.toNat).getD x.defaultSpeed = level := by
    unfold level
    split <;> rfl
  refine ⟨fun h => answer (jogBody_notServing ha ?_), fun e he hr => ?_, fun e he hr h => ?_, fun e he hr hh => ?_⟩
  · exact Option.eq_none_iff_forall_not_mem.2 fun e he => h e ((hserving e).1 he)
  · exact answer (jogBody_outOfRange ha ((hserving e).2 he) (hfields.trans (if_neg hr)))
  · refine answer ((hbody he hr).trans (if_neg fun hx => ?_))
    exact h.elim (fun hn => hn hx.1) ((jogAdmitted_iff x).1 hx.2)
  have moves {t : State} (hadmit : jogAdmitted x = true) (hj : jogAxis a m s = t) (hu : Undisturbed s t) :
      goesTo t := by
    have hb := (hbody he hr).trans (if_pos ⟨hh, hadmit⟩)
    rw [show (⟨target.toNat, _, .jog⟩ : Move) = m from congrArg (Move.mk target.toNat · .jog) hlevel, hj] at hb
    exact ⟨answer hb, concluded_undisturbed hu⟩
  have admitted (hn : x.state ≠ .held) (hf : x.state = .faulted → x.fault = some .overtravel) :
      jogAdmitted x = true :=
    (jogAdmitted_iff x).2 fun h => h.elim hn fun h => h.2 (hf h.1)
  have working {st : AxisState} (h : x.state = st) (hst : st ≠ .held ∧ st ≠ .faulted) : jogAdmitted x = true :=
    admitted (h ▸ hst.1) fun hx => absurd (h.symm.trans hx) hst.2
  refine ⟨fun h => ?_, fun h hc => ?_, fun h => ?_, fun d n p h hd hp => ?_, fun h => ?_⟩
  · exact moves (working h (by decide)) (jogAxis_idle h) (joinQueue_undisturbed a (Undisturbed.setAxis rfl))
  · exact moves (admitted (by rw [h]; decide) fun _ => hc) (jogAxis_faulted h)
      (joinQueue_undisturbed a (Undisturbed.setAxis rfl))
  · exact moves (working h (by decide)) (jogAxis_waitingStart h) (Undisturbed.setAxis rfl)
  · have hdriving : jogAdmitted x = true := h.elim (fun h => working h (by decide)) fun h => working h (by decide)
    intro ahead
    exact ⟨fun hx => moves hdriving ((jogAxis_driving h hd hp).trans (if_pos hx)) (Undisturbed.setAxis rfl),
      fun hx => moves hdriving ((jogAxis_driving h hd hp).trans (if_neg hx)) (requeued_undisturbed a m s)⟩
  · exact moves (working h (by decide)) (jogAxis_settling h) (requeued_undisturbed a m s)

end Sys2Proof.Machine
end

section
/-! PROOFS. The status commands of axes, the arbiter, cues and links, and ALERT-LIST (O47). -/

namespace Sys2Proof.Machine

/-! ## The records -/

/-- The kinds are numbered from 1 in the order of R164. -/
theorem alertKind_code_eq (k : AlertKind) :
    k.code = [AlertKind.helpCall, .buttonStuck, .axisFault, .guardLong, .afterHours, .supplySag, .showLinkLost,
      .deskLinkLost, .showReported, .restarted, .listFull].idxOf k + 1 := by
  cases k <;> rfl

/-- A byte read as a number is the byte. -/
theorem num1_toNat (b : Byte) : num1 b.toNat = [b] := by
  unfold num1
  rw [BitVec.ofNat_toNat, BitVec.setWidth_eq]

/-- The time to a level is counted from the raised time (R172, R178). -/
theorem timeToNext_of_level {s : State} {r : AlertRecord} {t : Nat} (hs : r.state = .opened)
    (ht : levelTime s.timing r.severity (r.level + 1) = some t) :
    timeToNext s r = t - elapsed r.raised s.clock := by
  unfold timeToNext
  rw [if_neg (by rw [hs]; decide), ht]

/-- The escalation times of a severity, level by level (R172). -/
theorem levelTime_of_times {s : State} {sev : Severity} {times : LevelTimes}
    (h : (sev = .urgent ∧ times = s.timing.urgentTimes) ∨ (sev = .attention ∧ times = s.timing.attentionTimes)) :
    levelTime s.timing sev 1 = some (1000 * times.level1) ∧
      levelTime s.timing sev 2 = some (1000 * times.level2) ∧
      levelTime s.timing sev 3 = some (1000 * times.level3) := by
  rcases h with ⟨rfl, rfl⟩ | ⟨rfl, rfl⟩ <;> exact ⟨rfl, rfl, rfl⟩

/-- Beyond level 3, and for NOTICE, there is no time (R172). -/
theorem levelTime_eq_none {t : Timing} {sev : Severity} {n : Nat} (h : sev = .notice ∨ 3 < n) :
    levelTime t sev n = none := by
  rcases h with rfl | h
  · rfl
  · obtain ⟨k, rfl⟩ := Nat.exists_eq_add_of_le' h
    cases sev <;> rfl

theorem timeToNext_eq_zero {s : State} {r : AlertRecord}
    (h : r.state = .acked ∨ r.severity = .notice ∨ 3 ≤ r.level) : timeToNext s r = 0 := by
  unfold timeToNext
  split
  · rfl
  · rename_i hs
    rw [levelTime_eq_none ((h.resolve_left hs).imp_right Nat.lt_succ_of_le)]

theorem anyTenure_iff (s : State) : anyTenure s = true ↔ ∃ e, (s.tenure e).isSome = true := by
  simp [anyTenure]

/-- The idle timer that the service port sees is the one its own frame has restarted (R156, R158). -/
theorem idleTimerSeenBy_service (s : State) :
    timerBytes (idleTimerSeenBy s .servicePort)
      = num4 (if ∃ e, (s.tenure e).isSome = true then 1000 * s.timing.serviceIdleTime else 0) := by
  unfold timerBytes idleTimerSeenBy restartIdle
  rw [← if_congr (anyTenure_iff s) rfl rfl]
  cases anyTenure s <;> rfl

/-! ## The answers -/

/-- The commands that every port may send in every gallery mode (R102, R116, R141, R158). -/
theorem admitted_everywhere {c : Command} (hc : c ∈ [.axisStatus, .budgetStatus, .cueStatus, .linkStatus])
    {port : Port} {s : State} (h : Ready port s) : Admitted c port s := by
  have hmode : s.mode ∈ everyMode := by cases s.mode <;> decide
  have hport : port ∈ everyPort := by cases port <;> decide
  fin_cases hc <;> exact ⟨h, hport, hmode⟩

section
variable {port : Port} {s : State} (h : Ready port s)
include h

theorem axisStatus_answers (a : AxisId) : Answers .axisStatus port (num1 a.val) s .ok (axisReport s a) s :=
  answers_body (admitted_everywhere (by decide) h) (by simp) rfl
    (by simp only [Command.body, axisStatusBody, onAxis, axisAt_one, accept])

theorem budgetStatus_answers : Answers .budgetStatus port [] s .ok (budgetReport s) s :=
  answers_body (admitted_everywhere (by decide) h) (by simp) rfl rfl

theorem cueStatus_answers (e : ExhibitId) : Answers .cueStatus port (num1 e.val) s .ok (cueReport s e) s :=
  answers_body (admitted_everywhere (by decide) h) (by simp) rfl
    (by simp only [Command.body, cueStatusBody, onExhibit, exhibitAt_one, accept])

theorem linkStatus_answers : Answers .linkStatus port [] s .ok (linkStatusReport port s) s :=
  answers_body (admitted_everywhere (by decide) h) (by simp) rfl rfl

end

section
variable {port : Port} {b : Byte} {s : State} (h : Admitted .alertList port s)
include h

theorem alertList_badValue (hb : 23 < b.toNat) : Answers .alertList port [b] s .badValue [] s :=
  answers_body h (by simp) rfl (if_pos hb)

theorem alertList_answers (hb : b.toNat ≤ 23) :
    Answers .alertList port [b] s .ok (alertListReport s b.toNat) s :=
  answers_body h (by simp) rfl (if_neg (Nat.not_lt.2 hb))

end

/-! ## O47 -/

/-- The bytes of an alert record, each code and each absent field written out (R213). -/
theorem alertRecord_bytes_eq (r : AlertRecord) :
    r.bytes = num2 r.number.toNat ++ num1 r.kind.code ++
      [match r.severity with | .notice => 0 | .attention => 1 | .urgent => 2,
        match r.exhibit with | none => 0 | some e => BitVec.ofNat 8 e.val, BitVec.ofNat 8 (r.subject.getD 0),
        match r.state with | .opened => 0 | .acked => 1] ++
      num1 r.level ++ num1 r.repeatCount ++ [r.showCode.getD 0] ++
      num1 (bitIf r.exhibit.isSome 1 + bitIf r.subject.isSome 2 + bitIf r.showCode.isSome 4 + bitIf r.acked.isSome 8)
      ++ clockBytes r.raised ++ clockBytes (r.acked.getD 0) := by
  have hseverity : num1 r.severity.code = [match r.severity with | .notice => 0 | .attention => 1 | .urgent => 2] := by
    cases r.severity <;> rfl
  have hexhibit : num1 ((r.exhibit.map Fin.val).getD 0)
      = [match r.exhibit with | none => 0 | some e => BitVec.ofNat 8 e.val] := by
    cases r.exhibit <;> rfl
  have hstate : num1 r.state.code = [match r.state with | .opened => 0 | .acked => 1] := by
    cases r.state <;> rfl
  have hcode : num1 ((r.showCode.map BitVec.toNat).getD 0) = [r.showCode.getD 0] := by
    cases r.showCode with
    | none => rfl
    | some b => exact num1_toNat b
  unfold AlertRecord.bytes
  rw [hseverity, hexhibit, hstate, hcode]
  rfl

/-- Settles O47: each command answers its record, and each record is laid out as the statement writes it. -/
theorem statusCommandsReadRecords : Obligations.StatusCommandsReadRecords := by
  refine ⟨fun r => ?_, fun port a s hr => ?_, fun port s hr => budgetStatus_answers hr, fun port e s hr => ?_,
    fun port s hr => ?_, fun r s => ?_, fun port b s had => ⟨alertList_badValue had, fun hb => ?_⟩⟩
  · rw [alertRecord_bytes_eq, alertKind_code_eq]
    rfl
  · intro x sample reads
    have hreads {window : Byte} (h : positionWindowByte s a = [window]) : reads window := by
      have answer := axisStatus_answers hr a
      unfold axisReport at answer
      rw [h] at answer
      exact answer
    refine ⟨fun c hc => hreads ?_, fun hc => ⟨Config.windowOfNoChannel a.val s.clock.toNat, hreads ?_⟩⟩
    · unfold positionWindowByte windowOf
      rw [hc]
      rfl
    · unfold positionWindowByte windowOf
      rw [hc]
      rfl
  · intro x reads step
    have hstep : step = stepReport := by
      funext y r
      cases r with
      | mk status phase timer => cases timer <;> rfl
    have hreads {active : List Byte} (h : activeReport s e = active) : reads active := h ▸ cueStatus_answers hr e
    refine ⟨fun h => hreads ?_, fun f h => hreads ?_⟩
    · unfold activeReport
      rw [h]
    · unfold activeReport
      rw [h, hstep]
  · intro link held reads
    have hreads {idle : List Byte} (h : timerBytes (idleTimerSeenBy s port) = idle) : reads idle :=
      h ▸ linkStatus_answers hr
    refine ⟨fun hp => hreads ?_, fun hp hh => hreads ?_, fun hp hh => hreads ?_⟩
    · cases port with
      | servicePort => exact absurd rfl hp
      | showPort => rfl
      | deskPort => rfl
    · rw [hp, idleTimerSeenBy_service, if_pos hh]
    · rw [hp, idleTimerSeenBy_service, if_neg hh]
  · intro wait
    refine ⟨timeToNext_eq_zero, fun times hsev hs => ?_⟩
    obtain ⟨h1, h2, h3⟩ := levelTime_of_times hsev
    exact ⟨fun hl => timeToNext_of_level hs (by rw [hl]; exact h1),
      fun hl => timeToNext_of_level hs (by rw [hl]; exact h2),
      fun hl => timeToNext_of_level hs (by rw [hl]; exact h3)⟩
  · have answer := alertList_answers had hb
    unfold alertListReport at answer
    rw [num1_toNat] at answer
    exact answer

end Sys2Proof.Machine
end

section
/-! SUPPORT. Groups of steps, the steps of a group as they start, and what ends one (R120, R128-R132). -/

namespace Sys2Proof.Machine

/-! ## Groups (R120, R134) -/

theorem groupSteps_sorted (steps : List CueStep) (g : Nat) : (groupSteps steps g).Pairwise (· < ·) :=
  List.pairwise_lt_range.sublist (List.drop_sublist g _)

theorem leadingWithPrevious_le (l : List CueStep) : leadingWithPrevious l ≤ l.length := by
  induction l with
  | nil => exact Nat.le_refl 0
  | cons x l ih =>
    unfold leadingWithPrevious
    rw [List.length_cons]
    split <;> omega

theorem groupEnd_le {steps : List CueStep} {g : Nat} (h : g < steps.length) : groupEnd steps g ≤ steps.length := by
  have hlead := leadingWithPrevious_le (steps.drop (g + 1))
  rw [List.length_drop] at hlead
  unfold groupEnd
  omega

/-- The steps of a group are those before its end. -/
theorem mem_groupSteps_iff_lt {steps : List CueStep} {g : Nat} (h : g < steps.length) (i : Nat) :
    i ∈ groupSteps steps g ↔ g ≤ i ∧ i < groupEnd steps g := by
  unfold groupSteps
  rw [min_eq_left (groupEnd_le h), List.range_eq_range', List.drop_range', List.mem_range'_1]
  omega

/-- A group waits when a step of it is a WAIT_PRESS (R134). -/
theorem groupWaits_iff_mem (steps : List CueStep) (g : Nat) :
    groupWaits steps g = true ↔
      ∃ i ∈ groupSteps steps g, ∃ w l timeout, steps[i]? = some ⟨w, .waitPress l timeout⟩ := by
  rw [groupWaits_iff]
  constructor
  · rintro ⟨i, w, l, timeout, hg, hx, hp⟩
    exact ⟨i, (mem_groupSteps_iff steps g i).2 ⟨hg, (List.getElem?_eq_some_iff.1 hx).1, hp⟩, w, l, timeout, hx⟩
  · rintro ⟨i, hi, w, l, timeout, hx⟩
    obtain ⟨hg, -, hp⟩ := (mem_groupSteps_iff steps g i).1 hi
    exact ⟨i, w, l, timeout, hg, hx, hp⟩

/-! ## The start of a step (R82, R128) -/

section
variable {f : FrameId} {i : StepId} {w : Bool} {s : State}

theorem stepIndex_val (i : StepId) : stepIndex i.val = i := Fin.ext (Nat.mod_eq_of_lt i.isLt)

/-- The frame with what it keeps for step `i` replaced. -/
def putRun (f : FrameId) (i : Nat) (r : StepRun) (s : State) : State := s.modFrame f fun x => x.modRun i fun _ => r

theorem putRun_axis (f : FrameId) (i : Nat) (r : StepRun) (s : State) (a : AxisId) :
    (putRun f i r s).axis a = s.axis a := rfl

theorem startStep_pause {d : Nat} (h : (s.frame f).steps[i.val]? = some ⟨w, .pause d⟩) :
    startStep f i.val s = putRun f i.val ⟨.active, none, .running d⟩ s := by
  unfold startStep
  rw [h]
  rfl

theorem startStep_waitPress {l : LineId} (h : (s.frame f).steps[i.val]? = some ⟨w, .waitPress l none⟩) :
    startStep f i.val s = putRun f i.val ⟨.active, none, .notRunning⟩ s := by
  unfold startStep
  rw [h]
  rfl

theorem startStep_waitPress_timeout {l : LineId} {d : Nat}
    (h : (s.frame f).steps[i.val]? = some ⟨w, .waitPress l (some d)⟩) :
    startStep f i.val s = putRun f i.val ⟨.active, none, .running d⟩ s := by
  unfold startStep
  rw [h]
  rfl

section
variable {a : AxisId} {target : Nat} {speed dwell : Option Nat}
  (h : (s.frame f).steps[i.val]? = some ⟨w, .move a target speed dwell⟩)
include h

/-- A MOVE step travels, and asks its axis for a start (R82, R128). -/
theorem startStep_move : startStep f i.val s =
    startRequest a ⟨target, speed.getD (s.axis a).defaultSpeed, .cueStep f i⟩
      (putRun f i.val ⟨.active, some .travelling, .notRunning⟩ s) := by
  unfold startStep
  rw [h]
  dsimp only
  rw [stepIndex_val]
  rfl

theorem startStep_move_idle (hi : (s.axis a).state = .idle) : startStep f i.val s =
    joinQueue a ((putRun f i.val ⟨.active, some .travelling, .notRunning⟩ s).modAxis a fun y => { y with
      state := .waitingStart, corrections := 0, move := some ⟨target, speed.getD y.defaultSpeed, .cueStep f i⟩ }) := by
  rw [startStep_move h, startRequest, putRun_axis, if_pos hi]
  exact congrArg (joinQueue a) (modAxis_congr _ a _ _ rfl)

theorem startStep_move_busy (hi : (s.axis a).state ≠ .idle) : startStep f i.val s =
    putRun f i.val ⟨.active, some .travelling, .notRunning⟩ s := by
  rw [startStep_move h, startRequest, putRun_axis, if_neg hi]

end
end

/-! ## Arrival (R129) -/

section
variable {e : ExhibitId} {f : FrameId} {i : Nat} {w : Bool} {a : AxisId} {target : Nat} {speed dwell : Option Nat}
  {timer : StepTimer} {s : State} (he : (s.frame f).exhibit = some e)
  (hx : (s.frame f).steps[i]? = some ⟨w, .move a target speed dwell⟩)
  (hr : (s.frame f).run[i]? = some ⟨.active, some .travelling, timer⟩)
include he hx hr

theorem moveArrived_done (hd : dwell.getD 0 = 0) : moveArrived f i s = afterDone e f (markDone f i s) := by
  unfold moveArrived
  rw [he, hx, hr]
  dsimp only
  rw [hd]

theorem moveArrived_dwells {d : Nat} (hd : dwell = some d) (h0 : d ≠ 0) :
    moveArrived f i s = putRun f i ⟨.active, some .dwelling, .running d⟩ s := by
  obtain ⟨n, rfl⟩ := Nat.exists_eq_succ_of_ne_zero h0
  unfold moveArrived
  rw [he, hx, hr, hd]
  rfl

end

/-! ## The step that waits for a press (R35) -/

/-- Whether step `i` is an ACTIVE WAIT_PRESS step on line `l`. -/
def awaits (x : CueFrame) (l : LineId) (i : Nat) : Bool :=
  match x.steps[i]?, x.run[i]? with
  | some ⟨_, .waitPress m _⟩, some r => m = l && r.status = .active
  | _, _ => false

theorem waitingStep_eq {x : CueFrame} {g : Nat} (h : x.currentGroup = some g) (l : LineId) :
    waitingStep x l = (groupSteps x.steps g).find? (awaits x l) := by
  unfold waitingStep
  rw [h]
  rfl

theorem awaits_iff (x : CueFrame) (l : LineId) (i : Nat) : awaits x l i = true ↔
    ∃ w timeout r, x.steps[i]? = some ⟨w, .waitPress l timeout⟩ ∧ x.run[i]? = some r ∧ r.status = .active := by
  unfold awaits
  cases hx : x.steps[i]? with
  | none => simp
  | some y =>
    obtain ⟨w, b⟩ := y
    cases x.run[i]? with
    | none => simp
    | some r => cases b <;> simp [and_comm]

/-- In an ascending list the first member that passes a test is the least. -/
theorem find?_eq_some_iff_least {p : Nat → Bool} {l : List Nat} (hl : l.Pairwise (· < ·)) (i : Nat) :
    l.find? p = some i ↔ (i ∈ l ∧ p i = true) ∧ ∀ j, j < i → ¬ (j ∈ l ∧ p j = true) := by
  induction l with
  | nil => simp
  | cons a l ih =>
    obtain ⟨hfirst, hrest⟩ := List.pairwise_cons.1 hl
    cases hp : p a with
    | true =>
      rw [List.find?_cons_of_pos hp, Option.some_inj]
      constructor
      · rintro rfl
        refine ⟨⟨List.mem_cons_self, hp⟩, fun j hj ⟨hm, _⟩ => ?_⟩
        rcases List.mem_cons.1 hm with rfl | hm
        · omega
        · exact absurd (hfirst j hm) (by omega)
      · rintro ⟨⟨hm, -⟩, hleast⟩
        rcases List.mem_cons.1 hm with rfl | hm
        · rfl
        · exact absurd ⟨List.mem_cons_self, hp⟩ (hleast a (hfirst i hm))
    | false =>
      have hmem (j : Nat) : (j ∈ a :: l ∧ p j = true) ↔ (j ∈ l ∧ p j = true) := by
        refine ⟨fun ⟨hm, hj⟩ => ⟨(List.mem_cons.1 hm).resolve_left fun h => ?_, hj⟩,
          fun ⟨hm, hj⟩ => ⟨List.mem_cons_of_mem a hm, hj⟩⟩
        rw [h, hp] at hj
        cases hj
      rw [List.find?_cons_of_neg (by simp [hp]), ih hrest]
      simp only [hmem]

/-! ## The expiry of a step timer (R129-R131) -/

section
variable {e : ExhibitId} {i : StepId} {f : FrameId} {x : CueStep} {r : StepRun} {s : State}
  (ha : (s.exhibit e).active = some f) (hx : (s.frame f).steps[i.val]? = some x)
  (hr : (s.frame f).run[i.val]? = some r)
include ha hx hr

theorem expiredStep_eq : expiredStep s e i = if r.timer = .running 0 then some (f, x.body) else none := by
  unfold expiredStep
  rw [ha]
  dsimp only [Option.bind_some]
  rw [hx, hr]

theorem dwellExpires_due (h0 : r.timer = .running 0) {a : AxisId} {target : Nat} {speed dwell : Option Nat}
    (hb : x.body = .move a target speed dwell) :
    dwellExpires e i s = conclude (afterDone e f (markDone f i.val s)) := by
  unfold dwellExpires
  rw [expiredStep_eq ha hx hr, if_pos h0, hb]

theorem pauseExpires_due (h0 : r.timer = .running 0) {d : Nat} (hb : x.body = .pause d) :
    pauseExpires e i s = conclude (afterDone e f (markDone f i.val s)) := by
  unfold pauseExpires
  rw [expiredStep_eq ha hx hr, if_pos h0, hb]

theorem pressExpires_due (h0 : r.timer = .running 0) {l : LineId} {timeout : Option Nat}
    (hb : x.body = .waitPress l timeout) :
    pressExpires e i s = conclude (retireActive e .pressTimeout none s) := by
  unfold pressExpires
  rw [expiredStep_eq ha hx hr, if_pos h0, hb]

/-- A timer with time left does not expire (log 3). -/
theorem stepExpires_early (h0 : r.timer ≠ .running 0) :
    dwellExpires e i s = s ∧ pauseExpires e i s = s ∧ pressExpires e i s = s := by
  unfold dwellExpires pauseExpires pressExpires
  rw [expiredStep_eq ha hx hr, if_neg h0]
  exact ⟨rfl, rfl, rfl⟩

end

section
variable {e : ExhibitId} {i : StepId} {s : State} (h : s.inReset = false)
include h

theorem exec_dwellExpiry : exec (.dwellExpiry e i) s = .next (drivePins (dwellExpires e i s)) := occur_next h

theorem exec_pauseExpiry : exec (.pauseExpiry e i) s = .next (drivePins (pauseExpires e i s)) := occur_next h

theorem exec_pressTimeout : exec (.pressTimeout e i) s = .next (drivePins (pressExpires e i s)) := occur_next h

end

theorem doneStep_undisturbed (e : ExhibitId) (f : FrameId) (i : Nat) (s : State) :
    Undisturbed s (conclude (afterDone e f (markDone f i s))) :=
  concluded_undisturbed ((Undisturbed.wide.toFloor.markDone f i s).trans (Undisturbed.wide.toFloor.afterDone e f _))

/-! ## What a DONE step leads to (R132, R134) -/

theorem stepIsDone_iff (x : CueFrame) (i : Nat) :
    x.stepIsDone i = true ↔ ∃ r, x.run[i]? = some r ∧ r.status = .done := by
  unfold CueFrame.stepIsDone
  cases x.run[i]? <;> simp

/-- Every step of the group at `g` is DONE. -/
def groupDone (x : CueFrame) (g : Nat) : Prop := (groupSteps x.steps g).all x.stepIsDone = true

theorem groupDone_iff (x : CueFrame) (g : Nat) :
    groupDone x g ↔ ∀ i ∈ groupSteps x.steps g, ∃ r, x.run[i]? = some r ∧ r.status = .done := by
  unfold groupDone
  simp only [List.all_eq_true, stepIsDone_iff]

section
variable {e : ExhibitId} {f : FrameId} {g : Nat} {s : State} (hg : (s.frame f).currentGroup = some g)
include hg

theorem afterDone_waits (hd : ¬ groupDone (s.frame f) g) : afterDone e f s = s := by
  unfold afterDone
  rw [hg]
  exact if_neg hd

section
variable (hd : groupDone (s.frame f) g)
include hd

theorem afterDone_last (hl : (s.frame f).steps.length ≤ groupEnd (s.frame f).steps g) :
    afterDone e f s = retireActive e .done none s := by
  unfold afterDone
  rw [hg]
  exact (if_pos hd).trans (if_neg (Nat.not_lt.2 hl))

theorem afterDone_next (hl : groupEnd (s.frame f).steps g < (s.frame f).steps.length) :
    afterDone e f s = startGroup e f (groupEnd (s.frame f).steps g) s := by
  unfold afterDone
  rw [hg]
  exact (if_pos hd).trans (if_pos hl)

end
end

theorem startGroup_cancelled {e : ExhibitId} {f : FrameId} {g : Nat} {s : State}
    (h : s.mode = .quiet ∧ groupWaits (s.frame f).steps g = true) : startGroup e f g s
      = retireActive e .cancelled none (s.modFrame f fun x => { x with currentGroup := some g }) := by
  unfold startGroup
  rw [if_pos (by simp [h])]

theorem startGroup_begins {e : ExhibitId} {f : FrameId} {g : Nat} {s : State}
    (h : ¬ (s.mode = .quiet ∧ groupWaits (s.frame f).steps g = true)) : startGroup e f g s = beginGroup f g s := by
  unfold startGroup
  rw [if_neg (by simpa using h)]

end Sys2Proof.Machine
end

section
/-! PROOFS. Step timers, and what a DONE step leads to (O51). -/

namespace Sys2Proof.Machine

/-- Settles O51: groups by their members, then each operation of the runner by the case it is in. -/
theorem stepTimersExpire : Obligations.StepTimersExpire := by
  refine ⟨fun steps g => ⟨mem_groupSteps_iff steps g, groupSteps_sorted steps g, mem_groupSteps_iff_lt,
    groupWaits_iff_mem steps g⟩, fun f g s => rfl, fun f i x s hx => ?_,
    fun e f i w a target speed dwell timer s he hx hr => ?_, fun x l g hg => ?_,
    fun e i f x r s hs ha hx hr => ?_, fun e f g s hg => ?_⟩
  · intro active
    obtain ⟨w, b⟩ := x
    refine ⟨?_, ?_, ?_, ?_⟩
    · rintro a target speed dwell rfl
      exact ⟨startStep_move_idle hx, startStep_move_busy hx⟩
    · rintro d rfl
      exact startStep_pause hx
    · rintro l rfl
      exact startStep_waitPress hx
    · rintro l d rfl
      exact startStep_waitPress_timeout hx
  · refine ⟨fun hd => moveArrived_done he hx hr ?_, fun d => moveArrived_dwells he hx hr⟩
    rcases hd with rfl | rfl <;> rfl
  · intro waits
    have hwaits (i : Nat) : (i ∈ groupSteps x.steps g ∧ awaits x l i = true) ↔ waits i := by
      rw [awaits_iff]
    refine ⟨fun i => ?_, ?_⟩
    · rw [waitingStep_eq hg, find?_eq_some_iff_least (groupSteps_sorted x.steps g)]
      simp only [hwaits]
    · rw [waitingStep_eq hg, List.find?_eq_none]
      simp only [← hwaits, not_and]
  · intro goesTo done
    refine ⟨fun h0 => ⟨fun a target speed dwell hb => ⟨?_, doneStep_undisturbed e f i.val s⟩,
      fun d hb => ⟨?_, doneStep_undisturbed e f i.val s⟩, fun l timeout hb => ⟨?_,
        concluded_undisturbed (Undisturbed.free.retireActive e _ _ s)⟩⟩, fun h0 => ?_⟩
    · rw [exec_dwellExpiry hs, dwellExpires_due ha hx hr h0 hb]
      rfl
    · rw [exec_pauseExpiry hs, pauseExpires_due ha hx hr h0 hb]
      rfl
    · rw [exec_pressTimeout hs, pressExpires_due ha hx hr h0 hb]
    · obtain ⟨hdwell, hpause, hpress⟩ := stepExpires_early ha hx hr h0
      refine ⟨⟨?_, .refl s⟩, ⟨?_, .refl s⟩, ⟨?_, .refl s⟩⟩
      · rw [exec_dwellExpiry hs, hdwell]
      · rw [exec_pauseExpiry hs, hpause]
      · rw [exec_pressTimeout hs, hpress]
  · intro steps done next
    have hdone : groupDone (s.frame f) g ↔ done := groupDone_iff (s.frame f) g
    exact ⟨fun hd => afterDone_waits hg (hdone.not.2 hd), fun hd => afterDone_last hg (hdone.2 hd),
      fun hd hl hq => (afterDone_next hg (hdone.2 hd) hl).trans (startGroup_cancelled hq),
      fun hd hl hq => (afterDone_next hg (hdone.2 hd) hl).trans (startGroup_begins hq)⟩

end Sys2Proof.Machine
end

section
/-! SUPPORT. The runner takes a frame, and CUE-POST's checks of a step list (R120, R125-R128). -/

namespace Sys2Proof.Machine

/-! ## The runner takes the head of a cue queue (R127, R128) -/

theorem emit_one (q : QueueName) (v : Event) (s : State) : emit [q] v s = appendTo q v s := rfl

/-- The state in which the runner has told of the frame it takes (R127). -/
def cueStarts (e : ExhibitId) (f : FrameId) (rest : List FrameId) (s : State) : State :=
  appendTo .showQ { kind := .cueStarted, exhibit := some e, subject := some (BitVec.ofNat 8 f.val) }
    (s.modExhibit e fun x => { x with active := some f, queue := rest })

theorem cueStarts_exhibit (e : ExhibitId) (f : FrameId) (rest : List FrameId) (s : State) :
    (cueStarts e f rest s).exhibit e = { s.exhibit e with active := some f, queue := rest } := by
  rw [cueStarts, ← emit_one, emit_exhibit, modExhibit_exhibit_same]

section
variable {e : ExhibitId} {s : State}

theorem takeFrame_nil (h : (s.exhibit e).queue = []) : takeFrame e s = s := by
  unfold takeFrame
  rw [h]

section
variable {f : FrameId} {rest : List FrameId} (h : (s.exhibit e).queue = f :: rest)
include h

theorem takeFrame_cons : takeFrame e s = beginGroup f 0 (becomeRunning e (cueStarts e f rest s)) := by
  unfold takeFrame
  rw [h]
  rfl

theorem takeFrame_running (hx : (s.exhibit e).state = .running) :
    takeFrame e s = beginGroup f 0 (cueStarts e f rest s) := by
  rw [takeFrame_cons h, becomeRunning, cueStarts_exhibit, if_pos hx]

theorem takeFrame_otherwise (hx : (s.exhibit e).state ≠ .running) :
    takeFrame e s = beginGroup f 0 (changeState e .running (cueStarts e f rest s)) := by
  rw [takeFrame_cons h, becomeRunning, cueStarts_exhibit, if_neg hx]

end
end

theorem putRun_currentGroup (f : FrameId) (i : Nat) (r : StepRun) (s : State) :
    ((putRun f i r s).frame f).currentGroup = (s.frame f).currentGroup := by
  rw [putRun, modFrame_frame_same, CueFrame.modRun]

theorem startRequest_frame (a : AxisId) (m : Move) (s : State) (f : FrameId) :
    (startRequest a m s).frame f = s.frame f := by
  unfold startRequest
  split <;> rfl

/-- The start of a step leaves its frame's current group. -/
theorem startStep_currentGroup (f : FrameId) (i : Nat) (s : State) :
    ((startStep f i s).frame f).currentGroup = (s.frame f).currentGroup := by
  unfold startStep
  split
  · rfl
  · rw [startRequest_frame]
    exact putRun_currentGroup f i _ s
  all_goals exact putRun_currentGroup f i _ s

theorem beginGroup_currentGroup (f : FrameId) (g : Nat) (s : State) :
    ((beginGroup f g s).frame f).currentGroup = some g := by
  unfold beginGroup
  rw [forList_keeps (fun t => (t.frame f).currentGroup) (startStep_currentGroup f), modFrame_frame_same]

/-! ## Bad steps (R120, R125) -/

theorem groupStart_le (steps : List CueStep) (i : Nat) : groupStart steps i ≤ i := by
  induction i with
  | zero => exact Nat.le_refl 0
  | succ i ih =>
    unfold groupStart
    split
    · split <;> omega
    · omega

/-- The group of a step begins no later than step `j` when every step after `j` goes on with the one before it. -/
theorem groupStart_le_iff {steps : List CueStep} {i : Nat} (hi : i < steps.length) {j : Nat} (hj : j ≤ i) :
    groupStart steps i ≤ j ↔ ∀ k, j < k → k ≤ i → ∃ y, steps[k]? = some y ∧ y.withPrevious = true := by
  induction i with
  | zero => exact iff_of_true (Nat.zero_le j) fun k h1 h2 => absurd h1 (by omega)
  | succ i ih =>
    rcases hj.eq_or_lt with rfl | hlt
    · exact iff_of_true (groupStart_le steps _) fun k h1 h2 => absurd h1 (by omega)
    · have hget : steps[i + 1]? = some steps[i + 1] := List.getElem?_eq_getElem hi
      unfold groupStart
      rw [hget]
      dsimp only
      by_cases hp : steps[i + 1].withPrevious = true
      · rw [if_pos hp, ih (by omega) (by omega)]
        refine ⟨fun h k h1 h2 => ?_, fun h k h1 h2 => h k h1 (by omega)⟩
        rcases h2.eq_or_lt with rfl | h2
        · exact ⟨_, hget, hp⟩
        · exact h k h1 (by omega)
      · rw [if_neg hp]
        refine iff_of_false (by omega) fun h => ?_
        obtain ⟨y, hy, hyp⟩ := h (i + 1) hlt (Nat.le_refl _)
        rw [hget] at hy
        cases hy
        exact hp hyp

/-- The members of a stretch of a list, by their places. -/
theorem mem_drop_take_iff {α : Type} (l : List α) (g i : Nat) (x : α) :
    x ∈ (l.take i).drop g ↔ ∃ j, g ≤ j ∧ j < i ∧ l[j]? = some x := by
  rw [List.mem_iff_getElem?]
  simp only [List.getElem?_drop, List.getElem?_take, Option.ite_none_right_eq_some]
  constructor
  · rintro ⟨k, hk, hx⟩
    exact ⟨g + k, Nat.le_add_right g k, hk, hx⟩
  · rintro ⟨j, hg, hj, hx⟩
    exact ⟨j - g, by omega, by rwa [Nat.add_sub_cancel' hg]⟩

/-- A step list moves an axis twice in one group when an earlier MOVE of the group names it (R125). -/
theorem movedBefore_iff {steps : List CueStep} {i : Nat} (hi : i < steps.length) (a : AxisId) :
    movedBefore steps i a = true ↔ ∃ j z b u v w,
      (j < i ∧ ∀ k, j < k → k ≤ i → ∃ y, steps[k]? = some y ∧ y.withPrevious = true) ∧
      steps[j]? = some z ∧ z.body = .move b u v w ∧ b = a := by
  have hbody (x : CueStep) : (match x.body with | .move b _ _ _ => decide (b = a) | _ => false) = true ↔
      ∃ b u v w, x.body = .move b u v w ∧ b = a := by
    cases x.body <;> simp
  unfold movedBefore
  rw [List.any_eq_true]
  constructor
  · rintro ⟨z, hz, hm⟩
    obtain ⟨j, hg, hj, hz⟩ := (mem_drop_take_iff _ _ _ _).1 hz
    obtain ⟨b, u, v, w, hb, hba⟩ := (hbody z).1 hm
    exact ⟨j, z, b, u, v, w, ⟨hj, (groupStart_le_iff hi hj.le).1 hg⟩, hz, hb, hba⟩
  · rintro ⟨j, z, b, u, v, w, ⟨hj, hgroup⟩, hz, hb, hba⟩
    exact ⟨z, (mem_drop_take_iff _ _ _ _).2 ⟨j, (groupStart_le_iff hi hj.le).2 hgroup, hj, hz⟩,
      (hbody z).2 ⟨b, u, v, w, hb, hba⟩⟩

/-- Check 3 of R125 on one step, case by case. -/
theorem stepIsBad_iff (s : State) (e : ExhibitId) (steps : List CueStep) (i : Nat) (y : CueStep) :
    stepIsBad s e steps i y = true ↔ (i = 0 ∧ y.withPrevious = true) ∨
      (∃ a target speed dwell, y.body = .move a target speed dwell ∧
        (a ∉ (s.exhibit e).axes ∨ target < (s.axis a).targetMin ∨ (s.axis a).targetMax < target ∨
          movedBefore steps i a = true)) ∨
      (∃ l timeout, y.body = .waitPress l timeout ∧
        ((s.line l).exhibit ≠ some e ∨ (s.line l).role ≠ some .action)) := by
  unfold stepIsBad
  cases y.body <;> simp [or_assoc]

/-- Step `i` of a step list is bad on exhibit `e`. -/
def badAt (s : State) (e : ExhibitId) (steps : List CueStep) (i : Nat) : Prop :=
  ∃ y, steps[i]? = some y ∧ stepIsBad s e steps i y = true

section
variable {s : State} {e : ExhibitId} {steps : List CueStep}

theorem firstBadStep_nil : firstBadStep s e [] = some 0 := rfl

theorem firstBadStep_eq_some {i : Nat} (hi : badAt s e steps i) (hfirst : ∀ j, j < i → ¬ badAt s e steps j) :
    firstBadStep s e steps = some i := by
  obtain ⟨y, hy, hbad⟩ := hi
  obtain ⟨hlt, rfl⟩ := List.getElem?_eq_some_iff.1 hy
  have hfind : steps.zipIdx.find? (fun (x, j) => stepIsBad s e steps j x) = some (steps[i], i) := by
    refine List.find?_eq_some_iff_getElem.2 ⟨hbad, i, by simpa using hlt, by simp, fun j hj => ?_⟩
    have hgood := hfirst j hj
    simpa [badAt, List.getElem?_eq_getElem (hj.trans hlt)] using hgood
  unfold firstBadStep
  rw [if_neg (by simpa using List.ne_nil_of_length_pos (Nat.zero_lt_of_lt hlt)), hfind]
  rfl

theorem firstBadStep_eq_none (hne : steps ≠ []) (h : ∀ i, ¬ badAt s e steps i) : firstBadStep s e steps = none := by
  have hfind : steps.zipIdx.find? (fun (x, j) => stepIsBad s e steps j x) = none := by
    refine List.find?_eq_none.2 fun (y, j) hy hbad => h j ⟨y, ?_, hbad⟩
    simpa using List.mem_zipIdx_iff_getElem?.1 hy
  unfold firstBadStep
  rw [if_neg (by simpa using hne), hfind]
  rfl

end

/-! ## The checks of CUE-POST in their order (R125) -/

theorem takesPosts_iff (x : ExhibitState) : x.takesPosts = true ↔ x = .ready ∨ x = .running ∨ x = .held := by
  cases x <;> simp [ExhibitState.takesPosts]

section
variable {s : State} {e : ExhibitId} {f : FrameId}

theorem postFault_service (h : (s.exhibit e).state = .service) : postFault s e f = some { status := .wrongState } :=
  if_pos (by simp [inService, h])

section
variable (hs : (s.exhibit e).state ≠ .service)
include hs

theorem postFault_notTaken (hf : f ∉ s.takenSet) : postFault s e f = some { status := .notTaken } :=
  (if_neg (by simp [inService, hs])).trans (if_pos hf)

theorem postFault_taken (hf : f ∈ s.takenSet) : postFault s e f =
    if !(s.exhibit e).state.takesPosts then some { status := .wrongState }
    else
      match firstBadStep s e (s.frame f).steps with
      | some i => some { status := .badFrame, payload := num1 i }
      | none => if (s.exhibit e).queue.length < 4 then none else some { status := .full } :=
  (if_neg (by simp [inService, hs])).trans (if_neg (not_not.2 hf))

end

theorem postFault_unusable (h : (s.exhibit e).state = .closed ∨ (s.exhibit e).state = .faulted)
    (hf : f ∈ s.takenSet) : postFault s e f = some { status := .wrongState } := by
  rcases h with h | h <;> rw [postFault_taken (by rw [h]; decide) hf, h] <;> rfl

section
variable (hu : (s.exhibit e).state.takesPosts = true) (hf : f ∈ s.takenSet)
include hu hf

theorem postFault_usable : postFault s e f =
    match firstBadStep s e (s.frame f).steps with
    | some i => some { status := .badFrame, payload := num1 i }
    | none => if (s.exhibit e).queue.length < 4 then none else some { status := .full } :=
  (postFault_taken (fun h => by rw [h] at hu; cases hu) hf).trans (if_neg (by simp [hu]))

theorem postFault_badFrame {i : Nat} (hb : firstBadStep s e (s.frame f).steps = some i) :
    postFault s e f = some { status := .badFrame, payload := num1 i } := by
  rw [postFault_usable hu hf, hb]

theorem postFault_good (hb : firstBadStep s e (s.frame f).steps = none) : postFault s e f =
    if (s.exhibit e).queue.length < 4 then none else some { status := .full } := by
  rw [postFault_usable hu hf, hb]

end
end

/-! ## The post (R126) -/

/-- The frame at the tail of the exhibit's cue queue, its steps PENDING (R126). -/
def posted (e : ExhibitId) (f : FrameId) (s : State) : State :=
  (({ s with takenSet := s.takenSet.filter (· ≠ f) }).modFrame f fun x =>
    { x with exhibit := some e, run := x.steps.map fun _ => {} }).modExhibit e
      fun x => { x with queue := x.queue ++ [f] }

section
variable (e : ExhibitId) (f : FrameId) (s : State)

theorem posted_exhibit : (posted e f s).exhibit e = { s.exhibit e with queue := (s.exhibit e).queue ++ [f] } :=
  modExhibit_exhibit_same _ _ _

theorem postFrame_eq : postFrame e f s =
    if (s.exhibit e).state = .ready ∧ s.mode = .opened then takeFrame e (posted e f s) else posted e f s := by
  have htake : ((((posted e f s).exhibit e).state = .ready) && canTake (posted e f s) e) = true ↔
      (s.exhibit e).state = .ready ∧ s.mode = .opened := by
    rw [Bool.and_eq_true, canTake_iff, posted_exhibit]
    simp [posted]
  exact if_congr htake rfl rfl

theorem posted_undisturbed : Undisturbed s (posted e f s) :=
  (Undisturbed.coarse.lists s s.freeList (s.takenSet.filter (· ≠ f)) s.retiredList).trans <|
  (Undisturbed.coarse.frame _ f _).trans (Undisturbed.coarse.exhibit _ e _ (by exact fun _ => rfl))

theorem postFrame_undisturbed : Undisturbed s (postFrame e f s) := by
  rw [postFrame_eq]
  split
  · exact (posted_undisturbed e f s).trans (Undisturbed.free.takeFrame e _)
  · exact posted_undisturbed e f s

end

/-- A frame posted to an empty queue and taken at once is the exhibit's active frame (R126, R127). -/
theorem takeFrame_posted {e : ExhibitId} {f : FrameId} {s : State} (h : (s.exhibit e).queue = []) :
    slot (takeFrame e (posted e f s)) e = (.running, some f, []) ∧
      ((takeFrame e (posted e f s)).frame f).currentGroup = some 0 := by
  have hq : ((posted e f s).exhibit e).queue = f :: [] := by rw [posted_exhibit, h]; rfl
  refine ⟨by rw [slot_takeFrame hq, if_pos rfl], ?_⟩
  rw [takeFrame_cons hq]
  exact beginGroup_currentGroup f 0 _

/-! ## The answers of CUE-POST -/

theorem onFrame_second (n : Nat) (f : FrameId) (g : FrameId → State → State × Reply) (s : State) :
    onFrame (num1 n ++ num1 f.val) 1 g s = g f s := by
  unfold onFrame
  rw [show frameAt (num1 n ++ num1 f.val) 1 = some f from frameAt_one f]

section
variable {e : ExhibitId} {f : FrameId} {s : State} (port : Port)

theorem cuePostBody_of_fault {r : Reply} (h : postFault s e f = some r) :
    cuePostBody port (num1 e.val ++ num1 f.val) s = (s, r) := by
  refine (onExhibit_head e s (num1 f.val) _).trans ((onFrame_second e.val f _ s).trans ?_)
  rw [h]

theorem cuePostBody_of_good (h : postFault s e f = none) : cuePostBody port (num1 e.val ++ num1 f.val) s =
    accept (placeBytes (postFrame e f s) e f) (conclude (postFrame e f s)) := by
  refine (onExhibit_head e s (num1 f.val) _).trans ((onFrame_second e.val f _ s).trans ?_)
  rw [h]

end

section
variable {e : ExhibitId} {f : FrameId} {s : State} (had : Admitted .cuePost .showPort s)
include had

theorem cuePost_refused {st : Status} {reply : List Byte} (h : postFault s e f = some ⟨st, reply⟩) :
    Answers .cuePost .showPort (num1 e.val ++ num1 f.val) s st reply s :=
  answers_body had (by simp) rfl (cuePostBody_of_fault .showPort h)

theorem cuePost_posted (h : postFault s e f = none) {t : State} (ht : postFrame e f s = t) :
    Answers .cuePost .showPort (num1 e.val ++ num1 f.val) s .ok (placeBytes t e f) (conclude t) ∧
      Undisturbed s (conclude t) := by
  subst ht
  exact ⟨answers_body had (by simp) rfl (cuePostBody_of_good .showPort h),
    concluded_undisturbed (postFrame_undisturbed e f s)⟩

end

end Sys2Proof.Machine
end

section
/-! PROOFS. CUE-POST and the runner (O49). -/

namespace Sys2Proof.Machine

/-- Settles O49: the checks in their order, each by the fault it finds, and the post by whether the exhibit takes its
head at once. -/
theorem cuePostQueuesAFrame : Obligations.CuePostQueuesAFrame := by
  refine ⟨fun e s => ⟨takeFrame_nil, fun f rest h => ⟨takeFrame_running h, takeFrame_otherwise h⟩⟩,
    fun e f s had => ?_⟩
  intro x steps payload refused taken usable sameGroup bad posted place goesTo
  have hbad (i : Nat) : badAt s e steps i ↔ bad i := by
    refine exists_congr fun y => and_congr_right fun hy => ?_
    rw [stepIsBad_iff]
    simp only [movedBefore_iff (List.getElem?_eq_some_iff.1 hy).1]
    rfl
  have husable : x.state.takesPosts = true ↔ usable := takesPosts_iff _
  have hgood (hne : steps ≠ []) (h : ∀ i, ¬ bad i) : firstBadStep s e steps = none :=
    firstBadStep_eq_none hne fun i => (hbad i).not.2 (h i)
  refine ⟨fun h => cuePost_refused had (postFault_service h),
    fun h hf => cuePost_refused had (postFault_notTaken h hf),
    fun h hf => cuePost_refused had (postFault_unusable h hf),
    fun hu hf hnil => cuePost_refused had (postFault_badFrame (husable.2 hu) hf ?_),
    fun i hu hf hi hfirst => cuePost_refused had (postFault_badFrame (husable.2 hu) hf
      (firstBadStep_eq_some ((hbad i).2 hi) fun j hj => (hbad j).not.2 (hfirst j hj))),
    fun hu hf hne hall => ?_⟩
  · exact (congrArg _ hnil).trans firstBadStep_nil
  · have hfault := postFault_good (husable.2 hu) hf (hgood hne hall)
    have posts (hq : x.queue.length < 4) {t : State} (ht : postFrame e f s = t) : goesTo t :=
      cuePost_posted had (hfault.trans (if_pos hq)) ht
    refine ⟨fun hq => cuePost_refused had (hfault.trans (if_neg (Nat.not_lt.2 hq))),
      fun hq h => posts hq ((postFrame_eq e f s).trans (if_neg h)),
      fun hq hr hm => posts hq ((postFrame_eq e f s).trans (if_pos ⟨hr, hm⟩)), fun hq _ _ => ?_⟩
    obtain ⟨hslot, hgroup⟩ := takeFrame_posted (f := f) hq
    obtain ⟨hstate, hactive, hqueue⟩ : _ ∧ _ ∧ _ := by simpa [slot] using hslot
    exact ⟨hactive, hqueue, hstate, hgroup⟩

end Sys2Proof.Machine
end

section
/-! SUPPORT. The step records of FRAME-WRITE read back from their bytes (R120, R123, R214). -/

namespace Sys2Proof.Machine

/-! ## Reading on from an offset -/

section
variable (p : List Byte) (i : Nat)

theorem getD_drop (k : Nat) : (p.drop i).getD k 0 = p.getD (i + k) 0 := by
  rw [List.getD_eq_getElem?_getD, List.getElem?_drop, List.getD_eq_getElem?_getD]

theorem byteAt_drop (k : Nat) : byteAt (p.drop i) k = byteAt p (i + k) := congrArg BitVec.toNat (getD_drop p i k)

theorem bitAt_drop (k n : Nat) : bitAt (p.drop i) k n = bitAt p (i + k) n :=
  congrArg (BitVec.getLsbD · n) (getD_drop p i k)

theorem wordAt_drop (k : Nat) : wordAt (p.drop i) k = wordAt p (i + k) := by
  rw [wordAt, byteAt_drop, byteAt_drop]
  rfl

theorem stepTimeAt_drop (k lo : Nat) : stepTimeAt (p.drop i) k lo = stepTimeAt p (i + k) lo := by
  unfold stepTimeAt wordIn
  rw [bitAt_drop, wordAt_drop]
  rfl

theorem stepBodyAt_drop (k : Nat) : stepBodyAt (p.drop i) k = stepBodyAt p (i + k) := by
  unfold stepBodyAt stepSpeedAt axisAt lineAt indexAt wordIn byteIn
  simp only [byteAt_drop, wordAt_drop, bitAt_drop, stepTimeAt_drop, Nat.add_assoc]

theorem stepAt_drop (k : Nat) : stepAt (p.drop i) k = stepAt p (i + k) := by
  unfold stepAt
  rw [byteAt_drop, stepBodyAt_drop, bitAt_drop]
  rfl

theorem stepsFrom_drop (n k index : Nat) : stepsFrom (p.drop i) n k index = stepsFrom p n (i + k) index := by
  induction n generalizing k index with
  | zero => rfl
  | succ n ih =>
    unfold stepsFrom
    rw [stepAt_drop, ih]
    rfl

end

/-! ## The fields of a record's kind (R120, R214) -/

section
variable {p : List Byte} {i : Nat}

theorem stepBodyAt_move (hk : byteAt p i = 1) : stepBodyAt p i =
    (axisAt p (i + 2)).bind fun a => (wordIn 0 4095 p (i + 4)).bind fun target =>
      (stepSpeedAt p i).bind fun speed => (stepTimeAt p i 0).map fun dwell => .move a target speed dwell := by
  unfold stepBodyAt
  rw [hk]
  cases axisAt p (i + 2) with
  | none => rfl
  | some a =>
    cases wordIn 0 4095 p (i + 4) with
    | none => rfl
    | some target =>
      cases stepSpeedAt p i with
      | none => rfl
      | some speed => cases stepTimeAt p i 0 <;> rfl

theorem stepBodyAt_pause (hk : byteAt p i = 2) :
    stepBodyAt p i = (stepTimeAt p i 1).bind fun time => time.map .pause := by
  unfold stepBodyAt
  rw [hk]
  cases stepTimeAt p i 1 with
  | none => rfl
  | some time => cases time <;> rfl

theorem stepBodyAt_waitPress (hk : byteAt p i = 3) : stepBodyAt p i =
    (lineAt p (i + 2)).bind fun l => (stepTimeAt p i 1).map fun timeout => .waitPress l timeout := by
  unfold stepBodyAt
  rw [hk]
  cases lineAt p (i + 2) with
  | none => rfl
  | some l => cases stepTimeAt p i 1 <;> rfl

theorem stepBodyAt_noKind (hk : byteAt p i = 0 ∨ 3 < byteAt p i) : stepBodyAt p i = none := by
  unfold stepBodyAt
  rcases hk with hk | hk
  · rw [hk]
    rfl
  · obtain ⟨n, hn⟩ := Nat.exists_eq_add_of_le' hk
    rw [hn]
    rfl

end

/-! ## The bytes of one record (R214) -/

/-- The eight bytes of a step record (R214). -/
def stepRecord (kind flag item speed : Byte) (target time : Nat) : List Byte :=
  kind :: flag :: item :: speed :: (num2 target ++ num2 time)

theorem word_of_num2 {n : Nat} (h : n < 65536) :
    (BitVec.ofNat 8 n).toNat + 256 * (BitVec.ofNat 8 (n / 256)).toNat = n := by
  simp only [BitVec.toNat_ofNat]
  omega

section
variable {kind flag item speed : Byte} {target time : Nat} {tail : List Byte}

theorem wordAt_target (h : target < 65536) : wordAt (stepRecord kind flag item speed target time ++ tail) 4 = target :=
  word_of_num2 h

theorem wordAt_time (h : time < 65536) : wordAt (stepRecord kind flag item speed target time ++ tail) 6 = time :=
  word_of_num2 h

/-- The speed of a record, present with flag bit 1. -/
theorem stepSpeedAt_record : stepSpeedAt (stepRecord kind flag item speed target time ++ tail) 0 =
    if flag.getLsbD 1 = true then if 1 ≤ speed.toNat ∧ speed.toNat ≤ 8 then some (some speed.toNat) else none
    else some none := by
  refine if_congr Iff.rfl ?_ rfl
  rw [byteIn_eq (n := speed.toNat) 1 8 rfl]
  split <;> rfl

/-- The time of a record, present with flag bit 2. -/
theorem stepTimeAt_record (h : time < 65536) (lo : Nat) :
    stepTimeAt (stepRecord kind flag item speed target time ++ tail) 0 lo =
      if flag.getLsbD 2 = true then if lo ≤ time ∧ time ≤ 60000 then some (some time) else none else some none := by
  refine if_congr Iff.rfl ?_ rfl
  rw [wordIn_eq lo 60000 (wordAt_time h)]
  split <;> rfl

/-- An optional speed reads back. -/
theorem stepSpeedAt_reads {o : Option Nat} (hb : flag.getLsbD 1 = o.isSome)
    (ho : ∀ n, o = some n → 1 ≤ n ∧ n ≤ 8) :
    stepSpeedAt (stepRecord kind flag item (BitVec.ofNat 8 (o.getD 0)) target time ++ tail) 0 = some o := by
  rw [stepSpeedAt_record, hb]
  cases o with
  | none => rfl
  | some n =>
    obtain ⟨h1, h8⟩ := ho n rfl
    have hspeed : (BitVec.ofNat 8 n).toNat = n := by
      rw [BitVec.toNat_ofNat]
      omega
    rw [Option.getD_some, hspeed]
    exact (if_pos rfl).trans (if_pos ⟨h1, h8⟩)

/-- An optional time reads back. -/
theorem stepTimeAt_reads {o : Option Nat} {lo : Nat} (hb : flag.getLsbD 2 = o.isSome)
    (ho : ∀ n, o = some n → lo ≤ n ∧ n ≤ 60000) :
    stepTimeAt (stepRecord kind flag item speed target (o.getD 0) ++ tail) 0 lo = some o := by
  cases o with
  | none => exact (stepTimeAt_record (by decide) lo).trans (if_neg (by rw [hb]; exact Bool.false_ne_true))
  | some n =>
    obtain ⟨hlo, hhi⟩ := ho n rfl
    have hn : n < 65536 := by omega
    exact (stepTimeAt_record hn lo).trans ((if_pos hb).trans (if_pos ⟨hlo, hhi⟩))

theorem stepTimeAt_absent {lo : Nat} (h : time < 65536) (hb : ¬ flag.getLsbD 2 = true) :
    stepTimeAt (stepRecord kind flag item speed target time ++ tail) 0 lo = some none :=
  (stepTimeAt_record h lo).trans (if_neg hb)

theorem stepTimeAt_outside {lo : Nat} (h : time < 65536) (hb : flag.getLsbD 2 = true)
    (ho : time < lo ∨ 60000 < time) :
    stepTimeAt (stepRecord kind flag item speed target time ++ tail) 0 lo = none :=
  (stepTimeAt_record h lo).trans ((if_pos hb).trans (if_neg (by omega)))

end

/-! ## Records outside their ranges (R120, R123) -/

/-- What a record's kind does not give is no step. -/
theorem stepAt_none {p : List Byte} {i : Nat} (h : stepBodyAt p i = none) : stepAt p i = none := by
  unfold stepAt
  rw [h]
  exact ite_self none

theorem stepAt_noKind {kind flag : Byte} {tail : List Byte}
    (h : kind.toNat = 0 ∨ 3 < kind.toNat ∨ 7 < flag.toNat) : stepAt (kind :: flag :: tail) 0 = none := by
  rcases or_assoc.2 h with h | h
  · exact stepAt_none (stepBodyAt_noKind h)
  · exact if_neg (Nat.not_le.2 h)

section
variable {flag item speed : Byte} {target time : Nat} {tail : List Byte}

theorem stepAt_badMove (ht : target < 65536) (hd : time < 65536)
    (h : 11 < item.toNat ∨ 4095 < target ∨ (flag.getLsbD 1 = true ∧ (speed.toNat = 0 ∨ 8 < speed.toNat)) ∨
      (flag.getLsbD 2 = true ∧ 60000 < time)) :
    stepAt (stepRecord 1 flag item speed target time ++ tail) 0 = none := by
  refine stepAt_none ((stepBodyAt_move rfl).trans ?_)
  rcases h with h | h | ⟨hb, h⟩ | ⟨hb, h⟩
  · have haxis : axisAt (stepRecord 1 flag item speed target time ++ tail) 2 = none := indexAt_none h
    rw [haxis]
    rfl
  · rw [wordIn_eq 0 4095 (wordAt_target ht), if_neg (by omega)]
    cases axisAt (stepRecord 1 flag item speed target time ++ tail) (0 + 2) <;> rfl
  · rw [stepSpeedAt_record, if_pos hb, if_neg (by omega)]
    simp
  · rw [stepTimeAt_outside hd hb (.inr h)]
    simp

theorem stepAt_badPause (hd : time < 65536) (h : ¬ flag.getLsbD 2 = true ∨ time = 0 ∨ 60000 < time) :
    stepAt (stepRecord 2 flag item speed target time ++ tail) 0 = none := by
  refine stepAt_none ((stepBodyAt_pause rfl).trans ?_)
  by_cases hb : flag.getLsbD 2 = true
  · have hout := h.resolve_left (not_not.2 hb)
    rw [stepTimeAt_outside hd hb (by omega)]
    rfl
  · rw [stepTimeAt_absent hd hb]
    rfl

theorem stepAt_badWaitPress (hd : time < 65536)
    (h : 63 < item.toNat ∨ (flag.getLsbD 2 = true ∧ (time = 0 ∨ 60000 < time))) :
    stepAt (stepRecord 3 flag item speed target time ++ tail) 0 = none := by
  refine stepAt_none ((stepBodyAt_waitPress rfl).trans ?_)
  rcases h with h | ⟨hb, h⟩
  · have hline : lineAt (stepRecord 3 flag item speed target time ++ tail) 2 = none := indexAt_none h
    rw [hline]
    rfl
  · rw [stepTimeAt_outside hd hb (by omega)]
    simp

end

/-! ## Steps as records (R120, R214) -/

/-- The flag byte of a step: its with-previous flag, and which of its optional fields are present. -/
def stepFlags (withPrevious speed time : Bool) : Byte :=
  BitVec.ofNat 8 (bitIf withPrevious 1 + bitIf speed 2 + bitIf time 4)

theorem stepFlags_bits (w speed time : Bool) : (stepFlags w speed time).toNat ≤ 7 ∧
    (stepFlags w speed time).getLsbD 0 = w ∧ (stepFlags w speed time).getLsbD 1 = speed ∧
    (stepFlags w speed time).getLsbD 2 = time := by
  revert w speed time
  decide

/-- The record of a step. -/
def CueStep.bytes (x : CueStep) : List Byte :=
  match x.body with
  | .move a target speed dwell => stepRecord 1 (stepFlags x.withPrevious speed.isSome dwell.isSome)
      (BitVec.ofNat 8 a.val) (BitVec.ofNat 8 (speed.getD 0)) target (dwell.getD 0)
  | .pause d => stepRecord 2 (stepFlags x.withPrevious false true) 0 0 0 d
  | .waitPress l timeout => stepRecord 3 (stepFlags x.withPrevious false timeout.isSome)
      (BitVec.ofNat 8 l.val) 0 0 (timeout.getD 0)

/-- The fields of a step are within their ranges (R120). -/
def CueStep.InRange (x : CueStep) : Prop :=
  match x.body with
  | .move _ target speed dwell =>
    target ≤ 4095 ∧ (∀ n, speed = some n → 1 ≤ n ∧ n ≤ 8) ∧ ∀ n, dwell = some n → n ≤ 60000
  | .pause d => 1 ≤ d ∧ d ≤ 60000
  | .waitPress _ timeout => ∀ n, timeout = some n → 1 ≤ n ∧ n ≤ 60000

theorem length_bytes (x : CueStep) : x.bytes.length = 8 := by
  obtain ⟨w, b⟩ := x
  cases b <;> rfl

/-- A payload whose flag byte is a step's, and whose fields give its body, reads as the step. -/
theorem stepAt_of_body {w speed time : Bool} {p : List Byte} {b : StepBody} (h1 : p.getD 1 0 = stepFlags w speed time)
    (hb : stepBodyAt p 0 = some b) : stepAt p 0 = some ⟨w, b⟩ := by
  obtain ⟨hle, hw, -⟩ := stepFlags_bits w speed time
  have hflag : byteAt p 1 = (stepFlags w speed time).toNat := congrArg BitVec.toNat h1
  have hbit : bitAt p 1 0 = w := (congrArg (BitVec.getLsbD · 0) h1).trans hw
  refine (if_pos (hflag.trans_le hle)).trans ?_
  rw [hb, hbit]
  rfl

/-- A step within its ranges reads back from its record. -/
theorem stepAt_bytes {x : CueStep} (h : x.InRange) (tail : List Byte) : stepAt (x.bytes ++ tail) 0 = some x := by
  obtain ⟨w, b⟩ := x
  cases b with
  | move a target speed dwell =>
    obtain ⟨htarget, hspeed, hdwell⟩ := h
    obtain ⟨-, -, hbit1, hbit2⟩ := stepFlags_bits w speed.isSome dwell.isSome
    refine stepAt_of_body rfl ((stepBodyAt_move rfl).trans ?_)
    unfold CueStep.bytes
    dsimp only
    have haxis : axisAt (stepRecord 1 (stepFlags w speed.isSome dwell.isSome) (BitVec.ofNat 8 a.val)
        (BitVec.ofNat 8 (speed.getD 0)) target (dwell.getD 0) ++ tail) (0 + 2) = some a :=
      indexAt_of (byte_of_index (by decide) a)
    rw [haxis, wordIn_eq 0 4095 (wordAt_target (by omega)), if_pos ⟨Nat.zero_le _, htarget⟩,
      stepSpeedAt_reads hbit1 hspeed, stepTimeAt_reads hbit2 fun n hn => ⟨Nat.zero_le n, hdwell n hn⟩]
    rfl
  | pause d =>
    obtain ⟨-, -, -, hbit2⟩ := stepFlags_bits w false true
    have htime := stepTimeAt_reads (kind := 2) (item := 0) (speed := 0) (target := 0) (tail := tail) (o := some d)
      (lo := 1) hbit2 (by rintro n ⟨⟩; exact h)
    refine stepAt_of_body rfl ((stepBodyAt_pause rfl).trans ?_)
    exact congrArg (Option.bind · fun time => time.map StepBody.pause) htime
  | waitPress l timeout =>
    obtain ⟨-, -, -, hbit2⟩ := stepFlags_bits w false timeout.isSome
    refine stepAt_of_body rfl ((stepBodyAt_waitPress rfl).trans ?_)
    unfold CueStep.bytes
    dsimp only
    have hline : lineAt (stepRecord 3 (stepFlags w false timeout.isSome) (BitVec.ofNat 8 l.val) 0 0
        (timeout.getD 0) ++ tail) (0 + 2) = some l := indexAt_of (byte_of_index (by decide) l)
    rw [hline, stepTimeAt_reads hbit2 h]
    rfl

/-! ## Step lists (R123) -/

/-- The records of steps within their ranges are read before what follows them. -/
theorem stepsFrom_bytes {steps : List CueStep} (h : ∀ x ∈ steps, x.InRange) (tail : List Byte) (n index : Nat) :
    stepsFrom ((steps.map CueStep.bytes).flatten ++ tail) (steps.length + n) 0 index
      = (stepsFrom tail n 0 (index + steps.length)).map (steps ++ ·) := by
  induction steps generalizing index with
  | nil =>
    rw [List.length_nil, Nat.zero_add, Nat.add_zero, List.map_nil, List.flatten_nil, List.nil_append]
    cases stepsFrom tail n 0 index <;> rfl
  | cons x steps ih =>
    have hp : ((x :: steps).map CueStep.bytes).flatten ++ tail
        = x.bytes ++ ((steps.map CueStep.bytes).flatten ++ tail) := by simp
    have hdrop : (x.bytes ++ ((steps.map CueStep.bytes).flatten ++ tail)).drop 8
        = (steps.map CueStep.bytes).flatten ++ tail := by
      rw [← length_bytes x, List.drop_left]
    rw [hp, show (x :: steps).length + n = (steps.length + n) + 1 by rw [List.length_cons]; omega, stepsFrom,
      stepAt_bytes (h x List.mem_cons_self), ← stepsFrom_drop _ 8 _ 0, hdrop,
      ih (fun y hy => h y (List.mem_cons_of_mem x hy)), List.length_cons, Nat.add_comm steps.length 1, Nat.add_assoc]
    cases stepsFrom tail n 0 _ <;> rfl

theorem length_stepBytes (steps : List CueStep) : (steps.map CueStep.bytes).flatten.length = 8 * steps.length := by
  induction steps with
  | nil => rfl
  | cons x steps ih =>
    rw [List.map_cons, List.flatten_cons, List.length_append, ih, length_bytes, List.length_cons]
    omega

/-- A whole step list reads back. -/
theorem stepsFrom_whole {steps : List CueStep} (h : ∀ x ∈ steps, x.InRange) :
    stepsFrom (steps.map CueStep.bytes).flatten steps.length 0 0 = .ok steps := by
  have hread := stepsFrom_bytes h [] 0 0
  rw [List.append_nil] at hread
  exact hread.trans (congrArg Except.ok (List.append_nil steps))

/-- A list with a bad record is answered with the index of the first, whatever follows it. -/
theorem stepsFrom_firstBad {before : List CueStep} (h : ∀ x ∈ before, x.InRange) {tail : List Byte}
    (hbad : stepAt tail 0 = none) (n : Nat) :
    stepsFrom ((before.map CueStep.bytes).flatten ++ tail) (before.length + 1 + n) 0 0 = .error before.length := by
  rw [show before.length + 1 + n = before.length + (n + 1) by omega, stepsFrom_bytes h, stepsFrom, hbad, Nat.zero_add]
  rfl

end Sys2Proof.Machine
end

section
/-! PROOFS. FRAME-TAKE, FRAME-WRITE and FRAME-DROP (O48). -/

namespace Sys2Proof.Machine

/-! ## The taken set (R122, R124) -/

theorem mem_insertTaken (f g : FrameId) (l : List FrameId) : g ∈ insertTaken f l ↔ g = f ∨ g ∈ l := by
  induction l with
  | nil => simp [insertTaken]
  | cons h l ih =>
    unfold insertTaken
    split
    · simp
    · split
      · rename_i heq
        simp [heq]
      · simp only [List.mem_cons, ih]
        tauto

theorem onFrame_head (f : FrameId) (l : List Byte) (g : FrameId → State → State × Reply) (s : State) :
    onFrame (num1 f.val ++ l) 0 g s = g f s := by
  unfold onFrame
  rw [frameAt_head]

section
variable (port : Port) {f : FrameId} {s : State}

theorem frameTakeBody_empty (p : List Byte) (h : s.freeList = []) : frameTakeBody port p s = refuse .empty s := by
  unfold frameTakeBody
  rw [h]

theorem frameTakeBody_takes (p : List Byte) {rest : List FrameId} (h : s.freeList = f :: rest) :
    frameTakeBody port p s
      = accept (num1 f.val) { s with freeList := rest, takenSet := insertTaken f s.takenSet } := by
  unfold frameTakeBody
  rw [h]

theorem frameDropBody_notTaken (hf : f ∉ s.takenSet) : frameDropBody port (num1 f.val) s = refuse .notTaken s :=
  (onFrame_head f [] _ s).trans (if_neg hf)

theorem frameDropBody_drops (hf : f ∈ s.takenSet) :
    frameDropBody port (num1 f.val) s = accept [] (dropFrame f s) := (onFrame_head f [] _ s).trans (if_pos hf)

end

/-! ## The body of FRAME-WRITE (R123) -/

section
variable (port : Port) {f : FrameId} {s : State}

theorem stepsFrom_payload (f : FrameId) (count : Byte) (rest : List Byte) :
    stepsFrom (num1 f.val ++ [count] ++ rest) (byteAt (num1 f.val ++ [count] ++ rest) 1) 2 0
      = stepsFrom rest count.toNat 0 0 := (stepsFrom_drop (num1 f.val ++ [count] ++ rest) 2 count.toNat 0 0).symm

theorem frameWriteBody_notTaken (hf : f ∉ s.takenSet) (count : Byte) (rest : List Byte) :
    frameWriteBody port (num1 f.val ++ [count] ++ rest) s = refuse .notTaken s :=
  (onFrame_head f (count :: rest) _ s).trans (if_pos hf)

section
variable (hf : f ∈ s.takenSet)
include hf

theorem frameWriteBody_count {count : Byte} (hc : count.toNat = 0 ∨ 6 < count.toNat) (rest : List Byte) :
    frameWriteBody port (num1 f.val ++ [count] ++ rest) s = refuse .badValue s :=
  (onFrame_head f (count :: rest) _ s).trans ((if_neg (not_not.2 hf)).trans (if_pos hc))

section
variable {count : Byte} (hc : ¬ (count.toNat = 0 ∨ 6 < count.toNat)) {rest : List Byte}
include hc

theorem frameWriteBody_bad {i : Nat} (h : stepsFrom rest count.toNat 0 0 = .error i) :
    frameWriteBody port (num1 f.val ++ [count] ++ rest) s = refuseWith .badValue (num1 i) s := by
  refine (onFrame_head f (count :: rest) _ s).trans ((if_neg (not_not.2 hf)).trans ((if_neg hc).trans ?_))
  rw [stepsFrom_payload, h]

theorem frameWriteBody_writes {steps : List CueStep} (h : stepsFrom rest count.toNat 0 0 = .ok steps) :
    frameWriteBody port (num1 f.val ++ [count] ++ rest) s
      = accept [] (s.modFrame f fun x => { x with steps := steps }) := by
  refine (onFrame_head f (count :: rest) _ s).trans ((if_neg (not_not.2 hf)).trans ((if_neg hc).trans ?_))
  rw [stepsFrom_payload, h]

end
end
end

/-! ## The answers of FRAME-WRITE -/

section
variable {f : FrameId} {s : State} (had : Admitted .frameWrite .showPort s)
include had

/-- A payload of as many records as its count says is answered by its body. -/
theorem frameWrite_answers {count : Byte} {rest : List Byte} (hrest : rest.length = 8 * count.toNat)
    (hlen : rest.length ≤ 198) {t : State} {st : Status} {reply : List Byte}
    (h : frameWriteBody .showPort (num1 f.val ++ [count] ++ rest) s = (t, ⟨st, reply⟩)) :
    Answers .frameWrite .showPort (num1 f.val ++ [count] ++ rest) s st reply t := by
  have hp : (num1 f.val ++ [count] ++ rest).length = 2 + rest.length := by simp; omega
  refine answers_body had (by omega) ?_ h
  exact decide_eq_true (hp.trans (congrArg (2 + ·) hrest))

section
variable (hf : f ∈ s.takenSet)
include hf

/-- A list of one to six steps within their ranges is written whole. -/
theorem frameWrite_written {steps : List CueStep} (h1 : 1 ≤ steps.length) (h6 : steps.length ≤ 6)
    (h : ∀ x ∈ steps, x.InRange) :
    Answers .frameWrite .showPort (num1 f.val ++ num1 steps.length ++ (steps.map CueStep.bytes).flatten) s .ok []
      (s.modFrame f fun x => { x with steps := steps }) := by
  have hcount : (BitVec.ofNat 8 steps.length).toNat = steps.length := by
    rw [BitVec.toNat_ofNat]
    omega
  have hlen := length_stepBytes steps
  refine frameWrite_answers had (by omega) (by omega) (frameWriteBody_writes _ hf (by omega) ?_)
  rw [hcount]
  exact stepsFrom_whole h

/-- The first bad record is named, whatever follows it. -/
theorem frameWrite_firstBad {before : List CueStep} (h : ∀ x ∈ before, x.InRange) {record after : List Byte} {n : Nat}
    (hrecord : record.length = 8) (hafter : after.length = 8 * n) (h6 : before.length + 1 + n ≤ 6)
    (hbad : stepAt (record ++ after) 0 = none) :
    Answers .frameWrite .showPort (num1 f.val ++ num1 (before.length + 1 + n)
      ++ ((before.map CueStep.bytes).flatten ++ record ++ after)) s .badValue (num1 before.length) s := by
  have hcount : (BitVec.ofNat 8 (before.length + 1 + n)).toNat = before.length + 1 + n := by
    rw [BitVec.toNat_ofNat]
    omega
  have hlen : ((before.map CueStep.bytes).flatten ++ record ++ after).length = 8 * (before.length + 1 + n) := by
    rw [List.length_append, List.length_append, length_stepBytes, hrecord, hafter]
    omega
  refine frameWrite_answers had (by omega) (by omega) (frameWriteBody_bad _ hf (by omega) ?_)
  rw [hcount, List.append_assoc]
  exact stepsFrom_firstBad h hbad n

end
end

/-! ## O48 -/

/-- Settles O48: the lists of frames, and the step records read back one after another. -/
theorem framesAreTakenWrittenAndDropped : Obligations.FramesAreTakenWrittenAndDropped := by
  refine ⟨fun s had => ⟨fun h => ?_, fun f rest h => ⟨?_, fun g => mem_insertTaken f g _⟩⟩, fun f s had => ?_,
    fun f s had => ⟨fun hf => ?_, fun hf => ?_⟩⟩
  · exact answers_body had (by simp) rfl (frameTakeBody_empty .showPort [] h)
  · exact answers_body had (by simp) rfl (frameTakeBody_takes .showPort [] h)
  · intro bit flags record fits refused
    have hrecord : record = CueStep.bytes := by
      funext ⟨w, b⟩
      cases b <;> rfl
    have hfits : fits = CueStep.InRange := by
      funext ⟨w, b⟩
      cases b <;> rfl
    rw [hrecord, hfits]
    refine ⟨fun steps hf h1 h6 h => frameWrite_written had hf h1 h6 h,
      fun count rest hrest hlen => ⟨fun hf => frameWrite_answers had hrest hlen (frameWriteBody_notTaken _ hf _ _),
        fun hf hc => frameWrite_answers had hrest hlen (frameWriteBody_count _ hf hc _)⟩,
      fun before kind flag fields after n hf h hfields hafter h6 hbad =>
        frameWrite_firstBad had hf h (by simp [hfields]) hafter h6 (stepAt_noKind hbad),
      fun before flag item speed target time after n hf h hflag hafter h6 => ?_⟩
    intro timed sent
    have refuses {kind : Byte}
        (hbad : stepAt (stepRecord kind flag item speed target.toNat time.toNat ++ after) 0 = none) : sent kind :=
      frameWrite_firstBad had hf h rfl hafter h6 hbad
    have htarget : target.toNat < 65536 := target.isLt
    have htime : time.toNat < 65536 := time.isLt
    exact ⟨fun hbad => refuses (stepAt_badMove htarget htime hbad), fun hbad => refuses (stepAt_badPause htime hbad),
      fun hbad => refuses (stepAt_badWaitPress htime hbad)⟩
  · exact answers_body had (by simp) rfl (frameDropBody_notTaken .showPort hf)
  · exact answers_body had (by simp) rfl (frameDropBody_drops .showPort hf)

end Sys2Proof.Machine
end

section
/-! PROOFS. Heartbeats and lapses of the links (O52). -/

namespace Sys2Proof.Machine

theorem step_linksOk {s t : State} (hs : LinksOk s) (ht : step s = .next t) : LinksOk t :=
  step_steps LinksOk.steps (fun _ _ => Kept.links rfl rfl) s t ht hs

/-! ## HEARTBEAT (R145, R149) -/

/-- The record of a link that is heard, its state apart (R145). -/
def heardRecord (m : Master) (s : State) : LinkRecord :=
  { s.link m with lastHeartbeat := some s.clock, timer := some (heartbeatPeriod s m) }

theorem heardLink_eq (m : Master) (s : State) : heardLink m s = s.modLink m fun _ => heardRecord m s := by
  cases m <;> rfl

/-- A link that becomes ACTIVE at a heartbeat, in one update (R145, R147). -/
theorem resumedLink_eq (m : Master) (s : State) : changeLink m .active (heardLink m s) =
    emit [otherQueue m] { kind := .linkState, value := some 1 }
      (s.modLink m fun _ => { heardRecord m s with state := .active, lastChange := some s.clock }) := by
  cases m <;> rfl

theorem takeHeartbeat_active {m : Master} {s : State} (h : (s.link m).state = .active) :
    takeHeartbeat m s = heardLink m s := by
  unfold takeHeartbeat
  rw [h]
  rfl

theorem takeHeartbeat_neverSeen {m : Master} {s : State} (h : (s.link m).state = .neverSeen) :
    takeHeartbeat m s = changeLink m .active (heardLink m s) := by
  unfold takeHeartbeat
  rw [h]
  rfl

theorem takeHeartbeat_lapsed_desk {s : State} (h : (s.link .deskMaster).state = .lapsed) :
    takeHeartbeat .deskMaster s = changeLink .deskMaster .active (heardLink .deskMaster s) := by
  unfold takeHeartbeat
  rw [h]
  rfl

theorem takeHeartbeat_lapsed_show {s : State} (h : (s.link .showMaster).state = .lapsed) :
    takeHeartbeat .showMaster s = removeLapse (changeLink .showMaster .active (heardLink .showMaster s)) := by
  unfold takeHeartbeat
  rw [h]
  rfl

theorem heartbeatBody_port (m : Master) (s : State) : heartbeatBody m.port [] s =
    accept (num1 (s.link m).state.code ++ num2 (heartbeatPeriod s m) ++ clockBytes s.clock)
      (conclude (takeHeartbeat m s)) := onMaster_port m _ s

theorem heartbeat_answers {m : Master} {s t : State} (h : Admitted .heartbeat m.port s) (ht : takeHeartbeat m s = t) :
    Answers .heartbeat m.port [] s .ok
      (num1 (s.link m).state.code ++ num2 (heartbeatPeriod s m) ++ clockBytes s.clock) (conclude t) ∧
    Undisturbed s (conclude t) :=
  ht ▸ ⟨answers_body h (by simp) rfl (heartbeatBody_port m s),
    concluded_undisturbed (Undisturbed.wide.takeHeartbeat m s)⟩

/-! ## Lapses (R146-R148) -/

theorem exec_heartbeatTimerExpiry {m : Master} {s : State} (h : s.inReset = false) :
    exec (.heartbeatTimerExpiry m) s = .next (drivePins (heartbeatExpires m s)) := occur_next h

theorem heartbeat_lapses {m : Master} {s t : State} (hs : s.inReset = false) (ha : (s.link m).state = .active)
    (h0 : (s.link m).timer = some 0) (ht : lapseLink m s = t) :
    exec (.heartbeatTimerExpiry m) s = .next (drivePins (conclude t)) ∧ Undisturbed s (conclude t) := by
  subst ht
  refine ⟨?_, concluded_undisturbed (Undisturbed.wide.lapseLink m s)⟩
  rw [exec_heartbeatTimerExpiry hs, heartbeatExpires, if_pos ⟨ha, h0⟩]

/-- The reaction to a lapse that both links share, in one update of the link (R146, R147). -/
theorem lostLink_eq (m : Master) (s : State) :
    raiseAlert (tableTrigger (lostAlert m)) (changeLink m .lapsed (s.modLink m fun x => { x with timer := none })) =
      raiseAlert { kind := lostAlert m, severity := .urgent }
        (emit [otherQueue m] { kind := .linkState, value := some 2 }
          (s.modLink m fun _ =>
            { s.link m with state := .lapsed, timer := none, lastChange := some s.clock })) := by
  cases m <;> rfl

/-- LAPSE goes to the exhibits in use alone (R148). -/
theorem addLapse_eq (s : State) :
    addLapse s = forEach (fun e t => if (t.exhibit e).state = .ready ∨ (t.exhibit e).state = .running ∨
      (t.exhibit e).state = .held then addHold .lapse e t else t) s := by
  refine congrArg (forEach · s) (funext fun e => funext fun t => ?_)
  cases (t.exhibit e).state <;> rfl

theorem returnTaken_freeList (s : State) : (returnTaken s).freeList = s.freeList ++ s.takenSet := by
  obtain ⟨hfree, -⟩ := PlacesOk.freeAll s.takenSet s
  exact hfree

/-! ## O52 -/

/-- Settles O52: a heartbeat and a lapse by the state of the link before them. -/
theorem linksLapseAndResume : Obligations.LinksLapseAndResume := by
  refine ⟨fun s t => step_linksOk, fun m s had => ?_, fun m s hs => ?_⟩
  · intro x period queue reply goesTo beat resumed
    have hperiod : heartbeatPeriod s m = period := by cases m <;> rfl
    have hqueue : otherQueue m = queue := by cases m <;> rfl
    have hbeat : heardRecord m s = beat := by rw [heardRecord, hperiod]
    have hheard : heardLink m s = s.modLink m fun _ => beat := by rw [heardLink_eq, hbeat]
    have hresumed : changeLink m .active (heardLink m s) = resumed := by rw [resumedLink_eq, hbeat, hqueue]
    have goes {t : State} (ht : takeHeartbeat m s = t) : goesTo (conclude t) := by
      have answer := heartbeat_answers had ht
      rwa [hperiod] at answer
    refine ⟨fun h => goes ((takeHeartbeat_active h).trans hheard),
      fun h => goes ((takeHeartbeat_neverSeen h).trans hresumed), fun h hm => ?_, fun h hm => ?_⟩
    · subst hm
      exact goes ((takeHeartbeat_lapsed_desk h).trans hresumed)
    · subst hm
      exact goes ((takeHeartbeat_lapsed_show h).trans (congrArg removeLapse hresumed))
  · intro x goesTo lost expired held
    refine ⟨fun ⟨ha, h0⟩ hm => ?_, fun ⟨ha, h0⟩ hm => ?_, rfl, returnTaken_freeList s, fun h => ?_⟩
    · subst hm
      exact heartbeat_lapses hs ha h0 (lostLink_eq .deskMaster s)
    · subst hm
      refine heartbeat_lapses hs ha h0 (congrArg returnTaken ?_)
      rw [lostLink_eq]
      exact addLapse_eq _
    · refine ⟨?_, .refl s⟩
      rw [exec_heartbeatTimerExpiry hs, heartbeatExpires, if_neg h]

end Sys2Proof.Machine
end

section
/-! SUPPORT. The retirement of an active frame as one state, what follows it, and the cue queue's retirement (R92, R97,
R135, R139). -/

namespace Sys2Proof.Machine

/-! ## The axes of a frame stop (R92, R97) -/

/-- The state with its axes and its start arbiter put in place. -/
def State.putAxes (v : Vector Axis 12) (x : Arbiter) (s : State) : State := { s with axes := v, arbiter := x }

theorem releaseAxis_putAxes (v : Vector Axis 12) (x : Arbiter) (a : AxisId) (s : State) :
    (releaseAxis a s).putAxes v x = s.putAxes v x := by
  unfold releaseAxis
  split <;> rfl

theorem stopAxis_putAxes (v : Vector Axis 12) (x : Arbiter) (a : AxisId) (s : State) :
    (stopAxis a s).putAxes v x = s.putAxes v x := by
  unfold stopAxis
  split
  · exact releaseAxis_putAxes v x a s
  · rfl

theorem putAxes_self (s : State) : s.putAxes s.axes s.arbiter = s := rfl

theorem stopFrameAxes_putAxes (v : Vector Axis 12) (x : Arbiter) (f : FrameId) (s : State) :
    (stopFrameAxes f s).putAxes v x = s.putAxes v x := by
  rw [stopFrameAxes_eq]
  refine forList_keeps (State.putAxes v x) (fun a t => ?_) _ s
  split
  · exact stopAxis_putAxes v x a t
  · rfl

section
variable (f : FrameId) (s : State)

/-- The stop of a frame's axes writes the axes and the start arbiter alone, and appends no event (R92). -/
theorem stopFrameAxes_eq_putAxes :
    stopFrameAxes f s = s.putAxes (stopFrameAxes f s).axes (stopFrameAxes f s).arbiter :=
  (putAxes_self _).symm.trans (stopFrameAxes_putAxes _ _ f s)

/-- The axes of a frame that wait give up their places (R92). -/
theorem stopFrameAxes_startQueue_eq : (stopFrameAxes f s).arbiter.startQueue = s.arbiter.startQueue.filter fun a =>
    !((s.axis a).movedBy f && (s.axis a).state = .waitingStart) := by
  rw [stopFrameAxes_eq, (stopMoved_withdraws f).list_startQueue]
  refine List.filter_congr fun a _ => ?_
  by_cases hw : (s.axis a).state = .waitingStart
  · simp [hw, AxisState.busy]
  · simp [hw]

/-- Whether an axis that a frame moves has its start cost in use (R104). -/
def chargedBy (a : AxisId) : Bool := (s.axis a).movedBy f && (s.axis a).state = .accelerating

theorem chargedBy_iff (a : AxisId) : chargedBy f s a = true ↔
    ((s.axis a).movedBy f && (s.axis a).state.busy) = true ∧ (s.axis a).state = .accelerating := by
  unfold chargedBy
  cases (s.axis a).state <;> simp [AxisState.busy]

/-- The units of the axes of a frame that accelerate return (R92, R109). -/
theorem stopFrameAxes_unitsInUse : (stopFrameAxes f s).arbiter.unitsInUse = s.arbiter.unitsInUse -
    (((List.finRange 12).filter (chargedBy f s)).map fun a => (s.axis a).startCost).sum := by
  rw [stopFrameAxes_eq, (stopMoved_withdraws f).list_unitsInUse, sum_filter_map, Fin.sum_univ_def]
  refine congrArg (fun l : List Nat => s.arbiter.unitsInUse - l.sum) (List.map_congr_left fun a ha => ?_)
  exact (if_pos ha).trans (if_congr (chargedBy_iff f s a).symm rfl rfl)

theorem stopFrameAxes_accel (a : AxisId) : (stopFrameAxes f s).arbiter.accel.get a =
    if a ∈ (List.finRange 12).filter (chargedBy f s) then none else s.arbiter.accel.get a := by
  rw [stopFrameAxes_eq, (stopMoved_withdraws f).list_accel]
  refine if_congr ?_ rfl rfl
  rw [List.mem_filter, chargedBy_iff]

theorem stopFrameAxes_sag : (stopFrameAxes f s).arbiter.sag = s.arbiter.sag ∧
    (stopFrameAxes f s).arbiter.sagTimer = s.arbiter.sagTimer := by
  rw [stopFrameAxes_eq]
  obtain ⟨hsag, htimer⟩ := (stopMoved_withdraws f).list_sag (List.finRange 12) s
  rw [hsag, htimer]
  exact ⟨rfl, rfl⟩

end

/-! ## The active frame retires (R97, R135) -/

theorem mode_of_sansCues {s t : State} (h : t.sansCues = s.sansCues) : t.mode = s.mode :=
  (congrArg State.mode h :)

/-- The event of a retirement (R135). -/
def cueRetired (f : FrameId) (e : ExhibitId) (o : CueOutcome) : Event :=
  { kind := .cueRetired, exhibit := some e, subject := some (BitVec.ofNat 8 f.val)
    value := some (BitVec.ofNat 16 o.code) }

/-- The frame at the tail of the retired list with its record, out of its exhibit's active slot, and CUE_RETIRED told:
steps 1 to 5 of the retirement of an active frame (R135). -/
def retirementTold (f : FrameId) (e : ExhibitId) (o : CueOutcome) (a : Option AxisId) (s : State) : State :=
  appendTo .showQ (cueRetired f e o)
    { (s.modExhibit e fun x => { x with active := none, queue := (s.exhibit e).queue.filter (· ≠ f) }).modFrame f
        CueFrame.hushed with
      retiredList := s.retiredList ++ [retirement s e o a f] }

/-- Steps 1 to 6 of the retirement of an active frame: its axes have stopped (R97, R135). -/
def retirementDone (f : FrameId) (e : ExhibitId) (o : CueOutcome) (a : Option AxisId) (s : State) : State :=
  stopFrameAxes f (retireFrame f e o a s)

section
variable {f : FrameId} {e : ExhibitId} (o : CueOutcome) (a : Option AxisId) {s : State}

theorem retirementDone_retiredList :
    (retirementDone f e o a s).retiredList = s.retiredList ++ [retirement s e o a f] :=
  (retiredList_of_sansAxes (stopFrameAxes_sansAxes f _)).trans (retireFrame_retiredList f e o a s)

theorem retirementDone_mode : (retirementDone f e o a s).mode = s.mode :=
  (mode_of_sansCues (sansCues_of_sansAxes (stopFrameAxes_sansAxes f _))).trans
    (mode_of_sansCues (retireFrame_sansCues f e o a s))

theorem retirementDone_clock : (retirementDone f e o a s).clock = s.clock :=
  (clock_of_sansAxes (stopFrameAxes_sansAxes f _)).trans (retireFrame_clock f e o a s)

theorem retireFrame_axis (b : AxisId) : (retireFrame f e o a s).axis b = s.axis b :=
  congrArg (fun v => v.get b) (retireFrame_axes f e o a s)

theorem chargedBy_retireFrame : chargedBy f (retireFrame f e o a s) = chargedBy f s := by
  funext b
  rw [chargedBy, retireFrame_axis, chargedBy]

theorem retirementDone_axis (b : AxisId) : (retirementDone f e o a s).axis b =
    if (s.axis b).movedBy f = true ∧ (s.axis b).state.busy = true then (s.axis b).stopped else s.axis b := by
  rw [retirementDone, stopFrameAxes_axis, retireFrame_axis]

theorem retirementDone_startQueue : (retirementDone f e o a s).arbiter.startQueue =
    s.arbiter.startQueue.filter fun b => !((s.axis b).movedBy f && (s.axis b).state = .waitingStart) := by
  rw [retirementDone, stopFrameAxes_startQueue_eq, retireFrame_arbiter]
  simp only [retireFrame_axis]

theorem retirementDone_unitsInUse : (retirementDone f e o a s).arbiter.unitsInUse = s.arbiter.unitsInUse -
    (((List.finRange 12).filter (chargedBy f s)).map fun b => (s.axis b).startCost).sum := by
  rw [retirementDone, stopFrameAxes_unitsInUse, retireFrame_arbiter, chargedBy_retireFrame]
  simp only [retireFrame_axis]

theorem retirementDone_accel (b : AxisId) : (retirementDone f e o a s).arbiter.accel.get b =
    if b ∈ (List.finRange 12).filter (chargedBy f s) then none else s.arbiter.accel.get b := by
  rw [retirementDone, stopFrameAxes_accel, retireFrame_arbiter, chargedBy_retireFrame]

theorem retirementDone_sag : (retirementDone f e o a s).arbiter.sag = s.arbiter.sag ∧
    (retirementDone f e o a s).arbiter.sagTimer = s.arbiter.sagTimer := by
  rw [retirementDone, ← retireFrame_arbiter f e o a s]
  exact stopFrameAxes_sag f _

section
variable (h : (s.exhibit e).active = some f)
include h

theorem retireFrame_of_active : retireFrame f e o a s = retirementTold f e o a s := by
  have left : s.modExhibit e (Exhibit.without f)
      = s.modExhibit e fun x => { x with active := none, queue := (s.exhibit e).queue.filter (· ≠ f) } :=
    modExhibit_congr s e _ _ (by unfold Exhibit.without; rw [h, if_pos rfl])
  exact congrArg (fun t : State => appendTo .showQ _
    { t.modFrame f CueFrame.hushed with retiredList := s.retiredList ++ [retirement s e o a f] }) left

theorem retirementDone_exhibit : (retirementDone f e o a s).exhibit e
    = { s.exhibit e with active := none, queue := (s.exhibit e).queue.filter (· ≠ f) } := by
  rw [retirementDone, exhibit_of_sansAxes (stopFrameAxes_sansAxes f _), retireFrame_exhibit, if_pos rfl,
    Exhibit.without, if_pos h]

theorem retireActive_eq : retireActive e o a s = followRetirement e (retirementDone f e o a s) := by
  unfold retireActive
  rw [h]
  rfl

/-- An exhibit whose state the cause has changed, or a HELD one, stays (R135). -/
theorem retireActive_stays (hr : (s.exhibit e).state ≠ .running) :
    retireActive e o a s = retirementDone f e o a s := retireActive_of_some o a h hr

section
variable (hr : (s.exhibit e).state = .running)
include hr

/-- A RUNNING exhibit takes the next frame, or becomes READY (R135). -/
theorem retireActive_running : retireActive e o a s =
    if s.mode = .opened ∧ (s.exhibit e).queue.filter (· ≠ f) ≠ [] then takeFrame e (retirementDone f e o a s)
    else changeState e .ready (retirementDone f e o a s) := by
  have hx := retirementDone_exhibit o a h
  rw [retireActive_eq o a h, followRetirement, hx, if_pos hr]
  refine if_congr ?_ rfl rfl
  rw [canTake_iff, retirementDone_mode, hx]

theorem retireActive_takes (hmode : s.mode = .opened) (hq : (s.exhibit e).queue.filter (· ≠ f) ≠ []) :
    retireActive e o a s = takeFrame e (retirementDone f e o a s) := by
  rw [retireActive_running o a h hr, if_pos ⟨hmode, hq⟩]

/-- EXHIBIT_STATE of a RUNNING exhibit that becomes READY goes to the show and desk queues (R9, R48). -/
theorem retireActive_readies (hno : s.mode ≠ .opened ∨ (s.exhibit e).queue.filter (· ≠ f) = []) :
    retireActive e o a s = emit [.showQ, .deskQ] { kind := .exhibitState, exhibit := some e, value := some 1 }
      ((retirementDone f e o a s).modExhibit e fun y => { y with state := .ready, lastChange := s.clock }) := by
  have hstop : ¬ (s.mode = .opened ∧ (s.exhibit e).queue.filter (· ≠ f) ≠ []) := by tauto
  rw [retireActive_running o a h hr, if_neg hstop, changeState, retirementDone_exhibit o a h, retirementDone_clock, hr]
  rfl

end
end
end

/-! ## What follows a retirement leaves its record -/

theorem startRequest_retiredList (a : AxisId) (m : Move) (s : State) :
    (startRequest a m s).retiredList = s.retiredList := by
  unfold startRequest
  split <;> rfl

theorem startStep_retiredList (f : FrameId) (i : Nat) (s : State) :
    (startStep f i s).retiredList = s.retiredList := by
  unfold startStep
  split
  case h_2 => exact startRequest_retiredList _ _ _
  all_goals rfl

theorem beginGroup_retiredList (f : FrameId) (g : Nat) (s : State) :
    (beginGroup f g s).retiredList = s.retiredList :=
  forList_keeps State.retiredList (startStep_retiredList f) _ _

theorem changeState_retiredList (e : ExhibitId) (n : ExhibitState) (s : State) :
    (changeState e n s).retiredList = s.retiredList := (congrArg State.retiredList (changeState_sansExhibits e n s) :)

theorem takeFrame_retiredList (e : ExhibitId) (s : State) : (takeFrame e s).retiredList = s.retiredList := by
  cases hq : (s.exhibit e).queue with
  | nil => rw [takeFrame_nil hq]
  | cons f rest =>
    rw [takeFrame_cons hq, beginGroup_retiredList, becomeRunning]
    split
    · rfl
    · exact changeState_retiredList e .running _

/-- The record of an active frame's retirement stands at the tail of the retired list (R135). -/
theorem retireActive_retiredList {f : FrameId} {e : ExhibitId} (o : CueOutcome) (a : Option AxisId) {s : State}
    (h : (s.exhibit e).active = some f) :
    (retireActive e o a s).retiredList = s.retiredList ++ [retirement s e o a f] := by
  refine Eq.trans ?_ (retirementDone_retiredList o a)
  by_cases hr : (s.exhibit e).state = .running
  · rw [retireActive_running o a h hr]
    split
    · exact takeFrame_retiredList e _
    · exact changeState_retiredList e .ready _
  · rw [retireActive_stays o a h hr]

/-- With nothing in its cue queue, a RUNNING exhibit is READY after its frame (R135). -/
theorem retireActive_exhibit_ready {f : FrameId} {e : ExhibitId} (o : CueOutcome) (a : Option AxisId) {s : State}
    (h : (s.exhibit e).active = some f) (hr : (s.exhibit e).state = .running) (hq : (s.exhibit e).queue = []) :
    (retireActive e o a s).exhibit e
      = { s.exhibit e with state := .ready, active := none, lastChange := s.clock } := by
  have hfilter : (s.exhibit e).queue.filter (· ≠ f) = (s.exhibit e).queue := by rw [hq]; rfl
  rw [retireActive_running o a h hr, if_neg fun hc => hc.2 (hfilter.trans hq), changeState_exhibit_same,
    retirementDone_exhibit o a h, retirementDone_clock, hfilter]

/-! ## The frames of a cue queue retire (R135, R139) -/

theorem CueFrame.hushed_hushed (x : CueFrame) : x.hushed.hushed = x.hushed := by
  simp [CueFrame.hushed]

theorem retireFrame_frame (f : FrameId) (e : ExhibitId) (o : CueOutcome) (a : Option AxisId) (s : State)
    (g : FrameId) : (retireFrame f e o a s).frame g = if g = f then (s.frame g).hushed else s.frame g := by
  have h : (retireFrame f e o a s).frame g = (s.modFrame f CueFrame.hushed).frame g :=
    (congrArg (State.frame · g) (retireFrame_sansQueues f e o a s) :)
  rw [h]
  by_cases hg : g = f
  · subst hg
    rw [modFrame_frame_same, if_pos rfl]
  · rw [modFrame_frame_other _ _ _ _ hg, if_neg hg]

section
variable (e : ExhibitId) (o : CueOutcome) (a : Option AxisId)

theorem retireList_frame (l : List FrameId) (s : State) (g : FrameId) :
    (forList l (fun f t => retireFrame f e o a t) s).frame g = if g ∈ l then (s.frame g).hushed else s.frame g := by
  induction l generalizing s with
  | nil => simp
  | cons f l ih =>
    rw [forList_cons, ih, retireFrame_frame]
    by_cases hg : g = f
    · simp [hg, CueFrame.hushed_hushed]
    · simp [hg]

/-- Each frame that retires leaves the cue queue, whatever the active slot has. -/
theorem retireList_queue (l : List FrameId) (s : State) :
    ((forList l (fun f t => retireFrame f e o a t) s).exhibit e).queue
      = (s.exhibit e).queue.filter (· ∉ l) := by
  induction l generalizing s with
  | nil => simp
  | cons f l ih =>
    rw [forList_cons, ih, retireFrame_exhibit, if_pos rfl, Exhibit.without]
    simp [List.filter_filter, Bool.and_comm]

/-- The show queue after retirements is the one their CUE_RETIRED events make: the frames and the records do not bear
on it. -/
theorem retireList_showQueue (l : List FrameId) {s u : State} (hq : s.showQueue = u.showQueue)
    (hc : s.clock = u.clock) :
    (forList l (fun f t => retireFrame f e o a t) s).showQueue
      = (l.foldl (fun t f => appendTo .showQ (cueRetired f e o) t) u).showQueue := by
  induction l generalizing s u with
  | nil => exact hq
  | cons f l ih =>
    refine ih ?_ ((retireFrame_clock f e o a s).trans (hc.trans (appendTo_clock _ _ _).symm))
    exact appendTo_queue_same .showQ _ hq hc

end

theorem retireQueue_queue (e : ExhibitId) (s : State) : ((retireQueue e s).exhibit e).queue = [] := by
  refine (retireList_queue e _ _ _ s).trans (List.filter_eq_nil_iff.2 fun f hf => ?_)
  simpa using hf

end Sys2Proof.Machine
end

section
/-! PROOFS. The end of cues, and their results (O50). -/

namespace Sys2Proof.Machine

/-! ## The bodies of CUE-CANCEL and CUE-FLUSH (R138, R139) -/

section
variable (port : Port) (e : ExhibitId) (s : State)

theorem cueCancelBody_num1 : cueCancelBody port (num1 e.val) s =
    if inService s e || (s.exhibit e).active.isNone then refuse .wrongState s
    else acceptExhibit e (retireActive e .cancelled none s) := onExhibit_num1 e _ s

theorem cueFlushBody_num1 : cueFlushBody port (num1 e.val) s =
    if inService s e then refuse .wrongState s
    else accept (num1 (s.exhibit e).queue.length) (conclude (retireQueue e s)) := onExhibit_num1 e _ s

end

section
variable {e : ExhibitId} {s : State}

theorem cueCancel_refused (had : Admitted .cueCancel .showPort s)
    (h : (s.exhibit e).state = .service ∨ (s.exhibit e).active = none) :
    Answers .cueCancel .showPort (num1 e.val) s .wrongState [] s :=
  answers_body had (by simp) rfl ((cueCancelBody_num1 .showPort e s).trans (if_pos (by simpa [inService] using h)))

theorem cueCancel_retires (had : Admitted .cueCancel .showPort s) (hs : (s.exhibit e).state ≠ .service)
    (ha : (s.exhibit e).active ≠ none) :
    Answers .cueCancel .showPort (num1 e.val) s .ok
      (num1 ((conclude (retireActive e .cancelled none s)).exhibit e).state.code)
      (conclude (retireActive e .cancelled none s)) :=
  answers_body had (by simp) rfl
    ((cueCancelBody_num1 .showPort e s).trans (if_neg (by simp [inService, hs, ha])))

theorem cueFlush_refused (had : Admitted .cueFlush .showPort s) (h : (s.exhibit e).state = .service) :
    Answers .cueFlush .showPort (num1 e.val) s .wrongState [] s :=
  answers_body had (by simp) rfl ((cueFlushBody_num1 .showPort e s).trans (if_pos (by simp [inService, h])))

theorem cueFlush_retires (had : Admitted .cueFlush .showPort s) (h : (s.exhibit e).state ≠ .service) :
    Answers .cueFlush .showPort (num1 e.val) s .ok (num1 (s.exhibit e).queue.length) (conclude (retireQueue e s)) :=
  answers_body had (by simp) rfl ((cueFlushBody_num1 .showPort e s).trans (if_neg (by simp [inService, h])))

end

/-! ## CUE-RESULT (R140) -/

/-- The fault axis of a record is an optional field (R200, R213). -/
theorem retiredRecord_bytes (r : RetiredRecord) : r.bytes =
    num1 r.frame.val ++ num1 r.exhibit.val ++ num1 r.outcome.code ++ num1 r.completed
      ++ (match r.faultAxis with | none => [0, 0] | some a => [1, BitVec.ofNat 8 a.val]) ++ clockBytes r.endTime := by
  unfold RetiredRecord.bytes
  cases r.faultAxis <;> rfl

section
variable (port : Port) (p : List Byte) {s : State}

theorem cueResultBody_empty (h : s.retiredList = []) : cueResultBody port p s = refuse .empty s := by
  unfold cueResultBody
  rw [h]

theorem cueResultBody_oldest {r : RetiredRecord} {rest : List RetiredRecord} (h : s.retiredList = r :: rest) :
    cueResultBody port p s = accept r.bytes (freeFrame r.frame { s with retiredList := rest }) := by
  unfold cueResultBody
  rw [h]

end

theorem cueResult_collects {s : State} (had : Admitted .cueResult .showPort s) {r : RetiredRecord}
    {rest : List RetiredRecord} (h : s.retiredList = r :: rest) {reply : List Byte} (hr : r.bytes = reply) :
    Answers .cueResult .showPort [] s .ok reply (freeFrame r.frame { s with retiredList := rest }) :=
  hr ▸ answers_body had (by simp) rfl (cueResultBody_oldest .showPort [] h)

/-! ## O50 -/

/-- Settles O50: the retirement of an active frame is read off the one state it makes and what follows by the state of
the exhibit; a flush is the loop of the retirements of its cue queue. -/
theorem cuesEndAndAreCollected : Obligations.CuesEndAndAreCollected := by
  refine ⟨fun e s => ⟨fun had => ⟨cueCancel_refused had, fun hs ha => ?_⟩, fun f o fault h => ?_, fun had =>
    ⟨cueFlush_refused had, fun hs => ?_⟩⟩, fun s had => ⟨fun h => ?_, fun r rest h => ?_⟩⟩
  · exact ⟨cueCancel_retires had hs ha,
      concluded_undisturbed (Undisturbed.wide.retires s e .cancelled none)⟩
  · refine ⟨retireActive_retiredList o fault h, fun hr => ?_, retireActive_exhibit_ready o fault h, ?_⟩
    · exact (congrArg (State.exhibit · e) (retireActive_stays o fault h hr)).trans (retirementDone_exhibit o fault h)
    · intro rest code told mine charged
      have hcode : BitVec.ofNat 16 o.code = code := by cases o <;> rfl
      have htold : retireFrame f e o fault s = told := by
        rw [retireFrame_of_active o fault h, retirementTold, cueRetired, hcode]
        rfl
      obtain ⟨hsag, htimer⟩ := retirementDone_sag (f := f) (e := e) o fault (s := s)
      refine ⟨retirementDone f e o fault s, ?_, fun a hm hb => ?_, fun a hn => ?_, retirementDone_startQueue o fault,
        retirementDone_unitsInUse o fault, retirementDone_accel o fault, hsag, htimer, retireActive_stays o fault h,
        retireActive_takes o fault h, retireActive_readies o fault h⟩
      · rw [← htold]
        exact stopFrameAxes_eq_putAxes f _
      · exact (retirementDone_axis o fault a).trans (if_pos ⟨hm, hb⟩)
      · exact (retirementDone_axis o fault a).trans (if_neg hn)
  · refine ⟨cueFlush_retires had hs, concluded_undisturbed (Undisturbed.wide.flushes s e), retireQueue_queue e s,
      (retireQueue_retires e s).records, fun f hf => ?_, fun f hf => ?_,
      retireList_showQueue e .cancelled none _ rfl rfl, retireList_axes e .cancelled none _ s⟩
    · exact (retireList_frame e _ _ _ s f).trans (if_pos hf)
    · exact (retireList_frame e _ _ _ s f).trans (if_neg hf)
  · exact answers_body had (by simp) rfl (cueResultBody_empty .showPort [] h)
  · exact cueResult_collects had h (retiredRecord_bytes r)

end Sys2Proof.Machine
end

section
/-! SUPPORT. The levels that an alert record reaches, one at a time (R172, R173, R189). -/

namespace Sys2Proof.Machine

/-! ## The arbiter's re-evaluation leaves the alert list -/

/-- The re-evaluation sets the tone and may report a chime that it cuts. -/
theorem reevaluateTone_keeps {β : Type} {g : State → β}
    (htone : ∀ (s : State) n, g (s.modAnnunciators fun x => { x with tone := n }) = g s)
    (hcut : ∀ v s, g (emit [.deskQ] v s) = g s) (s : State) : g (reevaluateTone s) = g s := by
  unfold reevaluateTone
  split
  · rfl
  · exact htone s _
  · exact htone s _
  · split
    · rfl
    · exact htone s _
  · rfl
  · exact (htone _ _).trans (hcut _ s)

@[simp] theorem reevaluateTone_alerts (s : State) : (reevaluateTone s).alerts = s.alerts :=
  reevaluateTone_keeps (g := State.alerts) (fun _ _ => rfl) (fun _ _ => rfl) s

@[simp] theorem reevaluateTone_silence (s : State) :
    (reevaluateTone s).annunciators.silence = s.annunciators.silence :=
  reevaluateTone_keeps (g := fun t => t.annunciators.silence) (fun _ _ => rfl) (fun _ _ => rfl) s

/-! ## Escalation times (R172) -/

theorem levelTime_notice (x : Timing) (n : Nat) : levelTime x .notice n = none := rfl

theorem levelTime_above (x : Timing) (sev : Severity) {n : Nat} (h : 3 < n) : levelTime x sev n = none := by
  obtain ⟨m, rfl⟩ := Nat.exists_eq_add_of_le' h
  cases sev <;> rfl

theorem levelDue_iff (s : State) (r : AlertRecord) (limit : Nat) : levelDue s r limit = true ↔
    r.state = .opened ∧ ∃ u, levelTime s.timing r.severity (r.level + 1) = some u ∧ u ≤ limit := by
  unfold levelDue
  rw [Bool.and_eq_true, decide_eq_true_iff]
  cases levelTime s.timing r.severity (r.level + 1) with
  | none => simp
  | some u => simp

theorem levelReached_iff (s : State) (r : AlertRecord) (limit : Nat) : levelReached s r = some limit ↔
    r.state = .opened ∧ levelTime s.timing r.severity (r.level + 1) = some limit ∧
      limit ≤ elapsed r.raised s.clock := by
  unfold levelReached
  split
  case isTrue ho => simp [ho, Option.filter_eq_some_iff]
  case isFalse ho => simp [ho]

/-! ## Levels reached -/

/-- A record `k` levels above its own. -/
def AlertRecord.higher (r : AlertRecord) (k : Nat) : AlertRecord := { r with level := r.level + k }

theorem AlertRecord.higher_higher (r : AlertRecord) (j k : Nat) : (r.higher j).higher k = r.higher (j + k) :=
  congrArg (fun n => { r with level := n }) (Nat.add_assoc r.level j k)

/-- Events of one kind after one another depend on their queue and the clock alone. -/
theorem appendTo_iterate_queue (q : QueueName) (v : Event) (k : Nat) {s t : State} (hq : t.queue q = s.queue q)
    (hc : t.clock = s.clock) : ((appendTo q v)^[k] t).queue q = ((appendTo q v)^[k] s).queue q := by
  induction k generalizing s t with
  | zero => exact hq
  | succ k ih =>
    exact ih (appendTo_queue_same q v hq hc) (by rw [appendTo_clock, appendTo_clock, hc])

/-- In `t`, the record `r` of `s` has reached `k` levels, each with its ALERT_CHANGED, and reaching level 2 has ended
silence (R173, R189). -/
structure LevelsReached (r : AlertRecord) (k : Nat) (s t : State) : Prop where
  still : k = 0 → t = s
  alerts : k ≠ 0 → t.alerts = (replaceRecord r.number (r.higher k) s).alerts
  annunciators : t.annunciators = if r.level < 2 ∧ 2 ≤ r.level + k then
    { s.annunciators with silence := none, silenceBegan := none } else s.annunciators
  deskQueue : t.deskQueue = ((appendTo .deskQ (alertEvent .alertChanged r r.number))^[k] s).deskQueue
  rest : t.sansDesk = s.sansDesk

/-- A record that has replaced another is itself replaced. -/
theorem replaceRecord_replaceRecord {x : AlertRecord} (y : AlertRecord) (s : State) :
    replaceRecord x.number y (replaceRecord x.number x s) = replaceRecord x.number y s := by
  have twice (z : AlertRecord) : (if (if z.number = x.number then x else z).number = x.number then y
      else if z.number = x.number then x else z) = if z.number = x.number then y else z := by
    by_cases hz : z.number = x.number
    · rw [if_pos hz, if_pos rfl, if_pos hz]
    · rw [if_neg hz, if_neg hz]
  have records (l : List AlertRecord) : (l.map fun z => if z.number = x.number then x else z).map
      (fun z => if z.number = x.number then y else z) = l.map fun z => if z.number = x.number then y else z := by
    rw [List.map_map]
    exact congrArg (List.map · l) (funext twice)
  exact congrArg (fun l => s.modAlerts fun a => { a with records := l }) (records s.alerts.records)

theorem replaceRecord_alerts_congr {s t : State} (n : BitVec 16) (y : AlertRecord) (h : t.alerts = s.alerts) :
    (replaceRecord n y t).alerts = (replaceRecord n y s).alerts :=
  congrArg (fun a : AlertList => { a with
    records := a.records.map fun z : AlertRecord => if z.number = n then y else z }) h

theorem reachLevel_alerts (r : AlertRecord) (s : State) : 
    (reachLevel r s).alerts = (replaceRecord r.number (r.higher 1) s).alerts := by
  unfold reachLevel
  dsimp only
  split <;> rfl

theorem reachLevel_annunciators (r : AlertRecord) (s : State) : (reachLevel r s).annunciators =
    if r.level + 1 = 2 then { s.annunciators with silence := none, silenceBegan := none } else s.annunciators := by
  unfold reachLevel
  dsimp only
  split <;> rfl

theorem reachLevel_deskQueue (r : AlertRecord) (s : State) :
    (reachLevel r s).deskQueue = (appendTo .deskQ (alertEvent .alertChanged r r.number) s).deskQueue := by
  unfold reachLevel
  dsimp only
  split <;> rfl

theorem reachLevel_clock (r : AlertRecord) (s : State) : (reachLevel r s).clock = s.clock :=
  (congrArg State.clock (AlertMoves.reachLevel r s).rest :)

theorem reachLevel_timing (r : AlertRecord) (s : State) : (reachLevel r s).timing = s.timing :=
  (congrArg State.timing (AlertMoves.reachLevel r s).rest :)

/-- The record stands in the list one level higher, also beside another of its number. -/
theorem recordOf_reachLevel {r : AlertRecord} {s : State} (h : recordOf s r.number = some r) :
    recordOf (reachLevel r s) r.number = some (r.higher 1) := by
  have hn : (r.higher 1).number = r.number := rfl
  have htest : (fun y : AlertRecord => decide (y.number = r.number)) ∘
      (fun y => if y.number = r.number then r.higher 1 else y) = fun y => decide (y.number = r.number) := by
    funext y
    rw [Function.comp_apply]
    split
    case isTrue he => rw [hn, he]
    case isFalse => rfl
  unfold recordOf at h ⊢
  rw [reachLevel_alerts, replaceRecord, modAlerts_alerts, List.find?_map, htest, h, Option.map_some, if_pos rfl]

theorem LevelsReached.refl (r : AlertRecord) (s : State) : LevelsReached r 0 s s where
  still _ := rfl
  alerts h := absurd rfl h
  annunciators := by rw [if_neg (by omega)]
  deskQueue := rfl
  rest := rfl

/-- One level, and the levels reached after it. -/
theorem LevelsReached.after {r : AlertRecord} {k : Nat} {s t : State}
    (h : LevelsReached (r.higher 1) k (reachLevel r s) t) : LevelsReached r (k + 1) s t where
  still hk := by omega
  alerts _ := by
    by_cases hk : k = 0
    · rw [h.still hk, hk, reachLevel_alerts]
    · rw [h.alerts hk, replaceRecord_alerts_congr _ _ (reachLevel_alerts r s), r.higher_higher, Nat.add_comm 1 k]
      exact congrArg State.alerts (replaceRecord_replaceRecord (x := r.higher 1) (r.higher (k + 1)) s)
  annunciators := by
    have hl : (r.higher 1).level = r.level + 1 := rfl
    rw [h.annunciators, reachLevel_annunciators, hl]
    by_cases h2 : r.level + 1 = 2
    · rw [if_neg (by omega), if_pos h2, if_pos (by omega)]
    · rw [if_neg h2]
      exact if_congr (by omega) rfl rfl
  deskQueue := h.deskQueue.trans (appendTo_iterate_queue .deskQ _ k (reachLevel_deskQueue r s)
    ((reachLevel_clock r s).trans (appendTo_clock _ _ s).symm))
  rest := h.rest.trans (AlertMoves.reachLevel r s).rest

/-- What the levels do not move is as before them. -/
theorem LevelsReached.others {r : AlertRecord} {k : Nat} {s t : State} (h : LevelsReached r k s t) :
    { t with alerts := s.alerts, annunciators := s.annunciators, deskQueue := s.deskQueue } = s :=
  congrArg (fun u : State =>
    { u with alerts := s.alerts, annunciators := s.annunciators, deskQueue := s.deskQueue }) h.rest

/-! ## A climb (R173) -/

/-- A climb reaches every level due, and stops at the first that is not. -/
theorem climb_reaches (fuel limit : Nat) {r : AlertRecord} {s : State} (h : recordOf s r.number = some r) :
    ∃ k, k ≤ fuel ∧ LevelsReached r k s (climb fuel r.number limit s) ∧
      (∀ j, j < k → levelDue s (r.higher j) limit = true) ∧
      (k < fuel → levelDue s (r.higher k) limit = false) := by
  induction fuel generalizing r s with
  | zero => exact ⟨0, Nat.le_refl 0, .refl r s, fun _ hj => absurd hj (Nat.not_lt_zero _),
      fun hk => absurd hk (Nat.lt_irrefl 0)⟩
  | succ fuel ih =>
    unfold climb
    rw [h]
    dsimp only
    by_cases hd : levelDue s r limit = true
    · rw [if_pos hd]
      have hdue (j : Nat) : levelDue (reachLevel r s) ((r.higher 1).higher j) limit
          = levelDue s (r.higher (j + 1)) limit := by
        rw [r.higher_higher, Nat.add_comm]
        unfold levelDue
        rw [reachLevel_timing]
      obtain ⟨k, hk, hr, hbelow, hstop⟩ := ih (r := r.higher 1) (recordOf_reachLevel h)
      refine ⟨k + 1, Nat.succ_le_succ hk, hr.after, fun j hj => ?_, fun hlt => ?_⟩
      · cases j with
        | zero => exact hd
        | succ j => exact (hdue j).symm.trans (hbelow j (Nat.lt_of_succ_lt_succ hj))
      · exact (hdue k).symm.trans (hstop (Nat.lt_of_succ_lt_succ hlt))
    · rw [if_neg hd]
      exact ⟨0, Nat.zero_le _, .refl r s, fun _ hj => absurd hj (Nat.not_lt_zero _),
        fun _ => Bool.eq_false_iff.2 hd⟩

/-- How far a climb with the time `limit` goes: every level up to the last has a time not later, and of an OPEN record
the next has none or a later one (R173). -/
structure Climbs (x : Timing) (r : AlertRecord) (limit k : Nat) : Prop where
  opened : r.state ≠ .opened → k = 0
  top : k ≠ 0 → r.level + k ≤ 3
  timed : ∀ j, 1 ≤ j → j ≤ k → ∃ u, levelTime x r.severity (r.level + j) = some u ∧ u ≤ limit
  next : r.state = .opened → ∀ u, levelTime x r.severity (r.level + k + 1) = some u → limit < u

theorem climb_three (limit : Nat) {r : AlertRecord} {s : State} (h : recordOf s r.number = some r) :
    ∃ k, LevelsReached r k s (climb 3 r.number limit s) ∧ Climbs s.timing r limit k := by
  obtain ⟨k, hk, hr, hbelow, hstop⟩ := climb_reaches 3 limit h
  have last (h0 : k ≠ 0) : r.state = .opened ∧ r.level + (k - 1) + 1 ≤ 3 :=
    Base.level_le (hbelow (k - 1) (by omega))
  refine ⟨k, hr, fun ho => ?_, fun h0 => ?_, fun j h1 hj => ?_, fun ho u hu => ?_⟩
  · by_contra h0
    exact ho (last h0).1
  · have := (last h0).2
    omega
  · obtain ⟨j, rfl⟩ := Nat.exists_eq_add_of_le' h1
    exact ((levelDue_iff s _ limit).1 (hbelow j hj)).2
  · rcases Nat.lt_or_ge k 3 with h3 | h3
    · by_contra hle
      have hdue : levelDue s (r.higher k) limit = true := (levelDue_iff s _ limit).2 ⟨ho, u, hu, by omega⟩
      rw [hstop h3] at hdue
      cases hdue
    · rw [levelTime_above _ _ (by omega)] at hu
      cases hu

theorem climbElapsed_none {n : BitVec 16} {s : State} (h : recordOf s n = none) : climbElapsed n s = s := by
  unfold climbElapsed
  rw [h]

theorem climbElapsed_some {n : BitVec 16} {s : State} {r : AlertRecord} (h : recordOf s n = some r) :
    climbElapsed n s = climb 3 n (elapsed r.raised s.clock) s := by
  unfold climbElapsed
  rw [h]

end Sys2Proof.Machine
end

section
/-! PROOFS. The levels of the alert records (O56). -/

namespace Sys2Proof.Machine

/-! ## The next level's moment (R173) -/

theorem exec_alertLevelReached (n : BitVec 16) {s : State} (h : s.inReset = false) :
    exec (.alertLevelReached n) s = .next (drivePins (reachNextLevel n s)) := occur_next h

theorem reachNextLevel_idle {n : BitVec 16} {s : State}
    (h : ∀ r, recordOf s n = some r → levelReached s r = none) : reachNextLevel n s = s := by
  have hnone : (recordOf s n).bind (levelReached s) = none := Option.bind_eq_none_iff.2 h
  unfold reachNextLevel
  rw [hnone]

theorem reachNextLevel_climbs {n : BitVec 16} {s : State} {r : AlertRecord} {limit : Nat}
    (h : recordOf s n = some r) (hl : levelReached s r = some limit) :
    reachNextLevel n s = reevaluateTone (climb 3 n limit s) := by
  unfold reachNextLevel
  rw [h, Option.bind_some, hl]

theorem reachNextLevel_undisturbed (n : BitVec 16) (limit : Nat) (s : State) :
    Undisturbed s (reevaluateTone (climb 3 n limit s)) :=
  Undisturbed.trans (Undisturbed.free.climb 3 n limit s) (Undisturbed.free.reevaluateTone _)

/-! ## O56 -/

/-- Settles O56: a climb reaches one level after another, as long as the next is due; its time is the elapsed time
within a trigger and the next level's own at that level's moment. -/
theorem alertLevelsAreReached : Obligations.AlertLevelsAreReached := by
  refine ⟨fun n s => ?_, fun x n => ⟨levelTime_notice x n, ?_⟩, fun n s hs => ?_⟩
  · intro t held time
    refine ⟨climbElapsed_none, fun r hr => ?_⟩
    obtain ⟨-, rfl⟩ := Base.recordOf_some hr
    obtain ⟨k, reaches, climbs⟩ := climb_three (elapsed r.raised s.clock) hr
    rw [← climbElapsed_some hr] at reaches
    exact ⟨k, climbs.opened, climbs.top, climbs.timed, climbs.next, reaches.still, reaches.alerts,
      reaches.annunciators, reaches.deskQueue, reaches.others⟩
  · rintro sev times (⟨rfl, rfl⟩ | ⟨rfl, rfl⟩)
    · exact ⟨rfl, rfl, rfl, levelTime_above x _⟩
    · exact ⟨rfl, rfl, rfl, levelTime_above x _⟩
  · intro held time reached
    refine ⟨fun hno => ?_, fun r limit hr hreached => ?_⟩
    · have idle (r : AlertRecord) (hr : recordOf s n = some r) : levelReached s r = none :=
        Option.eq_none_iff_forall_ne_some.2 fun limit hl => hno r limit hr ((levelReached_iff s r limit).1 hl)
      rw [exec_alertLevelReached n hs, reachNextLevel_idle idle]
    · have hnext := reachNextLevel_climbs hr ((levelReached_iff s r limit).2 hreached)
      obtain ⟨hopened, htime, -⟩ := hreached
      obtain ⟨-, rfl⟩ := Base.recordOf_some hr
      obtain ⟨k, reaches, climbs⟩ := climb_three limit hr
      have hk : k ≠ 0 := by
        rintro rfl
        exact Nat.lt_irrefl limit (climbs.next hopened limit htime)
      have halerts := (reevaluateTone_alerts _).trans (reaches.alerts hk)
      refine ⟨reevaluateTone (climb 3 r.number limit s), climb 3 r.number limit s, k,
        by rw [exec_alertLevelReached r.number hs, hnext], rfl,
        Nat.one_le_iff_ne_zero.2 hk, climbs.top hk, climbs.timed, climbs.next hopened,
        ⟨reaches.alerts hk, reaches.annunciators, reaches.deskQueue, reaches.others⟩,
        congrArg AlertList.records halerts, (congrArg AlertList.nextNumber halerts :), fun hlow hhigh => ?_,
        reachNextLevel_undisturbed r.number limit s⟩
      rw [reevaluateTone_silence, reaches.annunciators, if_pos ⟨hlow, hhigh⟩]

end Sys2Proof.Machine
end

section
/-! SUPPORT. Alert numbers, the triggers by the record of their key and the room in the list, and the conditions of the
records (R163-R169, R173). -/

namespace Sys2Proof.Machine

/-! ## Alert numbers (R163) -/

theorem bumpNumber_eq (n : BitVec 16) : bumpNumber n = if n = 65535 then 1 else n + 1 := by
  unfold bumpNumber
  exact if_congr ⟨fun h => by bv_omega, fun h => by rw [h]; rfl⟩ rfl rfl

/-- The search passes over the numbers that records hold. -/
theorem freeNumber_passes (l : List AlertRecord) (fuel : Nat) (n : BitVec 16) :
    ∃ k, freeNumber l fuel n = bumpNumber^[k] n ∧ ∀ j, j < k → ∃ r ∈ l, r.number = bumpNumber^[j] n := by
  induction fuel generalizing n with
  | zero => exact ⟨0, rfl, fun _ hj => absurd hj (Nat.not_lt_zero _)⟩
  | succ fuel ih =>
    unfold freeNumber
    by_cases hheld : (l.any fun r => r.number = n) = true
    · rw [if_pos hheld]
      obtain ⟨k, hk, hbelow⟩ := ih (bumpNumber n)
      refine ⟨k + 1, hk, fun j hj => ?_⟩
      cases j with
      | zero => simpa using hheld
      | succ j => exact hbelow j (Nat.lt_of_succ_lt_succ hj)
    · rw [if_neg hheld]
      exact ⟨0, rfl, fun _ hj => absurd hj (Nat.not_lt_zero _)⟩

/-! ## Counting on a record (R160, R166, R177) -/

theorem countRepeat_eq (n : Nat) : countRepeat n = min 255 (n + 1) := by
  unfold countRepeat
  split <;> omega

theorem raisedTo_eq_self_iff (old new : Severity) : old.raisedTo new = old ↔ ¬ old.code < new.code := by
  unfold Severity.raisedTo
  split
  case isTrue h => exact ⟨fun he => absurd h (by rw [he]; exact Nat.lt_irrefl _), fun hn => absurd h hn⟩
  case isFalse h => exact ⟨fun _ => h, fun _ => rfl⟩

/-- A record that one more trigger of its key has counted on. -/
def Trigger.counted (t : Trigger) (r : AlertRecord) : AlertRecord := { r with
  repeatCount := min 255 (r.repeatCount + 1)
  severity := if r.severity.code < t.severity.code then t.severity else r.severity }

/-- A record that a trigger of its key has reopened at a time. -/
def Trigger.reopened (t : Trigger) (r : AlertRecord) (now : Clock) : AlertRecord :=
  { t.counted r with state := .opened, level := 0, raised := now, acked := none }

theorem countOn_eq (t : Trigger) (r : AlertRecord) (s : State) :
    countOn t r s = if r.severity.code < t.severity.code then
      climbElapsed r.number (alertChanged r (replaceRecord r.number (t.counted r) s))
    else alertChanged r (replaceRecord r.number (t.counted r) s) := by
  unfold countOn
  rw [countRepeat_eq]
  by_cases hraises : r.severity.code < t.severity.code
  · rw [if_pos hraises]
    exact if_neg fun he => (raisedTo_eq_self_iff _ _).1 he hraises
  · rw [if_neg hraises]
    exact if_pos ((raisedTo_eq_self_iff _ _).2 hraises)

theorem reopen_eq (t : Trigger) (r : AlertRecord) (s : State) :
    reopen t r s = climbElapsed r.number (alertChanged r
      (s.modAlerts fun l => { l with
        records := l.records.filter (fun y => y.number ≠ r.number) ++ [t.reopened r s.clock] })) := by
  unfold reopen
  rw [countRepeat_eq]
  rfl

/-! ## Triggers (R166-R169) -/

section
variable {t : Trigger} {s : State}

theorem storeTrigger_opened {r : AlertRecord} (h : s.alerts.records.find? t.matches = some r)
    (ho : r.state = .opened) : storeTrigger t s = (countOn t r s, some r.number) := by
  unfold storeTrigger
  rw [h]
  dsimp only
  rw [if_pos ho]

theorem storeTrigger_acked {r : AlertRecord} (h : s.alerts.records.find? t.matches = some r)
    (ha : r.state = .acked) : storeTrigger t s = (reopen t r s, some r.number) := by
  unfold storeTrigger
  rw [h]
  dsimp only
  rw [if_neg (by rw [ha]; decide)]

section
variable (h : s.alerts.records.find? t.matches = none)
include h

theorem storeTrigger_creates (hroom : (ordinaryRecords s).length < 23) :
    storeTrigger t s = (createRecord t s, some s.alerts.nextNumber) := by
  unfold storeTrigger
  rw [h]
  exact if_pos hroom

/-- With 23 ordinary records in the list, a trigger's record takes the place of one that eviction gives up (R168). -/
theorem storeTrigger_evicts {r : AlertRecord} (hfull : 23 ≤ (ordinaryRecords s).length)
    (hr : evictionChoice s = some r) : storeTrigger t s =
      (createRecord t (alertRemoved r 1 (removeRecord r.number s)), some s.alerts.nextNumber) := by
  unfold storeTrigger
  rw [h]
  dsimp only
  rw [if_neg (Nat.not_lt.2 hfull), hr]

theorem storeTrigger_listFull (hfull : 23 ≤ (ordinaryRecords s).length) (hr : evictionChoice s = none) :
    storeTrigger t s = (triggerListFull s, none) := by
  unfold storeTrigger
  rw [h]
  dsimp only
  rw [if_neg (Nat.not_lt.2 hfull), hr]

end

theorem triggerListFull_opened {r : AlertRecord} (h : s.alerts.records.find? (tableTrigger .listFull).matches = some r)
    (ho : r.state = .opened) : triggerListFull s = countOn (tableTrigger .listFull) r s := by
  unfold triggerListFull
  dsimp only
  rw [h]
  exact if_pos ho

theorem triggerListFull_acked {r : AlertRecord} (h : s.alerts.records.find? (tableTrigger .listFull).matches = some r)
    (ha : r.state = .acked) : triggerListFull s = reopen (tableTrigger .listFull) r s := by
  unfold triggerListFull
  dsimp only
  rw [h]
  exact if_neg (by rw [ha]; decide)

theorem triggerListFull_creates (h : s.alerts.records.find? (tableTrigger .listFull).matches = none) :
    triggerListFull s = createRecord (tableTrigger .listFull) s := by
  unfold triggerListFull
  dsimp only
  rw [h]

end

/-! ## Conditions (R165) -/

/-- The number of a subject names an index within its table. -/
theorem exists_index_iff {m : Nat} (n : Nat) (p : Fin m → Prop) :
    (∃ i : Fin m, some n = some i.val ∧ p i) ↔ ∃ h : n < m, p ⟨n, h⟩ := by
  constructor
  · rintro ⟨i, hi, hp⟩
    obtain rfl := Option.some.inj hi
    exact ⟨i.isLt, hp⟩
  · rintro ⟨h, hp⟩
    exact ⟨⟨n, h⟩, rfl, hp⟩

section
variable {r : AlertRecord} {s : State}

theorem conditionPresent_buttonStuck (h : r.kind = .buttonStuck) :
    conditionPresent s r = true ↔ ∃ l : LineId, r.subject = some l.val ∧ (s.line l).state = .stuck := by
  unfold conditionPresent
  rw [h]
  cases r.subject with
  | none => simp
  | some n =>
    rw [exists_index_iff n fun l => (s.line l).state = .stuck]
    simp

theorem conditionPresent_axisFault (h : r.kind = .axisFault) :
    conditionPresent s r = true ↔ ∃ a : AxisId, r.subject = some a.val ∧ (s.axis a).state = .faulted := by
  unfold conditionPresent
  rw [h]
  cases r.subject with
  | none => simp
  | some n =>
    rw [exists_index_iff n fun a => (s.axis a).state = .faulted]
    simp

theorem conditionPresent_guardLong (h : r.kind = .guardLong) :
    conditionPresent s r = true ↔ ∃ e, r.exhibit = some e ∧ (s.exhibit e).holds.guard = true := by
  unfold conditionPresent
  rw [h]
  cases r.exhibit with
  | none => simp
  | some e => simp

theorem presenceWindow_eq_some_iff (e : ExhibitId) (w : Window) :
    presenceWindow s e = some w ↔ ∃ c, (s.exhibit e).presence = some c ∧ (s.channel c).window = w :=
  Option.map_eq_some_iff

theorem conditionPresent_afterHours (h : r.kind = .afterHours) :
    conditionPresent s r = true ↔ ∃ e c, r.exhibit = some e ∧ (s.exhibit e).presence = some c ∧
      (s.channel c).window = .inside := by
  unfold conditionPresent
  rw [h]
  cases r.exhibit with
  | none => simp
  | some e => simp [presenceWindow_eq_some_iff]

/-- The SUPPLY channel is the lowest-numbered of its role (log 24). -/
theorem supplyChannel_eq_some_iff (c : ChannelId) : supplyChannel s = some c ↔
    (s.channel c).role = .supply ∧ ∀ d, d < c → (s.channel d).role ≠ .supply := by
  unfold supplyChannel
  rw [← Fin.find?_eq_find?_finRange, Fin.find?_eq_some_iff]
  simp

theorem conditionPresent_supplySag (h : r.kind = .supplySag) :
    conditionPresent s r = true ↔ ∃ c, supplyChannel s = some c ∧ (s.channel c).window = .below := by
  unfold conditionPresent
  rw [h]
  cases supplyChannel s with
  | none => simp
  | some c => simp

theorem conditionPresent_showLinkLost (h : r.kind = .showLinkLost) :
    conditionPresent s r = true ↔ s.showLink.state = .lapsed := by
  unfold conditionPresent
  rw [h]
  exact decide_eq_true_iff

theorem conditionPresent_deskLinkLost (h : r.kind = .deskLinkLost) :
    conditionPresent s r = true ↔ s.deskLink.state = .lapsed := by
  unfold conditionPresent
  rw [h]
  exact decide_eq_true_iff

/-- The kinds that no condition binds (R164). -/
theorem conditionBound_eq_false_iff (k : AlertKind) : k.conditionBound = false ↔
    k = .helpCall ∨ k = .showReported ∨ k = .restarted ∨ k = .listFull := by
  cases k <;> simp [AlertKind.conditionBound]

theorem conditionPresent_unbound (h : r.kind.conditionBound = false) : conditionPresent s r = false := by
  unfold conditionPresent
  rcases (conditionBound_eq_false_iff r.kind).1 h with h | h | h | h <;> rw [h]

end

end Sys2Proof.Machine
end

section
/-! PROOFS. The commands and triggers of the alert list (O55). -/

namespace Sys2Proof.Machine

/-! ## The number after a creation (R163) -/

/-- With at most 24 records a search from the number after `n` finds the next that no record holds. -/
theorem freeNumber_next {l : List AlertRecord} (hl : l.length ≤ 24) (n : BitVec 16) :
    ∃ k, freeNumber l 25 (bumpNumber n) = bumpNumber^[k + 1] n ∧ (∀ r ∈ l, r.number ≠ bumpNumber^[k + 1] n) ∧
      ∀ j, j < k → ∃ r ∈ l, r.number = bumpNumber^[j + 1] n := by
  obtain ⟨k, hk, hbelow⟩ := freeNumber_passes l 25 (bumpNumber n)
  have hfree := freeNumber_free hl (bumpNumber_ne n)
  rw [hk] at hfree
  exact ⟨k, hk, hfree, hbelow⟩

/-! ## ALERT-ACK and ALERT-CLEAR (R174, R176) -/

section
variable (n : BitVec 16) (s : State)

theorem namedRecord_num2 : namedRecord s (num2 n.toNat) = recordOf s n := by
  have hword : wordAt (num2 n.toNat) 0 = n.toNat := word_of_bytes n
  unfold namedRecord recordOf
  rw [hword]
  simp only [BitVec.toNat_inj]

variable {n s} (port : Port)

theorem alertAckBody_unknown (h : recordOf s n = none) :
    alertAckBody port (num2 n.toNat) s = refuse .noSuch s := by
  unfold alertAckBody
  rw [namedRecord_num2, h]

theorem alertClearBody_unknown (h : recordOf s n = none) :
    alertClearBody port (num2 n.toNat) s = refuse .noSuch s := by
  unfold alertClearBody
  rw [namedRecord_num2, h]

section
variable {r : AlertRecord} (h : recordOf s n = some r)
include h

theorem alertAckBody_acked (ha : r.state = .acked) :
    alertAckBody port (num2 n.toNat) s = refuse .wrongState s := by
  unfold alertAckBody
  rw [namedRecord_num2, h]
  exact if_pos ha

theorem alertAckBody_opened (ho : r.state = .opened) :
    alertAckBody port (num2 n.toNat) s = accept (r.acknowledged s.clock).bytes (ackRecord r s) := by
  unfold alertAckBody
  rw [namedRecord_num2, h]
  exact if_neg (by rw [ho]; decide)

theorem alertClearBody_active (hb : r.kind.conditionBound = true) (hp : conditionPresent s r = true) :
    alertClearBody port (num2 n.toNat) s = refuse .stillActive s := by
  unfold alertClearBody
  rw [namedRecord_num2, h]
  exact if_pos (by rw [hb, hp]; rfl)

theorem alertClearBody_clears (hp : conditionPresent s r = false) :
    alertClearBody port (num2 n.toNat) s =
      accept (num2 r.number.toNat ++ num1 (clearRecord r s).alerts.records.length) (clearRecord r s) := by
  unfold alertClearBody
  rw [namedRecord_num2, h]
  exact if_neg (by rw [hp]; simp)

end
end

theorem ackRecord_undisturbed (r : AlertRecord) (s : State) : Undisturbed s (ackRecord r s) :=
  Undisturbed.trans (Undisturbed.trans (Undisturbed.coarse.alerts s _) (Undisturbed.free.alertChanged _ _))
    (Undisturbed.free.reevaluateTone _)

theorem clearRecord_undisturbed (r : AlertRecord) (s : State) : Undisturbed s (clearRecord r s) :=
  Undisturbed.trans (Undisturbed.trans (Undisturbed.coarse.alerts s _) (Undisturbed.free.alertRemoved _ _ _))
    (Undisturbed.free.reevaluateTone _)

theorem clearRecord_records (r : AlertRecord) (s : State) :
    (clearRecord r s).alerts.records = s.alerts.records.filter fun y => y.number ≠ r.number :=
  (congrArg AlertList.records (reevaluateTone_alerts _) :)

/-! ## ALERT-RAISE (R177) -/

theorem severityAt_head {b : Byte} {sev : Severity} (h : sev.code = b.toNat) (rest : List Byte) :
    severityAt (b :: rest) 0 = some sev := by
  unfold severityAt
  rw [byteAt_cons_zero, ← h]
  cases sev <;> rfl

theorem severityAt_head_none {b : Byte} (h : 2 < b.toNat) (rest : List Byte) : severityAt (b :: rest) 0 = none := by
  obtain ⟨k, hk⟩ := Nat.exists_eq_add_of_le' h
  unfold severityAt
  rw [byteAt_cons_zero, hk]
  rfl

theorem exists_severity {n : Nat} (h : n ≤ 2) : ∃ sev : Severity, sev.code = n := by
  interval_cases n
  · exact ⟨.notice, rfl⟩
  · exact ⟨.attention, rfl⟩
  · exact ⟨.urgent, rfl⟩

section
variable {b flag number code : Byte}

theorem raiseExhibit_badFlag (h : 1 < flag.toNat) : raiseExhibit [b, flag, number, code] = .error .badValue := by
  have hflag : flagAt [b, flag, number, code] 1 = none := (flagAt_eq rfl).trans (if_neg (Nat.not_le.2 h))
  unfold raiseExhibit
  rw [hflag]

/-- With presence byte 0 the exhibit byte is not examined (log 13). -/
theorem raiseExhibit_absent : raiseExhibit [b, 0, number, code] = .ok none := rfl

theorem raiseExhibit_noSuch (h : 15 < number.toNat) : raiseExhibit [b, 1, number, code] = .error .noSuch := by
  have hnone : exhibitAt [b, 1, number, code] 2 = none := indexAt_none (Nat.succ_le_of_lt h)
  unfold raiseExhibit
  rw [hnone]
  rfl

theorem raiseExhibit_present {e : ExhibitId} (h : e.val = number.toNat) :
    raiseExhibit [b, 1, number, code] = .ok (some e) := by
  have hsome : exhibitAt [b, 1, number, code] 2 = some e := indexAt_of h.symm
  unfold raiseExhibit
  rw [hsome]
  rfl

variable {s : State} (port : Port)

theorem alertRaiseBody_badSeverity (h : 2 < b.toNat) :
    alertRaiseBody port [b, flag, number, code] s = refuse .badValue s := by
  unfold alertRaiseBody
  rw [severityAt_head_none h]

section
variable {sev : Severity} (hsev : sev.code = b.toNat)
include hsev

theorem alertRaiseBody_badExhibit {st : Status} (h : raiseExhibit [b, flag, number, code] = .error st) :
    alertRaiseBody port [b, flag, number, code] s = refuse st s := by
  unfold alertRaiseBody
  rw [severityAt_head hsev, h]

theorem alertRaiseBody_reports {e : Option ExhibitId} (h : raiseExhibit [b, flag, number, code] = .ok e) :
    alertRaiseBody port [b, flag, number, code] s =
      accept (raiseReport (storeTrigger (reportTrigger sev e code) s).2) (raiseAlert (reportTrigger sev e code) s) := by
  unfold alertRaiseBody
  rw [severityAt_head hsev, h]
  rfl

end
end

theorem alertRaise_badValue {b flag number code : Byte} {s : State} (had : Admitted .alertRaise .showPort s)
    (h : 2 < b.toNat ∨ 1 < flag.toNat) : Answers .alertRaise .showPort [b, flag, number, code] s .badValue [] s := by
  refine answers_body had (by simp) rfl ?_
  by_cases hb : 2 < b.toNat
  · exact alertRaiseBody_badSeverity .showPort hb
  · obtain ⟨sev, hsev⟩ := exists_severity (Nat.not_lt.1 hb)
    exact alertRaiseBody_badExhibit .showPort hsev (raiseExhibit_badFlag (h.resolve_left hb))

/-- The response names the record, or marks that the report was not stored (R177, log 13). -/
theorem raiseReport_eq (o : Option (BitVec 16)) :
    raiseReport o = match o with | some n => num2 n.toNat ++ [0] | none => [0, 0, 1] := by
  cases o <;> rfl

/-! ## O55 -/

/-- Settles O55: the number after a creation is a search, a trigger acts by the record of its key and the room in the
list, each kind looks its condition up in its block, and the commands are their bodies at the desk and show ports. -/
theorem alertsAreAckedClearedAndRaised : Obligations.AlertsAreAckedClearedAndRaised := by
  refine ⟨fun records n hl _ => ?_, fun t s => ?_, fun r s => ?_, fun n s => ?_, fun b flag number code s had => ?_⟩
  · intro after
    have hafter : after = bumpNumber := funext fun k => (bumpNumber_eq k).symm
    rw [hafter]
    exact freeNumber_next hl n
  · intro find ordinary rank tell counted counts reopens creates first victim full
    have hcounts (v : Trigger) (r : AlertRecord) : countOn v r s = counts v r := countOn_eq v r s
    have hreopens (v : Trigger) (r : AlertRecord) : reopen v r s = reopens v r := reopen_eq v r s
    refine ⟨rfl, fun r h => ⟨fun ho => ?_, fun ha => ?_⟩, fun h hroom => storeTrigger_creates h hroom,
      fun r h _ hfull hr => storeTrigger_evicts h hfull hr, fun h _ hfull hr => ?_⟩
    · rw [storeTrigger_opened h ho, hcounts]
    · rw [storeTrigger_acked h ha, hreopens]
    · rw [storeTrigger_listFull h hfull hr]
      refine ⟨fun r hf ho => ?_, fun r hf ha => ?_, fun hf => ?_⟩
      · rw [triggerListFull_opened hf ho, hcounts]
        rfl
      · rw [triggerListFull_acked hf ha, hreopens]
        rfl
      · rw [triggerListFull_creates hf]
        rfl
  · refine ⟨conditionPresent_buttonStuck, conditionPresent_axisFault, conditionPresent_guardLong,
      conditionPresent_afterHours, fun h => ?_, conditionPresent_showLinkLost, conditionPresent_deskLinkLost, fun h => ?_⟩
    · simpa only [supplyChannel_eq_some_iff, and_assoc] using conditionPresent_supplySag h
    · exact Bool.eq_false_iff.1 <| conditionPresent_unbound ((conditionBound_eq_false_iff _).2 h)
  · intro held event
    refine ⟨fun had => ⟨fun h => ?_, fun r h ha => ?_, fun r h ho => ?_⟩, fun had => ⟨fun h => ?_, fun r h hf hp => ?_,
      fun r h hp => ?_⟩⟩
    · exact answers_body had (by simp) rfl (alertAckBody_unknown .deskPort h)
    · exact answers_body had (by simp) rfl (alertAckBody_acked .deskPort h ha)
    · obtain ⟨-, rfl⟩ := Base.recordOf_some h
      exact ⟨answers_body had (by simp) rfl (alertAckBody_opened .deskPort h ho), ackRecord_undisturbed r s⟩
    · exact answers_body had (by simp) rfl (alertClearBody_unknown .deskPort h)
    · refine answers_body had (by simp) rfl (alertClearBody_active .deskPort h ?_ hp)
      by_contra hb
      exact hf ((conditionBound_eq_false_iff _).1 (Bool.eq_false_iff.2 hb))
    · obtain ⟨-, rfl⟩ := Base.recordOf_some h
      have habsent : conditionPresent s r = false :=
        hp.elim (fun hf => conditionPresent_unbound ((conditionBound_eq_false_iff _).2 hf)) id
      have hbody := alertClearBody_clears .deskPort h habsent
      rw [clearRecord_records] at hbody
      exact ⟨answers_body had (by simp) rfl hbody, clearRecord_undisturbed r s⟩
  · intro p
    refine ⟨alertRaise_badValue had, fun hb hf hn => ?_, fun sev e hsev he => ?_⟩
    · subst hf
      obtain ⟨sev, hsev⟩ := exists_severity hb
      exact answers_body had (by simp [p]) rfl (alertRaiseBody_badExhibit .showPort hsev (raiseExhibit_noSuch hn))
    · intro t reply
      have hexhibit : raiseExhibit p = .ok e := by
        rcases he with ⟨rfl, rfl⟩ | ⟨rfl, he⟩
        · exact raiseExhibit_absent
        · obtain ⟨d, rfl, hd⟩ := Option.map_eq_some_iff.1 he
          exact raiseExhibit_present hd
      have hbody := alertRaiseBody_reports .showPort hsev hexhibit (s := s)
      rw [raiseReport_eq] at hbody
      exact ⟨answers_body had (by simp [p]) rfl hbody, Undisturbed.free.raiseAlert t s (by simp [t])⟩

end Sys2Proof.Machine
end

section
/-! SUPPORT. Alert demand, the arbiter's re-evaluation by state and demand, and the ends of notes (R184, R185, R187). -/

namespace Sys2Proof.Machine

/-! ## Alert demand (R184, R188) -/

theorem pressing_iff (r : AlertRecord) : r.pressing = true ↔ r.state = .opened ∧ 2 ≤ r.level := by
  unfold AlertRecord.pressing
  rw [Bool.and_eq_true, decide_eq_true_iff, decide_eq_true_iff]

theorem any_pressing_iff (l : List AlertRecord) :
    l.any AlertRecord.pressing = true ↔ ∃ r ∈ l, r.state = .opened ∧ 2 ≤ r.level := by
  simp only [List.any_eq_true, pressing_iff]

theorem any_pressing_urgent_iff (l : List AlertRecord) :
    l.any (fun r => r.pressing && r.severity = .urgent) = true ↔
      ∃ r ∈ l, (r.state = .opened ∧ 2 ≤ r.level) ∧ r.severity = .urgent := by
  simp only [List.any_eq_true, Bool.and_eq_true, pressing_iff, decide_eq_true_iff]

theorem demandedPattern_eq (s : State) : demandedPattern s =
    if s.annunciators.silence ≠ none then none
    else if ∃ r ∈ s.alerts.records, (r.state = .opened ∧ 2 ≤ r.level) ∧ r.severity = .urgent then some 0
    else if ∃ r ∈ s.alerts.records, r.state = .opened ∧ 2 ≤ r.level then some 1
    else none :=
  if_congr Option.isSome_iff_ne_none rfl <|
    if_congr (any_pressing_urgent_iff _) rfl <| if_congr (any_pressing_iff _) rfl rfl

/-- While silence is in force nothing is demanded (R188). -/
theorem demandedPattern_silenced {s : State} (h : s.annunciators.silence ≠ none) : demandedPattern s = none := by
  rw [demandedPattern_eq, if_pos h]

/-- Demand exists by the OPEN records at level 2 or 3; which of them are URGENT chooses the pattern only. -/
theorem demandedPattern_isSome_iff (s : State) : (demandedPattern s).isSome = true ↔
    s.annunciators.silence = none ∧ ∃ r ∈ s.alerts.records, r.state = .opened ∧ 2 ≤ r.level := by
  by_cases hs : s.annunciators.silence = none
  · rw [demandedPattern_eq, if_neg (not_not_intro hs)]
    split
    case isTrue h =>
      obtain ⟨r, hr, hp, -⟩ := h
      exact iff_of_true rfl ⟨hs, r, hr, hp⟩
    case isFalse =>
      split
      case isTrue h => exact iff_of_true rfl ⟨hs, h⟩
      case isFalse h => exact iff_of_false Bool.false_ne_true fun hd => h hd.2
  · rw [demandedPattern_silenced hs]
    exact iff_of_false Bool.false_ne_true fun hd => hs hd.1

/-! ## The re-evaluation (R185, R187) -/

section
variable {s : State}

theorem reevaluateTone_silent_none (ht : s.annunciators.tone = .silent) (hd : demandedPattern s = none) :
    reevaluateTone s = s := by
  unfold reevaluateTone
  rw [ht, hd]

theorem reevaluateTone_silent_some {q : PatternId} (ht : s.annunciators.tone = .silent)
    (hd : demandedPattern s = some q) : reevaluateTone s = playAlert q s := by
  unfold reevaluateTone
  rw [ht, hd]

section
variable {note : Note} (ht : s.annunciators.tone = .alertTone note)
include ht

theorem reevaluateTone_alertTone_none (hd : demandedPattern s = none) : reevaluateTone s = toneSilent s := by
  unfold reevaluateTone
  rw [ht, hd]

theorem reevaluateTone_alertTone_same (hd : demandedPattern s = some note.pattern) : reevaluateTone s = s := by
  unfold reevaluateTone
  rw [ht, hd]
  exact if_pos rfl

theorem reevaluateTone_alertTone_other {q : PatternId} (hd : demandedPattern s = some q) (hq : q ≠ note.pattern) :
    reevaluateTone s = playAlert q s := by
  unfold reevaluateTone
  rw [ht, hd]
  exact if_neg hq.symm

end

section
variable {note : Note} {k : Nat} (ht : s.annunciators.tone = .chime note k)
include ht

theorem reevaluateTone_chime_none (hd : demandedPattern s = none) : reevaluateTone s = s := by
  unfold reevaluateTone
  rw [ht, hd]

theorem reevaluateTone_chime_some {q : PatternId} (hd : demandedPattern s = some q) :
    reevaluateTone s = playAlert q (chimeCut note s) := by
  unfold reevaluateTone
  rw [ht, hd]

end

/-- The arbiter's state where alert demand does not exist: an alert tone stops, a chime plays on. -/
def ToneArbiter.hushed : ToneArbiter → ToneArbiter
  | .alertTone _ => .silent
  | y => y

theorem reevaluateTone_of_none (hd : demandedPattern s = none) :
    reevaluateTone s = s.modAnnunciators fun x => { x with tone := s.annunciators.tone.hushed } := by
  have same : s = s.modAnnunciators fun x => { x with tone := s.annunciators.tone } := rfl
  cases ht : s.annunciators.tone with
  | silent =>
    rw [reevaluateTone_silent_none ht hd]
    rwa [ht] at same
  | alertTone note => exact reevaluateTone_alertTone_none ht hd
  | chime note k =>
    rw [reevaluateTone_chime_none ht hd]
    rwa [ht] at same

/-- Silence in force ends alert demand, and so an alert tone (R188). -/
theorem beginSilence_eq (s : State) : beginSilence s = s.modAnnunciators fun x => { x with
    silence := some (1000 * s.timing.silenceTime), silenceBegan := some s.clock, tone := x.tone.hushed } :=
  reevaluateTone_of_none (demandedPattern_silenced (Option.some_ne_none _))

/-! ## The ends of notes (R183, R185, R187) -/

theorem complete_iff (n : Note) : n.complete = true ↔ n.onTime + n.offTime ≤ n.elapsed := decide_eq_true_iff

theorem noteEnds_silent (ht : s.annunciators.tone = .silent) : noteEnds s = s := by
  unfold noteEnds
  rw [ht]

section
variable {note : Note}

theorem noteEnds_alertTone (ht : s.annunciators.tone = .alertTone note) :
    noteEnds s = if note.complete then playAlert note.pattern s else s := by
  unfold noteEnds
  rw [ht]

theorem noteEnds_chime {k : Nat} (ht : s.annunciators.tone = .chime note k) :
    noteEnds s = if note.complete then (if k ≤ 1 then toneSilent s else startChime note.pattern (k - 1) s)
      else s := by
  unfold noteEnds
  rw [ht]

/-- The alert tone's notes follow one another for as long as demand exists (R185). -/
theorem noteEnds_alertTone_next (ht : s.annunciators.tone = .alertTone note)
    (h : note.onTime + note.offTime ≤ note.elapsed) : noteEnds s = playAlert note.pattern s := by
  rw [noteEnds_alertTone ht, if_pos ((complete_iff note).2 h)]

theorem noteEnds_chime_last {k : Nat} (ht : s.annunciators.tone = .chime note k)
    (h : note.onTime + note.offTime ≤ note.elapsed) (hk : k ≤ 1) : noteEnds s = toneSilent s := by
  rw [noteEnds_chime ht, if_pos ((complete_iff note).2 h), if_pos hk]

theorem noteEnds_chime_next {k : Nat} (ht : s.annunciators.tone = .chime note k)
    (h : note.onTime + note.offTime ≤ note.elapsed) (hk : 1 < k) :
    noteEnds s = startChime note.pattern (k - 1) s := by
  rw [noteEnds_chime ht, if_pos ((complete_iff note).2 h), if_neg (Nat.not_le.2 hk)]

/-- A note that is not at the end of its off time goes on (log 3). -/
theorem noteEnds_early (ht : s.annunciators.tone = .alertTone note ∨ ∃ k, s.annunciators.tone = .chime note k)
    (h : note.elapsed < note.onTime + note.offTime) : noteEnds s = s := by
  have hplays : ¬ note.complete = true := fun hc => Nat.not_le.2 h ((complete_iff note).1 hc)
  rcases ht with ht | ⟨k, ht⟩
  · rw [noteEnds_alertTone ht, if_neg hplays]
  · rw [noteEnds_chime ht, if_neg hplays]

end

/-! ## The silence and lamp-test timers (R189, R193) -/

theorem silenceExpires_ends (h : s.annunciators.silence = some 0) :
    silenceExpires s = reevaluateTone (endSilence s) := if_pos h

theorem silenceExpires_idle (h : s.annunciators.silence ≠ some 0) : silenceExpires s = s := if_neg h

theorem lampTestExpires_ends (h : s.annunciators.lampTest = some 0) :
    lampTestExpires s = s.modAnnunciators fun x => { x with lampTest := none } := if_pos h

theorem lampTestExpires_idle (h : s.annunciators.lampTest ≠ some 0) : lampTestExpires s = s := if_neg h

theorem reevaluateTone_endSilence_undisturbed (s : State) : Undisturbed s (reevaluateTone (endSilence s)) :=
  Undisturbed.trans (Undisturbed.free.endSilence s) (Undisturbed.free.reevaluateTone _)

end

end Sys2Proof.Machine
end

section
/-! PROOFS. The commands of the annunciators, the ends of notes and the expiries of their timers (O57). -/

namespace Sys2Proof.Machine

/-! ## CHIME (R186) -/

section
variable {s : State} {q : PatternId} {flag b : Byte}

/-- A CHIME without a count takes the pattern's repeats; the count's byte is not examined (log 13). -/
theorem chimeCount_absent : chimeCount s q (num1 q.val ++ [0, b]) =
    if (s.annunciators.patterns.get q).repeats = 0 then none
    else some (s.annunciators.patterns.get q).repeats := by
  unfold chimeCount
  rw [optAt_absent rfl]

theorem chimeCount_given : chimeCount s q (num1 q.val ++ [1, b]) =
    if 1 ≤ b.toNat ∧ b.toNat ≤ 15 then some b.toNat else none := by
  unfold chimeCount
  rw [optAt_present rfl, byteIn_eq 1 15 (n := b.toNat) rfl]
  by_cases hb : 1 ≤ b.toNat ∧ b.toNat ≤ 15
  · rw [if_pos hb]
    rfl
  · rw [if_neg hb]
    rfl

theorem chimeCount_badFlag (h : 1 < flag.toNat) : chimeCount s q (num1 q.val ++ [flag, b]) = none := by
  have hnone : optAt (byteIn 1 15) (num1 q.val ++ [flag, b]) 1 = none := optAt_none h
  unfold chimeCount
  rw [hnone]

theorem chimeCount_eq : chimeCount s q (num1 q.val ++ [flag, b]) =
    if (flag = 0 ∧ (s.annunciators.patterns.get q).repeats ≠ 0) ∨ (flag = 1 ∧ 1 ≤ b.toNat ∧ b.toNat ≤ 15) then
      some (if flag = 0 then (s.annunciators.patterns.get q).repeats else b.toNat)
    else none := by
  rcases byte_cases flag with rfl | rfl | hflag
  · rw [chimeCount_absent]
    simp
  · rw [chimeCount_given]
    simp
  · have hzero : flag ≠ 0 := by rintro rfl; exact absurd hflag (by decide)
    have hone : flag ≠ 1 := by rintro rfl; exact absurd hflag (by decide)
    rw [chimeCount_badFlag hflag]
    exact (if_neg fun hv => hv.elim (fun h => hzero h.1) fun h => hone h.1).symm

variable (port : Port)

theorem chimeBody_badValue (hc : chimeCount s q (num1 q.val ++ [flag, b]) = none) :
    chimeBody port (num1 q.val ++ [flag, b]) s = refuse .badValue s := by
  unfold chimeBody
  rw [patternAt_head]
  dsimp only
  rw [hc]

theorem chimeBody_counted {n : Nat} (hc : chimeCount s q (num1 q.val ++ [flag, b]) = some n) :
    chimeBody port (num1 q.val ++ [flag, b]) s = if (demandedPattern s).isSome then refuse .busy s
      else accept (num1 q.val ++ num1 n) (startChime q n s) := by
  unfold chimeBody
  rw [patternAt_head]
  dsimp only
  rw [hc]

end

/-! ## SILENCE (R188) -/

theorem silenceBody_eq (port : Port) (p : List Byte) (s : State) : silenceBody port p s =
    accept (flagByte (demandedPattern s).isSome ++ num4 (1000 * s.timing.silenceTime)) (beginSilence s) := rfl

/-! ## Events -/

/-- An event of the floor outside full reset leads to the state its operation gives. -/
theorem occur_goesTo {f : State → State} {s t : State} (h : s.inReset = false) (hf : f s = t) :
    occur f s = .next (drivePins t) := by rw [occur_next h, hf]

/-! ## O57 -/

/-- Settles O57: the re-evaluation goes by the arbiter's state and the demanded pattern, CHIME by its count and then
by demand, SILENCE ends demand, and a note's end or an expiry acts only where it has come. -/
theorem annunciatorsSound : Obligations.AnnunciatorsSound := by
  refine ⟨fun s => ?_, fun port q flag b s had => ?_, fun s had => ?_, fun s had => ?_, fun s hs => ?_⟩
  · intro pressing demand play cut t
    have hdemand : demandedPattern s = demand := demandedPattern_eq s
    rw [← hdemand]
    exact ⟨reevaluateTone_silent_none, fun q => reevaluateTone_silent_some,
      fun note ht => ⟨reevaluateTone_alertTone_none ht, reevaluateTone_alertTone_same ht,
        fun q => reevaluateTone_alertTone_other ht⟩,
      fun note k ht => ⟨reevaluateTone_chime_none ht, fun q => reevaluateTone_chime_some ht⟩⟩
  · intro pattern count valid demand note p
    have hdemand : (demandedPattern s).isSome = true ↔ demand := demandedPattern_isSome_iff s
    have answers {st : Status} {reply : List Byte} {t : State} (h : chimeBody port p s = (t, ⟨st, reply⟩)) :
        Answers .chime port p s st reply t := answers_body had (by simp [p]) rfl h
    refine ⟨fun hv => ?_, fun hv hd => ?_, fun hv hd => ?_⟩
    · exact answers (chimeBody_badValue port (chimeCount_eq.trans (if_neg hv)))
    · exact answers ((chimeBody_counted port (chimeCount_eq.trans (if_pos hv))).trans (if_pos (hdemand.2 hd)))
    · exact answers ((chimeBody_counted port (chimeCount_eq.trans (if_pos hv))).trans (if_neg (mt hdemand.1 hd)))
  · intro demand time tone t
    have hdemand : (demandedPattern s).isSome = true ↔ demand := demandedPattern_isSome_iff s
    have hbegin : beginSilence s = t := by
      have htone : tone = ToneArbiter.hushed := by funext x; cases x <;> rfl
      rw [beginSilence_eq, ← htone]
    have answers {d : Bool} (hd : (demandedPattern s).isSome = d) :
        Answers .silence .deskPort [] s .ok (flagByte d ++ num4 time) t :=
      answers_body had (by simp) rfl (by rw [← hd, ← hbegin]; exact silenceBody_eq .deskPort [] s)
    exact ⟨fun hd => answers (hdemand.2 hd), fun hd => answers (Bool.eq_false_iff.2 (mt hdemand.1 hd))⟩
  · exact answers_body had (by simp) rfl rfl
  · intro goesTo next tone
    exact ⟨fun ht => occur_goesTo hs (noteEnds_silent ht),
      fun note ht hend => occur_goesTo hs (noteEnds_alertTone_next ht hend),
      fun note k ht hend => ⟨fun hk => occur_goesTo hs (noteEnds_chime_last ht hend hk),
        fun hk => occur_goesTo hs (noteEnds_chime_next ht hend hk)⟩,
      fun note ht hplays => occur_goesTo hs (noteEnds_early ht hplays),
      fun h => ⟨occur_goesTo hs (silenceExpires_ends h), reevaluateTone_silence (endSilence s),
        reevaluateTone_endSilence_undisturbed s⟩,
      fun h => occur_goesTo hs (silenceExpires_idle h),
      fun h => occur_goesTo hs (lampTestExpires_ends h),
      fun h => occur_goesTo hs (lampTestExpires_idle h)⟩

end Sys2Proof.Machine
end

section
/-! PROOFS. One step: the command at the front, and that every command goes on (O1, O2). -/

namespace Sys2Proof.Machine

theorem step_idle {s : State} (h : s.pending = []) : step s = .next s := by
  unfold step
  rw [h]

/-- Settles O1: both cases of the queue, as `step` takes them. -/
theorem stepRunsFrontCommand : Obligations.StepRunsFrontCommand := ⟨fun _ _ _ => rfl, fun _ => step_idle⟩

/-- A step that leaves the waiting commands. -/
def SamePending (s t : State) : Prop := t.pending = s.pending

/-- No command touches the queue, for its moves are sound. -/
theorem SamePending.acts : Acts SamePending := Sound.acts.widen Sound.pending fun a b => b.trans a

/-- No event touches the queue, a full reset included. -/
theorem SamePending.steps : Steps SamePending where
  toActs := SamePending.acts
  serves code p s := (perform_sound .servicePort code p s).pending
  pins _ _ := rfl
  ticks _ := rfl
  resets _ := rfl
  released _ := rfl
  accelerated _ _ _ := rfl

theorem lineSample_next (l : LineId) (v : Level) (s : State) : ∃ t, execLineSample l v s = .next t := by
  unfold execLineSample
  split
  · exact ⟨_, rfl⟩
  · exact ⟨_, rfl⟩

/-- Every arm of `exec` answers a next state: a sample of a line in both of its cases, every other at once. -/
theorem exec_next (c : Instr) (s : State) : ∃ t, exec c s = .next t := by
  cases c
  case lineSample l v => exact lineSample_next l v s
  all_goals exact ⟨_, rfl⟩

/-- Settles O2: every command has a next state, and what leads to it leaves the queue. -/
theorem everyCommandGoesOn : Obligations.EveryCommandGoesOn := fun c s => by
  obtain ⟨t, ht⟩ := exec_next c s
  exact ⟨t, ht, exec_steps SamePending.steps c s t ht⟩

end Sys2Proof.Machine
end

section
/-! PROOFS. The output pins follow the rest of the state, and what they are (O5). -/

namespace Sys2Proof.Machine

/-! ## Every step keeps the pins following -/

/-- The pins in full reset: released, dark, silent and 0 (R210). -/
theorem pinsOf_inReset {s : State} (h : s.inReset = true) : pinsOf s = {} := if_pos h

theorem occur_pinsFollow (f : State → State) (s : State) : Reaches (Kept PinsFollow) s (occur f s) := by
  rintro t ⟨⟩ hs
  split
  · exact hs
  · exact pinsFollow_drivePins _

theorem fullReset_pinsFollow (s : State) : PinsFollow (fullResetHub s) := (pinsOf_inReset rfl).symm

theorem releaseReset_pinsFollow {s : State} (hs : PinsFollow s) : PinsFollow (releaseReset s) := by
  unfold releaseReset
  split
  · exact pinsFollow_drivePins _
  · exact hs

/-- A sample in full reset changes no pin, and one outside it is an event of the floor (R210; log 20). -/
theorem lineSample_pinsFollow (l : LineId) (v : Level) (s : State) :
    Reaches (Kept PinsFollow) s (execLineSample l v s) := by
  unfold execLineSample
  split
  · rename_i h
    rintro t ⟨⟩ hs
    exact hs.trans ((pinsOf_inReset h).trans (pinsOf_inReset (s := latchInput l v s) h).symm)
  · exact occur_pinsFollow _ s

/-- Every command brings the pins up to date, or leaves them where nothing that they follow has changed. -/
theorem exec_pinsFollow (c : Instr) (s : State) : Reaches (Kept PinsFollow) s (exec c s) := by
  cases c
  case fullReset =>
    rintro t ⟨⟩ _
    exact fullReset_pinsFollow s
  case resetRelease =>
    rintro t ⟨⟩ hs
    exact releaseReset_pinsFollow hs
  case lineSample l v => exact lineSample_pinsFollow l v s
  all_goals exact occur_pinsFollow _ s

theorem step_pinsFollow {s t : State} (hs : PinsFollow s) (ht : step s = .next t) : PinsFollow t := by
  unfold step at ht
  split at ht
  · cases ht
    exact hs
  · exact exec_pinsFollow _ _ t ht hs

/-! ## The attention lines and the all-call line (R190, R202) -/

/-- Two words share a bit exactly when their conjunction is not 0. -/
theorem and_ne_zero_iff {w : Nat} (x y : BitVec w) :
    x &&& y ≠ 0 ↔ ∃ k, x.getLsbD k = true ∧ y.getLsbD k = true := by
  constructor
  · intro h
    by_contra hnone
    refine h (BitVec.eq_of_getLsbD_eq fun k _ => ?_)
    rw [BitVec.getLsbD_and, BitVec.ofNat_eq_ofNat, BitVec.getLsbD_zero, Bool.and_eq_false_iff]
    by_contra hk
    exact hnone ⟨k, by simpa using hk⟩
  · rintro ⟨k, hx, hy⟩ h
    have hk : (x &&& y).getLsbD k = true := by rw [BitVec.getLsbD_and, hx, hy]; rfl
    rw [h, BitVec.ofNat_eq_ofNat, BitVec.getLsbD_zero] at hk
    cases hk

theorem attentionLine_iff (s : State) (m : Master) : attentionLine s m = true ↔
    ∃ k, (attentionSet s m).getLsbD k = true ∧ (s.spi m).mask.getLsbD k = true := by
  rw [← and_ne_zero_iff]
  exact decide_eq_true_iff

theorem allCallLine_iff (s : State) :
    allCallLine s = true ↔ ∃ r ∈ s.alerts.records, r.state = .opened ∧ r.level = 3 := by
  simp [allCallLine]

/-! ## The beacons (R191, R192) -/

theorem litRecord_iff (s : State) (e : ExhibitId) (p : AlertRecord → Bool) : litRecord s e p = true ↔
    ∃ r ∈ s.alerts.records, (r.exhibit = some e ∧ r.state = .opened ∧ 1 ≤ r.level) ∧ p r = true := by
  simp [litRecord, and_assoc]

theorem slow_litAt (n : Nat) : BeaconPattern.slow.litAt n = true ↔ n ≤ 499 := by
  simp only [BeaconPattern.litAt, decide_eq_true_eq]
  omega

/-- FAST is four flashes of an eighth of a second in each round of the flash counter (R191). -/
theorem fast_litAt {n : Nat} (h : n ≤ 999) : BeaconPattern.fast.litAt n = true ↔
    n ≤ 124 ∨ (250 ≤ n ∧ n ≤ 374) ∨ (500 ≤ n ∧ n ≤ 624) ∨ (750 ≤ n ∧ n ≤ 874) := by
  simp only [BeaconPattern.litAt, decide_eq_true_eq]
  omega

/-! ## The tone output (R182, R183) -/

theorem pitchHertz_eq (code : Fin 8) :
    pitchHertz code = [500, 630, 800, 1000, 1250, 1600, 2000, 2500].getD code.val 0 := by
  revert code
  decide

theorem sounds_iff (n : Note) : n.sounds = true ↔ n.elapsed < n.onTime ∨ n.offTime = 0 := by
  simp [Note.sounds]

theorem output_flat {n : Note} (h : n.elapsed < n.onTime ∨ n.offTime = 0) (he : n.envelope = .flat) :
    n.output = .tone (pitchHertz n.pitch) 1 1 := by
  unfold Note.output
  rw [if_pos ((sounds_iff n).2 h), he]

theorem output_decay {n : Note} (h : n.elapsed < n.onTime ∨ n.offTime = 0) (he : n.envelope = .decay) :
    n.output = .tone (pitchHertz n.pitch) (4 * n.onTime - 3 * n.elapsed) (4 * n.onTime) := by
  unfold Note.output
  rw [if_pos ((sounds_iff n).2 h), he]

theorem output_silent {n : Note} (h : n.onTime ≤ n.elapsed) (hoff : n.offTime ≠ 0) : n.output = .silent :=
  if_neg (by rw [sounds_iff]; omega)

theorem toneOutput_silent {s : State} (h : s.annunciators.tone = .silent) : toneOutput s = .silent := by
  unfold toneOutput
  rw [h]

theorem toneOutput_note {s : State} {n : Note}
    (h : s.annunciators.tone = .alertTone n ∨ ∃ k, s.annunciators.tone = .chime n k) : toneOutput s = n.output := by
  unfold toneOutput
  rcases h with h | ⟨k, h⟩ <;> rw [h]

/-! ## O5 -/

/-- The pins outside full reset. -/
theorem pinsOf_running {s : State} (h : s.inReset = false) : pinsOf s = {
    showLine := attentionLine s .showMaster
    deskLine := attentionLine s .deskMaster
    combined := attentionLine s .showMaster || attentionLine s .deskMaster
    allCall := allCallLine s
    beacons := Vector.ofFn fun e => ⟨beaconPattern s e, (beaconPattern s e).litAt s.annunciators.flash⟩
    toneOut := toneOutput s
    pwm := Vector.ofFn fun a => (s.axis a).drive.duty } := if_neg (by simp [h])

/-- Settles O5: every event ends by bringing the pins up to date, and each pin is read off its own flag. -/
theorem pinsFollowKept : Obligations.PinsFollowKept := by
  refine ⟨fun s t => step_pinsFollow, fun s hs hr => ?_, fun s hs hr => ?_⟩
  · rw [show s.pins = {} from hs.trans (pinsOf_inReset hr)]
    exact ⟨rfl, rfl, rfl, rfl, fun e => by simp [get_as_index], rfl, fun a => by simp [get_as_index]⟩
  · intro shares lit pattern count shines hertz
    rw [show s.pins = _ from hs.trans (pinsOf_running hr)]
    have hpattern (e : ExhibitId) : beaconPattern s e = pattern e := by
      unfold beaconPattern
      refine if_congr Option.isSome_iff_ne_none rfl (if_congr ?_ rfl (if_congr Iff.rfl rfl (if_congr ?_ rfl
        (if_congr Iff.rfl rfl (if_congr ?_ rfl rfl)))))
      · rw [litRecord_iff]
        simp [lit]
      · rw [litRecord_iff]
        simp [lit]
      · simp
    have hshines (p : BeaconPattern) (hc : count ≤ 999) : p.litAt count = true ↔ shines p := by
      cases p with
      | off => exact iff_of_false Bool.false_ne_true id
      | steady => exact iff_of_true rfl trivial
      | slow => exact slow_litAt count
      | fast => exact fast_litAt hc
    have hbeacon (e : ExhibitId) : (Vector.ofFn fun e => (⟨beaconPattern s e,
        (beaconPattern s e).litAt s.annunciators.flash⟩ : Beacon)).get e = ⟨pattern e, (pattern e).litAt count⟩ := by
      rw [get_as_index, Vector.getElem_ofFn, hpattern]
    have hhertz (n : Note) : pitchHertz n.pitch = hertz n := pitchHertz_eq n.pitch
    refine ⟨attentionLine_iff s _, attentionLine_iff s _, ?_, allCallLine_iff s, fun e => ?_, fun hc e => ?_,
      toneOutput_silent, fun n hn => ?_, fun a => ?_⟩
    · rw [Bool.or_eq_true, attentionLine_iff, attentionLine_iff]
    · rw [hbeacon]
    · rw [hbeacon]
      exact hshines _ hc
    · rw [← hhertz, toneOutput_note hn]
      exact ⟨fun h => ⟨output_flat h, output_decay h⟩, output_silent⟩
    · rw [get_as_index, Vector.getElem_ofFn]
      show (s.axis a).drive.duty = _
      cases (s.axis a).drive <;> rfl

end Sys2Proof.Machine
end

section
/-! SUPPORT. What a frame does at a port, for any code: taken, refused or answered as a bad one (R195, R198, R199). -/

namespace Sys2Proof.Machine

/-! ## The examination of a frame (R198) -/

/-- A frame shorter than a frame, with too large a length field, or of another length than its field gives. -/
abbrev WrongLength (bytes : List Byte) : Prop :=
  bytes.length < 5 ∨ 200 < lengthField bytes ∨ bytes.length ≠ 5 + lengthField bytes

theorem frameFault_badLength {bytes : List Byte} (h : WrongLength bytes) : frameFault bytes = some .badLength := if_pos h

theorem frameFault_badCheck {bytes : List Byte} (h : ¬ WrongLength bytes)
    (hc : bytes.getLast? ≠ some (crc bytes.dropLast)) : frameFault bytes = some .badCheck := by
  have hne : bytes ≠ [] := by
    rintro rfl
    exact h (.inl (by decide))
  have hcheck : bytes.getLastD 0 ≠ crc bytes.dropLast := fun he => hc (by
    rw [← he, List.getLast?_eq_some_getLast hne, List.getLastD_eq_getLast?, List.getLast?_eq_some_getLast hne]
    rfl)
  unfold frameFault
  rw [if_neg h, if_pos hcheck]

theorem takeSpiFrame_fault {bytes : List Byte} {st : Status} (h : frameFault bytes = some st) (m : Master) (s : State) :
    takeSpiFrame m bytes s = holdResponse m ⟨frameTag bytes, st, []⟩ s := by
  unfold takeSpiFrame
  rw [h]

theorem takeServiceFrame_fault {bytes : List Byte} {st : Status} (h : frameFault bytes = some st) (s : State) :
    takeServiceFrame bytes s = sendService ⟨frameTag bytes, st, []⟩ s := by
  unfold takeServiceFrame
  rw [h]

/-! ## A command frame is taken (R199) -/

section
variable (code tag : Byte) {p : List Byte} (hp : p.length ≤ 200) (s : State)
include hp

theorem takeSpiFrame_commandFrame (m : Master) :
    takeSpiFrame m (commandFrame code tag p) s = takeSpiCommand m code tag p s := by
  unfold takeSpiFrame
  rw [frameFault_commandFrame _ _ hp, framePayload_commandFrame, frameTag_commandFrame, head_commandFrame]

theorem takeServiceFrame_commandFrame :
    takeServiceFrame (commandFrame code tag p) s = takeServiceCommand code tag p s := by
  unfold takeServiceFrame
  rw [frameFault_commandFrame _ _ hp, framePayload_commandFrame, frameTag_commandFrame, head_commandFrame]

end

/-- A transaction whose first byte is not FFH is a command transaction (R195). -/
theorem spiTransaction_command (m : Master) {b : Byte} (hb : b ≠ 0xFF) (rest : List Byte) (s : State) :
    spiTransaction m (b :: rest) s = (takeSpiFrame m (b :: rest) s).modSpi m fun x =>
      { x with dataOut := List.replicate (b :: rest).length 0 } := if_neg hb

theorem masterOf_port (m : Master) : masterOf m.port = some m := by cases m <;> rfl

theorem arriveFrame_spi (m : Master) (code tag : Byte) (p : List Byte) (s : State) :
    arriveFrame m.port code tag p s = spiTransaction m (commandFrame code tag p) s := by
  unfold arriveFrame
  rw [masterOf_port]

theorem arriveBytes_spi (m : Master) (bytes : List Byte) (s : State) :
    arriveBytes m.port bytes s = spiTransaction m bytes s := by
  unfold arriveBytes
  rw [masterOf_port]

/-- A service port at rest takes a frame that is complete at once, and its receiver stays idle (R196). -/
theorem completeFrame_rest {s : State} (hs : serviceAtRest s) (bytes : List Byte) :
    completeFrame bytes s = takeServiceFrame bytes s := by
  obtain ⟨-, -, -, hsending, -⟩ := id hs
  unfold completeFrame
  rw [hsending, receiverIdle_rest hs]
  rfl

theorem arriveFrame_service {s : State} (hs : serviceAtRest s) (code tag : Byte) {p : List Byte} (hp : p.length ≤ 200) :
    arriveFrame .servicePort code tag p s = takeServiceFrame (commandFrame code tag p) s := by
  obtain ⟨hrx, -, hwaiting, -⟩ := id hs
  have hfree : receiverFree s ∧ p.length ≤ 200 := ⟨by simp [receiverFree, hrx, hwaiting], hp⟩
  exact (if_pos hfree).trans (completeFrame_rest hs _)

/-- A command frame of any code at an SPI port is answered by its examination (R195, R199). -/
theorem spi_examined (m : Master) {code : Byte} (hcode : code ≠ 0xFF) (tag : Byte) {p : List Byte}
    (hp : p.length ≤ 200) (s : State) : drivePins (arriveFrame m.port code tag p s)
      = heldAfter m (frameBytes p.length) ((perform m.port code p s).2.toResponse tag) (perform m.port code p s).1 := by
  have hx : spiTransaction m (commandFrame code tag p) s = _ := spiTransaction_command m hcode _ s
  rw [arriveFrame_spi, hx, show code :: _ = commandFrame code tag p from rfl, takeSpiFrame_commandFrame code tag hp,
    length_commandFrame]
  rfl

/-- A command frame of any code at a port that is ready is answered by its examination (R195, R196, R199). -/
theorem examined {port : Port} {code : Byte} {p : List Byte} {s : State} (hr : Ready port s)
    (hcode : port = .servicePort ∨ code ≠ 0xFF) (tag : Byte) (hp : p.length ≤ 200) :
    drivePins (arriveFrame port code tag p s)
      = answered port p.length ((perform port code p s).2.toResponse tag) (perform port code p s).1 := by
  cases port with
  | showPort => exact spi_examined .showMaster (hcode.resolve_left (by decide)) tag hp s
  | deskPort => exact spi_examined .deskMaster (hcode.resolve_left (by decide)) tag hp s
  | servicePort =>
    rw [arriveFrame_service (hr.2 rfl) code tag hp, takeServiceFrame_commandFrame code tag hp]
    rfl

end Sys2Proof.Machine
end

section
/-! PROOFS. The command table, and the checks of a command in their order (O8). -/

namespace Sys2Proof.Machine

/-! ## The checks (R199) -/

section
variable {c : Command} {port : Port} {p : List Byte} {s : State}

theorem perform_unknown {code : Byte} (h : Command.ofCode code = none) :
    perform port code p s = refuse .unknownCommand s := by
  unfold perform
  rw [h]

theorem perform_wrongPort (h : port ∉ c.ports) : perform port c.code p s = refuse .wrongPort s := by
  unfold perform
  rw [ofCode_code]
  exact if_pos h

theorem perform_wrongMode (h : port ∈ c.ports) (hm : s.mode ∉ c.modes) :
    perform port c.code p s = refuse .wrongMode s := by
  unfold perform
  rw [ofCode_code]
  exact (if_neg (not_not.2 h)).trans (if_pos hm)

theorem perform_badLength (h : port ∈ c.ports) (hm : s.mode ∈ c.modes) (hl : c.lengthOk p = false) :
    perform port c.code p s = refuse .badLength s := by
  unfold perform
  rw [ofCode_code]
  exact (if_neg (not_not.2 h)).trans ((if_neg (not_not.2 hm)).trans (if_neg (Bool.eq_false_iff.1 hl)))

/-- A command that its examination refuses is answered with the status alone. -/
theorem answers_refused {st : Status} (hr : Ready port s) (hp : p.length ≤ 200)
    (h : perform port c.code p s = refuse st s) : Answers c port p s st [] s := by
  have a := answers_perform c hr hp
  rw [h] at a
  exact a

end

/-! ## Codes and payload lengths (R199, R200) -/

theorem code_of_ofCode {code : Byte} {c : Command} (h : Command.ofCode code = some c) : c.code = code := by
  have table : ∀ code : Byte, (Command.ofCode code).all (fun c => c.code = code) = true := by decide
  have hc := table code
  rw [h] at hc
  exact of_decide_eq_true hc

/-- A code names no command exactly when it is no command's. -/
theorem ofCode_eq_none_iff (code : Byte) : Command.ofCode code = none ↔ ∀ c : Command, c.code ≠ code := by
  constructor
  · rintro h c rfl
    rw [ofCode_code] at h
    cases h
  · intro h
    rw [Option.eq_none_iff_forall_ne_some]
    exact fun c hc => h c (code_of_ofCode hc)

theorem lengthOk_noteWrite (p : List Byte) :
    Command.noteWrite.lengthOk p = true ↔ 2 ≤ p.length ∧ p.length ≤ 17 := by
  simp [Command.lengthOk]

theorem lengthOk_scanList (p : List Byte) :
    Command.scanList.lengthOk p = true ↔ 1 ≤ p.length ∧ p.length = 1 + 2 * byteAt p 0 := by
  simp only [Command.lengthOk, Bool.and_eq_true, decide_eq_true_eq]
  exact and_comm

theorem lengthOk_frameWrite (p : List Byte) :
    Command.frameWrite.lengthOk p = true ↔ 2 ≤ p.length ∧ p.length = 2 + 8 * byteAt p 1 := by
  simp only [Command.lengthOk, decide_eq_true_eq]
  omega

theorem lengthOk_configScan (p : List Byte) :
    Command.configScan.lengthOk p = true ↔ 2 ≤ p.length ∧ p.length = 2 + 2 * byteAt p 1 := by
  simp only [Command.lengthOk, decide_eq_true_eq]
  omega

/-! ## O8 -/

/-- Settles O8: each check is one refusal of the examination, and the table and the lengths are read off row by row. -/
theorem commandChecksInOrder : Obligations.CommandChecksInOrder := by
  refine ⟨fun c port p s hr hp => ?_, fun port code tag p s hr hp hcode hport => ?_, ?_, ofCode_eq_none_iff,
    fun c p => ?_⟩
  · exact ⟨fun h => answers_refused hr hp (perform_wrongPort h),
      fun h hm => answers_refused hr hp (perform_wrongMode h hm),
      fun h hm hl => answers_refused hr hp (perform_badLength h hm hl)⟩
  · have hx := examined hr hport tag hp
    rw [perform_unknown hcode] at hx
    exact (occur_next hr.1).trans (congrArg _ hx)
  · intro S D V all coq row
    have entry (c : Command) : row c c.code c.ports c.modes :=
      ⟨ofCode_code c, rfl, fun _ => Iff.rfl, fun _ => Iff.rfl⟩
    clear_value row
    and_intros
    all_goals exact entry _
  · intro takes counted
    have fixed (n : Nat) (h : c.lengthOk p = decide (p.length = n)) : takes n := by
      show c.lengthOk p = true ↔ p.length = n
      rw [h, decide_eq_true_eq]
    refine ⟨fun hc => fixed 0 ?_, fun hc => fixed 1 ?_, fun hc => fixed 2 ?_, fun hc => fixed 3 ?_, ?_,
      fun hc => fixed 5 ?_, ?_⟩
    case refine_5 => exact fun hc => fixed 4 (by rw [hc]; rfl)
    case refine_7 =>
      refine ⟨fun hc => fixed 8 ?_, fun hc => fixed 9 ?_, fun hc => fixed 10 ?_, fun hc => fixed 19 ?_,
        fun hc => fixed 31 ?_, ?_, ?_, ?_, ?_⟩
      case refine_6 => rintro rfl; exact lengthOk_noteWrite p
      case refine_7 => rintro rfl; exact lengthOk_scanList p
      case refine_8 => rintro rfl; exact lengthOk_frameWrite p
      case refine_9 => rintro rfl; exact lengthOk_configScan p
      all_goals rw [hc]; rfl
    all_goals fin_cases hc <;> rfl

end Sys2Proof.Machine
end

section
/-! PROOFS. The check byte, and collect transactions (O10, O11). -/

namespace Sys2Proof.Machine

/-- The bit that leaves the top of the check register is its bit 7. -/
theorem crcShift_eq (r : Byte) : crcShift r = if r.getLsbD 7 then (r <<< 1) ^^^ 0x07 else r <<< 1 := by
  unfold crcShift
  rw [BitVec.msb_eq_getLsbD_last]

/-- Settles O10: a shift is read by its top bit, the check byte is a fold, and the frames of the spec are computed. -/
theorem checkByteOfFrames : Obligations.CheckByteOfFrames := by
  refine ⟨crcShift_eq, fun r b => ?_, fun l b => ⟨rfl, List.foldl_concat ..⟩, fun code tag p => rfl, by decide +kernel,
    by decide +kernel, by decide +kernel⟩
  intro shift
  have hshift : shift = crcShift := funext fun x => (crcShift_eq x).symm
  rw [hshift]
  rfl

/-! ## Collect transactions (R195) -/

theorem length_shiftOut (frame : List Byte) (n : Nat) : (shiftOut frame n).length = n := by
  simp only [shiftOut, List.length_append, List.length_take, List.length_replicate]
  omega

/-- A byte that is shifted out is the frame's, or FFH beyond its last byte. -/
theorem getElem?_shiftOut (frame : List Byte) {i n : Nat} (h : i < n) :
    (shiftOut frame n)[i]? = some (frame[i]?.getD 0xFF) := by
  unfold shiftOut
  by_cases hi : i < frame.length
  · rw [List.getElem?_append_left (by rw [List.length_take]; omega), List.getElem?_take_of_lt h,
      List.getElem?_eq_getElem hi]
    rfl
  · rw [List.getElem?_append_right (by rw [List.length_take]; omega), List.getElem?_replicate,
      if_pos (by rw [List.length_take]; omega), List.getElem?_eq_none (by omega)]
    rfl

/-- What an SPI port holds after a collect transaction of whole bytes. -/
def SpiPort.collected (n : Nat) (x : SpiPort) : SpiPort :=
  { x with
    dataOut := shiftOut (x.held.getD noResponse).bytes (n - 1)
    held := if 2 ≤ n then none else x.held }

theorem collect_eq (m : Master) {n : Nat} (h : 1 ≤ n) (s : State) :
    collect m n s = s.modSpi m (SpiPort.collected n) := if_neg (by omega)

/-- An update of a port's record is its replacement. -/
theorem modSpi_const (s : State) (m : Master) (f : SpiPort → SpiPort) :
    s.modSpi m f = s.modSpi m fun _ => f (s.spi m) := by cases m <;> rfl

theorem drivePins_spi (s : State) (m : Master) : (drivePins s).spi m = s.spi m := by cases m <;> rfl

/-- Settles O11: the port's record after the transaction, field by field. -/
theorem collectTransactionSendsTheResponse : Obligations.CollectTransactionSendsTheResponse := by
  intro m n s hs hn
  have hexec : exec (.collectTransaction m n) s = .next (drivePins (collect m n s)) := occur_next hs
  have hspi : (drivePins (collect m n s)).spi m = (s.spi m).collected n := by
    rw [drivePins_spi, collect_eq m hn, modSpi_spi_same]
  refine ⟨_, hexec, ?_⟩
  rw [hspi]
  refine ⟨length_shiftOut _ _, fun i hi => getElem?_shiftOut _ hi, rfl, rfl, rfl, ?_⟩
  rw [collect_eq m hn, modSpi_const]

end Sys2Proof.Machine
end

section
/-! SUPPORT. The service port's receiver: what one byte does, and a frame that arrives byte by byte (R196). -/

namespace Sys2Proof.Machine

/-! ## One byte -/

/-- The receiver with a frame in progress that has these bytes so far, at the start of its 10 ms (R196). -/
def receiving (bytes : List Byte) (s : State) : State := s.modUart fun u => { u with rx := .inFrame bytes, quiet := some 10 }

/-- More bytes of the frame are to come: there are fewer than four, or fewer than a good length field gives. -/
abbrev Unfinished (bytes : List Byte) : Prop :=
  bytes.length < 4 ∨ (lengthField bytes ≤ 200 ∧ bytes.length < 5 + lengthField bytes)

theorem unfinished_first (b : Byte) : Unfinished [b] := .inl (by simp)

section
variable {bytes : List Byte} {s : State}

theorem extendFrame_unfinished (h : Unfinished bytes) : extendFrame bytes s = receiving bytes s := by
  unfold extendFrame
  rw [if_neg (by omega), if_neg (by omega)]
  rfl

theorem extendFrame_whole (h5 : 5 ≤ bytes.length) (h : bytes.length = 5 + lengthField bytes) :
    extendFrame bytes s = completeFrame bytes s := by
  unfold extendFrame
  rw [if_neg (by omega), if_pos ⟨h5, h⟩]

theorem extendFrame_tooLong (h4 : bytes.length = 4) (h : 200 < lengthField bytes) :
    extendFrame bytes s = sendService ⟨frameTag bytes, .badLength, []⟩ (receiverDiscards s) := if_pos ⟨h4, h⟩

theorem receiveByte_idle (hw : s.uart.waitingFrame = none) (hrx : s.uart.rx = .idle) (b : Byte) :
    receiveByte b s = extendFrame [b] s := by
  unfold receiveByte
  rw [hw, hrx]
  rfl

theorem receiveByte_inFrame (hw : s.uart.waitingFrame = none) (hrx : s.uart.rx = .inFrame bytes) (b : Byte) :
    receiveByte b s = extendFrame (bytes ++ [b]) s := by
  unfold receiveByte
  rw [hw, hrx]
  rfl

theorem receiveByte_discards (h : s.uart.waitingFrame.isSome ∨ s.uart.rx = .discarding) (b : Byte) :
    receiveByte b s = receiverDiscards s := by
  unfold receiveByte
  split
  · rfl
  · rename_i hw
    rw [h.resolve_left hw]

/-- The byte that completes a frame is taken with it. -/
theorem receiveByte_completes (hw : s.uart.waitingFrame = none) (hrx : s.uart.rx = .inFrame bytes) {b : Byte}
    (h4 : 4 ≤ bytes.length) (h : bytes.length + 1 = 5 + lengthField (bytes ++ [b])) :
    receiveByte b s = completeFrame (bytes ++ [b]) s := by
  rw [receiveByte_inFrame hw hrx, extendFrame_whole] <;> rw [List.length_append, List.length_singleton]
  · omega
  · exact h

/-- A frame that is complete while a response is being sent waits whole. -/
theorem completeFrame_waits (h : s.uart.sending ≠ none) : completeFrame bytes s
    = s.modUart fun u => { u with rx := .idle, quiet := none, waitingFrame := some bytes } :=
  if_neg (mt Option.isNone_iff_eq_none.1 h)

end

/-! ## A whole frame, byte by byte -/

/-- A frame that its length field says is whole. -/
structure WholeFrame (frame : List Byte) : Prop where
  field : lengthField frame ≤ 200
  whole : frame.length = 5 + lengthField frame

theorem wholeFrame_commandFrame (code tag : Byte) {p : List Byte} (hp : p.length ≤ 200) :
    WholeFrame (commandFrame code tag p) := by
  constructor <;> rw [lengthField_commandFrame code tag hp]
  · exact hp
  · exact length_commandFrame code tag p

/-- The length field stands in the first four bytes. -/
theorem lengthField_of_start {bytes frame : List Byte} (h : bytes <+: frame) (h4 : 4 ≤ bytes.length) :
    lengthField bytes = lengthField frame := by
  obtain ⟨rest, rfl⟩ := h
  unfold lengthField
  rw [List.getD_append _ _ _ _ (by omega), List.getD_append _ _ _ _ (by omega)]

theorem WholeFrame.unfinished {bytes frame : List Byte} (hf : WholeFrame frame) (h : bytes <+: frame)
    (hl : bytes.length < frame.length) : Unfinished bytes := by
  by_cases h4 : bytes.length < 4
  · exact .inl h4
  · have hfield := lengthField_of_start h (by omega)
    exact .inr (by rw [hfield]; exact ⟨hf.field, hf.whole ▸ hl⟩)

section
variable {s : State} {take : Byte → State → State} {frame : List Byte}
  (first : ∀ b, take b s = receiving [b] s)
  (joins : ∀ bytes b, Unfinished (bytes ++ [b]) → take b (receiving bytes s) = receiving (bytes ++ [b]) s)

include first joins

/-- Every byte of a whole frame but the last leaves the frame in progress. -/
theorem forList_receiving (hf : WholeFrame frame) (bytes : List Byte) (hne : bytes ≠ []) (hp : bytes <+: frame)
    (hl : bytes.length < frame.length) : forList bytes take s = receiving bytes s := by
  induction bytes using List.reverseRecOn with
  | nil => exact absurd rfl hne
  | append_singleton bytes b ih =>
    have hlast : forList (bytes ++ [b]) take s = take b (forList bytes take s) := List.foldl_concat ..
    rw [hlast]
    by_cases hnil : bytes = []
    · subst hnil
      exact first b
    · rw [List.length_append] at hl
      rw [ih hnil (.trans ⟨[b], rfl⟩ hp) (by omega)]
      exact joins bytes b (hf.unfinished hp (by rw [List.length_append]; exact hl))

/-- A whole frame leads where its last byte leads. -/
theorem forList_wholeFrame (hf : WholeFrame frame) {t : State}
    (last : ∀ bytes b, frame = bytes ++ [b] → take b (receiving bytes s) = t) : forList frame take s = t := by
  obtain ⟨bytes, b, rfl⟩ : ∃ bytes b, frame = bytes ++ [b] := by
    have hne : frame ≠ [] := List.ne_nil_of_length_pos (by rw [hf.whole]; omega)
    exact ⟨_, _, (List.dropLast_concat_getLast hne).symm⟩
  have hwhole := hf.whole
  rw [List.length_append, List.length_singleton] at hwhole
  have hbytes : forList bytes take s = receiving bytes s :=
    forList_receiving first joins hf bytes (List.ne_nil_of_length_pos (by omega)) ⟨[b], rfl⟩
      (by rw [List.length_append, List.length_singleton]; omega)
  calc forList (bytes ++ [b]) take s = take b (forList bytes take s) := List.foldl_concat ..
    _ = take b (receiving bytes s) := by rw [hbytes]
    _ = t := last bytes b rfl

end

/-! ## A service port at rest -/

section
variable {s : State} (hs : serviceAtRest s)
include hs

theorem receiveByte_first (b : Byte) : receiveByte b s = receiving [b] s := by
  obtain ⟨hrx, -, hw, -⟩ := hs
  rw [receiveByte_idle hw hrx, extendFrame_unfinished (unfinished_first b)]

theorem receiveByte_joins {bytes : List Byte} {b : Byte} (h : Unfinished (bytes ++ [b])) :
    receiveByte b (receiving bytes s) = receiving (bytes ++ [b]) s := by
  obtain ⟨-, -, hw, -⟩ := hs
  have hx : receiveByte b (receiving bytes s) = extendFrame (bytes ++ [b]) (receiving bytes s) :=
    receiveByte_inFrame (s := receiving bytes s) hw rfl b
  rw [hx, extendFrame_unfinished h]
  rfl

theorem receiveByte_last {bytes : List Byte} {b : Byte} (hf : WholeFrame (bytes ++ [b])) :
    receiveByte b (receiving bytes s) = takeServiceFrame (bytes ++ [b]) s := by
  obtain ⟨-, -, hw, hsending, -⟩ := id hs
  have hwhole := hf.whole
  rw [List.length_append, List.length_singleton] at hwhole
  have hx : receiveByte b (receiving bytes s) = completeFrame (bytes ++ [b]) (receiving bytes s) :=
    receiveByte_completes (s := receiving bytes s) hw rfl (by omega) hwhole
  have htake : completeFrame (bytes ++ [b]) (receiving bytes s)
      = takeServiceFrame (bytes ++ [b]) (receiverIdle (receiving bytes s)) := if_pos (by
    show s.uart.sending.isNone = true
    rw [hsending]
    rfl)
  rw [hx, htake, show receiverIdle (receiving bytes s) = receiverIdle s from rfl, receiverIdle_rest hs]

/-- The bytes of a whole frame have the effect of the frame. -/
theorem receiveBytes_wholeFrame {frame : List Byte} (hf : WholeFrame frame) :
    receiveBytes frame s = takeServiceFrame frame s :=
  forList_wholeFrame (receiveByte_first hs) (fun _ _ => receiveByte_joins hs) hf
    fun _ _ he => by rw [receiveByte_last hs (he ▸ hf), he]

end

/-! ## Bytes that are commands of their own -/

/-- One byte as a command: ignored in full reset, and followed by the pins. -/
def byteArrives (b : Byte) (s : State) : State := if s.inReset then s else drivePins (receiveByte b s)

theorem bytesArrive_eq (bytes : List Byte) (s : State) : bytesArrive bytes s = .next (forList bytes byteArrives s) := by
  induction bytes generalizing s with
  | nil => rfl
  | cons b rest ih => exact ih (byteArrives b s)

theorem byteArrives_next {s : State} (h : s.inReset = false) (b : Byte) :
    byteArrives b s = drivePins (receiveByte b s) := if_neg (by simp [h])

/-- A frame in progress moves no pin. -/
theorem drivePins_receiving {s : State} (hs : PinsFollow s) (bytes : List Byte) :
    drivePins (receiving bytes s) = receiving bytes s := by
  unfold drivePins
  rw [show pinsOf (receiving bytes s) = pinsOf s from rfl, ← hs]
  rfl

/-- The bytes of a whole frame, each a command of its own, have the effect of the frame. -/
theorem bytesArrive_wholeFrame {frame : List Byte} {s : State} (hr : Ready .servicePort s) (hpins : PinsFollow s)
    (hf : WholeFrame frame) : bytesArrive frame s = .next (drivePins (takeServiceFrame frame s)) := by
  have hs : serviceAtRest s := hr.2 rfl
  rw [bytesArrive_eq]
  refine congrArg _ (forList_wholeFrame (fun b => ?_) (fun bytes b h => ?_) hf fun bytes b he => ?_)
  · rw [byteArrives_next hr.1, receiveByte_first hs, drivePins_receiving hpins]
  · have hx : byteArrives b (receiving bytes s) = drivePins (receiveByte b (receiving bytes s)) :=
      byteArrives_next (s := receiving bytes s) hr.1 b
    rw [hx, receiveByte_joins hs h, drivePins_receiving hpins]
  · have hx : byteArrives b (receiving bytes s) = drivePins (receiveByte b (receiving bytes s)) :=
      byteArrives_next (s := receiving bytes s) hr.1 b
    rw [hx, receiveByte_last hs (he ▸ hf), he]

end Sys2Proof.Machine
end

section
/-! PROOFS. Frames that fail their examination, and frames that arrive byte by byte (O9, O12). -/

namespace Sys2Proof.Machine

/-- Bytes of an SPI transaction that fail their examination are answered so, and 00H is driven throughout. -/
theorem exec_frameCheckFailure_spi (m : Master) {b : Byte} (hb : b ≠ 0xFF) {rest : List Byte} {s : State}
    (hs : s.inReset = false) {st : Status} (h : frameFault (b :: rest) = some st) :
    exec (.frameCheckFailure m.port (b :: rest)) s = .next (drivePins <| s.modSpi m fun x =>
      { x with held := some ⟨rest.getD 0 0, st, []⟩, dataOut := List.replicate (b :: rest).length 0 }) := by
  have hexec : exec (.frameCheckFailure m.port (b :: rest)) s
      = .next (drivePins (arriveBytes m.port (b :: rest) s)) := occur_next hs
  rw [hexec, arriveBytes_spi, spiTransaction_command m hb, takeSpiFrame_fault h]
  cases m <;> rfl

/-- Settles O9: the length is tested before the check byte, at each port by its own path. -/
theorem badFrameIsAnswered : Obligations.BadFrameIsAnswered := by
  refine ⟨fun m b rest s hs hb => ?_, fun bytes s hr h5 hfield hwhole hcheck => ?_⟩
  · intro bytes wrongLength after
    exact ⟨fun h => exec_frameCheckFailure_spi m hb hs (frameFault_badLength h),
      fun h hc => exec_frameCheckFailure_spi m hb hs (frameFault_badCheck h hc)⟩
  · have hfault : frameFault bytes = some .badCheck := frameFault_badCheck (by simp only [WrongLength]; omega) hcheck
    have hexec : exec (.frameCheckFailure .servicePort bytes) s = .next (drivePins (receiveBytes bytes s)) :=
      occur_next hr.1
    rw [hexec, receiveBytes_wholeFrame (hr.2 rfl) ⟨hfield, hwhole⟩, takeServiceFrame_fault hfault]
    rfl

/-- Settles O12: both arrivals take the whole frame, the bytes with their last one. -/
theorem servicePortAssemblesFrames : Obligations.ServicePortAssemblesFrames := by
  intro c tag p s hr hpins hp
  have hframe : exec (frameOf c .servicePort tag p) s = .next (drivePins (arriveFrame .servicePort c.code tag p s)) :=
    (exec_frameOf c .servicePort tag p s).trans (occur_next hr.1)
  rw [bytesArrive_wholeFrame hr hpins (wholeFrame_commandFrame c.code tag hp), hframe,
    arriveFrame_service (hr.2 rfl) c.code tag hp]

end Sys2Proof.Machine
end

section
/-! PROOFS. The service port's receiver and transmitter, event by event (O13, O14, O15). -/

namespace Sys2Proof.Machine

/-! ## O13 -/

section
variable {s : State}

theorem discardEnd_ends (h : s.uart.rx = .discarding) (hq : s.uart.quiet = some 0) : discardEnd s = receiverIdle s := by
  unfold discardEnd
  rw [h, hq]
  rfl

theorem stopBitFault_discards (h : s.uart.waitingFrame.isSome ∨ s.uart.rx = .discarding) :
    stopBitFault s = receiverDiscards s := by
  unfold stopBitFault
  split
  · rfl
  · rename_i hw
    rw [h.resolve_left hw]

/-- At an idle receiver the byte is answered or not, and the bytes after it are discarded (log 8). -/
theorem stopBitFault_idle (hw : s.uart.waitingFrame = none) (hrx : s.uart.rx = .idle) : stopBitFault s
    = if Config.idleStopFaultAnswers then sendService ⟨0, .badLength, []⟩ (receiverDiscards s) else receiverDiscards s := by
  unfold stopBitFault
  rw [hw, hrx]
  rfl

theorem stopBitFault_inFrame {bytes : List Byte} (hw : s.uart.waitingFrame = none) (hrx : s.uart.rx = .inFrame bytes) :
    stopBitFault s = sendService ⟨frameTag bytes, .badLength, []⟩ (receiverDiscards s) := by
  unfold stopBitFault
  rw [hw, hrx]
  rfl

end

/-- A response sent or waiting leaves the receiver. -/
theorem sendService_rx (r : Response) (s : State) : (sendService r s).uart.rx = s.uart.rx := by
  unfold sendService
  rw [modUart_uart]
  split <;> rfl

theorem sendService_quiet (r : Response) (s : State) : (sendService r s).uart.quiet = s.uart.quiet := by
  unfold sendService
  rw [modUart_uart]
  split <;> rfl

theorem sendService_spi (r : Response) (s : State) (m : Master) : (sendService r s).spi m = s.spi m := by
  cases m <;> rfl

/-- Settles O13: each byte by the receiver's state before it. -/
theorem receiverTakesAndDiscardsBytes : Obligations.ReceiverTakesAndDiscardsBytes := by
  have takes {b : Byte} {s t : State} (hs : s.inReset = false) (h : receiveByte b s = t) :
      exec (.uartByteReceived b) s = .next (drivePins t) := occur_goesTo hs h
  refine ⟨fun b s hs => ⟨fun hw hrx => ?_, fun bytes hw hrx hmore => ?_, fun bytes hw hrx hsending h4 hwhole => ?_,
      fun h => takes hs (receiveByte_discards h b)⟩,
    fun s hs => ⟨fun hrx hq => occur_goesTo hs (discardEnd_ends hrx hq), fun h => occur_goesTo hs (stopBitFault_discards h),
      fun hw hrx => ?_⟩⟩
  · exact takes hs ((receiveByte_idle hw hrx b).trans (extendFrame_unfinished (unfinished_first b)))
  · refine takes hs ((receiveByte_inFrame hw hrx b).trans (extendFrame_unfinished ?_))
    rw [Unfinished, List.length_append, List.length_singleton]
    omega
  · exact takes hs ((receiveByte_completes hw hrx h4 hwhole).trans (completeFrame_waits hsending))
  · refine ⟨_, occur_goesTo hs (stopBitFault_idle hw hrx), ?_⟩
    split
    · exact ⟨sendService_rx _ _, sendService_quiet _ _, fun m => by rw [drivePins_spi, sendService_spi]; cases m <;> rfl⟩
    · exact ⟨rfl, rfl, fun m => by cases m <;> rfl⟩

/-! ## O14 -/

theorem gapTimeout_answers {bytes : List Byte} {s : State} (hrx : s.uart.rx = .inFrame bytes)
    (hq : s.uart.quiet = some 0) :
    gapTimeout s = sendService ⟨frameTag bytes, .badLength, []⟩ (receiverIdle s) := by
  unfold gapTimeout
  rw [hrx, hq]
  rfl

theorem lengthTooLarge_answers {bytes : List Byte} {b : Byte} {s : State} (hw : s.uart.waitingFrame = none)
    (hrx : s.uart.rx = .inFrame bytes) (h3 : bytes.length = 3) (hl : 200 < lengthField (bytes ++ [b])) :
    lengthTooLarge b s = sendService ⟨frameTag bytes, .badLength, []⟩ (receiverDiscards s) := by
  have htag : frameTag (bytes ++ [b]) = frameTag bytes := List.getD_append _ _ _ _ (by omega)
  have h4 : (bytes ++ [b]).length = 4 := by rw [List.length_append, h3]; rfl
  unfold lengthTooLarge
  rw [hw, hrx]
  dsimp only
  rw [if_pos ⟨h3, hl⟩, receiveByte_inFrame hw hrx, extendFrame_tooLong h4 hl, htag]

/-- Settles O14: each of the three ends the frame with the same answer, and the receiver idle or discarding. -/
theorem brokenFrameIsAnswered : Obligations.BrokenFrameIsAnswered := by
  intro bytes s hs hw hrx answer send
  have hsend (t : State) : sendService answer t = t.modUart send :=
    congrArg t.modUart (funext fun u => if_congr Option.isNone_iff_eq_none rfl rfl)
  refine ⟨fun b h3 hl => ?_, fun hq => ?_, ?_⟩
  · exact occur_goesTo hs ((lengthTooLarge_answers hw hrx h3 hl).trans (hsend _))
  · exact occur_goesTo hs ((gapTimeout_answers hrx hq).trans (hsend _))
  · exact occur_goesTo hs ((stopBitFault_inFrame hw hrx).trans (hsend _))

/-! ## O15 -/

section
variable {r : Response} {s : State} (hr : s.uart.sending = some r)
include hr

theorem responseSent_next {first : Response} {rest : List Response} (h : s.uart.waiting = first :: rest) :
    responseSent s = s.modUart fun u => { u with sending := some first, waiting := rest } := by
  unfold responseSent
  rw [hr, h]

theorem responseSent_takes {bytes : List Byte} (h : s.uart.waiting = []) (hw : s.uart.waitingFrame = some bytes) :
    responseSent s = takeServiceFrame bytes (s.modUart fun u => { u with sending := none, waitingFrame := none }) := by
  unfold responseSent
  rw [hr, h, hw]

theorem responseSent_idle (h : s.uart.waiting = []) (hw : s.uart.waitingFrame = none) :
    responseSent s = s.modUart fun u => { u with sending := none } := by
  unfold responseSent
  rw [hr, h, hw]

end

/-- Settles O15: a waiting response goes before a waiting frame, which is taken as one that arrives whole. -/
theorem responseSentThenTheNext : Obligations.ResponseSentThenTheNext := by
  intro r s hs hr
  refine ⟨fun first rest h => occur_goesTo hs (responseSent_next hr h),
    fun h hw => occur_goesTo hs (responseSent_idle hr h hw), fun c tag p reply st t hp h hw hperform => ?_⟩
  refine occur_goesTo hs ((responseSent_takes hr h hw).trans ((takeServiceFrame_commandFrame _ _ hp _).trans ?_))
  unfold takeServiceCommand
  rw [hperform]
  rfl

end Sys2Proof.Machine
end

section
/-! PROOFS. The note slots (O18). -/

namespace Sys2Proof.Machine

/-! ## NOTE-WRITE (R204) -/

section
variable {m : Master} {i : SlotId} {p : List Byte} {s : State}

theorem noteWriteBody_noSuch (port : Port) (h : indexAt 8 p 0 = none) : noteWriteBody port p s = refuse .noSuch s := by
  unfold noteWriteBody
  rw [h]

theorem noteReadBody_noSuch (port : Port) (h : indexAt 8 p 0 = none) : noteReadBody port p s = refuse .noSuch s := by
  unfold noteReadBody
  rw [h]

variable (h : indexAt 8 p 0 = some i)
include h

theorem noteWriteBody_wrongPort (hw : slotWriter i ≠ m) : noteWriteBody m.port p s = refuse .wrongPort s := by
  unfold noteWriteBody
  rw [h, masterOf_port]
  exact if_pos fun he => hw (Option.some.inj he).symm

theorem noteWriteBody_full (hw : slotWriter i = m) (hn : (s.note i).isSome) :
    noteWriteBody m.port p s = refuse .full s := by
  unfold noteWriteBody
  rw [h, masterOf_port]
  subst hw
  exact (if_neg (not_not.2 rfl)).trans (if_pos hn)

theorem noteWriteBody_fills (hw : slotWriter i = m) (hn : s.note i = none) :
    noteWriteBody m.port p s = accept (num1 i.val ++ clockBytes s.clock) (fillSlot i (p.drop 1) s) := by
  unfold noteWriteBody
  rw [h, masterOf_port]
  subst hw
  exact (if_neg (not_not.2 rfl)).trans (if_neg (by simp [hn]))

/-! ## NOTE-READ (R205) -/

theorem noteReadBody_wrongPort (hr : slotReader i ≠ m) : noteReadBody m.port p s = refuse .wrongPort s := by
  unfold noteReadBody
  rw [h, masterOf_port]
  exact if_pos fun he => hr (Option.some.inj he).symm

theorem noteReadBody_empty (hr : slotReader i = m) (hn : s.note i = none) :
    noteReadBody m.port p s = refuse .empty s := by
  unfold noteReadBody
  rw [h, masterOf_port]
  dsimp only
  rw [hr, hn]
  exact if_neg (not_not.2 rfl)

theorem noteReadBody_takes {n : NoteContent} (hr : slotReader i = m) (hn : s.note i = some n) : noteReadBody m.port p s
    = accept (num1 i.val ++ clockBytes n.time ++ listBytes (n.content.map fun b => [b])) (emptySlot i s) := by
  unfold noteReadBody
  rw [h, masterOf_port]
  dsimp only
  rw [hr, hn]
  exact if_neg (not_not.2 rfl)

end

/-- Bytes as a list of varying length are their count and themselves (R200). -/
theorem listBytes_singletons (l : List Byte) :
    listBytes (l.map fun b => [b]) = BitVec.ofNat 8 l.length :: l := by
  unfold listBytes
  rw [List.length_map, ← List.flatMap_def, List.flatMap_singleton']
  rfl

/-! ## O18 -/

/-- The byte that a slot's number is. -/
theorem num1_of_byte {b : Byte} {n : Nat} (h : n = b.toNat) : num1 n = [b] := by
  rw [h, num1, BitVec.ofNat_toNat, BitVec.setWidth_eq]

/-- Settles O18: each body tests the slot, its port and its content, and then fills or empties it. -/
theorem notesAreWrittenAndRead : Obligations.NotesAreWrittenAndRead := by
  have hwriter (i : SlotId) : slotWriter i = if i.val ≤ 3 then .showMaster else .deskMaster :=
    if_congr Nat.lt_succ_iff rfl rfl
  have hreader (i : SlotId) : slotReader i = if i.val ≤ 3 then .deskMaster else .showMaster :=
    if_congr Nat.lt_succ_iff rfl rfl
  refine ⟨fun m b content s had hlen => ?_, fun m b s had => ?_⟩
  · have hp : (b :: content).length ≤ 200 := by rw [List.length_cons]; omega
    have answers {st : Status} {reply : List Byte} {t : State} (h1 : 1 ≤ content.length) (h16 : content.length ≤ 16)
        (hb : noteWriteBody m.port (b :: content) s = (t, ⟨st, reply⟩)) :
        Answers .noteWrite m.port (b :: content) s st reply t :=
      answers_body had hp ((lengthOk_noteWrite _).2 (by rw [List.length_cons]; omega)) hb
    refine ⟨fun hl => ?_, fun h1 h16 hb => ?_, fun i hi h1 h16 => ?_⟩
    · refine answers_refused had.1 hp (perform_badLength had.2.1 had.2.2 (Bool.eq_false_iff.2 ?_))
      rw [Ne, lengthOk_noteWrite, List.length_cons]
      omega
    · exact answers h1 h16 (noteWriteBody_noSuch _ (indexAt_above content hb))
    · intro writer reader
      have hindex : indexAt 8 (b :: content) 0 = some i := indexAt_of hi.symm
      have hslot : slotWriter i = writer := hwriter i
      refine ⟨fun hw => ?_, fun hw hn => ?_, fun hw hn => ?_⟩
      · exact answers h1 h16 (noteWriteBody_wrongPort hindex (hslot ▸ hw))
      · exact answers h1 h16 (noteWriteBody_full hindex (hslot.trans hw) hn)
      · refine answers h1 h16 ((noteWriteBody_fills hindex (hslot.trans hw) hn).trans ?_)
        rw [num1_of_byte hi, fillSlot, hreader]
        rfl
  · have answers {st : Status} {reply : List Byte} {t : State}
        (hb : noteReadBody m.port [b] s = (t, ⟨st, reply⟩)) : Answers .noteRead m.port [b] s st reply t :=
      answers_body had (by simp) rfl hb
    refine ⟨fun hb => answers (noteReadBody_noSuch _ (indexAt_above [] hb)), fun i hi => ?_⟩
    intro writer reader
    have hindex : indexAt 8 [b] 0 = some i := indexAt_of hi.symm
    have hslot : slotReader i = reader := hreader i
    refine ⟨fun hr => ?_, fun hr hn => ?_, fun n hr hn => ?_⟩
    · exact answers (noteReadBody_wrongPort hindex (hslot ▸ hr))
    · exact answers (noteReadBody_empty hindex (hslot.trans hr) hn)
    · refine answers ((noteReadBody_takes hindex (hslot.trans hr) hn).trans ?_)
      rw [num1_of_byte hi, listBytes_singletons, emptySlot, hwriter]
      rfl

end Sys2Proof.Machine
end

section
/-! SUPPORT. A list of checks, each with the lowest item that fails it, and the first of them that reports (R207). -/

namespace Sys2Proof.Machine

/-- The answer of a check over an item kind: the lowest item that fails it, or none when every item passes. -/
def Reports (o : Option (Nat × Nat)) (check : Nat × (Nat → Prop)) : Prop :=
  ∀ k i, o = some (k, i) ↔ check.1 = k ∧ check.2 i ∧ ∀ j, j < i → ¬ check.2 j

/-- Every item passes a check. -/
abbrev Passes (check : Nat × (Nat → Prop)) : Prop := ∀ i, ¬ check.2 i

/-- A check that some item fails reports, for there is a lowest one. -/
theorem Reports.none_iff {o : Option (Nat × Nat)} {check : Nat × (Nat → Prop)} (h : Reports o check) :
    o = none ↔ Passes check := by
  classical
  constructor
  · rintro rfl i hi
    have hlowest := (h check.1 (Nat.find ⟨i, hi⟩)).2 ⟨rfl, Nat.find_spec _, fun j hj => Nat.find_min _ hj⟩
    cases hlowest
  · intro hp
    rw [Option.eq_none_iff_forall_ne_some]
    rintro ⟨k, i⟩ hi
    obtain ⟨-, hfails, -⟩ := (h k i).1 hi
    exact hp i hfails

/-! ## The first report of a list -/

/-- The first report among the answers of several checks. -/
def firstReport (answers : List (Option (Nat × Nat))) : Option (Nat × Nat) := answers.foldr Option.or none

theorem firstReport_cons (o : Option (Nat × Nat)) (answers : List (Option (Nat × Nat))) :
    firstReport (o :: answers) = o.or (firstReport answers) := rfl

section
variable {answers : List (Option (Nat × Nat))} {checks : List (Nat × (Nat → Prop))}

theorem firstReport_eq_none_iff (h : List.Forall₂ Reports answers checks) :
    firstReport answers = none ↔ ∀ check ∈ checks, Passes check := by
  induction h with
  | nil => exact iff_of_true rfl (by simp)
  | cons ho _ ih => rw [firstReport_cons, Option.or_eq_none_iff, ho.none_iff, ih, List.forall_mem_cons]

/-- The first element of a list with a property, after others that have another: it is the head, or comes later. -/
theorem exists_first_cons {α : Type} {P Q : α → Prop} (c : α) (l : List α) :
    (∃ before x after, c :: l = before ++ x :: after ∧ (∀ y ∈ before, P y) ∧ Q x) ↔
      Q c ∨ (P c ∧ ∃ before x after, l = before ++ x :: after ∧ (∀ y ∈ before, P y) ∧ Q x) := by
  constructor
  · rintro ⟨before, x, after, he, hp, hq⟩
    cases before with
    | nil =>
      cases he
      exact .inl hq
    | cons b before =>
      cases he
      obtain ⟨hc, hp⟩ := List.forall_mem_cons.1 hp
      exact .inr ⟨hc, before, x, after, rfl, hp, hq⟩
  · rintro (hq | ⟨hc, before, x, after, rfl, hp, hq⟩)
    · exact ⟨[], c, l, rfl, by simp, hq⟩
    · exact ⟨c :: before, x, after, rfl, List.forall_mem_cons.2 ⟨hc, hp⟩, hq⟩

/-- The first report is that of the first check that an item fails. -/
theorem firstReport_eq_some_iff (h : List.Forall₂ Reports answers checks) (k i : Nat) :
    firstReport answers = some (k, i) ↔ ∃ before check after, checks = before ++ check :: after ∧
      (∀ x ∈ before, Passes x) ∧ check.1 = k ∧ check.2 i ∧ ∀ j, j < i → ¬ check.2 j := by
  induction h with
  | nil => exact iff_of_false nofun (by simp)
  | cons ho _ ih => rw [firstReport_cons, Option.or_eq_some_iff, ho.none_iff, ih, exists_first_cons, ho]

end

/-! ## Checks over a table -/

section
variable {n : Nat} {kind : Nat} {bad : Fin n → Bool} {P : Fin n → Prop}

/-- The lowest index that satisfies a test. -/
theorem reports_firstBad (h : ∀ a, bad a = true ↔ P a) :
    Reports (firstBad kind (List.finRange n) bad) (kind, fun i => ∃ a : Fin n, a.val = i ∧ P a) := by
  intro k i
  unfold firstBad
  rw [Option.map_eq_some_iff]
  constructor
  · rintro ⟨a, ha, he⟩
    rw [← Fin.find?_eq_find?_finRange, Fin.find?_eq_some_iff] at ha
    obtain ⟨hbad, hbelow⟩ := ha
    obtain ⟨rfl, rfl⟩ := Prod.mk.inj he
    refine ⟨rfl, ⟨a, rfl, (h a).1 hbad⟩, ?_⟩
    rintro _ hlt ⟨b, rfl, hb⟩
    have hfalse := hbelow b hlt
    rw [(h b).2 hb] at hfalse
    cases hfalse
  · rintro ⟨rfl, ⟨a, rfl, ha⟩, hbelow⟩
    refine ⟨a, ?_, rfl⟩
    rw [← Fin.find?_eq_find?_finRange, Fin.find?_eq_some_iff]
    exact ⟨(h a).2 ha, fun b hlt => Bool.eq_false_iff.2 fun hb => hbelow b.val hlt ⟨b, rfl, (h b).1 hb⟩⟩

end

/-- The lowest configured axis that satisfies a test. -/
theorem reports_firstBadAxis {s : State} {bad : AxisId → Bool} {P : AxisId → Prop} (h : ∀ a, bad a = true ↔ P a) :
    Reports (firstBad 3 (configuredAxes s) bad)
      (3, fun i => ∃ a : AxisId, a.val = i ∧ (s.axis a).configured = true ∧ P a) := by
  have hfilter : firstBad 3 (configuredAxes s) bad
      = firstBad 3 (List.finRange 12) fun a => (s.axis a).configured ∧ bad a := by
    unfold firstBad configuredAxes
    rw [List.find?_filter]
  rw [hfilter]
  exact reports_firstBad fun a => by rw [decide_eq_true_eq, h]

/-- The lowest entry of a list that satisfies a test. -/
theorem reports_findIdx {α : Type} {kind : Nat} {l : List α} {bad : α → Bool} {P : α → Prop}
    (h : ∀ x, bad x = true ↔ P x) :
    Reports ((l.findIdx? bad).map fun i => (kind, i)) (kind, fun i => ∃ x, l[i]? = some x ∧ P x) := by
  have hat {i : Nat} (hi : i < l.length) : (∃ x, l[i]? = some x ∧ P x) ↔ bad l[i] = true := by
    rw [h, List.getElem?_eq_getElem hi]
    simp
  intro k i
  rw [Option.map_eq_some_iff]
  constructor
  · rintro ⟨j, hj, he⟩
    obtain ⟨rfl, rfl⟩ := Prod.mk.inj he
    obtain ⟨hlt, hbad, hbelow⟩ := List.findIdx?_eq_some_iff_getElem.1 hj
    exact ⟨rfl, (hat hlt).2 hbad, fun b hb => mt (hat (hb.trans hlt)).1 (hbelow b hb)⟩
  · rintro ⟨rfl, hi, hbelow⟩
    have hlt : i < l.length := by
      obtain ⟨x, hx, -⟩ := hi
      exact (List.getElem?_eq_some_iff.1 hx).1
    exact ⟨i, List.findIdx?_eq_some_iff_getElem.2
      ⟨hlt, (hat hlt).1 hi, fun b hb => mt (hat (hb.trans hlt)).2 (hbelow b hb)⟩, rfl⟩

/-- A test of item 0 alone. -/
theorem reports_zero {kind : Nat} {c : Bool} {P : Prop} (h : c = true ↔ P) :
    Reports (if c then some (kind, 0) else none) (kind, fun i => i = 0 ∧ P) := by
  intro k i
  rw [← h]
  cases c
  · simp
  · simp only [if_true, Option.some.injEq, Prod.mk.injEq, and_true]
    constructor
    · rintro ⟨rfl, rfl⟩
      exact ⟨rfl, rfl, by omega⟩
    · rintro ⟨rfl, rfl, -⟩
      exact ⟨rfl, rfl⟩

/-- A test of item 1 and then of item 2. -/
theorem reports_oneTwo {kind : Nat} {c d : Bool} {P Q : Prop} (hc : c = true ↔ P) (hd : d = true ↔ Q) :
    Reports (if !c then some (kind, 1) else if !d then some (kind, 2) else none)
      (kind, fun i => (i = 1 ∧ ¬ P) ∨ (i = 2 ∧ ¬ Q)) := by
  intro k i
  rw [← hc, ← hd]
  cases c
  · simp only [Bool.not_false, if_true, Option.some.injEq, Prod.mk.injEq, Bool.false_eq_true, not_false_eq_true, and_true]
    constructor
    · rintro ⟨rfl, rfl⟩
      exact ⟨rfl, .inl rfl, by omega⟩
    · rintro ⟨rfl, rfl | ⟨rfl, -⟩, hbelow⟩
      · exact ⟨rfl, rfl⟩
      · exact absurd (.inl rfl) (hbelow 1 (by omega))
  · cases d
    · simp only [Bool.not_true, Bool.not_false, if_true, Bool.false_eq_true, if_false, Option.some.injEq, Prod.mk.injEq,
        not_true_eq_false, and_false, false_or, not_false_eq_true, and_true]
      constructor
      · rintro ⟨rfl, rfl⟩
        exact ⟨rfl, rfl, by omega⟩
      · rintro ⟨rfl, rfl, -⟩
        exact ⟨rfl, rfl⟩
    · simp

/-! ## The commit checks as one list (R207) -/

/-- The answers of the nine checks, one for each item kind of each. -/
def commitReports (s : State) : List (Option (Nat × Nat)) :=
  [firstBad 3 (configuredAxes s) fun a => (s.axis a).exhibit.isNone,
    firstBad 1 (List.finRange 16) fun e => 4 < (axesOfExhibit s e).length,
    firstBad 3 (configuredAxes s) fun a =>
      (channelsOfAxis s .position a).length ≠ 1 || 1 < (channelsOfAxis s .current a).length,
    firstBad 4 (List.finRange 32) fun c =>
      ((s.channel c).role = .position || (s.channel c).role = .current) && (s.channel c).binding.isNone,
    commitCheck3 s, commitCheck4 s,
    firstBad 4 (List.finRange 32) fun c => (s.channel c).role = .presence && (s.channel c).binding.isNone,
    firstBad 4 (List.finRange 32) fun c =>
      (s.channel c).role = .presence && (List.finRange 32).any fun d =>
        d < c && (s.channel d).role = .presence && (s.channel d).binding = (s.channel c).binding,
    commitCheck6 s,
    if s.scanner.scanList.isEmpty && !(configuredAxes s).isEmpty then some (5, 0) else none,
    (s.scanner.scanList.findIdx? fun x => (s.channel x.channel).role = .none).map fun i => (5, i),
    firstBad 3 (configuredAxes s) fun a => !(channelsOfAxis s .position a).all fun c => inScanList s c,
    commitCheck8 s, commitCheck9 s]

theorem commitFault_eq (s : State) : commitFault s = firstReport (commitReports s) := by
  simp only [commitFault, commitCheck1, commitCheck2, commitCheck5, commitCheck7, commitReports, firstReport,
    List.foldr_cons, List.foldr_nil, Option.or_none, Option.or_assoc]

theorem ordered_iff (t : LevelTimes) : t.ordered = true ↔ t.level1 ≤ t.level2 ∧ t.level2 ≤ t.level3 := by
  simp [LevelTimes.ordered]

theorem mem_channelsOfAxis {s : State} {role : ChannelRole} {a : AxisId} {c : ChannelId} :
    c ∈ channelsOfAxis s role a ↔ (s.channel c).role = role ∧ (s.channel c).binding = some (.axis a) := by
  simp [channelsOfAxis]

end Sys2Proof.Machine
end

section
/-! PROOFS. CONFIG-COMMIT and RECONFIGURE (O59). -/

namespace Sys2Proof.Machine

/-! ## The state that a commit makes (R208) -/

/-- With every exhibit CLOSED in CLOSED, the enabled lines that are live are the HELP lines (R26). -/
theorem lineLive_allClosed {s : State} {l : LineId} (hm : s.mode = .closed) (he : ∀ e, (s.exhibit e).state = .closed)
    (hl : (s.line l).enabled = true) :
    lineLive s l = ((s.line l).exhibit.isSome && (s.line l).role = some .help) := by
  unfold lineLive
  rw [hm, hl]
  cases (s.line l).exhibit with
  | none => rfl
  | some e =>
    cases (s.line l).role with
    | none => rfl
    | some r =>
      cases r
      · dsimp only
        rw [he]
        rfl
      · rfl

section
variable {s t : State} (h : t.sansLines = s.sansLines)
include h

theorem mode_of_sansLines : t.mode = s.mode := (congrArg State.mode h :)

theorem timing_of_sansLines : t.timing = s.timing := (congrArg State.timing h :)

theorem scanner_of_sansLines : t.scanner = s.scanner := (congrArg State.scanner h :)

end

theorem reviewRegime_line (s : State) (l : LineId) : (reviewRegime s).line l = s.line l :=
  (congrArg (State.line · l) (reviewRegime_eq s) :)

/-- A commit with its derived fields set, before the lines and the scanner's regime are evaluated. -/
def warmedClosed (t : State) : State := setMode .closed (warmArbiter (warmChannels (warmLines (warmExhibits t))))

/-- A commit with its derived fields set, carried out. -/
def settledClosed (t : State) : State := reviewRegime (evaluateLines (warmedClosed t))

theorem commitHub_eq (s : State) : commitHub s = settledClosed (deriveFields s) := rfl

section
variable (t : State)

theorem warmedClosed_eq : warmedClosed t = { t with
    mode := .closed
    exhibits := mapTable Exhibit.warm t.exhibits
    channels := mapTable Channel.warm t.channels
    lines := mapTable Line.warm t.lines
    showQueue := offerEvent 64 { kind := .galleryMode, time := t.clock, value := some 1 } t.showQueue
    deskQueue := offerEvent 32 { kind := .galleryMode, time := t.clock, value := some 1 } t.deskQueue
    arbiter := {} } := by
  unfold warmedClosed
  rw [setMode_closed_eq]
  simp only [warmArbiter, warmChannels, warmLines, warmExhibits]

theorem warmedClosed_line (l : LineId) : (warmedClosed t).line l = (t.line l).warm := by
  simp only [warmedClosed_eq, State.line, get_mapTable]

theorem warmedClosed_exhibit (e : ExhibitId) : (warmedClosed t).exhibit e = (t.exhibit e).warm := by
  simp only [warmedClosed_eq, State.exhibit, get_mapTable]

/-- Every line is evaluated without a change of what is neither a line nor a queue. -/
theorem evaluateLines_sansLines : (evaluateLines t).sansLines = t.sansLines :=
  forEach_keeps State.sansLines evaluateLine_sansLines t

/-- Every line is INERT until the lines are evaluated, so that no press is given up, and the rest stands. -/
theorem settledClosed_eq : settledClosed t
    = { warmedClosed t with lines := (settledClosed t).lines, scanner := (settledClosed t).scanner } := by
  have hlines := evaluateLines_of_inert (s := warmedClosed t) fun l => by rw [warmedClosed_line]; rfl
  have hscanner := reviewRegime_eq (evaluateLines (warmedClosed t))
  unfold settledClosed
  generalize reviewRegime (evaluateLines (warmedClosed t)) = u at hscanner ⊢
  rw [hscanner, hlines]

theorem settledClosed_line (l : LineId) :
    (settledClosed t).line l = (t.line l).warm.evaluated ((t.line l).exhibit.isSome && (t.line l).role = some .help) := by
  have hlines : (settledClosed t).line l = (evaluateLines (warmedClosed t)).line l :=
    reviewRegime_line _ l
  have hlive := lineLive_allClosed (s := warmedClosed t) (l := l) (by rw [warmedClosed_eq])
    (fun e => by rw [warmedClosed_exhibit]; rfl) (by rw [warmedClosed_line]; rfl)
  rw [hlines, evaluateLines_line, hlive, warmedClosed_line]
  rfl

theorem evaluateLines_warmedClosed_scanner : (evaluateLines (warmedClosed t)).scanner = t.scanner :=
  (scanner_of_sansLines (evaluateLines_sansLines _)).trans (by rw [warmedClosed_eq])

/-- The scanner of SETUP powers up in CLOSED_SCAN (R70, R71). -/
theorem settledClosed_scanner (hr : t.scanner.regime = .off) (hs : t.scanner.state = .off) :
    (settledClosed t).scanner = (t.scanner.inClosedScan t.timing.closedPace).powerUp := by
  have hsans := evaluateLines_sansLines (warmedClosed t)
  have hmode : (evaluateLines (warmedClosed t)).mode = .closed :=
    (mode_of_sansLines hsans).trans (by rw [warmedClosed_eq])
  have htiming : (evaluateLines (warmedClosed t)).timing = t.timing :=
    (timing_of_sansLines hsans).trans (by rw [warmedClosed_eq])
  have hscanner := evaluateLines_warmedClosed_scanner t
  have hregime : regimeOf (evaluateLines (warmedClosed t)) = .closedScan := by
    classical
    rw [regimeOf_closed hmode, if_neg]
    rintro ⟨e, he⟩
    rw [exhibit_of_sansLines hsans, warmedClosed_exhibit] at he
    cases he
  have hreview : settledClosed t = (evaluateLines (warmedClosed t)).modScanner
      (Scanner.toClosedScan (evaluateLines (warmedClosed t)).timing.closedPace) :=
    reviewRegime_closedScan (by rw [hscanner, hr]; decide) hregime
  rw [hreview, modScanner_scanner, hscanner, htiming, toClosedScan_powersUp hs]

/-- A commit keeps the scan list and the day mode. -/
theorem settledClosed_standing : (settledClosed t).scanner.standing = t.scanner.standing := by
  have h := (Undisturbed.wide.reviewRegime (evaluateLines (warmedClosed t))).scanner
  rw [evaluateLines_warmedClosed_scanner] at h
  exact h

end

/-- The scan list and the day mode stand with the scanner. -/
theorem lists_of_standing {x y : Scanner} (h : x.standing = y.standing) :
    x.scanList = y.scanList ∧ x.dayMode = y.dayMode := ⟨congrArg Prod.snd h, congrArg Prod.fst h⟩

/-! ## The derived fields (R8, R78, R208) -/

/-- The lowest-numbered channel of a role that is bound to an axis or an exhibit. -/
def boundChannel (s : State) (role : ChannelRole) (b : Binding) : Option ChannelId :=
  (List.finRange 32).find? fun c => (s.channel c).role = role && (s.channel c).binding = some b

theorem deriveFields_eq (s : State) : deriveFields s
    = { s with exhibits := (deriveFields s).exhibits, axes := (deriveFields s).axes } := rfl

theorem deriveFields_exhibit (s : State) (e : ExhibitId) : (deriveFields s).exhibit e
    = { s.exhibit e with axes := axesOfExhibit s e, presence := boundChannel s .presence (.exhibit e) } := by
  have hhead : (channelsOfExhibit s e).head? = boundChannel s .presence (.exhibit e) := List.head?_filter
  rw [← hhead]
  simp only [State.exhibit, deriveFields, get_as_index, Vector.getElem_ofFn]

theorem deriveFields_axis (s : State) (a : AxisId) : (deriveFields s).axis a = { s.axis a with
    positionChannel := boundChannel s .position (.axis a), currentChannel := boundChannel s .current (.axis a) } := by
  have hhead (role : ChannelRole) : (channelsOfAxis s role a).head? = boundChannel s role (.axis a) :=
    List.head?_filter
  rw [← hhead, ← hhead]
  simp only [State.axis, deriveFields, get_as_index, Vector.getElem_ofFn]

/-- A commit makes of a line what a warm restart makes of it (R24, R27). -/
theorem commitHub_line (s : State) (l : LineId) : (commitHub s).line l = (restarted s).line l := by
  rw [commitHub_eq, settledClosed_line, restarted_line]
  rfl

/-- A commit is the state before it, with its records rewritten and the rest kept (R208). -/
theorem commitHub_fields (s : State) : commitHub s = { s with
    mode := .closed
    exhibits := mapTable Exhibit.warm (deriveFields s).exhibits
    axes := (deriveFields s).axes
    channels := mapTable Channel.warm s.channels
    lines := (commitHub s).lines
    showQueue := offerEvent 64 { kind := .galleryMode, time := s.clock, value := some 1 } s.showQueue
    deskQueue := offerEvent 32 { kind := .galleryMode, time := s.clock, value := some 1 } s.deskQueue
    arbiter := {}
    scanner := (commitHub s).scanner } := by
  have h := settledClosed_eq (deriveFields s)
  rw [← commitHub_eq, warmedClosed_eq] at h
  exact h

theorem commitHub_exhibit (s : State) (e : ExhibitId) : (commitHub s).exhibit e
    = ({ s.exhibit e with axes := axesOfExhibit s e, presence := boundChannel s .presence (.exhibit e) } : Exhibit).warm := by
  rw [commitHub_fields]
  simp only [State.exhibit, get_mapTable]
  exact congrArg Exhibit.warm (deriveFields_exhibit s e)

theorem commitHub_axis (s : State) (a : AxisId) : (commitHub s).axis a = { s.axis a with
    positionChannel := boundChannel s .position (.axis a), currentChannel := boundChannel s .current (.axis a) } := by
  rw [commitHub_fields]
  exact deriveFields_axis s a

theorem commitHub_channel (s : State) (c : ChannelId) : (commitHub s).channel c = (s.channel c).warm := by
  rw [commitHub_fields]
  simp only [State.channel, get_mapTable]

/-- The scanner of SETUP powers up in CLOSED_SCAN (R70, R71). -/
theorem commitHub_scanner (s : State) (hr : s.scanner.regime = .off) (hs : s.scanner.state = .off) :
    (commitHub s).scanner = (s.scanner.inClosedScan s.timing.closedPace).powerUp :=
  settledClosed_scanner (deriveFields s) hr hs

theorem commitHub_standing (s : State) : (commitHub s).scanner.standing = s.scanner.standing :=
  settledClosed_standing (deriveFields s)

/-! ## The state that RECONFIGURE makes (R209) -/

/-- An emptied queue that GALLERY_MODE (SETUP) has entered (R2, R53). -/
def setupNotice (s : State) (n : BitVec 32) : EventQueue where
  events := [{ kind := .galleryMode, seq := n, time := s.clock, value := some 0 }]
  nextSeq := nextSequence n
  gap := false

theorem setMode_setup_eq (s : State) : setMode .setup s = { s with
    mode := .setup
    showQueue := offerEvent 64 { kind := .galleryMode, time := s.clock, value := some 0 } s.showQueue
    deskQueue := offerEvent 32 { kind := .galleryMode, time := s.clock, value := some 0 } s.deskQueue } := rfl

theorem offerEvent_setup (s : State) (q : EventQueue) {n : Nat} (h : 0 < n) :
    offerEvent n { kind := .galleryMode, time := s.clock, value := some 0 } q.emptied = setupNotice s q.nextSeq :=
  if_pos h

theorem reconfigureHub_eq (s : State) : reconfigureHub s = { s with
    mode := .setup, settledNoted := false
    exhibits := mapTable Exhibit.warm s.exhibits
    lines := mapTable Line.warm s.lines
    showQueue := setupNotice s s.showQueue.nextSeq, deskQueue := setupNotice s s.deskQueue.nextSeq
    serviceQueue := s.serviceQueue.emptied
    channels := mapTable Channel.warm s.channels
    scanner := s.scanner.toOff
    axes := mapTable Axis.warm s.axes
    arbiter := {}
    frames := Vector.replicate 48 {}, freeList := List.finRange 48, takenSet := [], retiredList := []
    tenures := Vector.replicate 16 none, serviceIdle := none
    alerts := { records := [], nextNumber := s.alerts.nextNumber }
    annunciators := { s.annunciators with
      tone := .silent, silence := none, silenceBegan := none, lampTest := none }
    showSpi := { s.showSpi with edges := {} }
    deskSpi := { s.deskSpi with edges := {} }
    notes := Vector.replicate 8 none } := by
  unfold reconfigureHub
  rw [warmBlocks_eq, setMode_setup_eq]
  simp only [State.modScanner]
  rw [offerEvent_setup s _ (by decide), offerEvent_setup s _ (by decide)]

/-! ## O59 -/

section
variable {s : State}

theorem configCommitBody_refused {port : Port} {p : List Byte} {k i : Nat} (h : commitFault s = some (k, i)) :
    configCommitBody port p s = refuseWith .badValue (num1 k ++ num1 i) s := by
  unfold configCommitBody
  rw [h]

theorem configCommitBody_commits {port : Port} {p : List Byte} (h : commitFault s = none) :
    configCommitBody port p s = accept [] (commitHub s) := by
  unfold configCommitBody
  rw [h]

theorem serving_iff : ((List.finRange 16).any fun e => inService s e) = true ↔ ∃ e, (s.exhibit e).state = .service := by
  simp [inService]

end

/-- Settles O59: the commit's fault is the first report of one list of checks, and the states that a commit and a
RECONFIGURE make are read off their equations. -/
theorem commitAndReconfigure : Obligations.CommitAndReconfigure := by
  have entry {α : Type} {n : Nat} (x : α) (i : Fin n) : (Vector.replicate n x).get i = x := by simp [get_as_index]
  refine ⟨fun s => ?_, fun port s had => ?_, fun s had => ?_⟩
  · intro conf bound count ordered axis channel checks passes
    have h : List.Forall₂ Reports (commitReports s) checks := by
      have haxis {bad : AxisId → Bool} {P : AxisId → Prop} (h : ∀ a, bad a = true ↔ P a) :
          Reports (firstBad 3 (configuredAxes s) bad) (axis P) := reports_firstBadAxis h
      have hchannel {bad : ChannelId → Bool} {P : ChannelId → Prop} (h : ∀ c, bad c = true ↔ P c) :
          Reports (firstBad 4 (List.finRange 32) bad) (channel P) := reports_firstBad h
      refine .cons ?_ <| .cons ?_ <| .cons ?_ <| .cons ?_ <| .cons ?_ <| .cons ?_ <| .cons ?_ <| .cons ?_ <|
        .cons ?_ <| .cons ?_ <| .cons ?_ <| .cons ?_ <| .cons ?_ <| .cons ?_ .nil
      · exact haxis fun a => Option.isNone_iff_eq_none
      · exact reports_firstBad fun e => decide_eq_true_iff
      · exact haxis fun a => (Bool.or_eq_true _ _).to_iff.trans (or_congr decide_eq_true_iff decide_eq_true_iff)
      · exact hchannel fun c => by simp
      · exact haxis fun a => by simp [bound, mem_channelsOfAxis, encloses, imp_iff_not_or]
      · exact haxis fun a => decide_eq_true_iff
      · exact hchannel fun c => by simp
      · exact hchannel fun c => by simp [and_assoc]
      · exact hchannel fun c => by simp
      · exact reports_zero (by simp [configuredAxes, conf])
      · exact reports_findIdx fun x => decide_eq_true_iff
      · exact haxis fun a => by simp [bound, mem_channelsOfAxis, inScanList]
      · exact reports_oneTwo (ordered_iff _) (ordered_iff _)
      · exact reports_firstBad fun l => by simp [Option.isSome_iff_ne_none]
    rw [commitFault_eq]
    exact ⟨firstReport_eq_none_iff h, firstReport_eq_some_iff h⟩
  · intro boundTo event
    have answers {st : Status} {reply : List Byte} {t : State} (h : configCommitBody port [] s = (t, ⟨st, reply⟩)) :
        Answers .configCommit port [] s st reply t := answers_body had (by simp) rfl h
    refine ⟨fun k i hf => answers (configCommitBody_refused hf), fun hf => ?_⟩
    intro t
    subst t
    obtain ⟨hlist, hmode⟩ := lists_of_standing (commitHub_standing s)
    refine ⟨answers (configCommitBody_commits hf), ?_, ?_, ?_, commitHub_exhibit s, commitHub_axis s,
      commitHub_channel s, fun l => (commitHub_line s l).trans (restarted_line_eq s l), ?_, ?_, ?_, commitHub_scanner s,
      hlist, hmode, ?_⟩
    all_goals rw [commitHub_fields]
    all_goals rfl
  · intro serving event
    have answers {st : Status} {reply : List Byte} {t : State} (h : reconfigureBody .deskPort [] s = (t, ⟨st, reply⟩)) :
        Answers .reconfigure .deskPort [] s st reply t := answers_body had (by simp) rfl h
    refine ⟨fun h => answers (if_pos (serving_iff.2 h)), fun h => ⟨reconfigureHub s,
      answers (if_neg (mt serving_iff.1 h)), ?_⟩⟩
    rw [reconfigureHub_eq]
    exact ⟨rfl, fun e => get_mapTable _ _ _, fun l => get_mapTable _ _ _, fun c => get_mapTable _ _ _,
      fun a => get_mapTable _ _ _, fun f => entry _ f, fun e => entry _ e, fun i => entry _ i⟩

end Sys2Proof.Machine
end
